-- ==== Sys2Proof/Word.lean ====
section
/-! DEFINITION. The two bit-vector types of the hardware: the byte of the two memories (R61) and the bit accumulator
`tag` (R24, TAG_W = 32 by D2). Every other quantity of the spec is an unbounded integer in a stated range (R7, D16, D17). -/

namespace Sys2Proof

/-- A byte of SRC or OUT, 8 bits, 0..255 (R61). -/
abbrev Byte := BitVec 8

/-- The bit accumulator `tag`: TAG_W = 32 bits (R24, R6, D2). -/
abbrev Tag := BitVec 32

end Sys2Proof
end

