-- ==== Sys2Proof/Config.lean ====
section
/-! DEFINITION. What an implementation fixes: the parameters of R6 with the values this hardware takes, and the two
open base addresses of R71 (D30), which no rule reads. `source_len` and `dest_cap` are arguments of a run and stand in
State; the cursors are unbounded naturals (SRC_AW and DST_AW open, D17). -/

namespace Sys2Proof

/-- TAG_W, the width of `tag` (R6, D2). No result depends on it as long as it is at least 23 (R136, R343). -/
def Config.tagW : Nat := 32

/-- GETBITS_MAX, the largest `n` GETBITS accepts (R6, R134, D3). -/
def Config.getbitsMax : Nat := 16

/-- MAXBITS, the longest Huffman code (R6). -/
def Config.maxBits : Nat := 15

/-- MAXSYMS, the entries of `trans` and the largest `num` of BUILD_TREE (R6, R156). -/
def Config.maxSyms : Nat := 288

/-- LENGTHS_SIZE, the entries of the scratch array `lengths` (R6, R33). -/
def Config.lengthsSize : Nat := 320

/-- SRC_BASE, the physical address of source[0]: OPEN, no rule reads it (R71, D30). -/
opaque Config.srcBase : Nat

/-- OUT_BASE, the physical address of OUT[0]: OPEN, no rule reads it (R71, D30). -/
opaque Config.outBase : Nat

end Sys2Proof
end

