-- ==== Sys2Proof/Syntax.lean ====
section
/-! DEFINITION. The syntax: one constructor of `Instr` for each of the 85 rows of spec/opcode_table.json (R107), the five
formats of the table, and the elements of the notation in which streams are written down (R104). -/

namespace Sys2Proof

/-- The two Huffman trees (R31, NUM_TREES = 2). -/
inductive TreeId where
  | ltree
  | dtree
  deriving DecidableEq, Repr

/-- The five formats of the opcode table (R107): which selector a row's match and mask are taken over. -/
inductive Format where
  /-- the 3-bit block header `H` (R92) -/
  | bh
  /-- the 9-bit literal/length symbol decoded with `ltree` (R98) -/
  | ll
  /-- the 5-bit distance symbol decoded with `dtree` (R99) -/
  | ds
  /-- the 5-bit code-length symbol decoded with the code-length tree (R97) -/
  | cl
  /-- the 4-bit index of an internal operation (R105) -/
  | op
  deriving DecidableEq, Repr

/-- The instructions: stream elements (formats BH, LL, DS, CL) and internal operations (format OP). The extra bits of
a length, distance or repeat symbol are no operand here: the symbol's meaning reads them from the stream, in the order
of the rules (log entry 21). -/
inductive Instr where
  /-- BH: a block header with BTYPE = 0 (R272); the operand is BFINAL -/
  | stored (bfinal : Bool)
  /-- BH: BTYPE = 1 (R273) -/
  | fixed (bfinal : Bool)
  /-- BH: BTYPE = 2 (R274) -/
  | dynamic (bfinal : Bool)
  /-- BH: BTYPE = 3, illegal (R275) -/
  | reserved (bfinal : Bool)
  /-- LL: symbols 0..255, the literal byte `s[7:0]` (R221) -/
  | lit (imm : Byte)
  /-- LL: symbol 256, end of block (R222) -/
  | eob
  | len257
  | len258
  | len259
  | len260
  | len261
  | len262
  | len263
  | len264
  | len265
  | len266
  | len267
  | len268
  | len269
  | len270
  | len271
  | len272
  | len273
  | len274
  | len275
  | len276
  | len277
  | len278
  | len279
  | len280
  | len281
  | len282
  | len283
  | len284
  | len285
  /-- LL: symbol 286, reserved (R226) -/
  | rsvd286
  /-- LL: symbol 287, reserved (R226) -/
  | rsvd287
  | dist0
  | dist1
  | dist2
  | dist3
  | dist4
  | dist5
  | dist6
  | dist7
  | dist8
  | dist9
  | dist10
  | dist11
  | dist12
  | dist13
  | dist14
  | dist15
  | dist16
  | dist17
  | dist18
  | dist19
  | dist20
  | dist21
  | dist22
  | dist23
  | dist24
  | dist25
  | dist26
  | dist27
  | dist28
  | dist29
  /-- DS: symbol 30, reserved (R227) -/
  | rsvd30
  /-- DS: symbol 31, reserved (R227) -/
  | rsvd31
  /-- CL: symbols 0..15, the code length `sym[3:0]` (R195) -/
  | cl (imm : BitVec 4)
  /-- CL: symbol 16, repeat the previous length (R196) -/
  | cl16
  /-- CL: symbol 17, repeat zero 3..10 times (R197) -/
  | cl17
  /-- CL: symbol 18, repeat zero 11..138 times (R198) -/
  | cl18
  /-- CL: 19, the sentinel of a single-code tree whose one symbol is 18 (R199) -/
  | sentinel19
  /-- OP 0 (R130) -/
  | refill (n : Nat)
  /-- OP 1 (R131) -/
  | consume (n : Nat)
  /-- OP 2 (R132) -/
  | getbits (n : Nat)
  /-- OP 3 (R133) -/
  | getbitsBase (n base : Nat)
  /-- OP 4 (R150) -/
  | buildTree (t : TreeId) (off num : Nat)
  /-- OP 5 (R170) -/
  | decodeSymbol (t : TreeId)
  /-- OP 6 (R180) -/
  | buildFixedTrees
  /-- OP 7 (R190) -/
  | decodeTrees
  /-- OP 8 (R220) -/
  | inflateBlockData
  /-- OP 9 (R260) -/
  | inflateUncompressed
  /-- OP 10 (R270), with the operands the host supplies at START -/
  | uncompress (source : List Byte) (sourceLen destCap : Nat)
  deriving DecidableEq, Repr

/-- The elements of the stream notation (R104), each with the operands the notation writes. -/
inductive Element where
  | block (final : Bool) (btype : Nat)
  | pad
  | u16 (v : Nat)
  | bytes (bs : List Byte)
  | hdr (hlit hdist hclen : Nat)
  | clen (v : Nat)
  | cl (sym : Nat)
  | cl16 (count : Nat)
  | cl17 (count : Nat)
  | cl18 (count : Nat)
  | lit (b : Byte)
  | eob
  | lsym (s extra : Nat)
  | dsym (d extra : Nat)
  | bits (n v : Nat)
  | code (bs : List Bool)
  deriving DecidableEq, Repr

end Sys2Proof
end

