-- ==== Sys2Proof/WellFormed.lean ====
section
/-! DEFINITION. What the spec demands of an instruction's operands taken alone (R134, R156, R333): the fields of a stream
element cannot be ill-formed (their types hold exactly the values of R107), the operands of the internal operations can. -/

namespace Sys2Proof

/-- The operand contract of an instruction. REFILL and CONSUME also have a contract that depends on `bitcount` (R134),
which their meanings check; the bound here is what no `bitcount` can meet. -/
def WellFormed : Instr → Bool
  | .refill n => n ≤ Config.tagW
  | .consume n => n ≤ Config.tagW
  | .getbits n => n ≤ Config.getbitsMax
  | .getbitsBase n _ => n ≤ Config.getbitsMax
  | .buildTree _ off num => num ≤ Config.maxSyms && off + num ≤ Config.lengthsSize
  | .uncompress source sourceLen _ => source.length == sourceLen
  | _ => true

end Sys2Proof
end

