-- ==== Sys2Proof/Decode.lean ====
section
/-! DEFINITION. Decoding: from a format and a selector (R107) to an instruction, total, rejecting by name; then the
encoder from the same table; then the canonical Huffman code that a symbol has in the stream (R93, R96, R100), and the
packing of fields and bytes (R9, R91). Which format applies is a mode of the sequencer (R103), see Machine/Fetch.lean. -/

namespace Sys2Proof

/-- Why a code has no instruction. -/
inductive Reject where
  /-- a block-header selector above 7 (H has 3 bits, R92) -/
  | headerSelector
  /-- a literal/length symbol above 287 (R107: never comes out of DECODE_SYMBOL) -/
  | litLenSymbol
  /-- a distance symbol above 31 (R107) -/
  | distSymbol
  /-- a code-length symbol above 19 (R107) -/
  | clSymbol
  /-- an operation index above 10 (R105) -/
  | opIndex
  /-- operands that the format does not have, or a tree operand that is neither tree -/
  | operands
  deriving DecidableEq, Repr

/-- The code of an instruction: the format, the selector of R107 and, for an internal operation, its operands in the
order of R105 (`bytes` is the source buffer of UNCOMPRESS). The operations have no encoding in the stream, so the form
of their operands is the model's own (log entry 17); an operand that is not listed is 0. -/
structure Code where
  format : Format
  selector : Nat
  operands : List Nat
  bytes : List Byte
  deriving DecidableEq, Repr

/-- Format BH: bit 0 is BFINAL, bits 2..1 are BTYPE (R92). -/
def decodeBH (h : Nat) : Except Reject Instr :=
  if 8 ≤ h then .error .headerSelector
  else
    match h / 2 with
    | 0 => .ok (.stored (h % 2 == 1))
    | 1 => .ok (.fixed (h % 2 == 1))
    | 2 => .ok (.dynamic (h % 2 == 1))
    | _ => .ok (.reserved (h % 2 == 1))

/-- The LL rows from symbol 256 on, in symbol order (R98, R107). -/
def llRows : List Instr :=
  [.eob, .len257, .len258, .len259, .len260, .len261, .len262, .len263, .len264, .len265, .len266, .len267, .len268,
    .len269, .len270, .len271, .len272, .len273, .len274, .len275, .len276, .len277, .len278, .len279, .len280,
    .len281, .len282, .len283, .len284, .len285, .rsvd286, .rsvd287]

/-- Format LL: the literal/length symbol (R98). -/
def decodeLL (s : Nat) : Except Reject Instr :=
  if s < 256 then .ok (.lit (BitVec.ofNat 8 s))
  else
    match llRows[s - 256]? with
    | some i => .ok i
    | none => .error .litLenSymbol

/-- The DS rows in symbol order (R99, R107). -/
def dsRows : List Instr :=
  [.dist0, .dist1, .dist2, .dist3, .dist4, .dist5, .dist6, .dist7, .dist8, .dist9, .dist10, .dist11, .dist12,
    .dist13, .dist14, .dist15, .dist16, .dist17, .dist18, .dist19, .dist20, .dist21, .dist22, .dist23, .dist24,
    .dist25, .dist26, .dist27, .dist28, .dist29, .rsvd30, .rsvd31]

/-- Format DS: the distance symbol (R99). -/
def decodeDS (d : Nat) : Except Reject Instr :=
  match dsRows[d]? with
  | some i => .ok i
  | none => .error .distSymbol

/-- Format CL: the code-length symbol (R97). -/
def decodeCL (c : Nat) : Except Reject Instr :=
  if c < 16 then .ok (.cl (BitVec.ofNat 4 c))
  else
    match c with
    | 16 => .ok .cl16
    | 17 => .ok .cl17
    | 18 => .ok .cl18
    | 19 => .ok .sentinel19
    | _ => .error .clSymbol

/-- The tree operand of BUILD_TREE and DECODE_SYMBOL: 0 is `ltree`, 1 is `dtree` (log entry 17). -/
def decodeTreeId (n : Nat) : Except Reject TreeId :=
  match n with
  | 0 => .ok .ltree
  | 1 => .ok .dtree
  | _ => .error .operands

/-- Format OP: the index of R105 and its operands. -/
def decodeOP (op : Nat) (args : List Nat) (bytes : List Byte) : Except Reject Instr :=
  match op with
  | 0 => .ok (.refill (args.getD 0 0))
  | 1 => .ok (.consume (args.getD 0 0))
  | 2 => .ok (.getbits (args.getD 0 0))
  | 3 => .ok (.getbitsBase (args.getD 0 0) (args.getD 1 0))
  | 4 => (decodeTreeId (args.getD 0 0)).map fun t => .buildTree t (args.getD 1 0) (args.getD 2 0)
  | 5 => (decodeTreeId (args.getD 0 0)).map .decodeSymbol
  | 6 => .ok .buildFixedTrees
  | 7 => .ok .decodeTrees
  | 8 => .ok .inflateBlockData
  | 9 => .ok .inflateUncompressed
  | 10 => .ok (.uncompress bytes (args.getD 0 0) (args.getD 1 0))
  | _ => .error .opIndex

/-- The decoder of a code: total, with a named rejection of every code that no row of the table selects. -/
def decode (c : Code) : Except Reject Instr :=
  match c.format with
  | .bh => if c.operands.isEmpty && c.bytes.isEmpty then decodeBH c.selector else .error .operands
  | .ll => if c.operands.isEmpty && c.bytes.isEmpty then decodeLL c.selector else .error .operands
  | .ds => if c.operands.isEmpty && c.bytes.isEmpty then decodeDS c.selector else .error .operands
  | .cl => if c.operands.isEmpty && c.bytes.isEmpty then decodeCL c.selector else .error .operands
  | .op => decodeOP c.selector c.operands c.bytes

/-- The block header selector `H = BFINAL + 2·BTYPE` (R92). -/
def headerSelector (bfinal : Bool) (btype : Nat) : Nat := bfinal.toNat + 2 * btype

/-- The number of a tree operand. -/
def treeNumber : TreeId → Nat
  | .ltree => 0
  | .dtree => 1

/-- The encoder: the format, selector and operands of an instruction (R92, R97, R98, R99, R105). -/
def encode : Instr → Code
  | .stored f => ⟨.bh, headerSelector f 0, [], []⟩
  | .fixed f => ⟨.bh, headerSelector f 1, [], []⟩
  | .dynamic f => ⟨.bh, headerSelector f 2, [], []⟩
  | .reserved f => ⟨.bh, headerSelector f 3, [], []⟩
  | .lit imm => ⟨.ll, imm.toNat, [], []⟩
  | .eob => ⟨.ll, 256, [], []⟩
  | .len257 => ⟨.ll, 257, [], []⟩
  | .len258 => ⟨.ll, 258, [], []⟩
  | .len259 => ⟨.ll, 259, [], []⟩
  | .len260 => ⟨.ll, 260, [], []⟩
  | .len261 => ⟨.ll, 261, [], []⟩
  | .len262 => ⟨.ll, 262, [], []⟩
  | .len263 => ⟨.ll, 263, [], []⟩
  | .len264 => ⟨.ll, 264, [], []⟩
  | .len265 => ⟨.ll, 265, [], []⟩
  | .len266 => ⟨.ll, 266, [], []⟩
  | .len267 => ⟨.ll, 267, [], []⟩
  | .len268 => ⟨.ll, 268, [], []⟩
  | .len269 => ⟨.ll, 269, [], []⟩
  | .len270 => ⟨.ll, 270, [], []⟩
  | .len271 => ⟨.ll, 271, [], []⟩
  | .len272 => ⟨.ll, 272, [], []⟩
  | .len273 => ⟨.ll, 273, [], []⟩
  | .len274 => ⟨.ll, 274, [], []⟩
  | .len275 => ⟨.ll, 275, [], []⟩
  | .len276 => ⟨.ll, 276, [], []⟩
  | .len277 => ⟨.ll, 277, [], []⟩
  | .len278 => ⟨.ll, 278, [], []⟩
  | .len279 => ⟨.ll, 279, [], []⟩
  | .len280 => ⟨.ll, 280, [], []⟩
  | .len281 => ⟨.ll, 281, [], []⟩
  | .len282 => ⟨.ll, 282, [], []⟩
  | .len283 => ⟨.ll, 283, [], []⟩
  | .len284 => ⟨.ll, 284, [], []⟩
  | .len285 => ⟨.ll, 285, [], []⟩
  | .rsvd286 => ⟨.ll, 286, [], []⟩
  | .rsvd287 => ⟨.ll, 287, [], []⟩
  | .dist0 => ⟨.ds, 0, [], []⟩
  | .dist1 => ⟨.ds, 1, [], []⟩
  | .dist2 => ⟨.ds, 2, [], []⟩
  | .dist3 => ⟨.ds, 3, [], []⟩
  | .dist4 => ⟨.ds, 4, [], []⟩
  | .dist5 => ⟨.ds, 5, [], []⟩
  | .dist6 => ⟨.ds, 6, [], []⟩
  | .dist7 => ⟨.ds, 7, [], []⟩
  | .dist8 => ⟨.ds, 8, [], []⟩
  | .dist9 => ⟨.ds, 9, [], []⟩
  | .dist10 => ⟨.ds, 10, [], []⟩
  | .dist11 => ⟨.ds, 11, [], []⟩
  | .dist12 => ⟨.ds, 12, [], []⟩
  | .dist13 => ⟨.ds, 13, [], []⟩
  | .dist14 => ⟨.ds, 14, [], []⟩
  | .dist15 => ⟨.ds, 15, [], []⟩
  | .dist16 => ⟨.ds, 16, [], []⟩
  | .dist17 => ⟨.ds, 17, [], []⟩
  | .dist18 => ⟨.ds, 18, [], []⟩
  | .dist19 => ⟨.ds, 19, [], []⟩
  | .dist20 => ⟨.ds, 20, [], []⟩
  | .dist21 => ⟨.ds, 21, [], []⟩
  | .dist22 => ⟨.ds, 22, [], []⟩
  | .dist23 => ⟨.ds, 23, [], []⟩
  | .dist24 => ⟨.ds, 24, [], []⟩
  | .dist25 => ⟨.ds, 25, [], []⟩
  | .dist26 => ⟨.ds, 26, [], []⟩
  | .dist27 => ⟨.ds, 27, [], []⟩
  | .dist28 => ⟨.ds, 28, [], []⟩
  | .dist29 => ⟨.ds, 29, [], []⟩
  | .rsvd30 => ⟨.ds, 30, [], []⟩
  | .rsvd31 => ⟨.ds, 31, [], []⟩
  | .cl imm => ⟨.cl, imm.toNat, [], []⟩
  | .cl16 => ⟨.cl, 16, [], []⟩
  | .cl17 => ⟨.cl, 17, [], []⟩
  | .cl18 => ⟨.cl, 18, [], []⟩
  | .sentinel19 => ⟨.cl, 19, [], []⟩
  | .refill n => ⟨.op, 0, [n], []⟩
  | .consume n => ⟨.op, 1, [n], []⟩
  | .getbits n => ⟨.op, 2, [n], []⟩
  | .getbitsBase n base => ⟨.op, 3, [n, base], []⟩
  | .buildTree t off num => ⟨.op, 4, [treeNumber t, off, num], []⟩
  | .decodeSymbol t => ⟨.op, 5, [treeNumber t], []⟩
  | .buildFixedTrees => ⟨.op, 6, [], []⟩
  | .decodeTrees => ⟨.op, 7, [], []⟩
  | .inflateBlockData => ⟨.op, 8, [], []⟩
  | .inflateUncompressed => ⟨.op, 9, [], []⟩
  | .uncompress source sourceLen destCap => ⟨.op, 10, [sourceLen, destCap], source⟩

/-! ## The canonical Huffman code (R93, R96) and the packing of bits (R9, R91) -/

/-- `table[ℓ]` of R96: the number of symbols with code length `ℓ`, with `table[0] = 0`. -/
def lengthCount (lens : List Nat) (l : Nat) : Nat := if l = 0 then 0 else lens.count l

/-- `first[ℓ]` of R96: the value of the first code of length `ℓ`. -/
def firstCode (lens : List Nat) : Nat → Nat
  | 0 => 0
  | l + 1 => 2 * (firstCode lens l + lengthCount lens l)

/-- The value of symbol `i`'s code: `first[ℓ] + r`, where `i` is the `r`-th symbol of its length (R96). -/
def codeValue (lens : List Nat) (i : Nat) : Nat :=
  firstCode lens (lens.getD i 0) + (lens.take i).count (lens.getD i 0)

/-- The `n` low bits of `v`, most significant first: how a Huffman code stands in the stream (R93). -/
def msbBits : Nat → Nat → List Bool
  | 0, _ => []
  | n + 1, v => v.testBit n :: msbBits n v

/-- The `n` low bits of `v`, least significant first: how a field stands in the stream (R91). -/
def lsbBits (n v : Nat) : List Bool := (List.range n).map v.testBit

/-- The value of a field whose bits stand least significant first (R91). -/
def fieldValue : List Bool → Nat
  | [] => 0
  | b :: bs => b.toNat + 2 * fieldValue bs

/-- The canonical code of symbol `i` of an alphabet with code lengths `lens`, in stream order (R93, R96); a symbol of
length 0 has none. -/
def codeBits (lens : List Nat) (i : Nat) : List Bool := msbBits (lens.getD i 0) (codeValue lens i)

/-- The code lengths that the fixed literal/length tree stands for (R182). -/
def fixedLitLengths : List Nat :=
  List.replicate 144 8 ++ List.replicate 112 9 ++ List.replicate 24 7 ++ List.replicate 8 8

/-- The code lengths that the fixed distance tree stands for (R182). -/
def fixedDistLengths : List Nat := List.replicate 32 5

/-- The code of R100: what a literal/length symbol looks like in a fixed block. -/
def fixedLitCode (s : Nat) : List Bool :=
  if s < 144 then msbBits 8 (48 + s)
  else if s < 256 then msbBits 9 (400 + (s - 144))
  else if s < 280 then msbBits 7 (s - 256)
  else msbBits 8 (192 + (s - 280))

/-- The code of R100 of a distance symbol in a fixed block. -/
def fixedDistCode (d : Nat) : List Bool := msbBits 5 d

/-- The first `n` bytes of a bit stream, least significant bit of a byte first (R9); missing bits are 0. -/
def packBytes : Nat → List Bool → List Byte
  | 0, _ => []
  | n + 1, bits => BitVec.ofNat 8 (fieldValue (bits.take 8)) :: packBytes n (bits.drop 8)

/-- The bits of a byte sequence in stream order (R9). -/
def unpackBytes (bs : List Byte) : List Bool := bs.flatMap fun b => lsbBits 8 b.toNat

/-! ## Words of the opcode table -/

/-- The format the host's `nbits` stands for. The selectors of the five formats share their numbers and a word does not
say its format: that is a mode of the machine (R103). So the width decides, as opcode_table.json counts it, and within
one byte the value decides (log entry 16). -/
def tableFormat (nbits w : Nat) : Format :=
  if nbits ≤ 8 then (if w < 8 then .bh else if w % 32 < 16 then .ds else .cl)
  else if nbits ≤ 16 then .ll
  else .ds

/-- The selector in a word of the table: the low 3, 9, 5, 5 or 4 bits (R107). -/
def tableSelector (f : Format) (w : Nat) : Nat :=
  match f with
  | .bh => w % 8
  | .ll => w % 512
  | .ds => w % 32
  | .cl => w % 32
  | .op => w % 16

/-- The code a word of the table stands for; an operation's operands are zero. -/
def tableCode (nbits w : Nat) : Code :=
  ⟨tableFormat nbits w, tableSelector (tableFormat nbits w) w, [], []⟩

/-- The instruction the decoder reads from a word of the opcode table. -/
def decodeTableWord (nbits w : Nat) : Option Instr :=
  match decode (tableCode nbits w) with
  | .ok i => some i
  | .error _ => none

end Sys2Proof
end

