-- ==== Sys2Proof/Machine/State.lean ====
section
/-! DEFINITION. The state of the core (R20 to R41) as plain data, the reasons a step can stop, the error causes (R291),
and the state after hardware reset (R39, R330). -/

namespace Sys2Proof.Machine

/-- Reasons for a stop at a byte of a memory to which nothing has given a value (log entries 6 and 8). Both are SAFE: the
hardware's rules never read such a byte (R68, R69, R333 a). The raises of R291 are no faults of the model (log entry
10). -/
inductive Fault where
  /-- MemRead(SRC, a) of a byte the host has not supplied (R333 a). Raised by REFILL and the stored copy. Safe. -/
  | srcNoValue
  /-- MemRead(OUT, a) of a byte that neither the run nor the host has written (R27, R69). Raised by the copy engine.
  Safe. -/
  | outNoValue
  deriving DecidableEq, Repr

/-- Reasons for a refusal: the cases of R304, and guards of the model that no run reaches. All are SAFE. -/
inductive Refusal where
  /-- an instruction whose meaning is not written; raised by exec's arms only. Safe. -/
  | notModelled (mnemonic : String)
  /-- R304 case 1: GETBITS or GETBITS_BASE with `n > 16` (R134). Safe. -/
  | getbitsTooWide
  /-- R304 case 2: a REFILL that would take `bitcount` above 32 (R134). Safe. -/
  | refillTooWide
  /-- R304 case 3: CONSUME with `n > bitcount` (R131). Safe. -/
  | consumeTooMany
  /-- R304 case 4: DECODE_SYMBOL finds no code within 15 bits (R173). Safe. -/
  | noCodeWithin15
  /-- R304 case 5: BUILD_TREE outside its input contract (R156). Safe. -/
  | buildTreeContract
  /-- R304 case 6: MemRead(SRC, a) with `a ≥ source_len` (R11). Raised by REFILL and the stored copy. Safe. -/
  | srcOutside
  /-- R304 case 6: MemRead or MemWrite(OUT, a) outside `0 ≤ a < dest_cap` (R11). Raised by the literal write, the copy
  engine and the stored copy. Safe. -/
  | outOutside
  /-- R304 case 7: INFLATE_BLOCK_DATA entered with trees that were never built. Safe. -/
  | treesNotBuilt
  /-- R304 case 8: START while `phase == RUN` (R346). Safe. -/
  | startDuringRun
  /-- R304 case 8: a host access to SRC or OUT during RUN, a read of either included (R346, D12). Safe. -/
  | hostAccessDuringRun
  /-- START with a buffer that does not hold `source_len` bytes (R333 a; row 11 of 93). Safe. -/
  | startBadBuffer
  /-- a decoded symbol that no row of the opcode table selects; never comes out of DECODE_SYMBOL (R107). Safe. -/
  | undecodable (r : Reject)
  /-- an index into `lengths` at or above 320; no run forms one (R204, R341). Safe. -/
  | scratchIndex
  /-- an index into `trans` at or above 288; no run forms one (R172, R341). Safe. -/
  | transIndex
  /-- the bound on a loop's iterations ran out; the loops end before (R229 c, R278). Safe. -/
  | loopBound
  deriving DecidableEq, Repr

/-- The 23 causes of R291. The hardware reports only their status code. -/
inductive Cause where
  | btypeReserved
  | lenNlenMismatch
  | storedSourceShort
  | hlitRange
  | hdistRange
  | treeOversubscribed
  | treeIncomplete
  | treeSingleNotLen1
  | cltreeEmpty
  | clsymRange
  | repeatNoPrevious
  | repeatOvershoot
  | noEobCode
  | overflowInBody
  | litlenSymRange
  | litlenSymReserved
  | noDistanceCodes
  | distSymRange
  | distanceTooFar
  | overflowAtEnd
  | literalNoRoom
  | matchNoRoom
  | storedNoRoom
  deriving DecidableEq, Repr

/-- The three status codes (R290): no other value exists. -/
inductive Status where
  | ok
  | dataError
  | bufError
  deriving DecidableEq, Repr

/-- The phase of the host interface (R35). -/
inductive Phase where
  | idle
  | run
  | done
  deriving DecidableEq, Repr

/-- The model's own: where the sequencer stands in the pseudocode (R344), which is also the mode that says what the next
stream bits mean (R103). -/
inductive Seq where
  /-- top of the block loop of UNCOMPRESS: a block header follows (R270, R271) -/
  | header
  /-- the while loop of DECODE_TREES: code-length items follow until `num = hlit + hdist` (R190) -/
  | codeLen
  /-- top of the loop of INFLATE_BLOCK_DATA: a literal/length symbol follows (R220) -/
  | litLen
  /-- between the two halves of a pair: a distance symbol follows (R223, R224) -/
  | dist
  /-- a block has ended: `bfinal` decides (R270) -/
  | blockEnd
  deriving DecidableEq, Repr

/-- A byte memory: the bytes that have a value, by index, in rising order; an index that is not listed has no value. -/
abbrev Memory := List Host.Cell

/-- A Huffman tree (R31), and the model's own mark that it has been built (R304 case 7, log entry 13). -/
structure Tree where
  table : Vector Nat 16
  trans : Vector Nat 288
  maxSym : Int
  built : Bool
  deriving DecidableEq, Repr

/-- The model's own: what the host may ask for (R331, R330, R346, R304 case 8). -/
inductive HostAction where
  | start (source : List Byte) (sourceLen destCap : Nat)
  | reset
  | writeSrc (a : Nat) (v : Byte)
  | readSrc (a : Nat)
  | writeOut (a : Nat) (v : Byte)
  | readOut (a : Nat)
  deriving DecidableEq, Repr

/-- The state: host interface (R35), parameters of the run (R41), input side (R22 to R26), output side (R27 to R30), trees
(R31), scratch (R33), sequencer (R34); then the model's own fields (log entries 1 to 4). `source_end` and `dest_end` are
the views `sourceLen` and `destCap` (R23, R29). -/
structure State where
  phase : Phase
  status : Status
  destLenOut : Nat
  source : Memory
  sourceLen : Nat
  destCap : Nat
  src : Nat
  tag : Tag
  bitcount : Nat
  overflow : Bool
  out : Memory
  dest : Nat
  destLen : Nat
  ltree : Tree
  dtree : Tree
  lengths : Vector Nat 320
  bfinal : Bool
  seq : Seq
  hlit : Nat
  hdist : Nat
  num : Nat
  matchLen : Nat
  ret : Nat
  issue : Option Instr
  request : Option HostAction
  deriving DecidableEq, Repr

/-- The tree a register file holds at reset: the empty tree of R153 (R39 gives no value: DESIGN CHOICE, log entry 5). -/
def Tree.empty : Tree :=
  { table := Vector.replicate 16 0, trans := Vector.replicate 288 0, maxSym := -1, built := false }

/-- After hardware reset `phase = IDLE` (R330); every other value is the model's choice (DESIGN CHOICE, log entry 5). -/
def State.reset : State :=
  { phase := .idle, status := .ok, destLenOut := 0
    source := [], sourceLen := 0, destCap := 0
    src := 0, tag := 0, bitcount := 0, overflow := false
    out := [], dest := 0, destLen := 0
    ltree := Tree.empty, dtree := Tree.empty, lengths := Vector.replicate 320 0, bfinal := false
    seq := .header, hlit := 0, hdist := 0, num := 0, matchLen := 0, ret := 0
    issue := none, request := none }

end Sys2Proof.Machine
end

