-- ==== Sys2Proof/Machine/Ops.lean ====
section
/-! DEFINITION. The shared operations: the result of an operation and how operations follow one another (R14), taking an
exception (R294), the two byte memories (R11, R60 to R69), the indexed storage (R31, R33), the bit reader (R130 to R134),
the host's actions (R330, R331, R346) and the end of a run (R276, R277). -/

namespace Sys2Proof.Machine

/-- The result of an operation: it returns, it raises (R12), or the model stops. -/
inductive Res (α : Type) where
  | ok (a : α) (s : State)
  | raised (c : Cause) (s : State)
  | fault (f : Fault)
  | refused (r : Refusal)

/-- One operation after another: the caller waits, the callee runs to its end on the shared state (R14); a raise ends
everything from any depth (R12). -/
def Res.bind {α β : Type} (x : Res α) (f : α → State → Res β) : Res β :=
  match x with
  | .ok a s => f a s
  | .raised c s => .raised c s
  | .fault e => .fault e
  | .refused r => .refused r

/-! ## Taking an exception (R294) -/

/-- The status code of a cause (R291): causes 21 to 23 are BufError, the others DataError. -/
def Cause.status : Cause → Status
  | .literalNoRoom => .bufError
  | .matchNoRoom => .bufError
  | .storedNoRoom => .bufError
  | _ => .dataError

/-- The status codes as integers (R290). -/
def Status.code : Status → Int
  | .ok => 0
  | .dataError => -3
  | .bufError => -5

/-- The status codes as 32-bit patterns (R35, D9). -/
def Status.bits (st : Status) : BitVec 32 := BitVec.ofInt 32 st.code

/-- What a raise does (R294): the status, `dest_len_out` 0, phase DONE. The contents of `OUT[0 .. dest_cap)` are then any
value (R296): the model gives them none. It also drops the value of a byte at an index `≥ dest_cap` that the host wrote
outside a run (log entry 22), of which D11 and R296 do not speak (DESIGN CHOICE, log entry 7). The rest of the state keeps
what it held. There is no return from an exception
(R295). -/
def takeException (c : Cause) (s : State) : State :=
  { s with status := c.status, destLenOut := 0, phase := .done, out := [] }

/-- The outcome of an operation that has ended: a raise is taken, and the core goes on to a next state. -/
def Res.finish : Res Unit → Host.Outcome State Fault Refusal
  | .ok _ s => .next s
  | .raised c s => .next (takeException c s)
  | .fault e => .fault e
  | .refused r => .refused r

/-- The same for an operation that returns a value: the value is kept in `ret` (log entry 2). -/
def Res.finishValue (x : Res Nat) : Host.Outcome State Fault Refusal :=
  (x.bind fun v s => .ok () { s with ret := v }).finish

/-! ## Byte memories -/

/-- The byte at an index, if it has a value. -/
def memRead : Memory → Nat → Option Byte
  | [], _ => none
  | (k, v) :: m, a => if k = a then some v else memRead m a

/-- The memory with a byte stored: the listing stays in rising order. -/
def memWrite : Memory → Nat → Byte → Memory
  | [], a, v => [(a, v)]
  | (k, w) :: m, a, v =>
    if a < k then (a, v) :: (k, w) :: m
    else if a = k then (a, v) :: m
    else (k, w) :: memWrite m a v

/-- The canonical form: indices strictly rising. An index that is not listed has no value, so no entry can equal what an
unlisted index reads as. -/
def Memory.wf : Memory → Bool
  | [] => true
  | [_] => true
  | (k, _) :: (l, w) :: m => k < l && Memory.wf ((l, w) :: m)

/-- The memory that holds a byte sequence from index `a` on. -/
def memOfBytes (a : Nat) : List Byte → Memory
  | [] => []
  | b :: bs => (a, b) :: memOfBytes (a + 1) bs

/-- MemRead(SRC, a, 1) (R11): defined only below `source_len`, and refused elsewhere (R304 case 6). -/
def srcRead (a : Nat) (s : State) : Res Byte :=
  if a < s.sourceLen then
    match memRead s.source a with
    | some v => .ok v s
    | none => .fault .srcNoValue
  else .refused .srcOutside

/-- MemRead(OUT, a, 1) (R11): defined only below `dest_cap`, and refused elsewhere (R304 case 6). -/
def outRead (a : Nat) (s : State) : Res Byte :=
  if a < s.destCap then
    match memRead s.out a with
    | some v => .ok v s
    | none => .fault .outNoValue
  else .refused .outOutside

/-- MemWrite(OUT, a, 1, v) (R11): defined only below `dest_cap`, and refused elsewhere (R304 case 6). -/
def outWrite (a : Nat) (v : Byte) (s : State) : Res Unit :=
  if a < s.destCap then .ok () { s with out := memWrite s.out a v } else .refused .outOutside

/-- `MemWrite(OUT, dest, 1, v); dest <- dest + 1; dest_len <- dest_len + 1`, the one way the core produces a byte of
output (R221, R225, R260). -/
def emitByte (v : Byte) (s : State) : Res Unit :=
  (outWrite s.dest v s).bind fun _ s => .ok () { s with dest := s.dest + 1, destLen := s.destLen + 1 }

/-! ## Tree storage and scratch -/

/-- An entry of an indexed storage; the indices used are below its size. -/
def entry {n : Nat} (v : Vector Nat n) (i : Nat) : Nat := v[i]?.getD 0

/-- A tree register (R31). -/
def getTree (t : TreeId) (s : State) : Tree :=
  match t with
  | .ltree => s.ltree
  | .dtree => s.dtree

/-- Writing a tree register. -/
def setTree (t : TreeId) (v : Tree) (s : State) : State :=
  match t with
  | .ltree => { s with ltree := v }
  | .dtree => { s with dtree := v }

/-! ## The bit reader (40) -/

/-- One turn of REFILL's loop (R130): a byte of SRC goes into `tag` at offset `bitcount` and the cursor advances, or, with
the source exhausted, `overflow` is set and eight zeros become valid. -/
def loadByte (s : State) : Res Unit :=
  if s.src ≠ s.sourceLen then
    (srcRead s.src s).bind fun b s =>
      .ok () { s with tag := s.tag ||| (b.setWidth 32 <<< s.bitcount), src := s.src + 1, bitcount := s.bitcount + 8 }
  else .ok () { s with overflow := true, bitcount := s.bitcount + 8 }

/-- REFILL's loop with a bound on its turns: after four of them `bitcount ≥ 32`, and a further turn is refused by R134. -/
def refillLoop : Nat → Nat → State → Res Unit
  | 0, n, s => if s.bitcount < n then .refused .refillTooWide else .ok () s
  | k + 1, n, s =>
    if s.bitcount < n then
      if 32 < s.bitcount + 8 then .refused .refillTooWide
      else (loadByte s).bind fun _ s => refillLoop k n s
    else .ok () s

/-- REFILL(n) (R130, R134). -/
def refill (n : Nat) (s : State) : Res Unit := refillLoop 4 n s

/-- CONSUME(n) (R131): the low `n` bits of `tag`. -/
def consume (n : Nat) (s : State) : Res Nat :=
  if s.bitcount < n then .refused .consumeTooMany
  else .ok (s.tag.toNat % 2 ^ n) { s with tag := s.tag >>> n, bitcount := s.bitcount - n }

/-- GETBITS(n) (R132, R134). -/
def getBits (n : Nat) (s : State) : Res Nat :=
  if Config.getbitsMax < n then .refused .getbitsTooWide
  else (refill n s).bind fun _ s => consume n s

/-- GETBITS_BASE(n, base) (R133). -/
def getBitsBase (n base : Nat) (s : State) : Res Nat :=
  if n = 0 then .ok base s else (getBits n s).bind fun v s => .ok (base + v) s

/-! ## The host and the end of a run (70, 47) -/

/-- START (R331), with the preconditions of R333 and R346. Trees, `lengths`, `bfinal`, `status`, `dest_len_out` and OUT are
not initialised (R332); the trees count as not built (log entry 13). -/
def startRun (source : List Byte) (sourceLen destCap : Nat) (s : State) : Res Unit :=
  if s.phase = .run then .refused .startDuringRun
  else if source.length ≠ sourceLen then .refused .startBadBuffer
  else
    .ok ()
      { s with
        source := memOfBytes 0 source, sourceLen := sourceLen, destCap := destCap
        src := 0, tag := 0, bitcount := 0, overflow := false, dest := 0, destLen := 0
        phase := .run, seq := .header
        ltree := { s.ltree with built := false }, dtree := { s.dtree with built := false } }

/-- The end of a run that has decoded its final block (R270, R276, R277). -/
def endRun (s : State) : Res Unit :=
  if s.overflow then .raised .overflowAtEnd s
  else .ok () { s with status := .ok, destLenOut := s.destLen, phase := .done }

/-- A host access to SRC or OUT that leads from `s` to `t`: refused during RUN (R346, R304 case 8). -/
def hostAccess (s t : State) : Res Unit :=
  if s.phase = .run then .refused .hostAccessDuringRun else .ok () t

/-- The host's actions: START, hardware reset (R330), and accesses to the two buffers (R346). A read changes nothing.
Outside RUN an access is accepted at every index: the buffers are the host's (R60), R304 refuses none, and the spec leaves
open how far they extend before the next START tells (R27, R39). DESIGN CHOICE, log entry 22. -/
def hostStep (a : HostAction) (s : State) : Res Unit :=
  match a with
  | .start source sourceLen destCap => startRun source sourceLen destCap s
  | .reset => .ok () State.reset
  | .writeSrc i v => hostAccess s { s with source := memWrite s.source i v }
  | .readSrc _ => hostAccess s s
  | .writeOut i v => hostAccess s { s with out := memWrite s.out i v }
  | .readOut _ => hostAccess s s

/-- What the host may rely on when it looks at the result registers: they are valid in phase DONE only (R35, R347). -/
def hostResult (s : State) : Option (Status × Nat) :=
  if s.phase = .done then some (s.status, s.destLenOut) else none

end Sys2Proof.Machine
end

