-- ==== Sys2Proof/Machine/BitReader.lean ====
section
/-! DEFINITION. The bit reader's operations issued on their own (40): REFILL, CONSUME, GETBITS, GETBITS_BASE. The shared
operations stand in Ops.lean; a returned value goes to `ret`. -/

namespace Sys2Proof.Machine

/-- REFILL(n) (R130). -/
def execRefill (n : Nat) (s : State) : Host.Outcome State Fault Refusal := (refill n s).finish

/-- CONSUME(n) (R131). -/
def execConsume (n : Nat) (s : State) : Host.Outcome State Fault Refusal := (consume n s).finishValue

/-- GETBITS(n) (R132). -/
def execGetbits (n : Nat) (s : State) : Host.Outcome State Fault Refusal := (getBits n s).finishValue

/-- GETBITS_BASE(n, base) (R133); its limit on `n` is GETBITS's (R134). -/
def execGetbitsBase (n base : Nat) (s : State) : Host.Outcome State Fault Refusal := (getBitsBase n base s).finishValue

end Sys2Proof.Machine
end

