-- ==== Sys2Proof/Machine/Flags.lean ====
section
/-! DEFINITION. The core's only flag, the sticky `overflow` (R26): who sets it is REFILL's turn `loadByte` (R130); here is
the place where a caller tests it after a symbol (R174, R228). The test at the end of a run is `endRun` (R276). -/

namespace Sys2Proof.Machine

/-- The test after a literal/length symbol: `if overflow == 1: raise DataError(OVERFLOW_IN_BODY)` (R220, R228). -/
def testOverflow (s : State) : Res Unit :=
  if s.overflow then .raised .overflowInBody s else .ok () s

end Sys2Proof.Machine
end

