-- ==== Sys2Proof/Machine/Operands.lean ====
section
/-! DEFINITION. The operand forms (R101): every operand of a stream element is a base from a table or a constant plus an
unsigned extra-bits field. The tables are those of R98, R99 and R95. -/

namespace Sys2Proof.Machine

/-- `length_base` of R98, indexed by `s − 257`. -/
def lengthBase : List Nat :=
  [3, 4, 5, 6, 7, 8, 9, 10, 11, 13, 15, 17, 19, 23, 27, 31, 35, 43, 51, 59, 67, 83, 99, 115, 131, 163, 195, 227, 258]

/-- `length_bits` of R98, indexed by `s − 257`. -/
def lengthBits : List Nat :=
  [0, 0, 0, 0, 0, 0, 0, 0, 1, 1, 1, 1, 2, 2, 2, 2, 3, 3, 3, 3, 4, 4, 4, 4, 5, 5, 5, 5, 0]

/-- `dist_base` of R99, indexed by `d`. -/
def distBase : List Nat :=
  [1, 2, 3, 4, 5, 7, 9, 13, 17, 25, 33, 49, 65, 97, 129, 193, 257, 385, 513, 769, 1025, 1537, 2049, 3073, 4097, 6145,
    8193, 12289, 16385, 24577]

/-- `dist_bits` of R99, indexed by `d`. -/
def distBits : List Nat :=
  [0, 0, 0, 0, 1, 1, 2, 2, 3, 3, 4, 4, 5, 5, 6, 6, 7, 7, 8, 8, 9, 9, 10, 10, 11, 11, 12, 12, 13, 13]

/-- `CLORDER` of R95: the symbol whose code length is the `i`-th one read. -/
def clOrder : List Nat := [16, 17, 18, 0, 8, 7, 9, 6, 10, 5, 11, 4, 12, 3, 13, 2, 14, 1, 15]

/-- The form `base + get_bits(n)` (R101). -/
def operand (base n : Nat) (s : State) : Res Nat := (getBits n s).bind fun v s => .ok (base + v) s

/-- HLIT: 257 plus 5 bits (R191). -/
def readHlit (s : State) : Res Nat := operand 257 5 s

/-- HDIST: 1 plus 5 bits (R191). -/
def readHdist (s : State) : Res Nat := operand 1 5 s

/-- HCLEN: 4 plus 4 bits (R191). -/
def readHclen (s : State) : Res Nat := operand 4 4 s

/-- `clen`: 3 bits (R193). -/
def readClen (s : State) : Res Nat := operand 0 3 s

/-- The repeat count of `CL16`: 3 plus 2 bits (R196). -/
def readRepeat16 (s : State) : Res Nat := operand 3 2 s

/-- The repeat count of `CL17`: 3 plus 3 bits (R197). -/
def readRepeat17 (s : State) : Res Nat := operand 3 3 s

/-- The repeat count of `CL18`: 11 plus 7 bits (R198). -/
def readRepeat18 (s : State) : Res Nat := operand 11 7 s

/-- The match length of a length symbol (R223): GETBITS_BASE with the row of R98. -/
def readLength (sym : Nat) (s : State) : Res Nat :=
  getBitsBase (lengthBits.getD (sym - 257) 0) (lengthBase.getD (sym - 257) 0) s

/-- The match distance of a distance symbol (R224): GETBITS_BASE with the row of R99. -/
def readDistance (d : Nat) (s : State) : Res Nat := getBitsBase (distBits.getD d 0) (distBase.getD d 0) s

/-- LEN or NLEN of an uncompressed block: 16 bits (R262). -/
def readU16 (s : State) : Res Nat := operand 0 16 s

end Sys2Proof.Machine
end

