-- ==== Sys2Proof/Machine/SymbolDecoder.lean ====
section
/-! DEFINITION. The Huffman symbol decoder (42): DECODE_SYMBOL, the bit-by-bit descent of R170. -/

namespace Sys2Proof.Machine

/-- The symbol at `trans[i]` (R170); an index the storage does not have is a stop (R341). -/
def transAt (t : Tree) (i : Nat) (s : State) : Res Nat :=
  match t.trans[i]? with
  | some v => .ok v s
  | none => .refused .transIndex

/-- The loop of R170 with `k` bits left below 16: `len`, `sum` and `cur` are the locals. At the sixteenth bit the model
refuses (R173). -/
def descend (t : Tree) : Nat → Nat → Nat → Int → State → Res Nat
  | 0, _, _, _, s => (getBits 1 s).bind fun _ _ => .refused .noCodeWithin15
  | k + 1, len, sum, cur, s =>
    (getBits 1 s).bind fun b s =>
      let sum := sum + entry t.table (len + 1)
      let cur := 2 * cur + b - entry t.table (len + 1)
      if cur < 0 then transAt t (sum + cur).toNat s else descend t k (len + 1) sum cur s

/-- DECODE_SYMBOL(t) (R170). -/
def decodeSymbol (t : TreeId) (s : State) : Res Nat := descend (getTree t s) Config.maxBits 0 0 0 s

/-- DECODE_SYMBOL issued on its own; the symbol goes to `ret` (R170, R105). -/
def execDecodeSymbol (t : TreeId) (s : State) : Host.Outcome State Fault Refusal := (decodeSymbol t s).finishValue

end Sys2Proof.Machine
end

