-- ==== Sys2Proof/Machine/BlockBody.lean ====
section
/-! DEFINITION. The block body decoder and the LZ77 copy engine (45): literals, end of block, the two halves of a
length/distance pair, the byte-by-byte copy, and INFLATE_BLOCK_DATA as a whole (R220). -/

namespace Sys2Proof.Machine

/-- A literal byte (R221): with no room nothing is written. -/
def putLiteral (b : Byte) (s : State) : Res Unit :=
  if s.dest = s.destCap then .raised .literalNoRoom s else emitByte b s

/-- The length half of a pair (R223, R226): the three tests in the order of R230, then the extra bits; the length is kept
in `matchLen` until the distance symbol has been read. -/
def lengthHalf (sym : Nat) (s : State) : Res Unit :=
  if s.ltree.maxSym < sym then .raised .litlenSymRange s
  else if 28 < sym - 257 then .raised .litlenSymReserved s
  else if s.dtree.maxSym = -1 then .raised .noDistanceCodes s
  else (readLength sym s).bind fun length s => .ok () { s with matchLen := length }

/-- The copy engine (R225): `n` bytes, one at a time, each read at `dest − offs` after the one before it was written. -/
def copyMatch : Nat → Nat → State → Res Unit
  | 0, _, s => .ok () s
  | n + 1, offs, s =>
    if s.dest < offs then .refused .outOutside
    else (outRead (s.dest - offs) s).bind fun v s => (emitByte v s).bind fun _ s => copyMatch n offs s

/-- The distance half of a pair (R224, R227), in the order of R230. -/
def distHalf (d : Nat) (s : State) : Res Unit :=
  if s.dtree.maxSym < d ∨ 29 < d then .raised .distSymRange s
  else
    (readDistance d s).bind fun offs s =>
      if s.destLen < offs then .raised .distanceTooFar s
      else if s.destCap < s.dest + s.matchLen then .raised .matchNoRoom s
      else copyMatch s.matchLen offs s

/-- The loop of R220. Each turn takes at least one bit of the stream, so a bound of the bits that are left, plus one for
the turn that meets `overflow`, is enough (R229 c). -/
def bodyLoop : Nat → State → Res Unit
  | 0, _ => .refused .loopBound
  | k + 1, s =>
    (decodeSymbol .ltree s).bind fun sym s =>
    (testOverflow s).bind fun _ s =>
      if sym = 256 then .ok () s
      else if sym < 256 then (putLiteral (BitVec.ofNat 8 sym) s).bind fun _ s => bodyLoop k s
      else
        (lengthHalf sym s).bind fun _ s =>
        (decodeSymbol .dtree s).bind fun d s =>
        (distHalf d s).bind fun _ s => bodyLoop k s

/-- The stream bits that are left: those held in `tag` and those of the bytes not yet loaded. -/
def bitsLeft (s : State) : Nat := s.bitcount + 8 * (s.sourceLen - s.src)

/-- INFLATE_BLOCK_DATA (R220); entered with trees that were never built it is refused (R304 case 7). -/
def inflateBlockData (s : State) : Res Unit :=
  if s.ltree.built && s.dtree.built then bodyLoop (bitsLeft s + 2) s else .refused .treesNotBuilt

/-- INFLATE_BLOCK_DATA issued on its own (R220). -/
def execInflateBlockData (s : State) : Host.Outcome State Fault Refusal := (inflateBlockData s).finish

/-- A literal as a stream element: the `overflow` test comes first (R228). -/
def literalElement (b : Byte) (s : State) : Res Unit := (testOverflow s).bind fun _ s => putLiteral b s

/-- The end of a block as a stream element (R222): control goes back to the dispatcher. -/
def eobElement (s : State) : Res Unit := (testOverflow s).bind fun _ s => .ok () { s with seq := .blockEnd }

/-- A length symbol as a stream element (R223): a distance symbol must follow. -/
def lengthElement (sym : Nat) (s : State) : Res Unit :=
  (testOverflow s).bind fun _ s => (lengthHalf sym s).bind fun _ s => .ok () { s with seq := .dist }

/-- A distance symbol as a stream element (R224): the next literal/length symbol follows. -/
def distElement (d : Nat) (s : State) : Res Unit := (distHalf d s).bind fun _ s => .ok () { s with seq := .litLen }

/-- `LIT` (R221). -/
def execLit (imm : Byte) (s : State) : Host.Outcome State Fault Refusal := (literalElement imm s).finish

/-- `EOB` (R222). -/
def execEob (s : State) : Host.Outcome State Fault Refusal := (eobElement s).finish

/-- `LEN257` (R223). -/
def execLen257 (s : State) : Host.Outcome State Fault Refusal := (lengthElement 257 s).finish


/-- `LEN258` (R223). -/
def execLen258 (s : State) : Host.Outcome State Fault Refusal := (lengthElement 258 s).finish


/-- `LEN259` (R223). -/
def execLen259 (s : State) : Host.Outcome State Fault Refusal := (lengthElement 259 s).finish


/-- `LEN260` (R223). -/
def execLen260 (s : State) : Host.Outcome State Fault Refusal := (lengthElement 260 s).finish


/-- `LEN261` (R223). -/
def execLen261 (s : State) : Host.Outcome State Fault Refusal := (lengthElement 261 s).finish


/-- `LEN262` (R223). -/
def execLen262 (s : State) : Host.Outcome State Fault Refusal := (lengthElement 262 s).finish


/-- `LEN263` (R223). -/
def execLen263 (s : State) : Host.Outcome State Fault Refusal := (lengthElement 263 s).finish


/-- `LEN264` (R223). -/
def execLen264 (s : State) : Host.Outcome State Fault Refusal := (lengthElement 264 s).finish


/-- `LEN265` (R223). -/
def execLen265 (s : State) : Host.Outcome State Fault Refusal := (lengthElement 265 s).finish


/-- `LEN266` (R223). -/
def execLen266 (s : State) : Host.Outcome State Fault Refusal := (lengthElement 266 s).finish


/-- `LEN267` (R223). -/
def execLen267 (s : State) : Host.Outcome State Fault Refusal := (lengthElement 267 s).finish


/-- `LEN268` (R223). -/
def execLen268 (s : State) : Host.Outcome State Fault Refusal := (lengthElement 268 s).finish


/-- `LEN269` (R223). -/
def execLen269 (s : State) : Host.Outcome State Fault Refusal := (lengthElement 269 s).finish


/-- `LEN270` (R223). -/
def execLen270 (s : State) : Host.Outcome State Fault Refusal := (lengthElement 270 s).finish


/-- `LEN271` (R223). -/
def execLen271 (s : State) : Host.Outcome State Fault Refusal := (lengthElement 271 s).finish


/-- `LEN272` (R223). -/
def execLen272 (s : State) : Host.Outcome State Fault Refusal := (lengthElement 272 s).finish


/-- `LEN273` (R223). -/
def execLen273 (s : State) : Host.Outcome State Fault Refusal := (lengthElement 273 s).finish


/-- `LEN274` (R223). -/
def execLen274 (s : State) : Host.Outcome State Fault Refusal := (lengthElement 274 s).finish


/-- `LEN275` (R223). -/
def execLen275 (s : State) : Host.Outcome State Fault Refusal := (lengthElement 275 s).finish


/-- `LEN276` (R223). -/
def execLen276 (s : State) : Host.Outcome State Fault Refusal := (lengthElement 276 s).finish


/-- `LEN277` (R223). -/
def execLen277 (s : State) : Host.Outcome State Fault Refusal := (lengthElement 277 s).finish


/-- `LEN278` (R223). -/
def execLen278 (s : State) : Host.Outcome State Fault Refusal := (lengthElement 278 s).finish


/-- `LEN279` (R223). -/
def execLen279 (s : State) : Host.Outcome State Fault Refusal := (lengthElement 279 s).finish


/-- `LEN280` (R223). -/
def execLen280 (s : State) : Host.Outcome State Fault Refusal := (lengthElement 280 s).finish


/-- `LEN281` (R223). -/
def execLen281 (s : State) : Host.Outcome State Fault Refusal := (lengthElement 281 s).finish


/-- `LEN282` (R223). -/
def execLen282 (s : State) : Host.Outcome State Fault Refusal := (lengthElement 282 s).finish


/-- `LEN283` (R223). -/
def execLen283 (s : State) : Host.Outcome State Fault Refusal := (lengthElement 283 s).finish


/-- `LEN284` (R223). -/
def execLen284 (s : State) : Host.Outcome State Fault Refusal := (lengthElement 284 s).finish


/-- `LEN285` (R223). -/
def execLen285 (s : State) : Host.Outcome State Fault Refusal := (lengthElement 285 s).finish

/-- Symbol 286 (R226). -/
def execRsvd286 (s : State) : Host.Outcome State Fault Refusal := (lengthElement 286 s).finish

/-- Symbol 287 (R226). -/
def execRsvd287 (s : State) : Host.Outcome State Fault Refusal := (lengthElement 287 s).finish

/-- `DIST0` (R224). -/
def execDist0 (s : State) : Host.Outcome State Fault Refusal := (distElement 0 s).finish


/-- `DIST1` (R224). -/
def execDist1 (s : State) : Host.Outcome State Fault Refusal := (distElement 1 s).finish


/-- `DIST2` (R224). -/
def execDist2 (s : State) : Host.Outcome State Fault Refusal := (distElement 2 s).finish


/-- `DIST3` (R224). -/
def execDist3 (s : State) : Host.Outcome State Fault Refusal := (distElement 3 s).finish


/-- `DIST4` (R224). -/
def execDist4 (s : State) : Host.Outcome State Fault Refusal := (distElement 4 s).finish


/-- `DIST5` (R224). -/
def execDist5 (s : State) : Host.Outcome State Fault Refusal := (distElement 5 s).finish


/-- `DIST6` (R224). -/
def execDist6 (s : State) : Host.Outcome State Fault Refusal := (distElement 6 s).finish


/-- `DIST7` (R224). -/
def execDist7 (s : State) : Host.Outcome State Fault Refusal := (distElement 7 s).finish


/-- `DIST8` (R224). -/
def execDist8 (s : State) : Host.Outcome State Fault Refusal := (distElement 8 s).finish


/-- `DIST9` (R224). -/
def execDist9 (s : State) : Host.Outcome State Fault Refusal := (distElement 9 s).finish


/-- `DIST10` (R224). -/
def execDist10 (s : State) : Host.Outcome State Fault Refusal := (distElement 10 s).finish


/-- `DIST11` (R224). -/
def execDist11 (s : State) : Host.Outcome State Fault Refusal := (distElement 11 s).finish


/-- `DIST12` (R224). -/
def execDist12 (s : State) : Host.Outcome State Fault Refusal := (distElement 12 s).finish


/-- `DIST13` (R224). -/
def execDist13 (s : State) : Host.Outcome State Fault Refusal := (distElement 13 s).finish


/-- `DIST14` (R224). -/
def execDist14 (s : State) : Host.Outcome State Fault Refusal := (distElement 14 s).finish


/-- `DIST15` (R224). -/
def execDist15 (s : State) : Host.Outcome State Fault Refusal := (distElement 15 s).finish


/-- `DIST16` (R224). -/
def execDist16 (s : State) : Host.Outcome State Fault Refusal := (distElement 16 s).finish


/-- `DIST17` (R224). -/
def execDist17 (s : State) : Host.Outcome State Fault Refusal := (distElement 17 s).finish


/-- `DIST18` (R224). -/
def execDist18 (s : State) : Host.Outcome State Fault Refusal := (distElement 18 s).finish


/-- `DIST19` (R224). -/
def execDist19 (s : State) : Host.Outcome State Fault Refusal := (distElement 19 s).finish


/-- `DIST20` (R224). -/
def execDist20 (s : State) : Host.Outcome State Fault Refusal := (distElement 20 s).finish


/-- `DIST21` (R224). -/
def execDist21 (s : State) : Host.Outcome State Fault Refusal := (distElement 21 s).finish


/-- `DIST22` (R224). -/
def execDist22 (s : State) : Host.Outcome State Fault Refusal := (distElement 22 s).finish


/-- `DIST23` (R224). -/
def execDist23 (s : State) : Host.Outcome State Fault Refusal := (distElement 23 s).finish


/-- `DIST24` (R224). -/
def execDist24 (s : State) : Host.Outcome State Fault Refusal := (distElement 24 s).finish


/-- `DIST25` (R224). -/
def execDist25 (s : State) : Host.Outcome State Fault Refusal := (distElement 25 s).finish


/-- `DIST26` (R224). -/
def execDist26 (s : State) : Host.Outcome State Fault Refusal := (distElement 26 s).finish


/-- `DIST27` (R224). -/
def execDist27 (s : State) : Host.Outcome State Fault Refusal := (distElement 27 s).finish


/-- `DIST28` (R224). -/
def execDist28 (s : State) : Host.Outcome State Fault Refusal := (distElement 28 s).finish


/-- `DIST29` (R224). -/
def execDist29 (s : State) : Host.Outcome State Fault Refusal := (distElement 29 s).finish

/-- Distance symbol 30 (R227). -/
def execRsvd30 (s : State) : Host.Outcome State Fault Refusal := (distElement 30 s).finish

/-- Distance symbol 31 (R227). -/
def execRsvd31 (s : State) : Host.Outcome State Fault Refusal := (distElement 31 s).finish

end Sys2Proof.Machine
end

