-- ==== Sys2Proof/Machine/TreeBuilder.lean ====
section
/-! DEFINITION. The canonical Huffman tree builder (41): BUILD_TREE, in the steps of R150. -/

namespace Sys2Proof.Machine

/-- Steps 1 to 3 of R150: `table[ℓ]` counts the input entries equal to `ℓ`, and `table[0]` is forced to 0. -/
def countLengths (lens : List Nat) : Vector Nat 16 :=
  Vector.ofFn fun l => if l.val = 0 then 0 else lens.count l.val

/-- `max_sym` of steps 1 and 2: the last symbol with a code, starting from `acc` at symbol `i`. -/
def lastCoded : List Nat → Nat → Int → Int
  | [], _, acc => acc
  | l :: ls, i, acc => lastCoded ls (i + 1) (if 0 < l then i else acc)

/-- Step 4 of R150, the feasibility walk (start value: R151): the number of codes left over after the last length, or
nothing when some length has more codes than can be assigned. -/
def walk : List Nat → Nat → Option Nat
  | [], max => some max
  | c :: cs, max => if max < c then none else walk cs (2 * (max - c))

/-- `offs[ℓ]` of step 4: how many symbols have a shorter code. -/
def offsets (table : Vector Nat 16) : Vector Nat 16 := Vector.ofFn fun l => (table.toList.take l.val).sum

/-- Step 6 of R150, the distribution sort, from symbol `i` on. -/
def distribute : List Nat → Nat → Vector Nat 16 → Vector Nat 288 → Vector Nat 288
  | [], _, _, tr => tr
  | l :: ls, i, offs, tr =>
    if l = 0 then distribute ls (i + 1) offs tr
    else
      distribute ls (i + 1) (offs.setIfInBounds l (entry offs l + 1)) (tr.setIfInBounds (entry offs l) i)

/-- The contract of R156: `num ≤ 288`, the slice lies inside `lengths`, and every entry is at most 15. -/
def buildContract (lengths : Vector Nat 320) (off num : Nat) : Bool :=
  num ≤ Config.maxSyms && off + num ≤ Config.lengthsSize
    && ((lengths.toList.drop off).take num).all (· ≤ Config.maxBits)

/-- The tree after steps 1 to 3: what a failing build leaves (R155). -/
def countedTree (lens : List Nat) (t : Tree) : Tree :=
  { t with table := countLengths lens, maxSym := lastCoded lens 0 (-1), built := false }

/-- The tree after steps 6 and 7 of R150, the single-code fix-up included (R152). -/
def finishedTree (lens : List Nat) (t : Tree) : Tree :=
  let table := countLengths lens
  let maxSym := lastCoded lens 0 (-1)
  let trans := distribute lens 0 (offsets table) t.trans
  if table.toList.sum = 1 then
    { table := table.setIfInBounds 1 2, trans := trans.setIfInBounds 1 (maxSym + 1).toNat, maxSym := maxSym, built := true }
  else { table := table, trans := trans, maxSym := maxSym, built := true }

/-- Steps 4 and 5 of R150 on the code lengths: the cause of the raise, if there is one. -/
def buildCheck (lens : List Nat) : Option Cause :=
  match walk (countLengths lens).toList 1 with
  | none => some .treeOversubscribed
  | some max =>
    if 1 < (countLengths lens).toList.sum ∧ 0 < max then some .treeIncomplete
    else if (countLengths lens).toList.sum = 1 ∧ entry (countLengths lens) 1 ≠ 1 then some .treeSingleNotLen1
    else none

/-- BUILD_TREE(t, off, num) (R150). -/
def buildTree (t : TreeId) (off num : Nat) (s : State) : Res Unit :=
  if buildContract s.lengths off num then
    let lens := (s.lengths.toList.drop off).take num
    match buildCheck lens with
    | some c => .raised c (setTree t (countedTree lens (getTree t s)) s)
    | none => .ok () (setTree t (finishedTree lens (getTree t s)) s)
  else .refused .buildTreeContract

/-- BUILD_TREE issued on its own (R150). -/
def execBuildTree (t : TreeId) (off num : Nat) (s : State) : Host.Outcome State Fault Refusal := (buildTree t off num s).finish

end Sys2Proof.Machine
end

