-- ==== Sys2Proof/Machine/DynamicHeader.lean ====
section
/-! DEFINITION. The dynamic header decoder (44): the fixed fields and the code-length tree (R191 to R194), the code-length
symbols (R195 to R200), the final builds (R201, R202), and DECODE_TREES as a whole (R190). The locals `hlit`, `hdist` and
`num` stand in the latches of State (log entry 1). `overflow` is tested nowhere (R203). -/

namespace Sys2Proof.Machine

/-- `lengths[i] <- v`; the rules form no index above 319 (R204). -/
def writeLength (i v : Nat) (s : State) : Res Unit :=
  if i < Config.lengthsSize then .ok () { s with lengths := s.lengths.setIfInBounds i v } else .refused .scratchIndex

/-- `for i in 0 .. 18: lengths[i] <- 0` (R193): `n` entries from index `i` on. -/
def zeroLengths : Nat → Nat → State → Res Unit
  | 0, _, s => .ok () s
  | n + 1, i, s => (writeLength i 0 s).bind fun _ s => zeroLengths n (i + 1) s

/-- `lengths[CLORDER[i]] <- GETBITS(3)` for the symbols of a part of CLORDER (R193). -/
def readClens : List Nat → State → Res Unit
  | [], s => .ok () s
  | sym :: syms, s =>
    (readClen s).bind fun v s => (writeLength sym v s).bind fun _ s => readClens syms s

/-- The range check of R192, on the counts. -/
def checkCounts (hlit hdist : Nat) (s : State) : Res Unit :=
  if 286 < hlit then .raised .hlitRange s
  else if 30 < hdist then .raised .hdistRange s
  else .ok () s

/-- The header up to the code-length tree (R190 to R194). -/
def beginHeader (s : State) : Res Unit :=
  (readHlit s).bind fun hlit s =>
  (readHdist s).bind fun hdist s =>
  (readHclen s).bind fun hclen s =>
  (checkCounts hlit hdist s).bind fun _ s =>
  (zeroLengths 19 0 s).bind fun _ s =>
  (readClens (clOrder.take hclen) s).bind fun _ s =>
  (buildTree .ltree 0 19 s).bind fun _ s =>
    if s.ltree.maxSym = -1 then .raised .cltreeEmpty s
    else .ok () { s with hlit := hlit, hdist := hdist, num := 0 }

/-- R199: a decoded value above the code-length tree's `max_sym` is rejected before it is interpreted. -/
def checkClSym (sym : Nat) (s : State) : Res Unit :=
  if s.ltree.maxSym < sym then .raised .clsymRange s else .ok () s

/-- `for k in 0 .. rep−1: lengths[num] <- val; num <- num + 1` (R190). -/
def fillLengths : Nat → Nat → State → Res Unit
  | 0, _, s => .ok () s
  | rep + 1, val, s =>
    (writeLength s.num val s).bind fun _ s => fillLengths rep val { s with num := s.num + 1 }

/-- The overshoot test of R200, then the run. -/
def storeRun (val rep : Nat) (s : State) : Res Unit :=
  if s.hlit + s.hdist < s.num + rep then .raised .repeatOvershoot s else fillLengths rep val s

/-- `lengths[num − 1]` with the test for the first position (R196). -/
def previousLength (s : State) : Res Nat :=
  if s.num = 0 then .raised .repeatNoPrevious s
  else if s.num ≤ Config.lengthsSize then .ok (entry s.lengths (s.num - 1)) s
  else .refused .scratchIndex

/-- Symbols 0..15: a literal code length (R195). -/
def clLiteral (v : Nat) (s : State) : Res Unit := storeRun v 1 s

/-- Symbol 16: repeat the previous length (R196); the first-position test comes before the extra bits. -/
def clRepeatPrevious (s : State) : Res Unit :=
  (previousLength s).bind fun val s => (readRepeat16 s).bind fun rep s => storeRun val rep s

/-- Symbol 17: a short run of zeros (R197). -/
def clZerosShort (s : State) : Res Unit := (readRepeat17 s).bind fun rep s => storeRun 0 rep s

/-- Symbol 18: a long run of zeros (R198). -/
def clZerosLong (s : State) : Res Unit := (readRepeat18 s).bind fun rep s => storeRun 0 rep s

/-- One turn of the while loop of R190 after its DECODE_SYMBOL. -/
def clItem (sym : Nat) (s : State) : Res Unit :=
  (checkClSym sym s).bind fun _ s =>
    if sym = 16 then clRepeatPrevious s
    else if sym = 17 then clZerosShort s
    else if sym = 18 then clZerosLong s
    else clLiteral sym s

/-- The while loop of R190; each turn adds at least one entry, so `k = hlit + hdist` turns are enough (R204). -/
def clLoop : Nat → State → Res Unit
  | 0, s => if s.num < s.hlit + s.hdist then .refused .loopBound else .ok () s
  | k + 1, s =>
    if s.num < s.hlit + s.hdist then
      (decodeSymbol .ltree s).bind fun sym s => (clItem sym s).bind fun _ s => clLoop k s
    else .ok () s

/-- After the lengths: the end-of-block code must exist (R201), then the two builds (R202). -/
def endHeader (s : State) : Res Unit :=
  if entry s.lengths 256 = 0 then .raised .noEobCode s
  else (buildTree .ltree 0 s.hlit s).bind fun _ s => buildTree .dtree s.hlit s.hdist s

/-- DECODE_TREES (R190). -/
def decodeTrees (s : State) : Res Unit :=
  (beginHeader s).bind fun _ s => (clLoop (s.hlit + s.hdist) s).bind fun _ s => endHeader s

/-- DECODE_TREES issued on its own (R190). -/
def execDecodeTrees (s : State) : Host.Outcome State Fault Refusal := (decodeTrees s).finish

/-- `CL` (R195). -/
def execCl (imm : BitVec 4) (s : State) : Host.Outcome State Fault Refusal :=
  ((checkClSym imm.toNat s).bind fun _ s => clLiteral imm.toNat s).finish

/-- `CL16` (R196). -/
def execCl16 (s : State) : Host.Outcome State Fault Refusal :=
  ((checkClSym 16 s).bind fun _ s => clRepeatPrevious s).finish

/-- `CL17` (R197). -/
def execCl17 (s : State) : Host.Outcome State Fault Refusal :=
  ((checkClSym 17 s).bind fun _ s => clZerosShort s).finish

/-- `CL18` (R198). -/
def execCl18 (s : State) : Host.Outcome State Fault Refusal :=
  ((checkClSym 18 s).bind fun _ s => clZerosLong s).finish

/-- The sentinel 19 (R199): not a symbol of the alphabet, rejected (log entry 18). -/
def execSentinel19 (s : State) : Host.Outcome State Fault Refusal := (Res.raised .clsymRange s : Res Unit).finish

end Sys2Proof.Machine
end

