-- ==== Sys2Proof/Machine/FixedTrees.lean ====
section
/-! DEFINITION. The fixed tree constructor (43): BUILD_FIXED_TREES. -/

namespace Sys2Proof.Machine

/-- `ltree.trans` of R180, in order: symbols 256..279, 0..143, 280..287, 144..255. -/
def fixedLitTrans : List Nat :=
  List.range' 256 24 ++ List.range' 0 144 ++ List.range' 280 8 ++ List.range' 144 112

/-- The fixed literal/length tree (R180, R183): `max_sym` is 285, although 286 and 287 have codes. -/
def fixedLitTree : Tree :=
  { table := #v[0, 0, 0, 0, 0, 0, 0, 24, 152, 112, 0, 0, 0, 0, 0, 0]
    trans := ⟨fixedLitTrans.toArray, by simp [fixedLitTrans]⟩
    maxSym := 285
    built := true }

/-- The fixed distance tree (R180, R183): entries 32 and above of `trans` keep what they held; `max_sym` is 29. -/
def fixedDistTree (t : Tree) : Tree :=
  { table := #v[0, 0, 0, 0, 0, 32, 0, 0, 0, 0, 0, 0, 0, 0, 0, 0]
    trans := ⟨(List.range' 0 32 ++ t.trans.toList.drop 32).toArray, by simp⟩
    maxSym := 29
    built := true }

/-- BUILD_FIXED_TREES (R180); it cannot fail. -/
def buildFixedTrees (s : State) : State := { s with ltree := fixedLitTree, dtree := fixedDistTree s.dtree }

/-- BUILD_FIXED_TREES issued on its own (R180). -/
def execBuildFixedTrees (s : State) : Host.Outcome State Fault Refusal := .next (buildFixedTrees s)

end Sys2Proof.Machine
end

