-- ==== Sys2Proof/Machine/UncompressedBlock.lean ====
section
/-! DEFINITION. The uncompressed block (46): INFLATE_UNCOMPRESSED. -/

namespace Sys2Proof.Machine

/-- `tag <- 0; bitcount <- 0`: the unread bits of the byte in progress are discarded (R261). -/
def alignReader (s : State) : State := { s with tag := 0, bitcount := 0 }

/-- The byte copy of R260: `n` bytes from SRC to OUT, ascending. -/
def copyStored : Nat → State → Res Unit
  | 0, s => .ok () s
  | n + 1, s =>
    (srcRead s.src s).bind fun v s => (emitByte v { s with src := s.src + 1 }).bind fun _ s => copyStored n s

/-- The three tests of R260 in the order of R263. -/
def checkStored (len nlen : Nat) (s : State) : Res Unit :=
  if len ≠ (~~~(BitVec.ofNat 16 nlen)).toNat then .raised .lenNlenMismatch s
  else if s.sourceLen < s.src + len then .raised .storedSourceShort s
  else if s.destCap < s.dest + len then .raised .storedNoRoom s
  else .ok () s

/-- INFLATE_UNCOMPRESSED (R260). -/
def inflateUncompressed (s : State) : Res Unit :=
  (readU16 (alignReader s)).bind fun len s =>
  (readU16 s).bind fun nlen s =>
  (checkStored len nlen s).bind fun _ s =>
  (copyStored len s).bind fun _ s => .ok () (alignReader s)

/-- INFLATE_UNCOMPRESSED issued on its own (R260). -/
def execInflateUncompressed (s : State) : Host.Outcome State Fault Refusal := (inflateUncompressed s).finish

end Sys2Proof.Machine
end

