-- ==== Sys2Proof/Machine/BlockDispatcher.lean ====
section
/-! DEFINITION. The block dispatcher and top level (47): the block headers as stream elements (R272 to R275), the end of a
block, and UNCOMPRESS as a whole (R270). -/

namespace Sys2Proof.Machine

/-- `STORED` (R272): the block is copied; then it has ended. -/
def execStored (bfinal : Bool) (s : State) : Host.Outcome State Fault Refusal :=
  ((inflateUncompressed { s with bfinal := bfinal }).bind fun _ s => .ok () { s with seq := .blockEnd }).finish

/-- `FIXED` (R273): the fixed trees are built; then the body's symbols follow. -/
def execFixed (bfinal : Bool) (s : State) : Host.Outcome State Fault Refusal :=
  .next { buildFixedTrees { s with bfinal := bfinal } with seq := .litLen }

/-- `DYNAMIC` (R274): the header up to the code-length tree; then the code-length items follow, and after them the body. -/
def execDynamic (bfinal : Bool) (s : State) : Host.Outcome State Fault Refusal :=
  ((beginHeader { s with bfinal := bfinal }).bind fun _ s => .ok () { s with seq := .codeLen }).finish

/-- `RESERVED` (R275): always a DataError. -/
def execReserved (bfinal : Bool) (s : State) : Host.Outcome State Fault Refusal :=
  (Res.raised .btypeReserved { s with bfinal := bfinal } : Res Unit).finish

/-- What follows a block (R270): the run ends after the final one, else the next header follows. -/
def blockEnd (s : State) : Res Unit := if s.bfinal then endRun s else .ok () { s with seq := .header }

/-- The block that a BTYPE names, decoded whole (R270). -/
def inflateBlock (btype : Nat) (s : State) : Res Unit :=
  match btype with
  | 0 => inflateUncompressed s
  | 1 => inflateBlockData (buildFixedTrees s)
  | 2 => (decodeTrees s).bind fun _ s => inflateBlockData s
  | _ => .raised .btypeReserved s

/-- The loop of R270. Each block takes at least its three header bits, so a bound of the bits that are left is enough
(R278). -/
def blockLoop : Nat → State → Res Unit
  | 0, _ => .refused .loopBound
  | k + 1, s =>
    (getBits 1 s).bind fun f s =>
    (getBits 2 { s with bfinal := f == 1 }).bind fun btype s =>
    (inflateBlock btype s).bind fun _ s => if s.bfinal then .ok () s else blockLoop k s

/-- UNCOMPRESS (R270): START, the block loop, the end of the run. -/
def uncompress (source : List Byte) (sourceLen destCap : Nat) (s : State) : Res Unit :=
  (startRun source sourceLen destCap s).bind fun _ s =>
  (blockLoop (bitsLeft s + 2) s).bind fun _ s => endRun s

/-- UNCOMPRESS with the operands of START (R270, R331). -/
def execUncompress (source : List Byte) (sourceLen destCap : Nat) (s : State) : Host.Outcome State Fault Refusal :=
  (uncompress source sourceLen destCap s).finish

end Sys2Proof.Machine
end

