-- ==== Sys2Proof/Machine/Fetch.lean ====
section
/-! DEFINITION. Fetching: how the next element of the stream is found at the stream position (R37) in the mode the
sequencer is in (R103), and how a word of the opcode table is placed so that the next step fetches it. -/

namespace Sys2Proof.Machine

/-- The header: GETBITS(1) for BFINAL, then GETBITS(2) for BTYPE (R271), as the selector `H` of R92. -/
def fetchHeader (s : State) : Res Nat :=
  (getBits 1 s).bind fun f s => (getBits 2 s).bind fun btype s => .ok (f + 2 * btype) s

/-- The mode of the sequencer (R103): the format of the element that follows in the stream, or none between blocks and
when the code-length sequence is complete (R190, R270). -/
def mode (s : State) : Option Format :=
  match s.seq with
  | .header => some .bh
  | .codeLen => if s.num < s.hlit + s.hdist then some .cl else none
  | .litLen => some .ll
  | .dist => some .ds
  | .blockEnd => none

/-- The selector of the next element (R92, R103). An internal operation has no encoding in the stream (R105). -/
def fetch (f : Format) (s : State) : Res Nat :=
  match f with
  | .bh => fetchHeader s
  | .ll => decodeSymbol .ltree s
  | .ds => decodeSymbol .dtree s
  | .cl => decodeSymbol .ltree s
  | .op => .refused (.undecodable .opIndex)

/-- What a step of a run does when no element follows: the end of a dynamic header (R201, R202) or of a block (R270). -/
def sequence (s : State) : Res Unit :=
  match s.seq with
  | .codeLen => (endHeader s).bind fun _ s => .ok () { s with seq := .litLen }
  | _ => blockEnd s

/-! ## Placing a word of the opcode table (log entry 16) -/

/-- A single-code tree (R152): code `0` is `sym`, code `1` the sentinel. -/
def singleTree (sym : Nat) (t : Tree) : Tree :=
  { table := #v[0, 2, 0, 0, 0, 0, 0, 0, 0, 0, 0, 0, 0, 0, 0, 0]
    trans := (t.trans.setIfInBounds 0 sym).setIfInBounds 1 (sym + 1)
    maxSym := sym
    built := true }

/-- How many bytes a placed element occupies: its bits, then zeros. -/
def placedBytes : Nat := 8

/-- The stream at position 0 holds the given bits and then zeros; the run is in progress in the given mode. -/
def placeStream (q : Seq) (bits : List Bool) (s : State) : State :=
  { s with
    phase := .run, seq := q, issue := none, request := none
    source := memOfBytes 0 (packBytes placedBytes bits), sourceLen := placedBytes
    src := 0, tag := 0, bitcount := 0 }

/-- The state whose next fetch finds the element with the given code; an operation is issued on its own. -/
def placeCode (c : Code) (s : State) : State :=
  match c.format with
  | .bh => placeStream .header (lsbBits 3 c.selector) s
  | .ll => buildFixedTrees (placeStream .litLen (fixedLitCode c.selector) s)
  | .ds => buildFixedTrees (placeStream .dist (fixedDistCode c.selector) s)
  | .cl =>
    { placeStream .codeLen [c.selector == 19] s with
      ltree := singleTree (if c.selector = 19 then 18 else c.selector) s.ltree
      hlit := 257, hdist := 1, num := 0 }
  | .op =>
    { s with
      request := none
      issue := match decode c with | .ok i => some i | .error _ => none }

end Sys2Proof.Machine
end

