-- ==== Sys2Proof/Machine/Step.lean ====
section
/-! DEFINITION. One step (R344): the host's pending action, else an operation issued on its own, else, in phase RUN, the
next element of the stream or the sequencer's own move; in phases IDLE and DONE the core touches nothing (R346). -/

namespace Sys2Proof.Machine

/-- The step of a run that takes an element of the stream: its selector is fetched, decoded and executed. -/
def runElement (f : Format) (s : State) : Host.Outcome State Fault Refusal :=
  match fetch f s with
  | .ok n t =>
    match decode ⟨f, n, [], []⟩ with
    | .ok i => exec i t
    | .error r => .refused (.undecodable r)
  | .raised c t => .next (takeException c t)
  | .fault e => .fault e
  | .refused r => .refused r

/-- One step of a run (R344). -/
def runStep (s : State) : Host.Outcome State Fault Refusal :=
  match mode s with
  | some f => runElement f s
  | none => (sequence s).finish

/-- One step. -/
def step (s : State) : Host.Outcome State Fault Refusal :=
  match s.request with
  | some a => (hostStep a { s with request := none }).finish
  | none =>
    match s.issue with
    | some i => exec i { s with issue := none }
    | none =>
      match s.phase with
      | .run => runStep s
      | .idle => .next s
      | .done => .next s

/-- The state in which the next step runs the instruction of a word of the opcode table (log entry 16). -/
def State.withFetchWord (s : State) (nbits w : Nat) : State := placeCode (tableCode nbits w) s

end Sys2Proof.Machine
end

