-- ==== Sys2Proof/Machine/Notation.lean ====
section
/-! DEFINITION. The notation for writing streams down (R104): the bits each element produces with the packing its rule
gives, the pseudo-elements STORED, MATCH and END, and whole streams. It has no meaning of its own; the bytes do. -/

namespace Sys2Proof.Machine

/-- The bits of one element at bit offset `pos`, with the code lengths of the trees in force: the code-length tree `cl`,
the literal/length tree `ll`, the distance tree `dl` (R104). -/
def elementBits (cl ll dl : List Nat) (pos : Nat) : Element → List Bool
  | .block f t => f :: lsbBits 2 t
  | .pad => List.replicate ((8 - pos % 8) % 8) false
  | .u16 v => lsbBits 16 v
  | .bytes bs => unpackBytes bs
  | .hdr hlit hdist hclen => lsbBits 5 (hlit - 257) ++ lsbBits 5 (hdist - 1) ++ lsbBits 4 (hclen - 4)
  | .clen v => lsbBits 3 v
  | .cl sym => codeBits cl sym
  | .cl16 n => codeBits cl 16 ++ lsbBits 2 (n - 3)
  | .cl17 n => codeBits cl 17 ++ lsbBits 3 (n - 3)
  | .cl18 n => codeBits cl 18 ++ lsbBits 7 (n - 11)
  | .lit b => codeBits ll b.toNat
  | .eob => codeBits ll 256
  | .lsym sym extra => codeBits ll sym ++ lsbBits (lengthBits.getD (sym - 257) 0) extra
  | .dsym d extra => codeBits dl d ++ lsbBits (distBits.getD d 0) extra
  | .bits n v => lsbBits n v
  | .code bs => bs

/-- The bits of a sequence of elements from bit offset `pos` on, under one set of trees. -/
def assemble (cl ll dl : List Nat) : Nat → List Element → List Bool
  | _, [] => []
  | pos, e :: es =>
    elementBits cl ll dl pos e ++ assemble cl ll dl (pos + (elementBits cl ll dl pos e).length) es

/-- The bits of a sequence of elements under the fixed trees (after `BLOCK type=1`). -/
def assembleFixed (pos : Nat) (es : List Element) : List Bool := assemble [] fixedLitLengths fixedDistLengths pos es

/-- `END`: the last byte is padded with zero bits; the bytes of a stream. -/
def streamBytes (bits : List Bool) : List Byte := packBytes ((bits.length + 7) / 8) bits

/-- `STORED <bytes>` (R104). -/
def storedElements (bs : List Byte) : List Element :=
  [.pad, .u16 bs.length, .u16 (65535 - bs.length), .bytes bs]

/-- The length symbol of MATCH: 285 for 258, else the largest `s ≤ 284` with `length_base[s−257] ≤ L` (R104). -/
def lengthSymbol (len : Nat) : Nat :=
  if len = 258 then 285 else 257 + ((lengthBase.take 28).countP (· ≤ len) - 1)

/-- The distance symbol of MATCH: the largest `d ≤ 29` with `dist_base[d] ≤ D` (R104). -/
def distanceSymbol (dist : Nat) : Nat := distBase.countP (· ≤ dist) - 1

/-- `MATCH len=<L> dist=<D>` (R104). -/
def matchElements (len dist : Nat) : List Element :=
  [.lsym (lengthSymbol len) (len - lengthBase.getD (lengthSymbol len - 257) 0),
    .dsym (distanceSymbol dist) (dist - distBase.getD (distanceSymbol dist) 0)]

/-- A stream of one final uncompressed block (R94). -/
def storedStream (bs : List Byte) : List Byte :=
  streamBytes (assemble [] [] [] 0 (.block true 0 :: storedElements bs))

/-- A stream of one final fixed block that codes each byte as a literal (R90, R100). -/
def literalStream (bs : List Byte) : List Byte :=
  streamBytes (assembleFixed 0 (.block true 1 :: bs.map .lit ++ [.eob]))

/-- The bits of a dynamic header that sends every code length as a literal code-length symbol: the code-length alphabet
gives 0..15 codes of 4 bits each (HCLEN = 19, and 16, 17, 18 none), which is a complete code (R95, R97). -/
def plainHeader (ll dl : List Nat) : List Bool :=
  assemble (List.replicate 16 4 ++ List.replicate 3 0) [] [] 0
    (.hdr ll.length dl.length 19 :: clOrder.map (fun sym => .clen (if sym < 16 then 4 else 0))
      ++ (ll ++ dl).map .cl)

end Sys2Proof.Machine
end

