-- ==== Sys2Proof/Machine/Stream.lean ====
section
/-! DEFINITION. The bit stream as the rules speak of it: the virtual stream `V` (R9), the stream position (R37), fields of
the stream (R91), and the state of a bit reader that stands at a position (R36, R135). -/

namespace Sys2Proof.Machine

/-- `V[k]` of R9: bit `k mod 8` of byte `k div 8` of the source, and 0 past its end. -/
def streamBit (s : State) (k : Nat) : Bool :=
  if k < 8 * s.sourceLen then
    match memRead s.source (k / 8) with
    | some b => b.getLsbD (k % 8)
    | none => false
  else false

/-- The stream bits `V[p .. p+n)`. -/
def streamBits (s : State) (p n : Nat) : List Bool := (List.range n).map fun j => streamBit s (p + j)

/-- The `n`-bit field at position `p` (R91). -/
def field (s : State) (p n : Nat) : Nat := fieldValue (streamBits s p n)

/-- The stream position `8·src − bitcount` (R37), meaningful while `overflow = 0`. -/
def position (s : State) : Nat := 8 * s.src - s.bitcount

/-- The state with the bit reader at position `p`: the byte that holds bit `p − 1` is loaded and the rest of it is held in
`tag` (R36 I2 and I6, R38 a). -/
def seek (s : State) (p : Nat) : State :=
  { s with
    src := (p + 7) / 8
    bitcount := 8 * ((p + 7) / 8) - p
    tag := BitVec.ofNat 32 (field s p (8 * ((p + 7) / 8) - p)) }

/-- The host has supplied every byte of the source (R333 a). -/
def SourceReadable (s : State) : Prop := ∀ a, a < s.sourceLen → (memRead s.source a).isSome

/-- The bit reader stands at position `p` of a readable source and has not run out (R36, R37). -/
structure AtPosition (s : State) (p : Nat) : Prop where
  readable : SourceReadable s
  noOverflow : s.overflow = false
  inSource : p ≤ 8 * s.sourceLen
  reader : seek s p = s

/-- The stream holds the given bits at position `p`, all of them before the end of the source. -/
def StreamHas (s : State) (p : Nat) (bits : List Bool) : Prop :=
  p + bits.length ≤ 8 * s.sourceLen ∧ streamBits s p bits.length = bits

/-- The code of a pair's bytes in OUT before the copy, in closed form (R225): byte `i` of a match of distance `offs`
that starts at `d0`. -/
def matchByte (m : Memory) (d0 offs i : Nat) : Option Byte := memRead m (d0 - offs + i % offs)

end Sys2Proof.Machine
end

