-- ==== Sys2Proof/Safety.lean ====
section
/-! DEFINITION. What claims mean by a safe run: the invariants of R36 as predicates of a state, and runs that never stop. -/

namespace Sys2Proof

open Machine

/-- The outcome is a next state (the spec's State and Fault of R303 both are: a raise has a defined final state). -/
def Answers (o : Host.Outcome State Fault Refusal) : Prop := ∃ t, o = .next t

/-- What holds in every state, an operation issued on its own included: I1, I2 and I3 of R36, the ranges of R22, R28 and
R35, R135 (b), and the canonical form of the two memories. -/
structure CoreInv (s : State) : Prop where
  bitcountLe : s.bitcount ≤ 32
  tagClean : s.tag.toNat < 2 ^ s.bitcount
  destLenEq : s.destLen = s.dest
  srcLe : s.src ≤ s.sourceLen
  exhausted : s.overflow = true → s.src = s.sourceLen
  destLe : s.dest ≤ s.destCap
  bounded : s.phase = .done → s.destLenOut ≤ s.destCap
  sourceWf : Memory.wf s.source = true
  outWf : Memory.wf s.out = true

/-- I6 of R36: no operation is issued on its own, and between two elements at most 7 bits are held. -/
structure ReaderInv (s : State) : Prop where
  noIssue : s.issue = none
  bitcountLe : s.bitcount ≤ 7

/-- R27, R69: during a run every byte of OUT below `dest` has been written. -/
structure WrittenInv (s : State) : Prop where
  noIssue : s.issue = none
  destLenEq : s.destLen = s.dest
  written : s.phase = .run → ∀ a, a < s.dest → (memRead s.out a).isSome

/-- The Kraft equality of I5 (R36) for a tree. -/
def KraftEq (t : Tree) : Prop :=
  entry t.table 0 = 0 ∧ ((List.range 16).map fun l => entry t.table l * 2 ^ (15 - l)).sum = 2 ^ 15

/-- Every meaningful entry of `trans` is below `n` (R31, R154 d). -/
def TransBelow (t : Tree) (n : Nat) : Prop := ∀ i, i < t.table.toList.sum → entry t.trans i < n

/-- A tree that BUILD_TREE accepts and that has at least one code (I5 of R36, R172), with at most 288 codes (R154 b) and
symbols below `n`. -/
structure TreeOk (n : Nat) (t : Tree) : Prop where
  kraft : KraftEq t
  size : t.table.toList.sum ≤ 288
  below : TransBelow t n
  built : t.built = true

/-- A distance tree in a body: usable, or empty and then never decoded from (R153, R223). -/
def DistTreeOk (t : Tree) : Prop := TreeOk 32 t ∨ (t.maxSym = -1 ∧ t.built = true)

/-- What a run keeps between two steps (R36, R172, R204, R342): enough for no step of it to stop (R304). -/
structure RunInv (s : State) : Prop where
  core : CoreInv s
  reader : ReaderInv s
  written : WrittenInv s
  noRequest : s.request = none
  readable : SourceReadable s
  lengthsLe : ∀ i, entry s.lengths i ≤ 15
  header : s.phase = .run → s.seq = .codeLen →
    257 ≤ s.hlit ∧ s.hlit ≤ 286 ∧ 1 ≤ s.hdist ∧ s.hdist ≤ 30 ∧ s.num ≤ s.hlit + s.hdist ∧ TreeOk 20 s.ltree
  body : s.phase = .run → s.seq = .litLen → TreeOk 288 s.ltree ∧ DistTreeOk s.dtree
  pair : s.phase = .run → s.seq = .dist → TreeOk 288 s.ltree ∧ TreeOk 32 s.dtree

/-- The run goes on for ever without a stop: every number of steps answers a next state. -/
def NeverStops (s : State) : Prop := ∀ k, Answers (Host.Core.run core k s)

/-- The run has ended with an error that the host sees (R294, R347): its status, length 0, phase DONE. What the model
says of OUT after an error is its own choice (log entry 7) and no part of this. -/
def Raises (o : Host.Outcome State Fault Refusal) (st : Status) : Prop :=
  ∃ t, o = .next t ∧ t.phase = .done ∧ t.status = st ∧ t.destLenOut = 0

/-- A next byte can be had from the bit reader or it is exhausted: what a read needs in any state (R130). -/
structure ReaderReady (s : State) : Prop where
  readable : SourceReadable s
  srcLe : s.src ≤ s.sourceLen
  bitcountLe : s.bitcount ≤ 7

/-- Rows of the opcode table's format LL: the instruction, its symbol, its base and its number of extra bits (R98). -/
def lenRows : List (Instr × Nat × Nat × Nat) :=
  [(.len257, 257, 3, 0), (.len258, 258, 4, 0), (.len259, 259, 5, 0), (.len260, 260, 6, 0), (.len261, 261, 7, 0),
    (.len262, 262, 8, 0), (.len263, 263, 9, 0), (.len264, 264, 10, 0), (.len265, 265, 11, 1), (.len266, 266, 13, 1),
    (.len267, 267, 15, 1), (.len268, 268, 17, 1), (.len269, 269, 19, 2), (.len270, 270, 23, 2), (.len271, 271, 27, 2),
    (.len272, 272, 31, 2), (.len273, 273, 35, 3), (.len274, 274, 43, 3), (.len275, 275, 51, 3), (.len276, 276, 59, 3),
    (.len277, 277, 67, 4), (.len278, 278, 83, 4), (.len279, 279, 99, 4), (.len280, 280, 115, 4),
    (.len281, 281, 131, 5), (.len282, 282, 163, 5), (.len283, 283, 195, 5), (.len284, 284, 227, 5),
    (.len285, 285, 258, 0)]

/-- Rows of the opcode table's format DS, in the same form (R99). -/
def distRows : List (Instr × Nat × Nat × Nat) :=
  [(.dist0, 0, 1, 0), (.dist1, 1, 2, 0), (.dist2, 2, 3, 0), (.dist3, 3, 4, 0), (.dist4, 4, 5, 1), (.dist5, 5, 7, 1),
    (.dist6, 6, 9, 2), (.dist7, 7, 13, 2), (.dist8, 8, 17, 3), (.dist9, 9, 25, 3), (.dist10, 10, 33, 4),
    (.dist11, 11, 49, 4), (.dist12, 12, 65, 5), (.dist13, 13, 97, 5), (.dist14, 14, 129, 6), (.dist15, 15, 193, 6),
    (.dist16, 16, 257, 7), (.dist17, 17, 385, 7), (.dist18, 18, 513, 8), (.dist19, 19, 769, 8),
    (.dist20, 20, 1025, 9), (.dist21, 21, 1537, 9), (.dist22, 22, 2049, 10), (.dist23, 23, 3073, 10),
    (.dist24, 24, 4097, 11), (.dist25, 25, 6145, 11), (.dist26, 26, 8193, 12), (.dist27, 27, 12289, 12),
    (.dist28, 28, 16385, 13), (.dist29, 29, 24577, 13)]

/-- The 19 code lengths of a dynamic header's code-length alphabet, as the stream gives them from position `p` on: the
`i`-th of the `hclen` fields belongs to symbol `CLORDER[i]`, the others are 0 (R95, R193). -/
def headerClens (s : State) (p hclen : Nat) : List Nat :=
  (List.range 19).map fun sym => if clOrder.idxOf sym < hclen then field s (p + 3 * clOrder.idxOf sym) 3 else 0

/-- How many symbols of a length set have a code. -/
def codedCount (lens : List Nat) : Nat := lens.countP (0 < ·)

/-- The Kraft sum of a length set, in units of 2^−15 (R36 I5). -/
def kraftSum (lens : List Nat) : Nat := ((List.range 15).map fun l => lens.count (l + 1) * 2 ^ (14 - l)).sum

/-- The next whole byte after position `p` (R261). -/
def alignedByte (p : Nat) : Nat := (p + 7) / 8

/-- The slice of `lengths` that BUILD_TREE reads (R150). -/
def slice (s : State) (off num : Nat) : List Nat := (s.lengths.toList.drop off).take num

/-- The zero runs of the code-length alphabet: the instruction, its symbol, its base and its number of extra bits (R197,
R198). -/
def zeroRows : List (Instr × Nat × Nat × Nat) := [(.cl17, 17, 3, 3), (.cl18, 18, 11, 7)]

end Sys2Proof
end

