-- ==== Sys2Proof/Certificates/Slice0/Obligations.lean ====
section
/-! DEFINITION. The statements for the provers: each says in its docstring which rule of the spec it formalises, and which
log entry where a clause is the model's own choice. -/

open Sys2Proof Sys2Proof.Machine

/-! ## The host, exceptions, the step -/

/-- Hardware reset abandons the run: phase IDLE, and no status is reported (R330). The other reset values are the model's
choice (log entry 5). -/
def Obligations.HardwareResetAbandonsTheRun : Prop :=
  ∀ s, s.request = some .reset →
    step s = .next State.reset ∧ State.reset.phase = .idle ∧ hostResult State.reset = none

/-- START (R331): in phase IDLE or DONE the six fields are set to 0, the run's parameters are taken, the phase is RUN. -/
def Obligations.StartInitialisesTheRun : Prop :=
  ∀ (s : State) (bytes : List Byte) (cap : Nat), s.phase ≠ .run →
    ∃ t, step { s with request := some (.start bytes bytes.length cap) } = .next t
      ∧ t.sourceLen = bytes.length ∧ t.destCap = cap ∧ (∀ a, memRead t.source a = bytes[a]?)
      ∧ t.src = 0 ∧ t.tag = 0 ∧ t.bitcount = 0 ∧ t.overflow = false ∧ t.dest = 0 ∧ t.destLen = 0 ∧ t.phase = .run

/-- What START does not initialise (R332) is left as it was: that it keeps its old value is the model's choice (log entry
23). -/
def Obligations.StartLeavesTheRestAlone : Prop :=
  ∀ (s t : State) (bytes : List Byte) (len cap : Nat),
    step { s with request := some (.start bytes len cap) } = .next t →
      t.out = s.out ∧ t.lengths = s.lengths ∧ t.bfinal = s.bfinal ∧ t.status = s.status ∧ t.destLenOut = s.destLenOut
        ∧ t.ltree.table = s.ltree.table ∧ t.ltree.trans = s.ltree.trans ∧ t.ltree.maxSym = s.ltree.maxSym
        ∧ t.dtree.table = s.dtree.table ∧ t.dtree.trans = s.dtree.trans ∧ t.dtree.maxSym = s.dtree.maxSym

/-- R346: during RUN the host's three actions are refused (and a read of SRC, R304 case 8 and D12); in phases IDLE and DONE
the core touches nothing. -/
def Obligations.HostIsShutOutDuringRun : Prop :=
  (∀ (s : State) (bytes : List Byte) (len cap : Nat), s.phase = .run →
      step { s with request := some (.start bytes len cap) } = .refused .startDuringRun)
    ∧ (∀ (s : State) (a : HostAction) (i : Nat) (v : Byte), s.phase = .run →
        a = .writeSrc i v ∨ a = .readSrc i ∨ a = .writeOut i v ∨ a = .readOut i → ∃ r, step { s with request := some a } = .refused r)
    ∧ ∀ s : State, s.phase ≠ .run → s.request = none → s.issue = none → step s = .next s

/-- R294: what a raise does. `status` gets the code, `dest_len_out` is 0, the phase is DONE; the rest of the state keeps
what it held (OUT apart, which is any value after an error, R296). -/
def Obligations.RaiseEndsTheRun : Prop :=
  (∀ (c : Cause) (s : State),
      (Res.raised c s : Res Unit).finish = .next (takeException c s)
        ∧ (takeException c s).status
            = (if c = .literalNoRoom ∨ c = .matchNoRoom ∨ c = .storedNoRoom then .bufError else .dataError)
        ∧ (takeException c s).destLenOut = 0 ∧ (takeException c s).phase = .done
        ∧ { takeException c s with status := s.status, destLenOut := s.destLenOut, phase := s.phase, out := s.out } = s)
    ∧ Status.code .dataError = -3 ∧ Status.code .bufError = -5

/-- A step of a run fetches the element that the mode says follows, decodes it and executes it in the state after the
fetch (R103, R344); an operation issued on its own is executed (log entries 1 and 3). -/
def Obligations.StepRunsTheDecodedInstruction : Prop :=
  (∀ (s t : State) (f : Format) (n : Nat) (i : Instr),
      s.request = none → s.issue = none → s.phase = .run → mode s = some f → fetch f s = .ok n t →
      decode ⟨f, n, [], []⟩ = .ok i → step s = exec i t)
    ∧ ∀ (s : State) (i : Instr), s.request = none → s.issue = some i → step s = exec i { s with issue := none }

/-- Between blocks (R270, R276, R277): after a final block the `overflow` test, then the results and phase DONE; after
another block the next header. -/
def Obligations.BlockEndDecides : Prop :=
  ∀ s : State, s.request = none → s.issue = none → s.phase = .run → s.seq = .blockEnd →
    (s.bfinal = true → s.overflow = true → Raises (step s) .dataError)
      ∧ (s.bfinal = true → s.overflow = false →
          step s = .next { s with status := .ok, destLenOut := s.destLen, phase := .done })
      ∧ (s.bfinal = false → step s = .next { s with seq := .header })

/-! ## Encoding -/

/-- Decoding what the encoder writes gives the instruction back, with every operand (R105, R107; operands of operations:
log entry 17). -/
def Obligations.DecodeInvertsEncode : Prop :=
  ∀ i : Instr, WellFormed i = true → decode (encode i) = .ok i

/-- Some selectors written out from the spec's tables (R92, R97, R98, R99). -/
def Obligations.WrittenSelectorsDecode : Prop :=
  decode ⟨.bh, 0b001, [], []⟩ = .ok (.stored true) ∧ decode ⟨.bh, 0b010, [], []⟩ = .ok (.fixed false)
    ∧ decode ⟨.bh, 0b101, [], []⟩ = .ok (.dynamic true) ∧ decode ⟨.bh, 0b111, [], []⟩ = .ok (.reserved true)
    ∧ decode ⟨.ll, 0x048, [], []⟩ = .ok (.lit 0x48) ∧ decode ⟨.ll, 0x100, [], []⟩ = .ok .eob
    ∧ decode ⟨.ll, 0x10D, [], []⟩ = .ok .len269 ∧ decode ⟨.ll, 0x11E, [], []⟩ = .ok .rsvd286
    ∧ decode ⟨.ds, 0x1D, [], []⟩ = .ok .dist29 ∧ decode ⟨.ds, 0x1E, [], []⟩ = .ok .rsvd30
    ∧ decode ⟨.cl, 0x0F, [], []⟩ = .ok (.cl 15) ∧ decode ⟨.cl, 0x12, [], []⟩ = .ok .cl18
    ∧ decode ⟨.cl, 0x13, [], []⟩ = .ok .sentinel19 ∧ decode ⟨.op, 0x9, [], []⟩ = .ok .inflateUncompressed
    ∧ decode ⟨.ll, 0x120, [], []⟩ = .error .litLenSymbol ∧ decode ⟨.cl, 0x14, [], []⟩ = .error .clSymbol

/-! ## The bit reader -/

/-- R134, R130: which REFILLs are accepted, what an accepted one leaves, and which are refused. With `k` turns,
`k = ⌈(n − bitcount) / 8⌉`, `bitcount` grows by `8·k`, and `tag` keeps its bits and gets the next `8·k` bits of the stream
from bit `bitcount` on (zeros past the end of the source). -/
def Obligations.RefillHoldsEnoughOrRefuses : Prop :=
  ∀ (s : State) (n : Nat), SourceReadable s → s.src ≤ s.sourceLen →
    (s.bitcount < n → 32 < s.bitcount + 8 * ((n - s.bitcount + 7) / 8) → exec (.refill n) s = .refused .refillTooWide)
      ∧ ((n ≤ s.bitcount ∨ s.bitcount + 8 * ((n - s.bitcount + 7) / 8) ≤ 32) →
          ∃ t, exec (.refill n) s = .next t ∧ n ≤ t.bitcount ∧ t.bitcount ≤ max s.bitcount (n + 7)
            ∧ t.bitcount = s.bitcount + 8 * ((n - s.bitcount + 7) / 8)
            ∧ (∀ i, t.tag.getLsbD i
                = (s.tag.getLsbD i
                    || (decide (s.bitcount ≤ i ∧ i < t.bitcount) && streamBit s (8 * s.src + (i - s.bitcount)))))
            ∧ (n ≤ s.bitcount → t = s)
            ∧ (t.overflow = true ↔
                s.overflow = true ∨ (s.bitcount < n ∧ s.sourceLen - s.src < (n - s.bitcount + 7) / 8))
            ∧ t.src = min s.sourceLen (s.src + (n - s.bitcount + 7) / 8)
            ∧ { t with src := s.src, tag := s.tag, bitcount := s.bitcount, overflow := s.overflow } = s)

/-- R131: CONSUME returns the low `n` bits of `tag`, shifts `tag` right and takes `n` from `bitcount`; with too few bits
it is refused. -/
def Obligations.ConsumeTakesTheLowBits : Prop :=
  ∀ (s : State) (n : Nat),
    (n ≤ s.bitcount →
        exec (.consume n) s
          = .next { s with tag := s.tag >>> n, bitcount := s.bitcount - n, ret := s.tag.toNat % 2 ^ n })
      ∧ (s.bitcount < n → exec (.consume n) s = .refused .consumeTooMany)

/-- R135: what GETBITS returns. (a) From position `p` of the stream, with `overflow = 0`: the field at `p`; the position
moves to `p + n`; `overflow` is set if and only if the field runs past the end. (b) With `overflow = 1` and the source
exhausted: the low `n` bits of `tag`; `overflow` stays. -/
def Obligations.GetbitsReturnsTheStreamField : Prop :=
  (∀ (s : State) (p n : Nat), AtPosition s p → n ≤ 16 →
      (p + n ≤ 8 * s.sourceLen → exec (.getbits n) s = .next { seek s (p + n) with ret := field s p n })
        ∧ (8 * s.sourceLen < p + n →
            ∃ t, exec (.getbits n) s = .next t ∧ t.ret = field s p n ∧ t.overflow = true ∧ t.src = s.sourceLen
              ∧ { t with src := s.src, tag := s.tag, bitcount := s.bitcount, overflow := s.overflow, ret := s.ret } = s))
    ∧ ∀ (s : State) (n : Nat), CoreInv s → ReaderReady s → s.overflow = true → n ≤ 16 →
        s.src = s.sourceLen
          ∧ ∃ t, exec (.getbits n) s = .next t ∧ t.ret = s.tag.toNat % 2 ^ n ∧ t.overflow = true ∧ t.src = s.sourceLen
            ∧ t.tag = s.tag >>> n
            ∧ { t with tag := s.tag, bitcount := s.bitcount, ret := s.ret } = s

/-- R133: GETBITS_BASE is `base` when `n = 0`, else `base` plus what GETBITS returns, in the state GETBITS leaves. -/
def Obligations.GetbitsBaseAddsTheField : Prop :=
  ∀ (s : State) (n base : Nat),
    exec (.getbitsBase 0 base) s = .next { s with ret := base }
      ∧ (0 < n → n ≤ 16 → ReaderReady s →
          ∃ t, exec (.getbits n) s = .next t ∧ exec (.getbitsBase n base) s = .next { t with ret := base + t.ret })

/-- R134: GETBITS and GETBITS_BASE wider than 16 bits are refused. -/
def Obligations.WideGetbitsRefused : Prop :=
  ∀ (s : State) (n base : Nat), 16 < n →
    exec (.getbits n) s = .refused .getbitsTooWide ∧ exec (.getbitsBase n base) s = .refused .getbitsTooWide

/-! ## Trees -/

/-- Which length sets BUILD_TREE accepts (R150 steps 4 and 5, R152, R153, R36 I5): none coded, one symbol of length 1, or
two or more whose Kraft sum is 1. -/
def Obligations.BuilderAcceptsExactlyCompleteCodes : Prop :=
  ∀ lens : List Nat, (∀ l ∈ lens, l ≤ 15) →
    (buildCheck lens = none ↔
      codedCount lens = 0 ∨ (codedCount lens = 1 ∧ 1 ∈ lens) ∨ (2 ≤ codedCount lens ∧ kraftSum lens = 2 ^ 15))

/-- R154: the postconditions a to h of a successful BUILD_TREE, and that it does answer. -/
def Obligations.BuildTreePostconditions : Prop :=
  ∀ (s : State) (id : TreeId) (off num : Nat), buildContract s.lengths off num = true →
    buildCheck (slice s off num) = none →
    ∃ u, exec (.buildTree id off num) s = .next u ∧ setTree id (getTree id s) u = s
      ∧ (getTree id u).built = true
      ∧ entry (getTree id u).table 0 = 0
      ∧ (∀ l, 1 ≤ l → l ≤ 15 →
          entry (getTree id u).table l
            = if codedCount (slice s off num) = 1 ∧ l = 1 then 2 else (slice s off num).count l)
      ∧ (getTree id u).table.toList.sum
          = (if codedCount (slice s off num) = 1 then 2 else codedCount (slice s off num))
      ∧ (codedCount (slice s off num) ≠ 1 → ∀ i, i < codedCount (slice s off num) →
          entry (getTree id u).trans i < num ∧ 0 < (slice s off num).getD (entry (getTree id u).trans i) 0)
      ∧ (codedCount (slice s off num) ≠ 1 → ∀ i j, i < j → j < codedCount (slice s off num) →
          (slice s off num).getD (entry (getTree id u).trans i) 0 < (slice s off num).getD (entry (getTree id u).trans j) 0
            ∨ ((slice s off num).getD (entry (getTree id u).trans i) 0
                  = (slice s off num).getD (entry (getTree id u).trans j) 0
                ∧ entry (getTree id u).trans i < entry (getTree id u).trans j))
      ∧ (codedCount (slice s off num) = 1 →
          entry (getTree id u).trans 0 < num ∧ 0 < (slice s off num).getD (entry (getTree id u).trans 0) 0
            ∧ (getTree id u).maxSym = entry (getTree id u).trans 0
            ∧ entry (getTree id u).trans 1 = entry (getTree id u).trans 0 + 1)
      ∧ (codedCount (slice s off num) = 0 → (getTree id u).maxSym = -1)
      ∧ (0 < codedCount (slice s off num) →
          ∃ m, m < num ∧ (getTree id u).maxSym = m ∧ 0 < (slice s off num).getD m 0
            ∧ ∀ i, m < i → (slice s off num).getD i 0 = 0)
      ∧ (2 ≤ (getTree id u).table.toList.sum → KraftEq (getTree id u))
      ∧ (∀ i, (getTree id u).table.toList.sum ≤ i → entry (getTree id u).trans i = entry (getTree id s).trans i)
      ∧ u.lengths = s.lengths

/-- R155: a failing BUILD_TREE leaves the counts and `max_sym` in the tree and `trans` unchanged; the run has ended. -/
def Obligations.FailedBuildLeavesTheCounts : Prop :=
  ∀ (s : State) (id : TreeId) (off num : Nat) (c : Cause), buildContract s.lengths off num = true →
    buildCheck (slice s off num) = some c →
    ∃ u, exec (.buildTree id off num) s = .next u ∧ u.status = .dataError ∧ u.phase = .done ∧ u.destLenOut = 0
      ∧ (getTree id u).trans = (getTree id s).trans
      ∧ entry (getTree id u).table 0 = 0
      ∧ (∀ l, 1 ≤ l → l ≤ 15 → entry (getTree id u).table l = (slice s off num).count l)
      ∧ ∃ m, m < num ∧ (getTree id u).maxSym = m ∧ 0 < (slice s off num).getD m 0
          ∧ ∀ i, m < i → (slice s off num).getD i 0 = 0

/-- R156: outside its input contract BUILD_TREE is refused. -/
def Obligations.BuildTreeOutsideContractRefused : Prop :=
  ∀ (s : State) (id : TreeId) (off num : Nat),
    (288 < num ∨ 320 < off + num ∨ ∃ l ∈ slice s off num, 15 < l) →
    exec (.buildTree id off num) s = .refused .buildTreeContract

/-- R171: DECODE_SYMBOL returns the symbol whose canonical code (R96) is the bits read, and consumes exactly that code's
bits. -/
def Obligations.DecodeSymbolInvertsTheCanonicalCode : Prop :=
  ∀ (s : State) (id : TreeId) (lens : List Nat) (old : Tree) (p i : Nat),
    lens.length ≤ 288 → (∀ l ∈ lens, l ≤ 15) → buildCheck lens = none → getTree id s = finishedTree lens old →
    0 < lens.getD i 0 → AtPosition s p → StreamHas s p (codeBits lens i) →
    exec (.decodeSymbol id) s = .next { seek s (p + lens.getD i 0) with ret := i }

/-- R172: on a tree with the Kraft equality DECODE_SYMBOL ends on every bit sequence, real or zero-filled, and its result
is a meaningful entry of `trans`. -/
def Obligations.DecodeSymbolEndsOnCompleteTrees : Prop :=
  ∀ (s : State) (id : TreeId), KraftEq (getTree id s) → (getTree id s).table.toList.sum ≤ 288 → ReaderReady s →
    ∃ t, exec (.decodeSymbol id) s = .next t
      ∧ (∃ i, i < (getTree id s).table.toList.sum ∧ t.ret = entry (getTree id s).trans i)
      ∧ ReaderReady t
      ∧ { t with src := s.src, tag := s.tag, bitcount := s.bitcount, overflow := s.overflow, ret := s.ret } = s

/-- R173: with no code within 15 bits (the empty tree) the model refuses at the sixteenth bit. -/
def Obligations.EmptyTreeRefusesToDecode : Prop :=
  ∀ (s : State) (id : TreeId), (∀ l, entry (getTree id s).table l = 0) → ReaderReady s →
    exec (.decodeSymbol id) s = .refused .noCodeWithin15

/-- R180, R183: what BUILD_FIXED_TREES writes, entry by entry, and that it changes nothing else; FIXED builds the same
trees and the body follows (R273). -/
def Obligations.FixedTreesAreWritten : Prop :=
  ∀ (s : State) (b : Bool), ∃ t,
    exec .buildFixedTrees s = .next t
      ∧ exec (.fixed b) s = .next { t with bfinal := b, seq := .litLen }
      ∧ (∀ l, entry t.ltree.table l = if l = 7 then 24 else if l = 8 then 152 else if l = 9 then 112 else 0)
      ∧ (∀ l, entry t.dtree.table l = if l = 5 then 32 else 0)
      ∧ (∀ i, i < 24 → entry t.ltree.trans i = 256 + i) ∧ (∀ i, i < 144 → entry t.ltree.trans (24 + i) = i)
      ∧ (∀ i, i < 8 → entry t.ltree.trans (168 + i) = 280 + i)
      ∧ (∀ i, i < 112 → entry t.ltree.trans (176 + i) = 144 + i)
      ∧ (∀ i, i < 32 → entry t.dtree.trans i = i) ∧ (∀ i, 32 ≤ i → entry t.dtree.trans i = entry s.dtree.trans i)
      ∧ t.ltree.maxSym = 285 ∧ t.dtree.maxSym = 29 ∧ { t with ltree := s.ltree, dtree := s.dtree } = s

/-- R100: with the fixed trees in force every symbol, the reserved ones included, has the code of the table: decoding it
gives the symbol and consumes the code; the codes are the canonical ones of R96. -/
def Obligations.FixedCodesDecode : Prop :=
  (∀ (s : State) (p sym : Nat), s.ltree = fixedLitTree → sym < 288 → AtPosition s p → StreamHas s p (fixedLitCode sym) →
      exec (.decodeSymbol .ltree) s = .next { seek s (p + (fixedLitCode sym).length) with ret := sym })
    ∧ (∀ (s : State) (old : Tree) (p d : Nat), s.dtree = fixedDistTree old → d < 32 → AtPosition s p →
        StreamHas s p (fixedDistCode d) →
        exec (.decodeSymbol .dtree) s = .next { seek s (p + 5) with ret := d })
    ∧ (∀ sym, sym < 288 → codeBits fixedLitLengths sym = fixedLitCode sym)
    ∧ ∀ d, d < 32 → codeBits fixedDistLengths d = fixedDistCode d

/-- R182: the fixed trees are what the builder makes of the lengths they stand for, but for `max_sym`. -/
def Obligations.FixedTreesAgreeWithTheBuilder : Prop :=
  buildCheck fixedLitLengths = none ∧ buildCheck fixedDistLengths = none
    ∧ (∀ old, { finishedTree fixedLitLengths old with maxSym := 285 } = fixedLitTree)
    ∧ (∀ old, { finishedTree fixedDistLengths old with maxSym := 29 } = fixedDistTree old)
    ∧ ∀ old, (finishedTree fixedLitLengths old).maxSym = 287 ∧ (finishedTree fixedDistLengths old).maxSym = 31

/-! ## Block headers -/

/-- R260, R261, R264: an uncompressed block whose LEN and NLEN agree and that fits is copied verbatim; both the operation
and the element STORED. -/
def Obligations.StoredBlockIsCopied : Prop :=
  ∀ (s : State) (p : Nat) (b : Bool), AtPosition s p → 8 * alignedByte p + 32 ≤ 8 * s.sourceLen →
    field s (8 * alignedByte p) 16 + field s (8 * alignedByte p + 16) 16 = 65535 →
    alignedByte p + 4 + field s (8 * alignedByte p) 16 ≤ s.sourceLen →
    s.dest + field s (8 * alignedByte p) 16 ≤ s.destCap →
    ∃ t, exec .inflateUncompressed s = .next t
      ∧ exec (.stored b) s = .next { t with bfinal := b, seq := .blockEnd }
      ∧ (∀ i, i < field s (8 * alignedByte p) 16 →
          memRead t.out (s.dest + i) = memRead s.source (alignedByte p + 4 + i))
      ∧ (∀ a, a < s.dest ∨ s.dest + field s (8 * alignedByte p) 16 ≤ a → memRead t.out a = memRead s.out a)
      ∧ { t with out := s.out }
          = { s with
              tag := 0, bitcount := 0, src := alignedByte p + 4 + field s (8 * alignedByte p) 16
              dest := s.dest + field s (8 * alignedByte p) 16, destLen := s.destLen + field s (8 * alignedByte p) 16 }

/-- R263: the three tests in their order; a short source wins over lack of room. -/
def Obligations.StoredBlockTestsInOrder : Prop :=
  ∀ (s : State) (p : Nat), AtPosition s p → 8 * alignedByte p + 32 ≤ 8 * s.sourceLen →
    (field s (8 * alignedByte p) 16 + field s (8 * alignedByte p + 16) 16 ≠ 65535 →
        Raises (exec .inflateUncompressed s) .dataError)
      ∧ (field s (8 * alignedByte p) 16 + field s (8 * alignedByte p + 16) 16 = 65535 →
          s.sourceLen < alignedByte p + 4 + field s (8 * alignedByte p) 16 →
          Raises (exec .inflateUncompressed s) .dataError)
      ∧ (field s (8 * alignedByte p) 16 + field s (8 * alignedByte p + 16) 16 = 65535 →
          alignedByte p + 4 + field s (8 * alignedByte p) 16 ≤ s.sourceLen →
          s.destCap < s.dest + field s (8 * alignedByte p) 16 →
          Raises (exec .inflateUncompressed s) .bufError)

/-- R262: with fewer than four bytes left, or with the source already run out, an uncompressed block is always rejected
with TINF_DATA_ERROR. -/
def Obligations.TruncatedStoredBlockRejected : Prop :=
  ∀ (s : State) (b : Bool), ReaderReady s → (s.overflow = true → s.src = s.sourceLen) → s.sourceLen < s.src + 4 →
    Raises (exec .inflateUncompressed s) .dataError ∧ Raises (exec (.stored b) s) .dataError

/-- R191 to R194: DYNAMIC reads the three counts and the `clen` fields, puts them in place through CLORDER and builds the
code-length tree; then the code-length items follow. Code-length lengths that the builder rejects, or that code no symbol
(CLTREE_EMPTY), are TINF_DATA_ERROR, for DECODE_TREES too. -/
def Obligations.DynamicHeaderBuildsTheCodeLengthTree : Prop :=
  ∀ (s : State) (p : Nat) (b : Bool), AtPosition s p → field s p 5 ≤ 29 → field s (p + 5) 5 ≤ 29 →
    p + 14 + 3 * (4 + field s (p + 10) 4) ≤ 8 * s.sourceLen →
    (buildCheck (headerClens s (p + 14) (4 + field s (p + 10) 4)) ≠ none
        ∨ codedCount (headerClens s (p + 14) (4 + field s (p + 10) 4)) = 0 →
        Raises (exec (.dynamic b) s) .dataError ∧ Raises (exec .decodeTrees s) .dataError)
      ∧ (buildCheck (headerClens s (p + 14) (4 + field s (p + 10) 4)) = none →
          0 < codedCount (headerClens s (p + 14) (4 + field s (p + 10) 4)) →
          ∃ t, exec (.dynamic b) s = .next t
            ∧ t.hlit = 257 + field s p 5 ∧ t.hdist = 1 + field s (p + 5) 5 ∧ t.num = 0 ∧ t.seq = .codeLen ∧ t.bfinal = b
            ∧ t.ltree = finishedTree (headerClens s (p + 14) (4 + field s (p + 10) 4)) s.ltree
            ∧ (∀ i, i < 19 → entry t.lengths i = (headerClens s (p + 14) (4 + field s (p + 10) 4)).getD i 0)
            ∧ (∀ i, 19 ≤ i → entry t.lengths i = entry s.lengths i)
            ∧ { t with hlit := s.hlit, hdist := s.hdist, num := s.num, seq := s.seq, bfinal := s.bfinal
                       ltree := s.ltree, lengths := s.lengths }
                = seek s (p + 14 + 3 * (4 + field s (p + 10) 4)))

/-- R192: HLIT above 286 or HDIST above 30 is TINF_DATA_ERROR, whatever follows. -/
def Obligations.CountsOutOfRangeRejected : Prop :=
  ∀ (s : State) (p : Nat) (b : Bool), AtPosition s p → p + 14 ≤ 8 * s.sourceLen →
    286 < 257 + field s p 5 ∨ 30 < 1 + field s (p + 5) 5 →
    Raises (exec (.dynamic b) s) .dataError ∧ Raises (exec .decodeTrees s) .dataError

/-- R275: a block header with BTYPE 3 always raises, whatever BFINAL is and in every state. -/
def Obligations.ReservedBlockTypeRejected : Prop :=
  ∀ (s : State) (f : Bool),
    decode ⟨.bh, f.toNat + 6, [], []⟩ = .ok (.reserved f) ∧ Raises (exec (.reserved f) s) .dataError

/-! ## The block body -/

/-- R221: a literal, with its selector. -/
def Obligations.LiteralIsWritten : Prop :=
  ∀ (s : State) (v : Byte),
    decode ⟨.ll, v.toNat, [], []⟩ = .ok (.lit v)
      ∧ (s.overflow = true → Raises (exec (.lit v) s) .dataError)
      ∧ (s.overflow = false → s.dest = s.destCap → Raises (exec (.lit v) s) .bufError)
      ∧ (s.overflow = false → s.dest < s.destCap →
          exec (.lit v) s
            = .next { s with out := memWrite s.out s.dest v, dest := s.dest + 1, destLen := s.destLen + 1 }
          ∧ memRead (memWrite s.out s.dest v) s.dest = some v
          ∧ ∀ a, a ≠ s.dest → memRead (memWrite s.out s.dest v) a = memRead s.out a)

/-- R222: the end of a block, with its selector and fixed code: control goes back to the dispatcher, nothing else changes;
an EOB met with `overflow` set raises. -/
def Obligations.EndOfBlockReturns : Prop :=
  decode ⟨.ll, 0x100, [], []⟩ = .ok .eob ∧ fixedLitCode 256 = [false, false, false, false, false, false, false]
    ∧ ∀ s : State,
      (s.overflow = false → exec .eob s = .next { s with seq := .blockEnd })
        ∧ (s.overflow = true → Raises (exec .eob s) .dataError)

/-- R223: each length symbol reads its extra bits and holds `base + extra` for the distance symbol that must follow; the
rows are those of R98. -/
def Obligations.LengthSymbolsReadTheirLength : Prop :=
  ∀ (i : Instr) (sym base bits : Nat), (i, sym, base, bits) ∈ lenRows →
    decode ⟨.ll, sym, [], []⟩ = .ok i
      ∧ (∀ s : State, ReaderReady s → s.overflow = false → sym ≤ s.ltree.maxSym → s.dtree.maxSym ≠ -1 →
          ∃ v u, getBits bits s = .ok v u ∧ exec i s = .next { u with matchLen := base + v, seq := .dist })
      ∧ ∀ (s : State) (p : Nat), AtPosition s p → sym ≤ s.ltree.maxSym → s.dtree.maxSym ≠ -1 →
          p + bits ≤ 8 * s.sourceLen →
          exec i s = .next { seek s (p + bits) with matchLen := base + field s p bits, seq := .dist }

/-- R226, R223: the tests of a literal/length symbol above 256 in their order, for the reserved symbols too: `overflow`,
`s > LT.max_sym`, no distance codes; symbols 286 and 287 never get past them. -/
def Obligations.LengthSymbolsRejected : Prop :=
  (∀ (i : Instr) (sym base bits : Nat), (i, sym, base, bits) ∈ lenRows → ∀ s : State,
      s.overflow = true ∨ s.ltree.maxSym < sym ∨ s.dtree.maxSym = -1 → Raises (exec i s) .dataError)
    ∧ ∀ s : State, Raises (exec .rsvd286 s) .dataError ∧ Raises (exec .rsvd287 s) .dataError

/-- R224, R225: each distance symbol reads its extra bits; a match that reaches back no farther than the output and fits is
copied: byte `i` is byte `i mod offs` of the `offs` bytes behind `dest`; no other byte changes. The rows are those of
R99. -/
def Obligations.DistanceSymbolsCopyTheMatch : Prop :=
  ∀ (i : Instr) (d base bits : Nat), (i, d, base, bits) ∈ distRows →
    decode ⟨.ds, d, [], []⟩ = .ok i
      ∧ ∀ s : State, ReaderReady s → s.destLen = s.dest → (∀ a, a < s.dest → (memRead s.out a).isSome) →
        d ≤ s.dtree.maxSym →
        ∃ v u, getBits bits s = .ok v u
          ∧ (base + v ≤ s.destLen → s.dest + s.matchLen ≤ s.destCap →
            ∃ t, exec i s = .next t
              ∧ (∀ j, j < s.matchLen → memRead t.out (s.dest + j) = matchByte s.out s.dest (base + v) j)
              ∧ (∀ a, a < s.dest ∨ s.dest + s.matchLen ≤ a → memRead t.out a = memRead s.out a)
              ∧ { t with out := s.out }
                  = { u with dest := s.dest + s.matchLen, destLen := s.destLen + s.matchLen, seq := .litLen })

/-- R224 at a stream position: the distance is `base` plus the field at the position. -/
def Obligations.DistanceIsReadFromTheStream : Prop :=
  ∀ (i : Instr) (d base bits : Nat), (i, d, base, bits) ∈ distRows → ∀ (s : State) (p : Nat),
    AtPosition s p → p + bits ≤ 8 * s.sourceLen → s.destLen = s.dest → (∀ a, a < s.dest → (memRead s.out a).isSome) →
    d ≤ s.dtree.maxSym → base + field s p bits ≤ s.destLen → s.dest + s.matchLen ≤ s.destCap →
    ∃ t, exec i s = .next t ∧ t.src = (seek s (p + bits)).src ∧ t.bitcount = (seek s (p + bits)).bitcount
      ∧ t.tag = (seek s (p + bits)).tag ∧ t.dest = s.dest + s.matchLen
      ∧ ∀ j, j < s.matchLen → memRead t.out (s.dest + j) = matchByte s.out s.dest (base + field s p bits) j

/-- R227, R230: the tests of a distance symbol in their order: range, too far (DATA) before no room (BUF); symbols 30 and
31 never get past the first. -/
def Obligations.DistanceSymbolsRejected : Prop :=
  (∀ (i : Instr) (d base bits : Nat), (i, d, base, bits) ∈ distRows → ∀ s : State,
      (s.dtree.maxSym < d → Raises (exec i s) .dataError)
        ∧ (ReaderReady s → d ≤ s.dtree.maxSym → ∃ v u, getBits bits s = .ok v u
            ∧ (s.destLen < base + v → Raises (exec i s) .dataError)
            ∧ (base + v ≤ s.destLen → s.destCap < s.dest + s.matchLen → Raises (exec i s) .bufError)))
    ∧ ∀ s : State, Raises (exec .rsvd30 s) .dataError ∧ Raises (exec .rsvd31 s) .dataError

/-! ## The dynamic header -/

/-- R195: a literal code length is one entry. -/
def Obligations.CodeLengthLiteralIsStored : Prop :=
  ∀ (s : State) (v : BitVec 4), (v.toNat : Int) ≤ s.ltree.maxSym → s.num < s.hlit + s.hdist → s.num < 320 →
    exec (.cl v) s = .next { s with lengths := s.lengths.setIfInBounds s.num v.toNat, num := s.num + 1 }

/-- R196: CL16 repeats the last entry 3 to 6 times; as the first item it raises before it reads. -/
def Obligations.RepeatPreviousCopiesTheLastLength : Prop :=
  ∀ s : State,
    (s.num = 0 → Raises (exec .cl16 s) .dataError)
      ∧ (16 ≤ s.ltree.maxSym → 0 < s.num → s.num ≤ s.hlit + s.hdist → s.hlit + s.hdist ≤ 320 → ReaderReady s →
          ∃ v u, getBits 2 s = .ok v u ∧ v ≤ 3
            ∧ (s.hlit + s.hdist < s.num + (3 + v) → Raises (exec .cl16 s) .dataError)
            ∧ (s.num + (3 + v) ≤ s.hlit + s.hdist →
                ∃ t, exec .cl16 s = .next t
                  ∧ (∀ k, entry t.lengths k
                      = if s.num ≤ k ∧ k < s.num + (3 + v) then entry s.lengths (s.num - 1) else entry s.lengths k)
                  ∧ { t with lengths := s.lengths } = { u with num := s.num + (3 + v) }))

/-- R197, R198, R200: CL17 and CL18 write a run of zeros; a run that would pass HLIT + HDIST raises and writes nothing. -/
def Obligations.ZeroRunsAreStored : Prop :=
  ∀ (i : Instr) (sym base bits : Nat), (i, sym, base, bits) ∈ zeroRows →
    decode ⟨.cl, sym, [], []⟩ = .ok i
      ∧ ∀ s : State, sym ≤ s.ltree.maxSym → s.hlit + s.hdist ≤ 320 → ReaderReady s →
        ∃ v u, getBits bits s = .ok v u
          ∧ (s.hlit + s.hdist < s.num + (base + v) →
              Raises (exec i s) .dataError ∧ ∀ t, exec i s = .next t → t.lengths = s.lengths ∧ t.num = s.num)
          ∧ (s.num + (base + v) ≤ s.hlit + s.hdist →
              ∃ t, exec i s = .next t
                ∧ (∀ k, entry t.lengths k = if s.num ≤ k ∧ k < s.num + (base + v) then 0 else entry s.lengths k)
                ∧ { t with lengths := s.lengths } = { u with num := s.num + (base + v) })

/-- R199: a decoded value above the code-length tree's `max_sym` is rejected, whatever it is; the sentinel 19 is. -/
def Obligations.ValuesAboveMaxSymRejected : Prop :=
  ∀ s : State,
    (∀ v : BitVec 4, s.ltree.maxSym < v.toNat → Raises (exec (.cl v) s) .dataError)
      ∧ (s.ltree.maxSym < 16 → Raises (exec .cl16 s) .dataError)
      ∧ (s.ltree.maxSym < 17 → Raises (exec .cl17 s) .dataError)
      ∧ (s.ltree.maxSym < 18 → Raises (exec .cl18 s) .dataError)
      ∧ Raises (exec .sentinel19 s) .dataError

/-- R201, R202: when all lengths are there, symbol 256 must have a code; then the literal/length tree and the distance
tree are built, in this order, and the body follows. -/
def Obligations.HeaderEndBuildsBothTrees : Prop :=
  ∀ s : State, s.request = none → s.issue = none → s.phase = .run → s.seq = .codeLen → s.num = s.hlit + s.hdist →
    257 ≤ s.hlit → s.hlit ≤ 286 → s.hdist ≤ 30 → (∀ i, entry s.lengths i ≤ 15) →
    (entry s.lengths 256 = 0 → Raises (step s) .dataError)
      ∧ (0 < entry s.lengths 256 →
          buildCheck (slice s 0 s.hlit) ≠ none ∨ buildCheck (slice s s.hlit s.hdist) ≠ none → Raises (step s) .dataError)
      ∧ (0 < entry s.lengths 256 → buildCheck (slice s 0 s.hlit) = none → buildCheck (slice s s.hlit s.hdist) = none →
          step s
            = .next
                { s with
                  ltree := finishedTree (slice s 0 s.hlit) s.ltree
                  dtree := finishedTree (slice s s.hlit s.hdist) s.dtree
                  seq := .litLen })

/-- R190: DECODE_TREES reads back a header that sends every code length as a literal code-length symbol, for every pair of
length sets the builder accepts. -/
def Obligations.DecodeTreesReadsBackAHeader : Prop :=
  ∀ (s : State) (p : Nat) (ll dl : List Nat), AtPosition s p → 257 ≤ ll.length → ll.length ≤ 286 → 1 ≤ dl.length →
    dl.length ≤ 30 → (∀ l ∈ ll ++ dl, l ≤ 15) → 0 < ll.getD 256 0 → buildCheck ll = none → buildCheck dl = none →
    StreamHas s p (plainHeader ll dl) →
    ∃ t, exec .decodeTrees s = .next t
      ∧ t.ltree = finishedTree ll (finishedTree (List.replicate 16 4 ++ List.replicate 3 0) s.ltree)
      ∧ t.dtree = finishedTree dl s.dtree
      ∧ (∀ i, i < (ll ++ dl).length → entry t.lengths i = (ll ++ dl).getD i 0)
      ∧ t.hlit = ll.length ∧ t.hdist = dl.length ∧ t.num = (ll ++ dl).length
      ∧ { t with ltree := s.ltree, dtree := s.dtree, lengths := s.lengths, hlit := s.hlit, hdist := s.hdist, num := s.num }
          = seek s (p + (plainHeader ll dl).length)

/-! ## Whole operations -/

/-- R220: with the fixed trees in force INFLATE_BLOCK_DATA writes every literal of a block and returns at its EOB. -/
def Obligations.BlockDataWritesItsLiterals : Prop :=
  ∀ (s : State) (old : Tree) (p : Nat) (bs : List Byte), s.ltree = fixedLitTree → s.dtree = fixedDistTree old →
    AtPosition s p → StreamHas s p (assembleFixed p (bs.map .lit ++ [.eob])) → s.dest + bs.length ≤ s.destCap →
    ∃ t, exec .inflateBlockData s = .next t
      ∧ (∀ i, i < bs.length → memRead t.out (s.dest + i) = bs[i]?)
      ∧ (∀ a, a < s.dest ∨ s.dest + bs.length ≤ a → memRead t.out a = memRead s.out a)
      ∧ { t with out := s.out }
          = { seek s (p + (assembleFixed p (bs.map .lit ++ [.eob])).length) with
              dest := s.dest + bs.length, destLen := s.destLen + bs.length }

/-- R304 case 7: INFLATE_BLOCK_DATA entered with a tree that was never built is refused (the mark is the model's, log entry
13). -/
def Obligations.UnbuiltTreesRefused : Prop :=
  ∀ s : State, s.ltree.built = false ∨ s.dtree.built = false → exec .inflateBlockData s = .refused .treesNotBuilt

/-- R281 row 1 for the uncompressed encoder, R277: UNCOMPRESS of a stream of one stored block gives the bytes back, and
leaves the rest of OUT as it was. -/
def Obligations.StoredStreamRoundTrip : Prop :=
  ∀ (s : State) (bs : List Byte) (cap : Nat), s.phase ≠ .run → bs.length ≤ 65535 → bs.length ≤ cap →
    ∃ t, exec (.uncompress (storedStream bs) (storedStream bs).length cap) s = .next t
      ∧ hostResult t = some (.ok, bs.length) ∧ (∀ i, i < bs.length → memRead t.out i = bs[i]?)
      ∧ ∀ a, bs.length ≤ a → memRead t.out a = memRead s.out a

/-- R281 row 1 for an encoder that codes each byte as a literal of a fixed block: UNCOMPRESS gives the bytes back. -/
def Obligations.LiteralStreamRoundTrip : Prop :=
  ∀ (s : State) (bs : List Byte) (cap : Nat), s.phase ≠ .run → bs.length ≤ cap →
    ∃ t, exec (.uncompress (literalStream bs) (literalStream bs).length cap) s = .next t
      ∧ hostResult t = some (.ok, bs.length) ∧ (∀ i, i < bs.length → memRead t.out i = bs[i]?)
      ∧ ∀ a, bs.length ≤ a → memRead t.out a = memRead s.out a

/-- R278, R281 rows 3 and 6: on every source and every capacity UNCOMPRESS ends, with one of the three status values, at
most `dest_cap` bytes, all of them written, and length 0 after an error. -/
def Obligations.UncompressAlwaysEnds : Prop :=
  ∀ (s : State) (bytes : List Byte) (cap : Nat), s.phase ≠ .run →
    ∃ t, exec (.uncompress bytes bytes.length cap) s = .next t ∧ t.phase = .done ∧ t.destLenOut ≤ cap
      ∧ (t.status = .ok → ∀ a, a < t.destLenOut → (memRead t.out a).isSome)
      ∧ (t.status ≠ .ok → t.destLenOut = 0)

/-- R40, R281 row 4: nothing survives from one run to the next: two runs on the same inputs give the same result, whatever
the states before them. -/
def Obligations.UncompressIsDeterministic : Prop :=
  ∀ (s₁ s₂ t₁ t₂ : State) (bytes : List Byte) (cap : Nat), s₁.phase ≠ .run → s₂.phase ≠ .run →
    exec (.uncompress bytes bytes.length cap) s₁ = .next t₁ → exec (.uncompress bytes bytes.length cap) s₂ = .next t₂ →
    t₁.status = t₂.status ∧ t₁.destLenOut = t₂.destLenOut
      ∧ ∀ a, a < t₁.destLenOut → memRead t₁.out a = memRead t₂.out a

/-- R14, R344: a run taken step by step from START ends in the state the operation UNCOMPRESS gives, but for where the
sequencer stands (log entry 28). -/
def Obligations.StepsCarryOutUncompress : Prop :=
  ∀ (s : State) (bytes : List Byte) (cap : Nat), s.phase ≠ .run → s.request = none → s.issue = none →
    ∃ k t u, Host.Core.run core k { s with request := some (.start bytes bytes.length cap) } = .next t ∧ t.phase = .done
      ∧ exec (.uncompress bytes bytes.length cap) s = .next u ∧ { t with seq := u.seq } = u

/-! ## Invariants -/

/-- The core's invariant holds after hardware reset (with the reset values of log entry 5). -/
def Obligations.CoreInvariantHoldsAtReset : Prop := CoreInv State.reset

/-- R36 I1, I2, I3, R22, R28, R35, R135: every step keeps the core's invariant, whatever the host asks for and whatever
operation is issued on its own. -/
def Obligations.CoreInvariantIsKept : Prop := ∀ s t : State, CoreInv s → step s = .next t → CoreInv t

/-- R36 I6: outside a GETBITS at most 7 bits are held. -/
def Obligations.AtMostSevenBitsAreHeld : Prop := ∀ s t : State, ReaderInv s → step s = .next t → ReaderInv t

/-- R27, R69: during a run every byte of OUT below `dest` has been written, so the copy engine never reads another. -/
def Obligations.OutputBelowDestIsWritten : Prop := ∀ s t : State, WrittenInv s → step s = .next t → WrittenInv t

/-- R276: at the end of a block `overflow` is 0, so the final test never fires: every step keeps this. -/
def Obligations.OverflowIsClearAtABlockEnd : Prop :=
  ∀ s t : State, CoreInv s → ReaderInv s → (s.seq = .blockEnd → s.overflow = false) → step s = .next t →
    (t.seq = .blockEnd → t.overflow = false)

/-- R303, R304, R281 row 6: a step of a run never stops, and the run's invariant is kept. -/
def Obligations.RunsNeverStop : Prop := ∀ s : State, RunInv s → ∃ t, step s = .next t ∧ RunInv t

/-- R331, R333: a START from reset (reset values: log entry 5) begins a run that meets the run's invariant and never
stops. -/
def Obligations.StartedRunsNeverStop : Prop :=
  ∀ (bytes : List Byte) (cap : Nat),
    (∃ t, step { State.reset with request := some (.start bytes bytes.length cap) } = .next t ∧ RunInv t)
      ∧ NeverStops { State.reset with request := some (.start bytes bytes.length cap) }

/-- R278, R345: every run ends. -/
def Obligations.EveryRunReachesDone : Prop :=
  ∀ s : State, RunInv s → s.phase = .run → ∃ k t, Host.Core.run core k s = .next t ∧ t.phase = .done

/-- R21, R23, R29: a step of a run changes neither the source nor its length nor the capacity. -/
def Obligations.SourceAndLimitsAreConstant : Prop :=
  ∀ s t : State, s.request = none → s.issue = none → step s = .next t →
    t.source = s.source ∧ t.sourceLen = s.sourceLen ∧ t.destCap = s.destCap

/-- R22, R27, R28, R67: a step of a run moves neither cursor back, and unless it ends in an error (after which OUT is any
value, R296) it changes OUT only between the old and the new `dest`. -/
def Obligations.OutputIsOnlyAppended : Prop :=
  ∀ s t : State, s.request = none → s.issue = none → s.phase = .run → step s = .next t →
    s.src ≤ t.src ∧ s.dest ≤ t.dest
      ∧ (t.status = .ok ∨ t.phase = .run → ∀ a, a < s.dest ∨ t.dest ≤ a →
          memRead t.out a = memRead s.out a)
end

