-- ==== Sys2Proof/Laws/Memory.lean ====
section
/-! SUPPORT. Laws of the byte memories: reading after writing, and that every memory operation keeps the canonical form. -/

namespace Sys2Proof.Machine

@[simp] theorem memRead_nil (a : Nat) : memRead [] a = none := rfl

/-- Reading the byte just written gives it back. -/
@[simp] theorem memRead_memWrite_same (m : Memory) (a : Nat) (v : Byte) : memRead (memWrite m a v) a = some v := by
  induction m with
  | nil => simp [memWrite, memRead]
  | cons e m ih =>
    obtain ⟨k, w⟩ := e
    simp only [memWrite]
    split
    · simp [memRead]
    · split
      · simp [memRead]
      · have : k ≠ a := by omega
        simp [memRead, this, ih]

/-- A write leaves every other byte alone. -/
theorem memRead_memWrite_other (m : Memory) {a b : Nat} (v : Byte) (h : b ≠ a) :
    memRead (memWrite m a v) b = memRead m b := by
  induction m with
  | nil => simp [memWrite, memRead, h.symm]
  | cons e m ih =>
    obtain ⟨k, w⟩ := e
    simp only [memWrite]
    split
    · simp [memRead, h.symm]
    · split
      · subst_vars
        simp [memRead, h.symm]
      · simp [memRead, ih]

theorem memRead_memWrite (m : Memory) (a b : Nat) (v : Byte) :
    memRead (memWrite m a v) b = if b = a then some v else memRead m b := by
  split
  · subst_vars
    exact memRead_memWrite_same m _ v
  · exact memRead_memWrite_other m v ‹_›

/-- What a byte sequence's memory holds. -/
theorem memRead_memOfBytes (bs : List Byte) (a i : Nat) :
    memRead (memOfBytes a bs) i = if a ≤ i then bs[i - a]? else none := by
  induction bs generalizing a with
  | nil => simp [memOfBytes]
  | cons b bs ih =>
    simp only [memOfBytes, memRead, ih]
    by_cases h : a = i
    · simp [h]
    · by_cases h' : a + 1 ≤ i
      · have : i - a = (i - (a + 1)) + 1 := by omega
        simp [h, h', this, show a ≤ i by omega]
      · simp [h, h', show ¬ a ≤ i by omega]

/-- Every listed index lies at or above the first one. -/
def Memory.above (a : Nat) : Memory → Prop
  | [] => True
  | (k, _) :: _ => a ≤ k

theorem Memory.wf_cons_iff (k : Nat) (v : Byte) (m : Memory) :
    Memory.wf ((k, v) :: m) = true ↔ Memory.above (k + 1) m ∧ Memory.wf m = true := by
  cases m with
  | nil => simp [Memory.wf, Memory.above]
  | cons e m => simp [Memory.wf, Memory.above]

theorem Memory.above_memWrite {m : Memory} {a b : Nat} (v : Byte) (h : Memory.above b m) (hb : b ≤ a) :
    Memory.above b (memWrite m a v) := by
  cases m with
  | nil => simpa [memWrite, Memory.above] using hb
  | cons e m =>
    obtain ⟨k, w⟩ := e
    simp only [memWrite]
    split
    · simpa [Memory.above] using hb
    · split
      · simpa [Memory.above] using hb
      · simpa [Memory.above] using h

/-- A write keeps the canonical form. -/
theorem Memory.wf_memWrite {m : Memory} (a : Nat) (v : Byte) (h : Memory.wf m = true) :
    Memory.wf (memWrite m a v) = true := by
  induction m with
  | nil => rfl
  | cons e m ih =>
    obtain ⟨k, w⟩ := e
    obtain ⟨h1, h2⟩ := (Memory.wf_cons_iff k w m).1 h
    simp only [memWrite]
    split
    · exact (Memory.wf_cons_iff _ _ _).2 ⟨by simp only [Memory.above]; omega, h⟩
    · split
      · subst_vars
        exact (Memory.wf_cons_iff _ _ _).2 ⟨h1, h2⟩
      · exact (Memory.wf_cons_iff _ _ _).2 ⟨Memory.above_memWrite v h1 (by omega), ih h2⟩

/-- A byte sequence's memory is in canonical form. -/
theorem Memory.wf_memOfBytes (bs : List Byte) (a : Nat) : Memory.wf (memOfBytes a bs) = true := by
  induction bs generalizing a with
  | nil => rfl
  | cons b bs ih =>
    refine (Memory.wf_cons_iff _ _ _).2 ⟨?_, ih (a + 1)⟩
    cases bs <;> simp [memOfBytes, Memory.above]

/-- Both memories are in canonical form at reset. -/
theorem reset_memories_wf : Memory.wf State.reset.source = true ∧ Memory.wf State.reset.out = true := by decide

/-- A byte that has a value keeps having one. -/
theorem isSome_memWrite {m : Memory} {b : Nat} (a : Nat) (v : Byte) (h : (memRead m b).isSome) :
    (memRead (memWrite m a v) b).isSome := by
  rw [memRead_memWrite]
  split <;> simp [h]

/-- A memory is determined by what it reads as: two canonical memories that read the same are the same data. -/
theorem Memory.ext_of_wf {m n : Memory} (hm : Memory.wf m = true) (hn : Memory.wf n = true)
    (h : ∀ a, memRead m a = memRead n a) : m = n := by
  have low : ∀ (m : Memory) (b a : Nat), Memory.wf m = true → Memory.above b m → a < b → memRead m a = none := by
    intro m
    induction m with
    | nil => simp
    | cons e m ih =>
      obtain ⟨k, w⟩ := e
      intro b a hw hb ha
      obtain ⟨h1, h2⟩ := (Memory.wf_cons_iff k w m).1 hw
      simp only [Memory.above] at hb
      simp only [memRead, show k ≠ a by omega, if_false]
      exact ih (k + 1) a h2 h1 (by omega)
  induction m generalizing n with
  | nil =>
    cases n with
    | nil => rfl
    | cons e n =>
      obtain ⟨k, w⟩ := e
      simpa [memRead] using h k
  | cons e m ih =>
    obtain ⟨k, w⟩ := e
    obtain ⟨h1, h2⟩ := (Memory.wf_cons_iff k w m).1 hm
    cases n with
    | nil => simpa [memRead] using h k
    | cons e' n =>
      obtain ⟨l, x⟩ := e'
      obtain ⟨h3, h4⟩ := (Memory.wf_cons_iff l x n).1 hn
      have hkl : k = l := by
        by_cases hlt : k < l
        · have := h k
          simp only [memRead, if_true, show l ≠ k by omega, if_false, low n (l + 1) k h4 h3 (by omega)] at this
          simp at this
        · by_cases hgt : l < k
          · have := h l
            simp only [memRead, if_true, show k ≠ l by omega, if_false, low m (k + 1) l h2 h1 (by omega)] at this
            simp at this
          · omega
      subst hkl
      have hw : w = x := by simpa [memRead] using h k
      subst hw
      rw [ih h2 h4]
      intro a
      by_cases ha : k = a
      · subst ha
        rw [low m (k + 1) k h2 h1 (by omega), low n (k + 1) k h4 h3 (by omega)]
      · simpa [memRead, ha] using h a

end Sys2Proof.Machine
end

