-- ==== Sys2Proof/Laws/State.lean ====
section
/-! SUPPORT. One lemma per field for each named update of the state: what the field holds after it. Plain record updates
need none (their projections reduce). Also tree registers: reading after writing. -/

namespace Sys2Proof.Machine

/-! ## Taking an exception -/

@[simp] theorem takeException_phase (c : Cause) (s : State) : (takeException c s).phase = .done := rfl

@[simp] theorem takeException_status (c : Cause) (s : State) : (takeException c s).status = c.status := rfl

@[simp] theorem takeException_destLenOut (c : Cause) (s : State) : (takeException c s).destLenOut = 0 := rfl

@[simp] theorem takeException_source (c : Cause) (s : State) : (takeException c s).source = s.source := rfl

@[simp] theorem takeException_sourceLen (c : Cause) (s : State) : (takeException c s).sourceLen = s.sourceLen := rfl

@[simp] theorem takeException_destCap (c : Cause) (s : State) : (takeException c s).destCap = s.destCap := rfl

@[simp] theorem takeException_src (c : Cause) (s : State) : (takeException c s).src = s.src := rfl

@[simp] theorem takeException_tag (c : Cause) (s : State) : (takeException c s).tag = s.tag := rfl

@[simp] theorem takeException_bitcount (c : Cause) (s : State) : (takeException c s).bitcount = s.bitcount := rfl

@[simp] theorem takeException_overflow (c : Cause) (s : State) : (takeException c s).overflow = s.overflow := rfl

@[simp] theorem takeException_out (c : Cause) (s : State) : (takeException c s).out = [] := rfl

@[simp] theorem takeException_dest (c : Cause) (s : State) : (takeException c s).dest = s.dest := rfl

@[simp] theorem takeException_destLen (c : Cause) (s : State) : (takeException c s).destLen = s.destLen := rfl

@[simp] theorem takeException_ltree (c : Cause) (s : State) : (takeException c s).ltree = s.ltree := rfl

@[simp] theorem takeException_dtree (c : Cause) (s : State) : (takeException c s).dtree = s.dtree := rfl

@[simp] theorem takeException_lengths (c : Cause) (s : State) : (takeException c s).lengths = s.lengths := rfl

@[simp] theorem takeException_bfinal (c : Cause) (s : State) : (takeException c s).bfinal = s.bfinal := rfl

@[simp] theorem takeException_seq (c : Cause) (s : State) : (takeException c s).seq = s.seq := rfl

@[simp] theorem takeException_hlit (c : Cause) (s : State) : (takeException c s).hlit = s.hlit := rfl

@[simp] theorem takeException_hdist (c : Cause) (s : State) : (takeException c s).hdist = s.hdist := rfl

@[simp] theorem takeException_num (c : Cause) (s : State) : (takeException c s).num = s.num := rfl

@[simp] theorem takeException_matchLen (c : Cause) (s : State) : (takeException c s).matchLen = s.matchLen := rfl

@[simp] theorem takeException_ret (c : Cause) (s : State) : (takeException c s).ret = s.ret := rfl

@[simp] theorem takeException_issue (c : Cause) (s : State) : (takeException c s).issue = s.issue := rfl

@[simp] theorem takeException_request (c : Cause) (s : State) : (takeException c s).request = s.request := rfl

/-! ## Byte alignment -/

@[simp] theorem alignReader_phase (s : State) : (alignReader s).phase = s.phase := rfl

@[simp] theorem alignReader_status (s : State) : (alignReader s).status = s.status := rfl

@[simp] theorem alignReader_destLenOut (s : State) : (alignReader s).destLenOut = s.destLenOut := rfl

@[simp] theorem alignReader_source (s : State) : (alignReader s).source = s.source := rfl

@[simp] theorem alignReader_sourceLen (s : State) : (alignReader s).sourceLen = s.sourceLen := rfl

@[simp] theorem alignReader_destCap (s : State) : (alignReader s).destCap = s.destCap := rfl

@[simp] theorem alignReader_src (s : State) : (alignReader s).src = s.src := rfl

@[simp] theorem alignReader_tag (s : State) : (alignReader s).tag = 0 := rfl

@[simp] theorem alignReader_bitcount (s : State) : (alignReader s).bitcount = 0 := rfl

@[simp] theorem alignReader_overflow (s : State) : (alignReader s).overflow = s.overflow := rfl

@[simp] theorem alignReader_out (s : State) : (alignReader s).out = s.out := rfl

@[simp] theorem alignReader_dest (s : State) : (alignReader s).dest = s.dest := rfl

@[simp] theorem alignReader_destLen (s : State) : (alignReader s).destLen = s.destLen := rfl

@[simp] theorem alignReader_ltree (s : State) : (alignReader s).ltree = s.ltree := rfl

@[simp] theorem alignReader_dtree (s : State) : (alignReader s).dtree = s.dtree := rfl

@[simp] theorem alignReader_lengths (s : State) : (alignReader s).lengths = s.lengths := rfl

@[simp] theorem alignReader_bfinal (s : State) : (alignReader s).bfinal = s.bfinal := rfl

@[simp] theorem alignReader_seq (s : State) : (alignReader s).seq = s.seq := rfl

@[simp] theorem alignReader_hlit (s : State) : (alignReader s).hlit = s.hlit := rfl

@[simp] theorem alignReader_hdist (s : State) : (alignReader s).hdist = s.hdist := rfl

@[simp] theorem alignReader_num (s : State) : (alignReader s).num = s.num := rfl

@[simp] theorem alignReader_matchLen (s : State) : (alignReader s).matchLen = s.matchLen := rfl

@[simp] theorem alignReader_ret (s : State) : (alignReader s).ret = s.ret := rfl

@[simp] theorem alignReader_issue (s : State) : (alignReader s).issue = s.issue := rfl

@[simp] theorem alignReader_request (s : State) : (alignReader s).request = s.request := rfl

/-! ## The fixed trees -/

@[simp] theorem buildFixedTrees_phase (s : State) : (buildFixedTrees s).phase = s.phase := rfl

@[simp] theorem buildFixedTrees_status (s : State) : (buildFixedTrees s).status = s.status := rfl

@[simp] theorem buildFixedTrees_destLenOut (s : State) : (buildFixedTrees s).destLenOut = s.destLenOut := rfl

@[simp] theorem buildFixedTrees_source (s : State) : (buildFixedTrees s).source = s.source := rfl

@[simp] theorem buildFixedTrees_sourceLen (s : State) : (buildFixedTrees s).sourceLen = s.sourceLen := rfl

@[simp] theorem buildFixedTrees_destCap (s : State) : (buildFixedTrees s).destCap = s.destCap := rfl

@[simp] theorem buildFixedTrees_src (s : State) : (buildFixedTrees s).src = s.src := rfl

@[simp] theorem buildFixedTrees_tag (s : State) : (buildFixedTrees s).tag = s.tag := rfl

@[simp] theorem buildFixedTrees_bitcount (s : State) : (buildFixedTrees s).bitcount = s.bitcount := rfl

@[simp] theorem buildFixedTrees_overflow (s : State) : (buildFixedTrees s).overflow = s.overflow := rfl

@[simp] theorem buildFixedTrees_out (s : State) : (buildFixedTrees s).out = s.out := rfl

@[simp] theorem buildFixedTrees_dest (s : State) : (buildFixedTrees s).dest = s.dest := rfl

@[simp] theorem buildFixedTrees_destLen (s : State) : (buildFixedTrees s).destLen = s.destLen := rfl

@[simp] theorem buildFixedTrees_ltree (s : State) : (buildFixedTrees s).ltree = fixedLitTree := rfl

@[simp] theorem buildFixedTrees_dtree (s : State) : (buildFixedTrees s).dtree = fixedDistTree s.dtree := rfl

@[simp] theorem buildFixedTrees_lengths (s : State) : (buildFixedTrees s).lengths = s.lengths := rfl

@[simp] theorem buildFixedTrees_bfinal (s : State) : (buildFixedTrees s).bfinal = s.bfinal := rfl

@[simp] theorem buildFixedTrees_seq (s : State) : (buildFixedTrees s).seq = s.seq := rfl

@[simp] theorem buildFixedTrees_hlit (s : State) : (buildFixedTrees s).hlit = s.hlit := rfl

@[simp] theorem buildFixedTrees_hdist (s : State) : (buildFixedTrees s).hdist = s.hdist := rfl

@[simp] theorem buildFixedTrees_num (s : State) : (buildFixedTrees s).num = s.num := rfl

@[simp] theorem buildFixedTrees_matchLen (s : State) : (buildFixedTrees s).matchLen = s.matchLen := rfl

@[simp] theorem buildFixedTrees_ret (s : State) : (buildFixedTrees s).ret = s.ret := rfl

@[simp] theorem buildFixedTrees_issue (s : State) : (buildFixedTrees s).issue = s.issue := rfl

@[simp] theorem buildFixedTrees_request (s : State) : (buildFixedTrees s).request = s.request := rfl

/-! ## Moving the bit reader -/

@[simp] theorem seek_phase (s : State) (p : Nat) : (seek s p).phase = s.phase := rfl

@[simp] theorem seek_status (s : State) (p : Nat) : (seek s p).status = s.status := rfl

@[simp] theorem seek_destLenOut (s : State) (p : Nat) : (seek s p).destLenOut = s.destLenOut := rfl

@[simp] theorem seek_source (s : State) (p : Nat) : (seek s p).source = s.source := rfl

@[simp] theorem seek_sourceLen (s : State) (p : Nat) : (seek s p).sourceLen = s.sourceLen := rfl

@[simp] theorem seek_destCap (s : State) (p : Nat) : (seek s p).destCap = s.destCap := rfl

@[simp] theorem seek_src (s : State) (p : Nat) : (seek s p).src = (p + 7) / 8 := rfl

@[simp] theorem seek_tag (s : State) (p : Nat) : (seek s p).tag = BitVec.ofNat 32 (field s p (8 * ((p + 7) / 8) - p)) := rfl

@[simp] theorem seek_bitcount (s : State) (p : Nat) : (seek s p).bitcount = 8 * ((p + 7) / 8) - p := rfl

@[simp] theorem seek_overflow (s : State) (p : Nat) : (seek s p).overflow = s.overflow := rfl

@[simp] theorem seek_out (s : State) (p : Nat) : (seek s p).out = s.out := rfl

@[simp] theorem seek_dest (s : State) (p : Nat) : (seek s p).dest = s.dest := rfl

@[simp] theorem seek_destLen (s : State) (p : Nat) : (seek s p).destLen = s.destLen := rfl

@[simp] theorem seek_ltree (s : State) (p : Nat) : (seek s p).ltree = s.ltree := rfl

@[simp] theorem seek_dtree (s : State) (p : Nat) : (seek s p).dtree = s.dtree := rfl

@[simp] theorem seek_lengths (s : State) (p : Nat) : (seek s p).lengths = s.lengths := rfl

@[simp] theorem seek_bfinal (s : State) (p : Nat) : (seek s p).bfinal = s.bfinal := rfl

@[simp] theorem seek_seq (s : State) (p : Nat) : (seek s p).seq = s.seq := rfl

@[simp] theorem seek_hlit (s : State) (p : Nat) : (seek s p).hlit = s.hlit := rfl

@[simp] theorem seek_hdist (s : State) (p : Nat) : (seek s p).hdist = s.hdist := rfl

@[simp] theorem seek_num (s : State) (p : Nat) : (seek s p).num = s.num := rfl

@[simp] theorem seek_matchLen (s : State) (p : Nat) : (seek s p).matchLen = s.matchLen := rfl

@[simp] theorem seek_ret (s : State) (p : Nat) : (seek s p).ret = s.ret := rfl

@[simp] theorem seek_issue (s : State) (p : Nat) : (seek s p).issue = s.issue := rfl

@[simp] theorem seek_request (s : State) (p : Nat) : (seek s p).request = s.request := rfl

/-! ## Writing a tree register -/

@[simp] theorem setTree_phase (id : TreeId) (v : Tree) (s : State) : (setTree id v s).phase = s.phase := by cases id <;> rfl

@[simp] theorem setTree_status (id : TreeId) (v : Tree) (s : State) : (setTree id v s).status = s.status := by cases id <;> rfl

@[simp] theorem setTree_destLenOut (id : TreeId) (v : Tree) (s : State) : (setTree id v s).destLenOut = s.destLenOut := by cases id <;> rfl

@[simp] theorem setTree_source (id : TreeId) (v : Tree) (s : State) : (setTree id v s).source = s.source := by cases id <;> rfl

@[simp] theorem setTree_sourceLen (id : TreeId) (v : Tree) (s : State) : (setTree id v s).sourceLen = s.sourceLen := by cases id <;> rfl

@[simp] theorem setTree_destCap (id : TreeId) (v : Tree) (s : State) : (setTree id v s).destCap = s.destCap := by cases id <;> rfl

@[simp] theorem setTree_src (id : TreeId) (v : Tree) (s : State) : (setTree id v s).src = s.src := by cases id <;> rfl

@[simp] theorem setTree_tag (id : TreeId) (v : Tree) (s : State) : (setTree id v s).tag = s.tag := by cases id <;> rfl

@[simp] theorem setTree_bitcount (id : TreeId) (v : Tree) (s : State) : (setTree id v s).bitcount = s.bitcount := by cases id <;> rfl

@[simp] theorem setTree_overflow (id : TreeId) (v : Tree) (s : State) : (setTree id v s).overflow = s.overflow := by cases id <;> rfl

@[simp] theorem setTree_out (id : TreeId) (v : Tree) (s : State) : (setTree id v s).out = s.out := by cases id <;> rfl

@[simp] theorem setTree_dest (id : TreeId) (v : Tree) (s : State) : (setTree id v s).dest = s.dest := by cases id <;> rfl

@[simp] theorem setTree_destLen (id : TreeId) (v : Tree) (s : State) : (setTree id v s).destLen = s.destLen := by cases id <;> rfl

@[simp] theorem setTree_lengths (id : TreeId) (v : Tree) (s : State) : (setTree id v s).lengths = s.lengths := by cases id <;> rfl

@[simp] theorem setTree_bfinal (id : TreeId) (v : Tree) (s : State) : (setTree id v s).bfinal = s.bfinal := by cases id <;> rfl

@[simp] theorem setTree_seq (id : TreeId) (v : Tree) (s : State) : (setTree id v s).seq = s.seq := by cases id <;> rfl

@[simp] theorem setTree_hlit (id : TreeId) (v : Tree) (s : State) : (setTree id v s).hlit = s.hlit := by cases id <;> rfl

@[simp] theorem setTree_hdist (id : TreeId) (v : Tree) (s : State) : (setTree id v s).hdist = s.hdist := by cases id <;> rfl

@[simp] theorem setTree_num (id : TreeId) (v : Tree) (s : State) : (setTree id v s).num = s.num := by cases id <;> rfl

@[simp] theorem setTree_matchLen (id : TreeId) (v : Tree) (s : State) : (setTree id v s).matchLen = s.matchLen := by cases id <;> rfl

@[simp] theorem setTree_ret (id : TreeId) (v : Tree) (s : State) : (setTree id v s).ret = s.ret := by cases id <;> rfl

@[simp] theorem setTree_issue (id : TreeId) (v : Tree) (s : State) : (setTree id v s).issue = s.issue := by cases id <;> rfl

@[simp] theorem setTree_request (id : TreeId) (v : Tree) (s : State) : (setTree id v s).request = s.request := by cases id <;> rfl

@[simp] theorem getTree_setTree (id : TreeId) (v : Tree) (s : State) : getTree id (setTree id v s) = v := by cases id <;> rfl

@[simp] theorem setTree_getTree (id : TreeId) (s : State) : setTree id (getTree id s) s = s := by cases id <;> rfl

@[simp] theorem setTree_setTree (id : TreeId) (v w : Tree) (s : State) :
    setTree id w (setTree id v s) = setTree id w s := by cases id <;> rfl

@[simp] theorem getTree_ltree (s : State) : getTree .ltree s = s.ltree := rfl

@[simp] theorem getTree_dtree (s : State) : getTree .dtree s = s.dtree := rfl

@[simp] theorem setTree_ltree (v : Tree) (s : State) : setTree .ltree v s = { s with ltree := v } := rfl

@[simp] theorem setTree_dtree (v : Tree) (s : State) : setTree .dtree v s = { s with dtree := v } := rfl

/-- The stream is a function of the source alone. -/
theorem streamBit_congr {s t : State} (h : t.source = s.source) (hl : t.sourceLen = s.sourceLen) (k : Nat) :
    streamBit t k = streamBit s k := by simp [streamBit, h, hl]

theorem field_congr {s t : State} (h : t.source = s.source) (hl : t.sourceLen = s.sourceLen) (p n : Nat) :
    field t p n = field s p n := by simp [field, streamBits, streamBit_congr h hl]

/-- Moving the bit reader twice is moving it once. -/
@[simp] theorem seek_seek (s : State) (p q : Nat) : seek (seek s p) q = seek s q := by
  have h : ∀ n, field (seek s p) q n = field s q n := fun n => field_congr rfl rfl q n
  rw [seek, h]
  rfl

end Sys2Proof.Machine
end

