-- ==== Sys2Proof/Laws/Bits.lean ====
section
/-! SUPPORT. Laws of fields, codes and packed bytes: values, lengths, and that packing and unpacking agree. -/

namespace Sys2Proof

open Machine

theorem fieldValue_lt (bs : List Bool) : fieldValue bs < 2 ^ bs.length := by
  induction bs with
  | nil => simp [fieldValue]
  | cons b bs ih =>
    simp only [fieldValue, List.length_cons, Nat.pow_succ]
    have := Bool.toNat_lt b
    omega

theorem fieldValue_append (as bs : List Bool) :
    fieldValue (as ++ bs) = fieldValue as + 2 ^ as.length * fieldValue bs := by
  induction as with
  | nil => simp [fieldValue]
  | cons a as ih =>
    simp only [List.cons_append, fieldValue, ih, List.length_cons, Nat.pow_succ]
    rw [Nat.mul_add, Nat.mul_comm (2 ^ as.length) 2, Nat.mul_assoc, Nat.add_assoc]

@[simp] theorem lsbBits_length (n v : Nat) : (lsbBits n v).length = n := by simp [lsbBits]

@[simp] theorem msbBits_length (n v : Nat) : (msbBits n v).length = n := by
  induction n with
  | zero => rfl
  | succ n ih => simp [msbBits, ih]

@[simp] theorem codeBits_length (lens : List Nat) (i : Nat) : (codeBits lens i).length = lens.getD i 0 :=
  msbBits_length _ _

theorem lsbBits_zero (v : Nat) : lsbBits 0 v = [] := rfl

/-- A field's least significant bit stands first. -/
theorem lsbBits_succ (n v : Nat) : lsbBits (n + 1) v = v.testBit 0 :: lsbBits n (v / 2) := by
  simp [lsbBits, List.range_succ_eq_map, Nat.testBit_succ, Function.comp_def]

/-- A field gives back the value that was written into it. -/
@[simp] theorem fieldValue_lsbBits (n v : Nat) : fieldValue (lsbBits n v) = v % 2 ^ n := by
  induction n generalizing v with
  | zero => simp [lsbBits, fieldValue, Nat.mod_one]
  | succ n ih =>
    rw [lsbBits_succ, fieldValue, ih, Nat.pow_succ, Nat.mul_comm (2 ^ n) 2, Nat.mod_mul]
    congr 1
    rw [Nat.testBit_zero]
    rcases Nat.mod_two_eq_zero_or_one v with h | h <;> simp [h]

/-- Writing a field's value gives back its bits. -/
theorem lsbBits_fieldValue (bs : List Bool) : lsbBits bs.length (fieldValue bs) = bs := by
  induction bs with
  | nil => rfl
  | cons b bs ih =>
    have h1 : (fieldValue (b :: bs)).testBit 0 = b := by
      simp only [fieldValue, Nat.testBit_zero]
      cases b <;> simp
    have h2 : fieldValue (b :: bs) / 2 = fieldValue bs := by
      simp only [fieldValue]
      have := Bool.toNat_lt b
      omega
    rw [List.length_cons, lsbBits_succ, h1, h2, ih]

@[simp] theorem unpackBytes_nil : unpackBytes [] = [] := rfl

@[simp] theorem unpackBytes_cons (b : Byte) (bs : List Byte) :
    unpackBytes (b :: bs) = lsbBits 8 b.toNat ++ unpackBytes bs := rfl

@[simp] theorem unpackBytes_length (bs : List Byte) : (unpackBytes bs).length = 8 * bs.length := by
  induction bs with
  | nil => rfl
  | cons b bs ih =>
    simp only [unpackBytes_cons, List.length_append, lsbBits_length, ih, List.length_cons]
    omega

@[simp] theorem packBytes_length (n : Nat) (bits : List Bool) : (packBytes n bits).length = n := by
  induction n generalizing bits with
  | zero => rfl
  | succ n ih => simp [packBytes, ih]

/-- Whole bytes are packed as they were unpacked. -/
theorem packBytes_unpackBytes (bs : List Byte) : packBytes bs.length (unpackBytes bs) = bs := by
  induction bs with
  | nil => rfl
  | cons b bs ih =>
    have hb : b.toNat < 256 := b.isLt
    simp only [List.length_cons, packBytes, unpackBytes_cons, List.take_left' (lsbBits_length 8 _),
      List.drop_left' (lsbBits_length 8 _), ih, fieldValue_lsbBits]
    rw [Nat.mod_eq_of_lt (by simpa using hb), BitVec.ofNat_toNat]
    simp

namespace Machine

@[simp] theorem streamBits_length (s : State) (p n : Nat) : (streamBits s p n).length = n := by simp [streamBits]

/-- A field never exceeds its width. -/
theorem field_lt (s : State) (p n : Nat) : field s p n < 2 ^ n := by
  simpa [field] using fieldValue_lt (streamBits s p n)

/-- A stretch of the stream is its first part and the rest. -/
theorem streamBits_add (s : State) (p m n : Nat) :
    streamBits s p (m + n) = streamBits s p m ++ streamBits s (p + m) n := by
  simp [streamBits, List.range_add, List.map_map, Function.comp_def, Nat.add_assoc]

theorem field_add (s : State) (p m n : Nat) : field s p (m + n) = field s p m + 2 ^ m * field s (p + m) n := by
  simp [field, streamBits_add, fieldValue_append]

@[simp] theorem field_zero (s : State) (p : Nat) : field s p 0 = 0 := rfl

/-- Past the end of the source the stream is zero. -/
theorem streamBit_past (s : State) {k : Nat} (h : 8 * s.sourceLen ≤ k) : streamBit s k = false := by
  simp [streamBit, Nat.not_lt.2 h]

/-- A stream that holds bits at a position holds the first of them there and the rest behind them. -/
theorem StreamHas.append {s : State} {p : Nat} {as bs : List Bool} (h : StreamHas s p (as ++ bs)) :
    StreamHas s p as ∧ StreamHas s (p + as.length) bs := by
  obtain ⟨hl, hb⟩ := h
  rw [List.length_append] at hl hb
  rw [streamBits_add] at hb
  obtain ⟨h1, h2⟩ := List.append_inj hb (by simp)
  exact ⟨⟨by omega, h1⟩, ⟨by omega, h2⟩⟩

/-- The field whose bits a stream holds at a position. -/
theorem StreamHas.field {s : State} {p n v : Nat} (h : StreamHas s p (lsbBits n v)) :
    Machine.field s p n = v % 2 ^ n := by
  have := h.2
  rw [lsbBits_length] at this
  rw [Machine.field, this, fieldValue_lsbBits]

theorem assemble_nil (cl ll dl : List Nat) (pos : Nat) : assemble cl ll dl pos [] = [] := rfl

theorem assemble_cons (cl ll dl : List Nat) (pos : Nat) (e : Element) (es : List Element) :
    assemble cl ll dl pos (e :: es)
      = elementBits cl ll dl pos e ++ assemble cl ll dl (pos + (elementBits cl ll dl pos e).length) es := rfl

/-- Assembling is a homomorphism, once the bit offset is passed on. -/
theorem assemble_append (cl ll dl : List Nat) (es fs : List Element) (pos : Nat) :
    assemble cl ll dl pos (es ++ fs)
      = assemble cl ll dl pos es ++ assemble cl ll dl (pos + (assemble cl ll dl pos es).length) fs := by
  induction es generalizing pos with
  | nil => simp [assemble]
  | cons e es ih => simp [assemble, ih, Nat.add_assoc]

end Machine

end Sys2Proof
end

