-- ==== Sys2Proof/Laws/Res.lean ====
section
/-! SUPPORT. Laws of the results of operations: sequencing, its inversion, and the outcome of an operation that has
ended. -/

namespace Sys2Proof.Machine

variable {α β γ : Type}

@[simp] theorem Res.bind_ok (a : α) (s : State) (f : α → State → Res β) : (Res.ok a s).bind f = f a s := rfl

@[simp] theorem Res.bind_raised (c : Cause) (s : State) (f : α → State → Res β) :
    (Res.raised c s : Res α).bind f = .raised c s := rfl

@[simp] theorem Res.bind_fault (e : Fault) (f : α → State → Res β) : (Res.fault e : Res α).bind f = .fault e := rfl

@[simp] theorem Res.bind_refused (r : Refusal) (f : α → State → Res β) :
    (Res.refused r : Res α).bind f = .refused r := rfl

@[simp] theorem Res.bind_assoc (x : Res α) (f : α → State → Res β) (g : β → State → Res γ) :
    (x.bind f).bind g = x.bind fun a s => (f a s).bind g := by cases x <;> rfl

@[simp] theorem Res.finish_ok (s : State) : (Res.ok () s).finish = .next s := rfl

@[simp] theorem Res.finish_raised (c : Cause) (s : State) :
    (Res.raised c s : Res Unit).finish = .next (takeException c s) := rfl

@[simp] theorem Res.finish_fault (e : Fault) : (Res.fault e : Res Unit).finish = .fault e := rfl

@[simp] theorem Res.finish_refused (r : Refusal) : (Res.refused r : Res Unit).finish = .refused r := rfl

@[simp] theorem Res.finishValue_ok (v : Nat) (s : State) : (Res.ok v s).finishValue = .next { s with ret := v } := rfl

@[simp] theorem Res.finishValue_raised (c : Cause) (s : State) :
    (Res.raised c s : Res Nat).finishValue = .next (takeException c s) := rfl

@[simp] theorem Res.finishValue_fault (e : Fault) : (Res.fault e : Res Nat).finishValue = .fault e := rfl

@[simp] theorem Res.finishValue_refused (r : Refusal) : (Res.refused r : Res Nat).finishValue = .refused r := rfl

/-- A sequence returns exactly when both parts do. -/
theorem Res.bind_eq_ok {x : Res α} {f : α → State → Res β} {b : β} {t : State} :
    x.bind f = .ok b t ↔ ∃ a s, x = .ok a s ∧ f a s = .ok b t := by
  cases x <;> simp [Res.bind]

/-- A sequence raises exactly when its first part does, or returns and the second part does. -/
theorem Res.bind_eq_raised {x : Res α} {f : α → State → Res β} {c : Cause} {t : State} :
    x.bind f = .raised c t ↔ x = .raised c t ∨ ∃ a s, x = .ok a s ∧ f a s = .raised c t := by
  cases x <;> simp [Res.bind]

/-- An operation that has ended gives a next state exactly when it returns in that state, or raises and the exception
is taken. -/
theorem Res.finish_eq_next {x : Res Unit} {t : State} :
    x.finish = .next t ↔ x = .ok () t ∨ ∃ c s, x = .raised c s ∧ t = takeException c s := by
  cases x <;> simp [Res.finish, eq_comm]

theorem Res.finishValue_eq_next {x : Res Nat} {t : State} :
    x.finishValue = .next t ↔
      (∃ v s, x = .ok v s ∧ t = { s with ret := v }) ∨ ∃ c s, x = .raised c s ∧ t = takeException c s := by
  cases x <;> simp [Res.finishValue, Res.finish, Res.bind, eq_comm]

/-- The operation cannot raise: it returns or stops. -/
def Res.Quiet (x : Res α) : Prop := ∀ c s, x ≠ .raised c s

theorem Res.quiet_ok (a : α) (s : State) : (Res.ok a s).Quiet := by intro c t h; cases h

theorem Res.quiet_fault (e : Fault) : (Res.fault e : Res α).Quiet := by intro c t h; cases h

theorem Res.quiet_refused (r : Refusal) : (Res.refused r : Res α).Quiet := by intro c t h; cases h

theorem Res.quiet_bind {x : Res α} {f : α → State → Res β} (hx : x.Quiet) (hf : ∀ a s, (f a s).Quiet) :
    (x.bind f).Quiet := by
  cases x with
  | ok a s => exact hf a s
  | raised c s => exact absurd rfl (hx c s)
  | fault e => exact Res.quiet_fault e
  | refused r => exact Res.quiet_refused r

end Sys2Proof.Machine
end

