-- ==== Sys2Proof/Laws/Reader.lean ====
section
/-! SUPPORT. Everything the bit reader can do: one lemma for each of its operations. A caller cites these and does not
unfold the reader. -/

namespace Sys2Proof.Machine

/-- Only the bit reader has moved: every other field is as it was. -/
def ReaderFrame (s t : State) : Prop :=
  { t with src := s.src, tag := s.tag, bitcount := s.bitcount, overflow := s.overflow } = s

theorem ReaderFrame.refl (s : State) : ReaderFrame s s := rfl

theorem ReaderFrame.iff {s t : State} :
    ReaderFrame s t ↔
      t = { s with src := t.src, tag := t.tag, bitcount := t.bitcount, overflow := t.overflow } := by
  cases s
  cases t
  simp only [ReaderFrame, State.mk.injEq]

theorem ReaderFrame.trans {s t u : State} (h : ReaderFrame s t) (h' : ReaderFrame t u) : ReaderFrame s u := by
  rw [ReaderFrame.iff] at *
  rw [h', h]

theorem ReaderFrame.source {s t : State} (h : ReaderFrame s t) : t.source = s.source := by
  rw [ReaderFrame.iff.1 h]

theorem ReaderFrame.sourceLen {s t : State} (h : ReaderFrame s t) : t.sourceLen = s.sourceLen := by
  rw [ReaderFrame.iff.1 h]

/-- SRC can be read wherever the host has supplied it. -/
theorem srcRead_ok {s : State} (h : SourceReadable s) {a : Nat} (ha : a < s.sourceLen) :
    ∃ v, memRead s.source a = some v ∧ srcRead a s = .ok v s := by
  obtain ⟨v, hv⟩ := Option.isSome_iff_exists.1 (h a ha)
  exact ⟨v, hv, by simp [srcRead, ha, hv]⟩

theorem srcRead_cases {a : Nat} {s t : State} {v : Byte} (h : srcRead a s = .ok v t) :
    t = s ∧ a < s.sourceLen ∧ memRead s.source a = some v := by
  unfold srcRead at h
  split at h
  · split at h
    · cases h
      exact ⟨rfl, ‹_›, ‹_›⟩
    · cases h
  · cases h

theorem srcRead_quiet (a : Nat) (s : State) : (srcRead a s).Quiet := by
  unfold srcRead
  split
  · split
    · exact Res.quiet_ok _ _
    · exact Res.quiet_fault _
  · exact Res.quiet_refused _

/-- One turn of REFILL: it loads a byte, or the source is exhausted and eight zeros become valid. -/
theorem loadByte_cases {s t : State} (h : loadByte s = .ok () t) :
    (∃ b, s.src ≠ s.sourceLen ∧ s.src < s.sourceLen ∧ memRead s.source s.src = some b
        ∧ t = { s with
                tag := s.tag ||| (b.setWidth 32 <<< s.bitcount), src := s.src + 1, bitcount := s.bitcount + 8 })
      ∨ (s.src = s.sourceLen ∧ t = { s with overflow := true, bitcount := s.bitcount + 8 }) := by
  unfold loadByte at h
  split at h
  · obtain ⟨b, u, hb, hu⟩ := Res.bind_eq_ok.1 h
    obtain ⟨rfl, hl, hv⟩ := srcRead_cases hb
    cases hu
    exact .inl ⟨b, ‹_›, hl, hv, rfl⟩
  · cases h
    exact .inr ⟨not_not.1 ‹_›, rfl⟩

theorem loadByte_answers {s : State} (h : SourceReadable s) (hs : s.src ≤ s.sourceLen) :
    ∃ t, loadByte s = .ok () t := by
  unfold loadByte
  split
  · obtain ⟨v, -, hv⟩ := srcRead_ok h (lt_of_le_of_ne hs ‹_›)
    exact ⟨_, by rw [hv]; rfl⟩
  · exact ⟨_, rfl⟩

theorem loadByte_quiet (s : State) : (loadByte s).Quiet := by
  unfold loadByte
  split
  · exact Res.quiet_bind (srcRead_quiet _ _) fun _ _ => Res.quiet_ok _ _
  · exact Res.quiet_ok _ _

theorem loadByte_bitcount {s t : State} (h : loadByte s = .ok () t) : t.bitcount = s.bitcount + 8 := by
  obtain ⟨b, -, -, -, rfl⟩ | ⟨-, rfl⟩ := loadByte_cases h <;> rfl

theorem loadByte_frame {s t : State} (h : loadByte s = .ok () t) :
    ReaderFrame s t ∧ s.src ≤ t.src ∧ (s.src ≤ s.sourceLen → t.src ≤ s.sourceLen)
      ∧ (s.overflow = true → t.overflow = true) := by
  obtain ⟨b, -, hlt, -, rfl⟩ | ⟨-, rfl⟩ := loadByte_cases h
  · exact ⟨rfl, Nat.le_succ _, fun _ => hlt, id⟩
  · exact ⟨rfl, Nat.le_refl _, id, fun _ => rfl⟩

/-- A property that holds at the start and that each turn keeps holds when REFILL's loop returns, with enough bits. -/
theorem refillLoop_induct {P : State → Prop} {n : Nat}
    (step : ∀ s t, P s → s.bitcount < n → s.bitcount + 8 ≤ 32 → loadByte s = .ok () t → P t) :
    ∀ {k : Nat} {s t : State}, P s → refillLoop k n s = .ok () t → P t ∧ n ≤ t.bitcount := by
  intro k
  induction k with
  | zero =>
    intro s t hp h
    unfold refillLoop at h
    split at h
    · cases h
    · cases h
      exact ⟨hp, Nat.not_lt.1 ‹_›⟩
  | succ k ih =>
    intro s t hp h
    unfold refillLoop at h
    split at h
    · split at h
      · cases h
      · obtain ⟨_, u, hu, hr⟩ := Res.bind_eq_ok.1 h
        exact ih (step s u hp ‹_› (by omega) hu) hr
    · cases h
      exact ⟨hp, Nat.not_lt.1 ‹_›⟩

theorem refillLoop_quiet : ∀ (k n : Nat) (s : State), (refillLoop k n s).Quiet
  | 0, n, s => by
    unfold refillLoop
    split
    · exact Res.quiet_refused _
    · exact Res.quiet_ok _ _
  | k + 1, n, s => by
    unfold refillLoop
    split
    · split
      · exact Res.quiet_refused _
      · exact Res.quiet_bind (loadByte_quiet _) fun _ _ => refillLoop_quiet k n _
    · exact Res.quiet_ok _ _

/-- REFILL's loop answers when its turns and the width of `tag` are enough. -/
theorem refillLoop_answers {n : Nat} :
    ∀ {k : Nat} {s : State}, SourceReadable s → s.src ≤ s.sourceLen → n ≤ s.bitcount + 8 * k →
      (s.bitcount < n → n + 7 ≤ 32) → ∃ t, refillLoop k n s = .ok () t := by
  intro k
  induction k with
  | zero =>
    intro s _ _ hn _
    exact ⟨s, by simp [refillLoop, Nat.not_lt.2 (by omega : n ≤ s.bitcount)]⟩
  | succ k ih =>
    intro s hr hs hn hw
    unfold refillLoop
    split
    · have hlt : s.bitcount < n := ‹_›
      have hle := hw hlt
      rw [if_neg (by omega)]
      obtain ⟨t, ht⟩ := loadByte_answers hr hs
      obtain ⟨hf, -, hsrc, -⟩ := loadByte_frame ht
      have hb := loadByte_bitcount ht
      rw [ht, Res.bind_ok]
      refine ih ?_ ?_ (by omega) fun _ => hle
      · intro a ha
        rw [hf.source]
        exact hr a (by rwa [hf.sourceLen] at ha)
      · rw [hf.sourceLen]
        exact hsrc hs
    · exact ⟨s, rfl⟩

theorem refill_quiet (n : Nat) (s : State) : (refill n s).Quiet := refillLoop_quiet 4 n s

/-- What REFILL leaves when it returns. -/
theorem refill_spec {n : Nat} {s t : State} (h : refill n s = .ok () t) :
    ReaderFrame s t ∧ s.src ≤ t.src ∧ (s.src ≤ s.sourceLen → t.src ≤ s.sourceLen)
      ∧ (s.overflow = true → t.overflow = true) ∧ n ≤ t.bitcount ∧ s.bitcount ≤ t.bitcount
      ∧ t.bitcount ≤ max s.bitcount (n + 7) := by
  have := refillLoop_induct (n := n)
    (P := fun t => ReaderFrame s t ∧ s.src ≤ t.src ∧ (s.src ≤ s.sourceLen → t.src ≤ s.sourceLen)
      ∧ (s.overflow = true → t.overflow = true) ∧ s.bitcount ≤ t.bitcount ∧ t.bitcount ≤ max s.bitcount (n + 7))
    (fun u v ⟨h1, h2, h3, h4, h5, h6⟩ hn _ hu => by
      obtain ⟨g1, g2, g3, g4⟩ := loadByte_frame hu
      have gb := loadByte_bitcount hu
      rw [h1.sourceLen] at g3
      exact ⟨h1.trans g1, Nat.le_trans h2 g2, fun hs => g3 (h3 hs), fun ho => g4 (h4 ho), by omega, by omega⟩)
    ⟨ReaderFrame.refl s, Nat.le_refl _, id, id, Nat.le_refl _, by omega⟩ h
  obtain ⟨⟨h1, h2, h3, h4, h5, h6⟩, h7⟩ := this
  exact ⟨h1, h2, h3, h4, h7, h5, h6⟩

theorem refill_answers {n : Nat} {s : State} (h : ReaderReady s) (hn : n ≤ 25) : ∃ t, refill n s = .ok () t :=
  refillLoop_answers h.readable h.srcLe (by omega) fun _ => by omega

theorem consume_quiet (n : Nat) (s : State) : (consume n s).Quiet := by
  unfold consume
  split
  · exact Res.quiet_refused _
  · exact Res.quiet_ok _ _

theorem consume_cases {n v : Nat} {s t : State} (h : consume n s = .ok v t) :
    n ≤ s.bitcount ∧ v = s.tag.toNat % 2 ^ n ∧ t = { s with tag := s.tag >>> n, bitcount := s.bitcount - n } := by
  unfold consume at h
  split at h
  · cases h
  · cases h
    exact ⟨Nat.not_lt.1 ‹_›, rfl, rfl⟩

theorem getBits_quiet (n : Nat) (s : State) : (getBits n s).Quiet := by
  unfold getBits
  split
  · exact Res.quiet_refused _
  · exact Res.quiet_bind (refill_quiet n s) fun _ _ => consume_quiet n _

/-- GETBITS is REFILL and CONSUME. -/
theorem getBits_cases {n v : Nat} {s t : State} (h : getBits n s = .ok v t) :
    n ≤ 16 ∧ ∃ u, refill n s = .ok () u ∧ consume n u = .ok v t := by
  unfold getBits at h
  split at h
  · cases h
  · obtain ⟨_, u, hu, hc⟩ := Res.bind_eq_ok.1 h
    exact ⟨Nat.not_lt.1 ‹_›, u, hu, hc⟩

/-- What GETBITS leaves when it returns. -/
theorem getBits_spec {n v : Nat} {s t : State} (h : getBits n s = .ok v t) :
    ReaderFrame s t ∧ s.src ≤ t.src ∧ (s.src ≤ s.sourceLen → t.src ≤ s.sourceLen)
      ∧ (s.overflow = true → t.overflow = true) ∧ v < 2 ^ n ∧ t.bitcount ≤ max (s.bitcount - n) 7 := by
  obtain ⟨-, u, hu, hc⟩ := getBits_cases h
  obtain ⟨h1, h2, h3, h4, -, -, h6⟩ := refill_spec hu
  obtain ⟨-, rfl, rfl⟩ := consume_cases hc
  exact ⟨ReaderFrame.trans h1 rfl, h2, h3, h4, Nat.mod_lt _ (Nat.two_pow_pos n), by simp only; omega⟩

/-- GETBITS answers wherever the reader is ready, and leaves it ready. -/
theorem getBits_answers {n : Nat} {s : State} (h : ReaderReady s) (hn : n ≤ 16) :
    ∃ v t, getBits n s = .ok v t ∧ ReaderReady t := by
  obtain ⟨u, hu⟩ := refill_answers h (n := n) (by omega)
  obtain ⟨-, -, -, -, hb, -, -⟩ := refill_spec hu
  have hg : getBits n s = .ok (u.tag.toNat % 2 ^ n) { u with tag := u.tag >>> n, bitcount := u.bitcount - n } := by
    simp [getBits, Config.getbitsMax, Nat.not_lt.2 hn, hu, consume, Nat.not_lt.2 hb]
  refine ⟨_, _, hg, ?_⟩
  obtain ⟨hf, -, hs, -, -, hc⟩ := getBits_spec hg
  have := h.bitcountLe
  exact ⟨fun a ha => by rw [hf.source]; exact h.readable a (by rwa [hf.sourceLen] at ha),
    by rw [hf.sourceLen]; exact hs h.srcLe, by omega⟩

theorem getBitsBase_quiet (n base : Nat) (s : State) : (getBitsBase n base s).Quiet := by
  unfold getBitsBase
  split
  · exact Res.quiet_ok _ _
  · exact Res.quiet_bind (getBits_quiet n s) fun _ _ => Res.quiet_ok _ _

/-- GETBITS_BASE reads nothing for `n = 0`, else a field that it adds to the base. -/
theorem getBitsBase_cases {n base v : Nat} {s t : State} (h : getBitsBase n base s = .ok v t) :
    (n = 0 ∧ v = base ∧ t = s) ∨ (n ≠ 0 ∧ ∃ x, getBits n s = .ok x t ∧ v = base + x) := by
  unfold getBitsBase at h
  split at h
  · cases h
    exact .inl ⟨‹_›, rfl, rfl⟩
  · obtain ⟨x, u, hx, hu⟩ := Res.bind_eq_ok.1 h
    cases hu
    exact .inr ⟨‹_›, x, hx, rfl⟩

theorem operand_quiet (base n : Nat) (s : State) : (operand base n s).Quiet :=
  Res.quiet_bind (getBits_quiet n s) fun _ _ => Res.quiet_ok _ _

theorem operand_cases {base n v : Nat} {s t : State} (h : operand base n s = .ok v t) :
    ∃ x, getBits n s = .ok x t ∧ v = base + x := by
  obtain ⟨x, u, hx, hu⟩ := Res.bind_eq_ok.1 h
  cases hu
  exact ⟨x, hx, rfl⟩

/-- A read of an operand answers wherever the reader is ready. -/
theorem operand_answers {base n : Nat} {s : State} (h : ReaderReady s) (hn : n ≤ 16) :
    ∃ v t, operand base n s = .ok v t ∧ ReaderReady t := by
  obtain ⟨v, t, hv, ht⟩ := getBits_answers h hn
  exact ⟨base + v, t, by simp [operand, hv], ht⟩

/-! ## DECODE_SYMBOL -/

theorem descend_quiet (tr : Tree) : ∀ (k len sum : Nat) (cur : Int) (s : State), (descend tr k len sum cur s).Quiet
  | 0, _, _, _, s => Res.quiet_bind (getBits_quiet 1 s) fun _ _ => Res.quiet_refused _
  | k + 1, len, sum, cur, s => by
    refine Res.quiet_bind (getBits_quiet 1 s) fun b u => ?_
    dsimp only
    split
    · unfold transAt
      split
      · exact Res.quiet_ok _ _
      · exact Res.quiet_refused _
    · exact descend_quiet tr k _ _ _ u

/-- A property that GETBITS(1) keeps holds when DECODE_SYMBOL returns, and at least one bit has been read. -/
theorem descend_induct {P : State → Prop} (tr : Tree)
    (step : ∀ s t v, P s → getBits 1 s = .ok v t → P t) :
    ∀ {k len sum : Nat} {cur : Int} {s t : State} {v : Nat}, P s → descend tr k len sum cur s = .ok v t → P t := by
  intro k
  induction k with
  | zero =>
    intro len sum cur s t v _ h
    obtain ⟨_, _, _, h'⟩ := Res.bind_eq_ok.1 h
    cases h'
  | succ k ih =>
    intro len sum cur s t v hp h
    obtain ⟨b, u, hb, h'⟩ := Res.bind_eq_ok.1 h
    have hu := step s u b hp hb
    dsimp only at h'
    split at h'
    · unfold transAt at h'
      split at h'
      · cases h'
        exact hu
      · cases h'
    · exact ih hu h'

theorem decodeSymbol_quiet (id : TreeId) (s : State) : (decodeSymbol id s).Quiet := descend_quiet _ _ _ _ _ _

/-- What DECODE_SYMBOL leaves when it returns: only the bit reader has moved, and a ready reader stays ready. -/
theorem decodeSymbol_spec {id : TreeId} {s t : State} {v : Nat} (h : decodeSymbol id s = .ok v t) :
    ReaderFrame s t ∧ s.src ≤ t.src ∧ (s.src ≤ s.sourceLen → t.src ≤ s.sourceLen)
      ∧ (s.overflow = true → t.overflow = true) ∧ (s.bitcount ≤ 7 → t.bitcount ≤ 7) := by
  refine descend_induct (getTree id s)
    (P := fun t => ReaderFrame s t ∧ s.src ≤ t.src ∧ (s.src ≤ s.sourceLen → t.src ≤ s.sourceLen)
      ∧ (s.overflow = true → t.overflow = true) ∧ (s.bitcount ≤ 7 → t.bitcount ≤ 7)) ?_
    ⟨ReaderFrame.refl s, Nat.le_refl _, fun h => h, fun h => h, fun h => h⟩ h
  rintro u w x ⟨h1, h2, h3, h4, h5⟩ hg
  obtain ⟨g1, g2, g3, g4, -, g6⟩ := getBits_spec hg
  rw [h1.sourceLen] at g3
  exact ⟨h1.trans g1, Nat.le_trans h2 g2, fun hs => g3 (h3 hs), fun ho => g4 (h4 ho), fun hb => by
    have := h5 hb
    omega⟩

end Sys2Proof.Machine
end

