-- ==== Sys2Proof/Laws/Output.lean ====
section
/-! SUPPORT. Everything the output side can do: one lemma for each operation that reads or writes OUT. -/

namespace Sys2Proof.Machine

/-- From `s` to `t` exactly `n` bytes have been appended to OUT: both counters have moved by `n`, and no byte outside the
appended range has changed. -/
structure Appended (n : Nat) (s t : State) : Prop where
  dest : t.dest = s.dest + n
  destLen : t.destLen = s.destLen + n
  room : n = 0 ∨ s.dest + n ≤ s.destCap
  written : ∀ a, s.dest ≤ a → a < s.dest + n → (memRead t.out a).isSome
  others : ∀ a, a < s.dest ∨ s.dest + n ≤ a → memRead t.out a = memRead s.out a
  wf : Memory.wf s.out = true → Memory.wf t.out = true

theorem Appended.refl (s : State) : Appended 0 s s :=
  ⟨rfl, rfl, .inl rfl, fun a h h' => absurd h' (by omega), fun _ _ => rfl, id⟩

theorem Appended.trans {m n : Nat} {s t u : State} (h : Appended m s t) (h' : Appended n t u)
    (hc : t.destCap = s.destCap) : Appended (m + n) s u where
  dest := by rw [h'.dest, h.dest, Nat.add_assoc]
  destLen := by rw [h'.destLen, h.destLen, Nat.add_assoc]
  room := by
    have h1 := h.room
    have h2 := h'.room
    rw [h.dest, hc] at h2
    omega
  written a ha hb := by
    have hd := h.dest
    by_cases hlt : a < s.dest + m
    · rw [h'.others a (.inl (by omega))]
      exact h.written a ha hlt
    · exact h'.written a (by omega) (by omega)
  others a ha := by
    have hd := h.dest
    rw [h'.others a (by omega), h.others a (by omega)]
  wf hw := h'.wf (h.wf hw)

theorem outRead_cases {a : Nat} {s t : State} {v : Byte} (h : outRead a s = .ok v t) :
    t = s ∧ a < s.destCap ∧ memRead s.out a = some v := by
  unfold outRead at h
  split at h
  · split at h
    · cases h
      exact ⟨rfl, ‹_›, ‹_›⟩
    · cases h
  · cases h

theorem outRead_ok {a : Nat} {s : State} (ha : a < s.destCap) (hv : (memRead s.out a).isSome) :
    ∃ v, memRead s.out a = some v ∧ outRead a s = .ok v s := by
  obtain ⟨v, hv⟩ := Option.isSome_iff_exists.1 hv
  exact ⟨v, hv, by simp [outRead, ha, hv]⟩

theorem outRead_quiet (a : Nat) (s : State) : (outRead a s).Quiet := by
  unfold outRead
  split
  · split
    · exact Res.quiet_ok _ _
    · exact Res.quiet_fault _
  · exact Res.quiet_refused _

/-- The one way a byte of output is produced: it answers exactly when there is room. -/
theorem emitByte_cases {v : Byte} {s t : State} (h : emitByte v s = .ok () t) :
    s.dest < s.destCap
      ∧ t = { s with out := memWrite s.out s.dest v, dest := s.dest + 1, destLen := s.destLen + 1 } := by
  unfold emitByte outWrite at h
  split at h
  · cases h
    exact ⟨‹_›, rfl⟩
  · cases h

theorem emitByte_ok {v : Byte} {s : State} (h : s.dest < s.destCap) :
    emitByte v s
      = .ok () { s with out := memWrite s.out s.dest v, dest := s.dest + 1, destLen := s.destLen + 1 } := by
  simp [emitByte, outWrite, h]

theorem emitByte_quiet (v : Byte) (s : State) : (emitByte v s).Quiet := by
  unfold emitByte outWrite
  split
  · exact Res.quiet_bind (Res.quiet_ok _ _) fun _ _ => Res.quiet_ok _ _
  · exact Res.quiet_bind (Res.quiet_refused _) fun _ _ => Res.quiet_ok _ _

theorem emitByte_appended {v : Byte} {s t : State} (h : emitByte v s = .ok () t) : Appended 1 s t := by
  obtain ⟨hr, rfl⟩ := emitByte_cases h
  refine ⟨rfl, rfl, .inr hr, fun a h1 h2 => ?_, fun a ha => ?_, fun hw => Memory.wf_memWrite _ _ hw⟩
  · rw [show a = s.dest by omega, memRead_memWrite_same]
    rfl
  · exact memRead_memWrite_other _ _ (by omega)

/-- A literal: the byte is appended, or the run ends for want of room and nothing is written. -/
theorem putLiteral_cases (b : Byte) (s : State) :
    (s.dest = s.destCap ∧ putLiteral b s = .raised .literalNoRoom s)
      ∨ (s.dest ≠ s.destCap ∧ putLiteral b s = emitByte b s) := by
  unfold putLiteral
  split
  · exact .inl ⟨‹_›, rfl⟩
  · exact .inr ⟨‹_›, rfl⟩

/-- What the copy engine leaves when it returns: only OUT and its counters have changed, by `n` appended bytes. -/
theorem copyMatch_spec {offs : Nat} :
    ∀ {n : Nat} {s t : State}, copyMatch n offs s = .ok () t →
      Appended n s t ∧ { t with out := s.out, dest := s.dest, destLen := s.destLen } = s := by
  intro n
  induction n with
  | zero =>
    intro s t h
    cases h
    exact ⟨Appended.refl s, rfl⟩
  | succ n ih =>
    intro s t h
    unfold copyMatch at h
    split at h
    · cases h
    · obtain ⟨v, u, hu, h1⟩ := Res.bind_eq_ok.1 h
      obtain ⟨rfl, -, -⟩ := outRead_cases hu
      obtain ⟨_, w, hw, h2⟩ := Res.bind_eq_ok.1 h1
      have ha := emitByte_appended hw
      obtain ⟨-, rfl⟩ := emitByte_cases hw
      obtain ⟨hb, hf⟩ := ih h2
      refine ⟨by simpa [Nat.add_comm] using ha.trans hb rfl, ?_⟩
      cases t
      cases u
      simp only [State.mk.injEq] at hf ⊢
      simp [hf]

/-- The copy engine answers when the distance reaches into what has been written and there is room. -/
theorem copyMatch_answers {offs : Nat} (ho : 0 < offs) :
    ∀ {n : Nat} {s : State}, offs ≤ s.dest → s.dest + n ≤ s.destCap →
      (∀ a, a < s.dest → (memRead s.out a).isSome) → ∃ t, copyMatch n offs s = .ok () t := by
  intro n
  induction n with
  | zero => exact fun _ _ _ => ⟨_, rfl⟩
  | succ n ih =>
    intro s hd hc hw
    obtain ⟨v, -, hv⟩ := outRead_ok (s := s) (a := s.dest - offs) (by omega) (hw _ (by omega))
    unfold copyMatch
    rw [if_neg (by omega), hv, Res.bind_ok, emitByte_ok (by omega), Res.bind_ok]
    refine ih ?_ ?_ ?_
    · simp only
      omega
    · simp only
      omega
    · intro a ha
      simp only at ha ⊢
      rw [memRead_memWrite]
      split
      · rfl
      · exact hw a (by omega)

theorem copyMatch_quiet : ∀ (n offs : Nat) (s : State), (copyMatch n offs s).Quiet
  | 0, _, _ => Res.quiet_ok _ _
  | n + 1, offs, s => by
    unfold copyMatch
    split
    · exact Res.quiet_refused _
    · exact Res.quiet_bind (outRead_quiet _ _) fun _ _ =>
        Res.quiet_bind (emitByte_quiet _ _) fun _ _ => copyMatch_quiet n offs _

/-- What the stored copy leaves when it returns: SRC's cursor has moved by `n`, and `n` bytes are appended. -/
theorem copyStored_spec :
    ∀ {n : Nat} {s t : State}, copyStored n s = .ok () t →
      Appended n s t ∧ t.src = s.src + n
        ∧ { t with src := s.src, out := s.out, dest := s.dest, destLen := s.destLen } = s := by
  intro n
  induction n with
  | zero =>
    intro s t h
    cases h
    exact ⟨Appended.refl s, rfl, rfl⟩
  | succ n ih =>
    intro s t h
    obtain ⟨v, u, hu, h1⟩ := Res.bind_eq_ok.1 h
    obtain ⟨rfl, -, -⟩ := srcRead_cases hu
    obtain ⟨_, w, hw, h2⟩ := Res.bind_eq_ok.1 h1
    have ha := emitByte_appended hw
    obtain ⟨-, rfl⟩ := emitByte_cases hw
    obtain ⟨hb, hs, hf⟩ := ih h2
    refine ⟨?_, by rw [hs]; simp only; omega, ?_⟩
    · have := ha.trans hb rfl
      rw [Nat.add_comm 1 n] at this
      exact ⟨this.dest, this.destLen, this.room, this.written, this.others, this.wf⟩
    · cases t
      cases u
      simp only [State.mk.injEq] at hf ⊢
      simp [hf]

/-- The stored copy answers when the source and the output both have room for it. -/
theorem copyStored_answers :
    ∀ {n : Nat} {s : State}, SourceReadable s → s.src + n ≤ s.sourceLen → s.dest + n ≤ s.destCap →
      ∃ t, copyStored n s = .ok () t := by
  intro n
  induction n with
  | zero => exact fun _ _ _ => ⟨_, rfl⟩
  | succ n ih =>
    intro s hr hs hd
    obtain ⟨v, -, hv⟩ := srcRead_ok hr (show s.src < s.sourceLen by omega)
    unfold copyStored
    rw [hv, Res.bind_ok, emitByte_ok (by simp only; omega), Res.bind_ok]
    exact ih hr (by simp only; omega) (by simp only; omega)

theorem copyStored_quiet : ∀ (n : Nat) (s : State), (copyStored n s).Quiet
  | 0, _ => Res.quiet_ok _ _
  | n + 1, _ =>
    Res.quiet_bind (srcRead_quiet _ _) fun _ _ =>
      Res.quiet_bind (emitByte_quiet _ _) fun _ _ => copyStored_quiet n _

/-- The `overflow` test after a symbol. -/
theorem testOverflow_cases (s : State) :
    (s.overflow = true ∧ testOverflow s = .raised .overflowInBody s)
      ∨ (s.overflow = false ∧ testOverflow s = .ok () s) := by
  unfold testOverflow
  cases s.overflow <;> simp

/-- The three tests of an uncompressed block, as they bear on its outcome. -/
theorem checkStored_cases {len nlen : Nat} {s t : State} (h : checkStored len nlen s = .ok () t) :
    t = s ∧ len = (~~~(BitVec.ofNat 16 nlen)).toNat ∧ s.src + len ≤ s.sourceLen ∧ s.dest + len ≤ s.destCap := by
  unfold checkStored at h
  split at h
  · cases h
  · split at h
    · cases h
    · split at h
      · cases h
      · cases h
        exact ⟨rfl, not_not.1 ‹_›, Nat.not_lt.1 ‹_›, Nat.not_lt.1 ‹_›⟩

end Sys2Proof.Machine
end

