-- ==== Sys2Proof/Laws/PerInstr.lean ====
section
/-! SUPPORT. Statements about every instruction, one lemma per constructor. -/

namespace Sys2Proof.Laws

/-- What the encoder writes, the decoder reads back, with every operand; for every value of the operands, well-formed or
not. -/
def RoundTrip.Statement (i : Instr) : Prop := decode (encode i) = .ok i

/-- The header selector of each block type decodes to it, for both values of BFINAL. -/
theorem decodeBH_headerSelector (f : Bool) :
    decodeBH (headerSelector f 0) = .ok (.stored f) ∧ decodeBH (headerSelector f 1) = .ok (.fixed f)
      ∧ decodeBH (headerSelector f 2) = .ok (.dynamic f) ∧ decodeBH (headerSelector f 3) = .ok (.reserved f) := by
  cases f <;> exact ⟨rfl, rfl, rfl, rfl⟩

theorem decodeLL_literal (b : Byte) : decodeLL b.toNat = .ok (.lit b) := by
  have h : b.toNat < 256 := b.isLt
  simp [decodeLL, h]

theorem decodeCL_literal (v : BitVec 4) : decodeCL v.toNat = .ok (.cl v) := by
  have h : v.toNat < 16 := v.isLt
  simp [decodeCL, h]

theorem RoundTrip.stored (bfinal : Bool) : RoundTrip.Statement (.stored bfinal) := (decodeBH_headerSelector bfinal).1

theorem RoundTrip.fixed (bfinal : Bool) : RoundTrip.Statement (.fixed bfinal) := (decodeBH_headerSelector bfinal).2.1

theorem RoundTrip.dynamic (bfinal : Bool) : RoundTrip.Statement (.dynamic bfinal) := (decodeBH_headerSelector bfinal).2.2.1

theorem RoundTrip.reserved (bfinal : Bool) : RoundTrip.Statement (.reserved bfinal) := (decodeBH_headerSelector bfinal).2.2.2

theorem RoundTrip.lit (imm : Byte) : RoundTrip.Statement (.lit imm) := by
  simpa [RoundTrip.Statement, encode, decode] using decodeLL_literal imm

theorem RoundTrip.eob : RoundTrip.Statement .eob := rfl

theorem RoundTrip.len257 : RoundTrip.Statement .len257 := rfl

theorem RoundTrip.len258 : RoundTrip.Statement .len258 := rfl

theorem RoundTrip.len259 : RoundTrip.Statement .len259 := rfl

theorem RoundTrip.len260 : RoundTrip.Statement .len260 := rfl

theorem RoundTrip.len261 : RoundTrip.Statement .len261 := rfl

theorem RoundTrip.len262 : RoundTrip.Statement .len262 := rfl

theorem RoundTrip.len263 : RoundTrip.Statement .len263 := rfl

theorem RoundTrip.len264 : RoundTrip.Statement .len264 := rfl

theorem RoundTrip.len265 : RoundTrip.Statement .len265 := rfl

theorem RoundTrip.len266 : RoundTrip.Statement .len266 := rfl

theorem RoundTrip.len267 : RoundTrip.Statement .len267 := rfl

theorem RoundTrip.len268 : RoundTrip.Statement .len268 := rfl

theorem RoundTrip.len269 : RoundTrip.Statement .len269 := rfl

theorem RoundTrip.len270 : RoundTrip.Statement .len270 := rfl

theorem RoundTrip.len271 : RoundTrip.Statement .len271 := rfl

theorem RoundTrip.len272 : RoundTrip.Statement .len272 := rfl

theorem RoundTrip.len273 : RoundTrip.Statement .len273 := rfl

theorem RoundTrip.len274 : RoundTrip.Statement .len274 := rfl

theorem RoundTrip.len275 : RoundTrip.Statement .len275 := rfl

theorem RoundTrip.len276 : RoundTrip.Statement .len276 := rfl

theorem RoundTrip.len277 : RoundTrip.Statement .len277 := rfl

theorem RoundTrip.len278 : RoundTrip.Statement .len278 := rfl

theorem RoundTrip.len279 : RoundTrip.Statement .len279 := rfl

theorem RoundTrip.len280 : RoundTrip.Statement .len280 := rfl

theorem RoundTrip.len281 : RoundTrip.Statement .len281 := rfl

theorem RoundTrip.len282 : RoundTrip.Statement .len282 := rfl

theorem RoundTrip.len283 : RoundTrip.Statement .len283 := rfl

theorem RoundTrip.len284 : RoundTrip.Statement .len284 := rfl

theorem RoundTrip.len285 : RoundTrip.Statement .len285 := rfl

theorem RoundTrip.rsvd286 : RoundTrip.Statement .rsvd286 := rfl

theorem RoundTrip.rsvd287 : RoundTrip.Statement .rsvd287 := rfl

theorem RoundTrip.dist0 : RoundTrip.Statement .dist0 := rfl

theorem RoundTrip.dist1 : RoundTrip.Statement .dist1 := rfl

theorem RoundTrip.dist2 : RoundTrip.Statement .dist2 := rfl

theorem RoundTrip.dist3 : RoundTrip.Statement .dist3 := rfl

theorem RoundTrip.dist4 : RoundTrip.Statement .dist4 := rfl

theorem RoundTrip.dist5 : RoundTrip.Statement .dist5 := rfl

theorem RoundTrip.dist6 : RoundTrip.Statement .dist6 := rfl

theorem RoundTrip.dist7 : RoundTrip.Statement .dist7 := rfl

theorem RoundTrip.dist8 : RoundTrip.Statement .dist8 := rfl

theorem RoundTrip.dist9 : RoundTrip.Statement .dist9 := rfl

theorem RoundTrip.dist10 : RoundTrip.Statement .dist10 := rfl

theorem RoundTrip.dist11 : RoundTrip.Statement .dist11 := rfl

theorem RoundTrip.dist12 : RoundTrip.Statement .dist12 := rfl

theorem RoundTrip.dist13 : RoundTrip.Statement .dist13 := rfl

theorem RoundTrip.dist14 : RoundTrip.Statement .dist14 := rfl

theorem RoundTrip.dist15 : RoundTrip.Statement .dist15 := rfl

theorem RoundTrip.dist16 : RoundTrip.Statement .dist16 := rfl

theorem RoundTrip.dist17 : RoundTrip.Statement .dist17 := rfl

theorem RoundTrip.dist18 : RoundTrip.Statement .dist18 := rfl

theorem RoundTrip.dist19 : RoundTrip.Statement .dist19 := rfl

theorem RoundTrip.dist20 : RoundTrip.Statement .dist20 := rfl

theorem RoundTrip.dist21 : RoundTrip.Statement .dist21 := rfl

theorem RoundTrip.dist22 : RoundTrip.Statement .dist22 := rfl

theorem RoundTrip.dist23 : RoundTrip.Statement .dist23 := rfl

theorem RoundTrip.dist24 : RoundTrip.Statement .dist24 := rfl

theorem RoundTrip.dist25 : RoundTrip.Statement .dist25 := rfl

theorem RoundTrip.dist26 : RoundTrip.Statement .dist26 := rfl

theorem RoundTrip.dist27 : RoundTrip.Statement .dist27 := rfl

theorem RoundTrip.dist28 : RoundTrip.Statement .dist28 := rfl

theorem RoundTrip.dist29 : RoundTrip.Statement .dist29 := rfl

theorem RoundTrip.rsvd30 : RoundTrip.Statement .rsvd30 := rfl

theorem RoundTrip.rsvd31 : RoundTrip.Statement .rsvd31 := rfl

theorem RoundTrip.cl (imm : BitVec 4) : RoundTrip.Statement (.cl imm) := by
  simpa [RoundTrip.Statement, encode, decode] using decodeCL_literal imm

theorem RoundTrip.cl16 : RoundTrip.Statement .cl16 := rfl

theorem RoundTrip.cl17 : RoundTrip.Statement .cl17 := rfl

theorem RoundTrip.cl18 : RoundTrip.Statement .cl18 := rfl

theorem RoundTrip.sentinel19 : RoundTrip.Statement .sentinel19 := rfl

theorem RoundTrip.refill (n : Nat) : RoundTrip.Statement (.refill n) := rfl

theorem RoundTrip.consume (n : Nat) : RoundTrip.Statement (.consume n) := rfl

theorem RoundTrip.getbits (n : Nat) : RoundTrip.Statement (.getbits n) := rfl

theorem RoundTrip.getbitsBase (n base : Nat) : RoundTrip.Statement (.getbitsBase n base) := rfl

theorem RoundTrip.buildTree (t : TreeId) (off num : Nat) : RoundTrip.Statement (.buildTree t off num) := by cases t <;> rfl

theorem RoundTrip.decodeSymbol (t : TreeId) : RoundTrip.Statement (.decodeSymbol t) := by cases t <;> rfl

theorem RoundTrip.buildFixedTrees : RoundTrip.Statement .buildFixedTrees := rfl

theorem RoundTrip.decodeTrees : RoundTrip.Statement .decodeTrees := rfl

theorem RoundTrip.inflateBlockData : RoundTrip.Statement .inflateBlockData := rfl

theorem RoundTrip.inflateUncompressed : RoundTrip.Statement .inflateUncompressed := rfl

theorem RoundTrip.uncompress (source : List Byte) (sourceLen destCap : Nat) : RoundTrip.Statement (.uncompress source sourceLen destCap) := rfl

end Sys2Proof.Laws
end

