-- ==== Sys2Proof/Laws/Step.lean ====
section
/-! SUPPORT. Everything a step can do, the host's actions and the end of a run: inversions that later proofs cite instead
of unfolding the step. -/

namespace Sys2Proof.Machine

/-- START answers exactly when no run is in progress and the buffer has the length that is told. -/
theorem startRun_cases {source : List Byte} {len cap : Nat} {s t : State} (h : startRun source len cap s = .ok () t) :
    s.phase ≠ .run ∧ source.length = len
      ∧ t = { s with
              source := memOfBytes 0 source, sourceLen := len, destCap := cap
              src := 0, tag := 0, bitcount := 0, overflow := false, dest := 0, destLen := 0
              phase := .run, seq := .header
              ltree := { s.ltree with built := false }, dtree := { s.dtree with built := false } } := by
  unfold startRun at h
  split at h
  · cases h
  · split at h
    · cases h
    · cases h
      exact ⟨‹_›, not_not.1 ‹_›, rfl⟩

theorem startRun_quiet (source : List Byte) (len cap : Nat) (s : State) : (startRun source len cap s).Quiet := by
  unfold startRun
  split
  · exact Res.quiet_refused _
  · split
    · exact Res.quiet_refused _
    · exact Res.quiet_ok _ _

/-- The end of a run: the last `overflow` test, then the results. -/
theorem endRun_cases (s : State) :
    (s.overflow = true ∧ endRun s = .raised .overflowAtEnd s)
      ∨ (s.overflow = false ∧ endRun s = .ok () { s with status := .ok, destLenOut := s.destLen, phase := .done }) := by
  unfold endRun
  cases s.overflow <;> simp

/-- A host access answers exactly outside a run. -/
theorem hostAccess_cases {s t u : State} (h : hostAccess s t = .ok () u) : s.phase ≠ .run ∧ u = t := by
  unfold hostAccess at h
  split at h
  · cases h
  · cases h
    exact ⟨‹_›, rfl⟩

theorem hostAccess_ok {s : State} (h : s.phase ≠ .run) (t : State) : hostAccess s t = .ok () t := by
  simp [hostAccess, h]

theorem hostAccess_quiet (s t : State) : (hostAccess s t).Quiet := by
  unfold hostAccess
  split
  · exact Res.quiet_refused _
  · exact Res.quiet_ok _ _

/-- What the host can bring about: a start, a reset, or an access to one of the two buffers outside a run. -/
theorem hostStep_cases {a : HostAction} {s t : State} (h : hostStep a s = .ok () t) :
    (∃ source len cap, a = .start source len cap ∧ startRun source len cap s = .ok () t)
      ∨ (a = .reset ∧ t = State.reset)
      ∨ (s.phase ≠ .run ∧
          ((∃ i v, a = .writeSrc i v ∧ t = { s with source := memWrite s.source i v })
            ∨ (∃ i v, a = .writeOut i v ∧ t = { s with out := memWrite s.out i v })
            ∨ ((∃ i, a = .readSrc i ∨ a = .readOut i) ∧ t = s))) := by
  cases a with
  | start source len cap => exact .inl ⟨source, len, cap, rfl, h⟩
  | reset =>
    cases h
    exact .inr (.inl ⟨rfl, rfl⟩)
  | writeSrc i v =>
    obtain ⟨hp, rfl⟩ := hostAccess_cases h
    exact .inr (.inr ⟨hp, .inl ⟨i, v, rfl, rfl⟩⟩)
  | writeOut i v =>
    obtain ⟨hp, rfl⟩ := hostAccess_cases h
    exact .inr (.inr ⟨hp, .inr (.inl ⟨i, v, rfl, rfl⟩)⟩)
  | readSrc i =>
    obtain ⟨hp, rfl⟩ := hostAccess_cases h
    exact .inr (.inr ⟨hp, .inr (.inr ⟨⟨i, .inl rfl⟩, rfl⟩)⟩)
  | readOut i =>
    obtain ⟨hp, rfl⟩ := hostAccess_cases h
    exact .inr (.inr ⟨hp, .inr (.inr ⟨⟨i, .inr rfl⟩, rfl⟩)⟩)

/-- No action of the host raises. -/
theorem hostStep_quiet (a : HostAction) (s : State) : (hostStep a s).Quiet := by
  cases a with
  | start source len cap => exact startRun_quiet source len cap s
  | reset => exact Res.quiet_ok _ _
  | writeSrc i v => exact hostAccess_quiet _ _
  | readSrc i => exact hostAccess_quiet _ _
  | writeOut i v => exact hostAccess_quiet _ _
  | readOut i => exact hostAccess_quiet _ _

/-- The ways a step gives a next state: the host's action, an operation issued on its own, an element of the stream, a
move of the sequencer, an exception taken while an element is fetched, or nothing at all outside a run. -/
theorem step_cases {s t : State} (h : step s = .next t) :
    (∃ a, s.request = some a ∧ (hostStep a { s with request := none }).finish = .next t)
      ∨ (∃ i, s.request = none ∧ s.issue = some i ∧ exec i { s with issue := none } = .next t)
      ∨ (s.request = none ∧ s.issue = none ∧ s.phase ≠ .run ∧ t = s)
      ∨ (∃ f n u i, s.request = none ∧ s.issue = none ∧ s.phase = .run ∧ mode s = some f ∧ fetch f s = .ok n u
          ∧ decode ⟨f, n, [], []⟩ = .ok i ∧ exec i u = .next t)
      ∨ (∃ f c u, s.request = none ∧ s.issue = none ∧ s.phase = .run ∧ mode s = some f ∧ fetch f s = .raised c u
          ∧ t = takeException c u)
      ∨ (s.request = none ∧ s.issue = none ∧ s.phase = .run ∧ mode s = none ∧ (sequence s).finish = .next t) := by
  unfold step at h
  cases hr : s.request with
  | some a =>
    rw [hr] at h
    exact .inl ⟨a, rfl, h⟩
  | none =>
    rw [hr] at h
    cases hi : s.issue with
    | some i =>
      rw [hi] at h
      exact .inr (.inl ⟨i, rfl, rfl, h⟩)
    | none =>
      rw [hi] at h
      cases hp : s.phase with
      | idle =>
        rw [hp] at h
        cases h
        exact .inr (.inr (.inl ⟨rfl, rfl, by simp, rfl⟩))
      | done =>
        rw [hp] at h
        cases h
        exact .inr (.inr (.inl ⟨rfl, rfl, by simp, rfl⟩))
      | run =>
        rw [hp] at h
        simp only [runStep] at h
        cases hm : mode s with
        | none =>
          rw [hm] at h
          exact .inr (.inr (.inr (.inr (.inr ⟨rfl, rfl, rfl, rfl, h⟩))))
        | some f =>
          rw [hm] at h
          simp only [runElement] at h
          cases hf : fetch f s with
          | ok n u =>
            rw [hf] at h
            cases hd : decode ⟨f, n, [], []⟩ with
            | ok i =>
              simp only [hd] at h
              exact .inr (.inr (.inr (.inl ⟨f, n, u, i, rfl, rfl, rfl, rfl, hf, hd, h⟩)))
            | error r =>
              simp only [hd] at h
              cases h
          | raised c u =>
            rw [hf] at h
            cases h
            exact .inr (.inr (.inr (.inr (.inl ⟨f, c, u, rfl, rfl, rfl, rfl, hf, rfl⟩))))
          | fault e =>
            rw [hf] at h
            cases h
          | refused r =>
            rw [hf] at h
            cases h

/-- Runs of steps compose. -/
theorem run_add (M : Host.Core) : ∀ (j k : Nat) (s t : M.State), M.run j s = .next t → M.run (j + k) s = M.run k t := by
  intro j
  induction j with
  | zero =>
    intro k s t h
    simp only [Host.Core.run] at h
    cases h
    simp
  | succ j ih =>
    intro k s t h
    rw [Nat.succ_add]
    simp only [Host.Core.run] at h ⊢
    cases hs : M.step s with
    | next u =>
      rw [hs] at h
      exact ih k u t h
    | fault r =>
      rw [hs] at h
      cases h
    | refused r =>
      rw [hs] at h
      cases h

/-- An invariant that every step keeps holds along a run of any length. -/
theorem run_induct (M : Host.Core) {P : M.State → Prop} (step : ∀ s t, P s → M.step s = .next t → P t) :
    ∀ (k : Nat) (s t : M.State), P s → M.run k s = .next t → P t := by
  intro k
  induction k with
  | zero =>
    intro s t hp h
    cases h
    exact hp
  | succ k ih =>
    intro s t hp h
    simp only [Host.Core.run] at h
    cases hs : M.step s with
    | next u =>
      rw [hs] at h
      exact ih u t (step s u hp hs) h
    | fault r =>
      rw [hs] at h
      cases h
    | refused r =>
      rw [hs] at h
      cases h

end Sys2Proof.Machine
end

