-- ==== Sys2Proof/Laws/Trees.lean ====
section
/-! SUPPORT. Everything the tree builder and the scratch array can do. -/

namespace Sys2Proof.Machine

@[simp] theorem entry_ofFn {n : Nat} (f : Fin n → Nat) (i : Nat) :
    entry (Vector.ofFn f) i = if h : i < n then f ⟨i, h⟩ else 0 := by
  unfold entry
  by_cases h : i < n <;> simp [h]

theorem entry_setIfInBounds {n : Nat} (v : Vector Nat n) (i j x : Nat) :
    entry (v.setIfInBounds i x) j = if i = j ∧ j < n then x else entry v j := by
  unfold entry
  by_cases h : i = j
  · subst h
    by_cases hn : i < n <;> simp [hn]
  · simp [h]

/-- `table[ℓ]` after a build's counting steps. -/
theorem entry_countLengths (lens : List Nat) (l : Nat) :
    entry (countLengths lens) l = if l = 0 ∨ 16 ≤ l then 0 else lens.count l := by
  simp only [countLengths, entry_ofFn]
  by_cases h0 : l = 0
  · simp [h0]
  · by_cases h : l < 16
    · simp [h, h0, Nat.not_le.2 h]
    · simp [h, Nat.not_lt.1 h]

/-- The three outcomes of BUILD_TREE: outside the contract it is refused; else the check decides between a raise that
leaves the counts and a finished tree. -/
theorem buildTree_cases (id : TreeId) (off num : Nat) (s : State) :
    (buildContract s.lengths off num = false ∧ buildTree id off num s = .refused .buildTreeContract)
      ∨ (buildContract s.lengths off num = true ∧ ∃ c, buildCheck (slice s off num) = some c
          ∧ buildTree id off num s = .raised c (setTree id (countedTree (slice s off num) (getTree id s)) s))
      ∨ (buildContract s.lengths off num = true ∧ buildCheck (slice s off num) = none
          ∧ buildTree id off num s = .ok () (setTree id (finishedTree (slice s off num) (getTree id s)) s)) := by
  unfold buildTree
  cases hc : buildContract s.lengths off num with
  | false => exact .inl ⟨rfl, by simp⟩
  | true =>
    cases hb : buildCheck (slice s off num) with
    | none => exact .inr (.inr ⟨rfl, rfl, by simp only [slice] at hb ⊢; simp [hb]⟩)
    | some c => exact .inr (.inl ⟨rfl, c, rfl, by simp only [slice] at hb ⊢; simp [hb]⟩)

/-- A failing build has one of three causes, and all of them are reported as TINF_DATA_ERROR. -/
theorem buildCheck_cause {lens : List Nat} {c : Cause} (h : buildCheck lens = some c) : c.status = .dataError := by
  unfold buildCheck at h
  split at h
  · cases h
    rfl
  · split at h
    · cases h
      rfl
    · split at h
      · cases h
        rfl
      · cases h

/-- The contract in words. -/
theorem buildContract_iff {lengths : Vector Nat 320} {off num : Nat} :
    buildContract lengths off num = true ↔
      num ≤ 288 ∧ off + num ≤ 320 ∧ ∀ l ∈ (lengths.toList.drop off).take num, l ≤ 15 := by
  simp only [buildContract, Bool.and_eq_true, decide_eq_true_eq, List.all_eq_true, and_assoc]
  rfl

theorem getTree_finished (id : TreeId) (lens : List Nat) (old : Tree) (s : State) :
    getTree id (setTree id (finishedTree lens old) s) = finishedTree lens old := getTree_setTree _ _ _

@[simp] theorem finishedTree_built (lens : List Nat) (t : Tree) : (finishedTree lens t).built = true := by
  unfold finishedTree
  dsimp only
  split <;> rfl

@[simp] theorem finishedTree_maxSym (lens : List Nat) (t : Tree) :
    (finishedTree lens t).maxSym = lastCoded lens 0 (-1) := by
  unfold finishedTree
  dsimp only
  split <;> rfl

/-- A write to the scratch array answers exactly below its size. -/
theorem writeLength_cases {i v : Nat} {s t : State} (h : writeLength i v s = .ok () t) :
    i < 320 ∧ t = { s with lengths := s.lengths.setIfInBounds i v } := by
  unfold writeLength at h
  split at h
  · cases h
    exact ⟨‹_›, rfl⟩
  · cases h

theorem writeLength_ok {i v : Nat} {s : State} (h : i < 320) :
    writeLength i v s = .ok () { s with lengths := s.lengths.setIfInBounds i v } := by
  simp [writeLength, Config.lengthsSize, h]

/-- What a run of code lengths leaves: `rep` entries from `num` on, and `num` behind them. -/
theorem fillLengths_spec {val : Nat} :
    ∀ {rep : Nat} {s t : State}, fillLengths rep val s = .ok () t →
      t.num = s.num + rep ∧ { t with lengths := s.lengths, num := s.num } = s
        ∧ (rep = 0 ∨ s.num + rep ≤ 320)
        ∧ ∀ k, entry t.lengths k = if s.num ≤ k ∧ k < s.num + rep then val else entry s.lengths k := by
  intro rep
  induction rep with
  | zero =>
    intro s t h
    cases h
    exact ⟨rfl, rfl, .inl rfl, fun k => by rw [if_neg (by omega)]⟩
  | succ rep ih =>
    intro s t h
    obtain ⟨_, u, hu, h1⟩ := Res.bind_eq_ok.1 h
    obtain ⟨hlt, rfl⟩ := writeLength_cases hu
    obtain ⟨hn, hf, hr, hk⟩ := ih h1
    simp only at hn hr hk
    refine ⟨by omega, ?_, by omega, fun k => ?_⟩
    · cases t
      cases s
      simp only [State.mk.injEq] at hf ⊢
      simp [hf]
    · rw [hk k, entry_setIfInBounds]
      by_cases h1 : s.num = k
      · subst h1
        simp [hlt]
      · by_cases h2 : s.num + 1 ≤ k ∧ k < s.num + 1 + rep
        · rw [if_pos h2, if_pos (by omega)]
        · rw [if_neg h2, if_neg (by omega), if_neg (by omega)]

/-- A run of code lengths answers while it stays inside the scratch array. -/
theorem fillLengths_answers {val : Nat} :
    ∀ {rep : Nat} {s : State}, s.num + rep ≤ 320 → ∃ t, fillLengths rep val s = .ok () t := by
  intro rep
  induction rep with
  | zero => exact fun _ => ⟨_, rfl⟩
  | succ rep ih =>
    intro s h
    unfold fillLengths
    rw [writeLength_ok (by omega), Res.bind_ok]
    exact ih (by simp only; omega)

/-- R200: the overshoot test decides, then the run is written. -/
theorem storeRun_cases (val rep : Nat) (s : State) :
    (s.hlit + s.hdist < s.num + rep ∧ storeRun val rep s = .raised .repeatOvershoot s)
      ∨ (s.num + rep ≤ s.hlit + s.hdist ∧ storeRun val rep s = fillLengths rep val s) := by
  unfold storeRun
  split
  · exact .inl ⟨‹_›, rfl⟩
  · exact .inr ⟨Nat.not_lt.1 ‹_›, rfl⟩

/-- R199: the test of a code-length symbol. -/
theorem checkClSym_cases (sym : Nat) (s : State) :
    (s.ltree.maxSym < sym ∧ checkClSym sym s = .raised .clsymRange s)
      ∨ ((sym : Int) ≤ s.ltree.maxSym ∧ checkClSym sym s = .ok () s) := by
  unfold checkClSym
  split
  · exact .inl ⟨‹_›, rfl⟩
  · exact .inr ⟨Int.not_lt.1 ‹_›, rfl⟩

end Sys2Proof.Machine
end

