-- ==== Sys2Proof/Tests/Slice0.lean ====
section
/-! SUPPORT. Tests of single steps against the vectors of spec/95_test_vectors.md and selectors written out from the spec's
tables; ill-formed terms that WellFormed refuses; and for each obligation with hypotheses a witness that meets them. -/

namespace Sys2Proof.Tests

open Machine

/-! ## Helpers -/

/-- A run on the given bytes, at its first bit, with room for 16 bytes. -/
def tst (bytes : List Byte) : State :=
  { State.reset with phase := .run, source := memOfBytes 0 bytes, sourceLen := bytes.length, destCap := 16 }

/-- The bit reader after an outcome: returned value, `src`, `bitcount`, `tag`, `overflow`. -/
def reader : Host.Outcome State Fault Refusal → Option (Nat × Nat × Nat × Nat × Bool)
  | .next t => some (t.ret, t.src, t.bitcount, t.tag.toNat, t.overflow)
  | .fault _ => none
  | .refused _ => none

/-- The results of a run: status code, `dest_len_out`, and for TINF_OK the bytes of OUT. -/
def result : Host.Outcome State Fault Refusal → Option (Int × Nat × List Nat)
  | .next t =>
    some (t.status.code, t.destLenOut,
      if t.status = .ok then
        (List.range t.destLenOut).map fun i => match memRead t.out i with | some b => b.toNat | none => 256
      else [])
  | .fault _ => none
  | .refused _ => none

/-- A field of the state after an outcome. -/
def after {α : Type} (f : State → α) : Host.Outcome State Fault Refusal → Option α
  | .next t => some (f t)
  | .fault _ => none
  | .refused _ => none

/-- The reason of a refusal. -/
def stopped : Host.Outcome State Fault Refusal → Option Refusal
  | .refused r => some r
  | .next _ => none
  | .fault _ => none

/-- A run that is over, with its status. -/
def ended : Host.Outcome State Fault Refusal → Option (Phase × Status × Nat)
  | .next t => some (t.phase, t.status, t.destLenOut)
  | .fault _ => none
  | .refused _ => none

/-- UNCOMPRESS from reset. -/
def inflate (bytes : List Byte) (cap : Nat) : Host.Outcome State Fault Refusal :=
  exec (.uncompress bytes bytes.length cap) State.reset

/-- Code lengths in `lengths` from index 0 on. -/
def withLengths (lens : List Nat) (s : State) : State :=
  { s with lengths := Vector.ofFn fun i => lens.getD i.val 0 }

/-- What BUILD_TREE leaves: status, the counts, the first entries of `trans`, `max_sym`. -/
def built (lens : List Nat) (n : Nat) : Option (Status × List Nat × List Nat × Int) :=
  after (fun t => (t.status, t.ltree.table.toList, t.ltree.trans.toList.take n, t.ltree.maxSym))
    (exec (.buildTree .ltree 0 lens.length) (withLengths lens State.reset))

/-! ## WellFormed: one ill-formed term for each check -/

theorem test_wf_refill : WellFormed (.refill 33) = false ∧ WellFormed (.refill 32) = true := by decide
theorem test_wf_consume : WellFormed (.consume 33) = false ∧ WellFormed (.consume 32) = true := by decide
theorem test_wf_getbits : WellFormed (.getbits 17) = false ∧ WellFormed (.getbits 16) = true := by decide
theorem test_wf_getbitsBase : WellFormed (.getbitsBase 17 0) = false ∧ WellFormed (.getbitsBase 16 9) = true := by decide
theorem test_wf_buildTree_num : WellFormed (.buildTree .ltree 0 289) = false := by decide
theorem test_wf_buildTree_slice :
    WellFormed (.buildTree .dtree 33 288) = false ∧ WellFormed (.buildTree .dtree 32 288) = true := by decide
theorem test_wf_uncompress :
    WellFormed (.uncompress [3] 2 0) = false ∧ WellFormed (.uncompress [3, 0] 2 0) = true := by decide

/-! ## Selectors of the opcode table, row by row (match and mask of spec/opcode_table.json) -/

theorem test_bh_rows :
    [0b000, 0b001, 0b010, 0b011, 0b100, 0b101, 0b110, 0b111].map decodeBH
      = [.ok (.stored false), .ok (.stored true), .ok (.fixed false), .ok (.fixed true), .ok (.dynamic false),
        .ok (.dynamic true), .ok (.reserved false), .ok (.reserved true)] := by decide
theorem test_bh_rejects : decodeBH 0b1000 = .error .headerSelector := by decide
theorem test_ll_literals :
    decodeLL 0b000000000 = .ok (.lit 0) ∧ decodeLL 0b001001000 = .ok (.lit 0x48)
      ∧ decodeLL 0b011111111 = .ok (.lit 255) := by decide
theorem test_ll_rows_0 :
    [0x100, 0x101, 0x102, 0x103, 0x104, 0x105, 0x106, 0x107].map decodeLL
      = [.ok .eob, .ok .len257, .ok .len258, .ok .len259, .ok .len260, .ok .len261, .ok .len262,
        .ok .len263] := by decide
theorem test_ll_rows_1 :
    [0x108, 0x109, 0x10a, 0x10b, 0x10c, 0x10d, 0x10e, 0x10f].map decodeLL
      = [.ok .len264, .ok .len265, .ok .len266, .ok .len267, .ok .len268, .ok .len269, .ok .len270,
        .ok .len271] := by decide
theorem test_ll_rows_2 :
    [0x110, 0x111, 0x112, 0x113, 0x114, 0x115, 0x116, 0x117].map decodeLL
      = [.ok .len272, .ok .len273, .ok .len274, .ok .len275, .ok .len276, .ok .len277, .ok .len278,
        .ok .len279] := by decide
theorem test_ll_rows_3 :
    [0x118, 0x119, 0x11a, 0x11b, 0x11c, 0x11d, 0x11e, 0x11f].map decodeLL
      = [.ok .len280, .ok .len281, .ok .len282, .ok .len283, .ok .len284, .ok .len285, .ok .rsvd286,
        .ok .rsvd287] := by decide
theorem test_ll_rejects : decodeLL 0x120 = .error .litLenSymbol := by decide
theorem test_ds_rows_0 :
    [0x0, 0x1, 0x2, 0x3, 0x4, 0x5, 0x6, 0x7].map decodeDS
      = [.ok .dist0, .ok .dist1, .ok .dist2, .ok .dist3, .ok .dist4, .ok .dist5, .ok .dist6, .ok .dist7] := by decide
theorem test_ds_rows_1 :
    [0x8, 0x9, 0xa, 0xb, 0xc, 0xd, 0xe, 0xf].map decodeDS
      = [.ok .dist8, .ok .dist9, .ok .dist10, .ok .dist11, .ok .dist12, .ok .dist13, .ok .dist14,
        .ok .dist15] := by decide
theorem test_ds_rows_2 :
    [0x10, 0x11, 0x12, 0x13, 0x14, 0x15, 0x16, 0x17].map decodeDS
      = [.ok .dist16, .ok .dist17, .ok .dist18, .ok .dist19, .ok .dist20, .ok .dist21, .ok .dist22,
        .ok .dist23] := by decide
theorem test_ds_rows_3 :
    [0x18, 0x19, 0x1a, 0x1b, 0x1c, 0x1d, 0x1e, 0x1f].map decodeDS
      = [.ok .dist24, .ok .dist25, .ok .dist26, .ok .dist27, .ok .dist28, .ok .dist29, .ok .rsvd30,
        .ok .rsvd31] := by decide
theorem test_ds_rejects : decodeDS 0x20 = .error .distSymbol := by decide
theorem test_cl_rows :
    [0x00, 0x0f, 0x10, 0x11, 0x12, 0x13].map decodeCL
      = [.ok (.cl 0), .ok (.cl 15), .ok .cl16, .ok .cl17, .ok .cl18, .ok .sentinel19] := by decide
theorem test_cl_rejects : decodeCL 0x14 = .error .clSymbol := by decide
theorem test_op_rows :
    decode ⟨.op, 0x0, [13], []⟩ = .ok (.refill 13) ∧ decode ⟨.op, 0x1, [3], []⟩ = .ok (.consume 3)
      ∧ decode ⟨.op, 0x2, [16], []⟩ = .ok (.getbits 16) ∧ decode ⟨.op, 0x3, [5, 227], []⟩ = .ok (.getbitsBase 5 227)
      ∧ decode ⟨.op, 0x4, [1, 257, 30], []⟩ = .ok (.buildTree .dtree 257 30)
      ∧ decode ⟨.op, 0x5, [0], []⟩ = .ok (.decodeSymbol .ltree) := by decide
theorem test_op_rows_whole :
    decode ⟨.op, 0x6, [], []⟩ = .ok .buildFixedTrees ∧ decode ⟨.op, 0x7, [], []⟩ = .ok .decodeTrees
      ∧ decode ⟨.op, 0x8, [], []⟩ = .ok .inflateBlockData ∧ decode ⟨.op, 0x9, [], []⟩ = .ok .inflateUncompressed
      ∧ decode ⟨.op, 0xA, [2, 16], [3, 0]⟩ = .ok (.uncompress [3, 0] 2 16) := by decide
theorem test_op_rejects :
    decode ⟨.op, 0xB, [], []⟩ = .error .opIndex ∧ decode ⟨.op, 0x5, [2], []⟩ = .error .operands
      ∧ decode ⟨.bh, 1, [0], []⟩ = .error .operands := by decide

/-- No two rows of one format match a common selector (R107): masks and values of the table, per format. -/
def apart (rows : List (Nat × Nat)) : Bool :=
  decide (rows.Pairwise fun a b => a.1 &&& b.1 &&& (a.2 ^^^ b.2) ≠ 0)

theorem test_bh_rows_apart : apart
    [(0x6, 0x0), (0x6, 0x2), (0x6, 0x4), (0x6, 0x6)] = true := by decide
theorem test_cl_rows_apart : apart
    [(0x10, 0x0), (0x1f, 0x10), (0x1f, 0x11), (0x1f, 0x12), (0x1f, 0x13)] = true := by decide
theorem test_op_rows_apart : apart
    [(0xf, 0x0), (0xf, 0x1), (0xf, 0x2), (0xf, 0x3), (0xf, 0x4), (0xf, 0x5), (0xf, 0x6), (0xf, 0x7),
    (0xf, 0x8), (0xf, 0x9), (0xf, 0xa)] = true := by decide
theorem test_ll_rows_apart : apart
    ([(0x100, 0x0), (0x1ff, 0x100), (0x1ff, 0x101), (0x1ff, 0x102), (0x1ff, 0x103), (0x1ff, 0x104),
    (0x1ff, 0x105), (0x1ff, 0x106), (0x1ff, 0x107), (0x1ff, 0x108), (0x1ff, 0x109), (0x1ff, 0x10a)]
    ++ [(0x1ff, 0x10b), (0x1ff, 0x10c), (0x1ff, 0x10d), (0x1ff, 0x10e), (0x1ff, 0x10f), (0x1ff, 0x110),
    (0x1ff, 0x111), (0x1ff, 0x112), (0x1ff, 0x113), (0x1ff, 0x114), (0x1ff, 0x115), (0x1ff, 0x116)]
    ++ [(0x1ff, 0x117), (0x1ff, 0x118), (0x1ff, 0x119), (0x1ff, 0x11a), (0x1ff, 0x11b), (0x1ff, 0x11c),
    (0x1ff, 0x11d), (0x1ff, 0x11e), (0x1ff, 0x11f)]) = true := by decide
theorem test_ds_rows_apart : apart
    ([(0x1f, 0x0), (0x1f, 0x1), (0x1f, 0x2), (0x1f, 0x3), (0x1f, 0x4), (0x1f, 0x5), (0x1f, 0x6),
    (0x1f, 0x7), (0x1f, 0x8), (0x1f, 0x9), (0x1f, 0xa), (0x1f, 0xb)]
    ++ [(0x1f, 0xc), (0x1f, 0xd), (0x1f, 0xe), (0x1f, 0xf), (0x1f, 0x10), (0x1f, 0x11), (0x1f, 0x12),
    (0x1f, 0x13), (0x1f, 0x14), (0x1f, 0x15), (0x1f, 0x16), (0x1f, 0x17)]
    ++ [(0x1f, 0x18), (0x1f, 0x19), (0x1f, 0x1a), (0x1f, 0x1b), (0x1f, 0x1c), (0x1f, 0x1d), (0x1f, 0x1e),
    (0x1f, 0x1f)]) = true := by decide

/-- The words of the host's table: the width says the format (log entry 16). -/
theorem test_table_words :
    [(8, 0b001), (8, 0b111), (16, 0x048), (16, 0x100), (16, 0x11f), (8, 0x0d), (24, 0x1d), (8, 0x12)].map
        (fun p => decodeTableWord p.1 p.2)
      = [some (.stored true), some (.reserved true), some (.lit 0x48), some .eob, some .rsvd287, some .dist13,
        some .dist29, some .cl18] := by decide

/-- A placed word is what the next step fetches: a literal (R100, R221), a header (R271), a distance symbol (R224). -/
theorem test_placed_words :
    after (fun t => (t.status, t.phase, t.seq)) (step (State.reset.withFetchWord 8 0b010)) = some (.ok, .run, .litLen)
      ∧ ended (step (State.reset.withFetchWord 16 0x048)) = some (.done, .bufError, 0)
      ∧ ended (step (State.reset.withFetchWord 32 0x1e)) = some (.done, .dataError, 0) := by decide +kernel

/-! ## Codes and notation -/

/-- 95 part 4: codes of the fixed trees. -/
theorem test_fixed_codes :
    fixedLitCode 72 = [false, true, true, true, true, false, false, false]
      ∧ fixedLitCode 144 = [true, true, false, false, true, false, false, false, false]
      ∧ fixedLitCode 257 = [false, false, false, false, false, false, true]
      ∧ fixedLitCode 287 = [true, true, false, false, false, true, true, true]
      ∧ fixedDistCode 2 = [false, false, false, true, false] := by decide

/-- 95 part 4: codes of the trees T1 and T2. -/
theorem test_canonical_codes :
    codeBits [2, 1, 3, 3] 1 = [false] ∧ codeBits [2, 1, 3, 3] 2 = [true, true, false]
      ∧ codeBits [3, 3, 3, 3, 3, 2, 4, 4] 4 = [true, true, false]
      ∧ codeBits [3, 3, 3, 3, 3, 2, 4, 4] 6 = [true, true, true, false] := by decide

/-- 95 part 6, B1 and B10: the bytes of two streams in the notation of R104. -/
theorem test_notation :
    streamBytes (assembleFixed 0 ([.block true 1, .lit 1, .lit 2] ++ matchElements 3 2 ++ [.eob]))
        = [0x63, 0x64, 0x02, 0x42, 0x00]
      ∧ storedStream [0x48, 0x65, 0x6c, 0x6c, 0x6f] = [0x01, 0x05, 0x00, 0xfa, 0xff, 0x48, 0x65, 0x6c, 0x6c, 0x6f]
      ∧ literalStream [0x48, 0x65, 0x6c, 0x6c, 0x6f] = [0xf3, 0x48, 0xcd, 0xc9, 0xc9, 0x07, 0x00] := by decide +kernel

/-! ## The bit reader (95 part 2) -/

theorem test_getbits_first : reader (exec (.getbits 1) (tst [0xf3, 0x48])) = some (1, 1, 7, 0x79, false) := by decide
theorem test_getbits_off_the_end :
    reader (exec (.getbits 13) { tst [0xa5] with src := 1, bitcount := 3, tag := 5 }) = some (5, 1, 6, 0, true) := by decide
theorem test_getbits_straddles :
    reader (exec (.getbits 11) { tst [0xb7, 0x5a, 0xc3] with src := 2, bitcount := 6, tag := 0x16 })
      = some (214, 3, 3, 6, false) := by decide
theorem test_getbitsBase_zero : reader (exec (.getbitsBase 0 258) (tst [0xff])) = some (258, 0, 0, 0, false) := by decide
theorem test_getbitsBase_thirteen :
    reader (exec (.getbitsBase 13 24577) (tst [0xff, 0xff])) = some (32768, 2, 3, 7, false) := by decide
theorem test_refill :
    reader (exec (.refill 13) { tst [0xf3, 0x48, 0xcd] with src := 1, bitcount := 5, tag := 0x1e })
      = some (0, 2, 13, 0x91e, false) := by decide
theorem test_consume :
    reader (exec (.consume 13) { tst [0xf3, 0x48, 0xcd] with src := 2, bitcount := 13, tag := 0x91e })
      = some (2334, 2, 0, 0, false) := by decide
theorem test_reader_refusals :
    stopped (exec (.getbits 17) (tst [0, 0, 0])) = some .getbitsTooWide
      ∧ stopped (exec (.consume 4) { tst [0] with bitcount := 3 }) = some .consumeTooMany
      ∧ stopped (exec (.refill 26) { tst [0, 0, 0, 0, 0] with bitcount := 1 }) = some .refillTooWide := by decide

/-! ## The host (R346, R304 case 8) -/

/-- The host may fill OUT before the first START (R27), and may not touch a buffer during RUN. -/
theorem test_host_accesses :
    after (fun t => memRead t.out 7) (step { State.reset with request := some (.writeOut 7 0x55) }) = some (some 0x55)
      ∧ stopped (step { tst [3, 0] with request := some (.writeOut 0 0) }) = some .hostAccessDuringRun
      ∧ stopped (step { tst [3, 0] with request := some (.readSrc 0) }) = some .hostAccessDuringRun := by decide

/-- R304 case 6: a MemRead or MemWrite outside its buffer is refused. -/
theorem test_outside_refused :
    stopped (outWrite 16 0 (tst [])).finish = some .outOutside
      ∧ stopped ((outRead 16 (tst [])).bind fun _ s => .ok () s).finish = some .outOutside
      ∧ stopped ((srcRead 1 (tst [3])).bind fun _ s => .ok () s).finish = some .srcOutside := by decide

/-! ## Trees (95 parts 3 and 4) -/

theorem test_build_T2 :
    built [3, 3, 3, 3, 3, 2, 4, 4] 8
      = some (.ok, [0, 0, 1, 5, 2, 0, 0, 0, 0, 0, 0, 0, 0, 0, 0, 0], [5, 0, 1, 2, 3, 4, 6, 7], 7) := by decide +kernel
theorem test_build_single :
    built [0, 0, 1, 0] 2 = some (.ok, [0, 2, 0, 0, 0, 0, 0, 0, 0, 0, 0, 0, 0, 0, 0, 0], [2, 3], 2) := by decide +kernel
theorem test_build_checks :
    buildCheck [1, 1] = none ∧ buildCheck [0, 0, 0] = none ∧ buildCheck [2, 2, 2, 2, 1] = some .treeOversubscribed
      ∧ buildCheck [1, 2] = some .treeIncomplete ∧ buildCheck [15, 0, 0, 0] = some .treeSingleNotLen1
      ∧ buildCheck [1, 2, 3, 4, 5, 6, 7, 8, 9, 10, 11, 12, 13, 14, 15, 15] = none := by decide
theorem test_decode_T1 :
    reader (exec (.decodeSymbol .ltree) { tst [0b011] with ltree := finishedTree [2, 1, 3, 3] Tree.empty })
      = some (2, 1, 5, 0, false) := by decide +kernel
theorem test_decode_sentinel :
    reader (exec (.decodeSymbol .dtree) { tst [0b1] with dtree := finishedTree [0, 0, 1, 0] Tree.empty })
      = some (3, 1, 7, 0, false) := by decide +kernel
theorem test_fixed_trees :
    after (fun t => (t.ltree.maxSym, t.dtree.maxSym, entry t.ltree.trans 24, entry t.ltree.trans 175)) (exec .buildFixedTrees State.reset)
      = some (285, 29, 0, 287) := by decide +kernel

/-! ## Whole streams (95 parts 1, 5 to 8 and 10) -/

theorem test_S2 :
    result (inflate [0x01, 0x05, 0x00, 0xfa, 0xff, 0x48, 0x65, 0x6c, 0x6c, 0x6f] 5)
      = some (0, 5, [0x48, 0x65, 0x6c, 0x6c, 0x6f]) := by decide +kernel
theorem test_S3 :
    result (inflate [0xf3, 0x48, 0xcd, 0xc9, 0xc9, 0x07, 0x00] 5) = some (0, 5, [0x48, 0x65, 0x6c, 0x6c, 0x6f]) := by
  decide +kernel
theorem test_S6 : result (inflate [0xf3, 0x48, 0xcd, 0xc9, 0xc9, 0x07, 0x00] 3) = some (-5, 0, []) := by decide +kernel
theorem test_U6 : result (inflate [0x01, 0x05, 0x00, 0xfa, 0xff, 0x48, 0x65] 1) = some (-3, 0, []) := by decide +kernel
theorem test_B10 :
    result (inflate [0x63, 0x64, 0x62, 0x66, 0x61, 0x65, 0x43, 0x26, 0x01] 32)
      = some (0, 18, [1, 2, 3, 4, 5, 6, 1, 2, 3, 4, 5, 6, 1, 2, 3, 4, 5, 6]) := by decide +kernel
theorem test_B4 : result (inflate [0x63, 0x64, 0x02, 0x22, 0x00] 16) = some (-3, 0, []) := by decide +kernel
theorem test_H5 : result (inflate [0x05, 0x00, 0x80, 0x20, 0x00] 16) = some (-3, 0, []) := by decide +kernel
theorem test_P3 :
    result (inflate [0x0d, 0xc0, 0x01, 0x01, 0x00, 0x00, 0x00, 0x40, 0xa0, 0xad, 0xfc, 0x1f, 0x41, 0xb8, 0x00] 16)
      = some (0, 5, [0x61, 0x62, 0x62, 0x62, 0x62]) := by decide +kernel

/-! ## Single elements -/

/-- 95 part 6, B10: LSYM 265 with extra bit 1 is length 12; DSYM 4 with extra bit 1 is distance 6. -/
theorem test_length_symbol :
    after (fun t => (t.matchLen, t.seq, t.bitcount)) (exec .len265 (buildFixedTrees (tst [0b1]))) = some (12, .dist, 7) := by
  decide +kernel
theorem test_distance_symbol :
    after (fun t => (t.dest, memRead t.out 6, memRead t.out 7))
        (exec .dist4
          { buildFixedTrees (tst [0b1]) with dest := 6, destLen := 6, matchLen := 2, out := memOfBytes 0 [1, 2, 3, 4, 5, 6] })
      = some (8, some 1, some 2) := by decide +kernel
/-- 95 part 10, P5: `CL16 5` copies the length before it five times; `CL17 10` writes ten zeros. -/
theorem test_cl16 :
    after (fun t => (t.num, t.lengths.toList.take 7))
        (exec .cl16
          { withLengths [3] (tst [0b10]) with hlit := 258, hdist := 2, num := 1, ltree := finishedTree [0, 2, 0, 2, 0, 0, 0, 0, 0, 0, 0, 0, 0, 0, 0, 0, 3, 3, 2] Tree.empty })
      = some (6, [3, 3, 3, 3, 3, 3, 0]) := by decide +kernel
theorem test_cl17 :
    after (fun t => t.num)
        (exec .cl17 { tst [0b111] with hlit := 258, hdist := 2, num := 246, ltree := { Tree.empty with maxSym := 18 } })
      = some 256 := by decide +kernel

/-! ## Witnesses: for each statement with hypotheses, a state and operands that meet them -/

theorem next_of {o : Host.Outcome State Fault Refusal} (h : after (fun _ => ()) o = some ()) : ∃ t, o = .next t := by
  cases o with
  | next t => exact ⟨t, rfl⟩
  | fault e => cases h
  | refused r => cases h

theorem readable_of {s : State} {bytes : List Byte} (hs : s.source = memOfBytes 0 bytes) (hl : s.sourceLen = bytes.length) :
    SourceReadable s := by
  intro a ha
  rw [hs, memRead_memOfBytes]
  simp [hl ▸ ha]

theorem at_zero {s : State} {bytes : List Byte} (hs : s.source = memOfBytes 0 bytes) (hl : s.sourceLen = bytes.length)
    (ho : s.overflow = false) (h1 : s.src = 0) (h2 : s.bitcount = 0) (h3 : s.tag = 0) : AtPosition s 0 :=
  ⟨readable_of hs hl, ho, Nat.zero_le _, by
    cases s
    subst h1 h2 h3
    rfl⟩

theorem ready_of {s : State} {bytes : List Byte} (hs : s.source = memOfBytes 0 bytes) (hl : s.sourceLen = bytes.length)
    (h : s.src ≤ s.sourceLen) (hb : s.bitcount ≤ 7) : ReaderReady s := ⟨readable_of hs hl, h, hb⟩

/-- The source of `tst` is exhausted and `overflow` is set. -/
def exhausted (bytes : List Byte) : State := { tst bytes with src := bytes.length, overflow := true }

/-- A body with the fixed trees. -/
def body (bytes : List Byte) : State := { buildFixedTrees (tst bytes) with seq := .litLen }

/-- The second half of a pair: one byte has been written, and three are to be copied. -/
def pair (bytes : List Byte) : State :=
  { buildFixedTrees (tst bytes) with seq := .dist, dest := 1, destLen := 1, matchLen := 3, out := [(0, 0x61)] }

/-- Code-length items with a tree of 16 literal lengths; `num` of 258 entries are there. -/
def items (bytes : List Byte) (num : Nat) : State :=
  { tst bytes with
    seq := .codeLen, hlit := 257, hdist := 1, num := num
    ltree := finishedTree [0, 2, 0, 2, 0, 0, 0, 0, 0, 0, 0, 0, 0, 0, 0, 0, 3, 3, 2] Tree.empty }

/-- A dynamic header whose lengths are all there: 255 and 256 have codes of the given lengths, one distance code. -/
def complete (a b d : Nat) : State := { withLengths (List.replicate 255 0 ++ [a, b, d]) (items [0] 258) with seq := .codeLen }

theorem tst_at (bytes : List Byte) : AtPosition (tst bytes) 0 := at_zero rfl rfl rfl rfl rfl rfl

theorem body_at (bytes : List Byte) : AtPosition (body bytes) 0 := at_zero rfl rfl rfl rfl rfl rfl

theorem pair_at (bytes : List Byte) : AtPosition (pair bytes) 0 := at_zero rfl rfl rfl rfl rfl rfl

theorem pair_written (bytes : List Byte) : ∀ a, a < (pair bytes).dest → (memRead (pair bytes).out a).isSome := by
  intro a ha
  have h : a = 0 := Nat.lt_one_iff.1 ha
  subst h
  rfl

theorem witness_HardwareResetAbandonsTheRun : ({ tst [3] with request := some .reset } : State).request = some .reset := rfl

theorem witness_StartInitialisesTheRun : State.reset.phase ≠ .run := by decide

theorem witness_StartLeavesTheRestAlone :
    ∃ t, step { State.reset with request := some (.start [3, 0] 2 0) } = .next t := ⟨_, rfl⟩

theorem witness_HostIsShutOutDuringRun :
    (tst [3]).phase = .run ∧ HostAction.readOut 16 = .readOut 16
      ∧ State.reset.phase ≠ .run ∧ State.reset.request = none ∧ State.reset.issue = none := by decide

theorem witness_StepRunsTheDecodedInstruction_run :
    (tst [3]).request = none ∧ (tst [3]).issue = none ∧ (tst [3]).phase = .run ∧ mode (tst [3]) = some .bh
      ∧ (∃ t, fetch .bh (tst [3]) = .ok 3 t) ∧ decode ⟨.bh, 3, [], []⟩ = .ok (.fixed true) :=
  ⟨rfl, rfl, rfl, rfl, ⟨_, rfl⟩, rfl⟩

theorem witness_StepRunsTheDecodedInstruction_issue :
    ({ tst [3] with issue := some (.getbits 1) } : State).request = none
      ∧ ({ tst [3] with issue := some (.getbits 1) } : State).issue = some (.getbits 1) := ⟨rfl, rfl⟩

theorem witness_BlockEndDecides (f o : Bool) :
    ∃ s : State, s.request = none ∧ s.issue = none ∧ s.phase = .run ∧ s.seq = .blockEnd ∧ s.bfinal = f ∧ s.overflow = o :=
  ⟨{ tst [3] with seq := .blockEnd, bfinal := f, overflow := o }, rfl, rfl, rfl, rfl, rfl, rfl⟩

theorem witness_DecodeInvertsEncode : WellFormed (.buildTree .dtree 32 288) = true := by decide

theorem witness_RefillHoldsEnoughOrRefuses_wide :
    SourceReadable { tst [0] with bitcount := 1 } ∧ ({ tst [0] with bitcount := 1 } : State).src ≤ (tst [0]).sourceLen
      ∧ 1 < 26 ∧ 32 < 1 + 8 * ((26 - 1 + 7) / 8) := ⟨readable_of rfl rfl, by decide, by decide, by decide⟩

theorem witness_RefillHoldsEnoughOrRefuses_fits :
    SourceReadable (tst [0]) ∧ (tst [0]).src ≤ (tst [0]).sourceLen ∧ (tst [0]).bitcount + 8 * ((32 - 0 + 7) / 8) ≤ 32 :=
  ⟨readable_of rfl rfl, by decide, by decide⟩

theorem witness_ConsumeTakesTheLowBits :
    32 ≤ ({ tst [] with bitcount := 32 } : State).bitcount ∧ ({ tst [] with bitcount := 32 } : State).bitcount < 33 := by
  decide

theorem witness_GetbitsReturnsTheStreamField_inside : AtPosition (tst [1, 2]) 0 ∧ 0 + 16 ≤ 8 * (tst [1, 2]).sourceLen :=
  ⟨tst_at _, by decide⟩

theorem witness_GetbitsReturnsTheStreamField_past : AtPosition (tst [1]) 0 ∧ 8 * (tst [1]).sourceLen < 0 + 9 :=
  ⟨tst_at _, by decide⟩

theorem witness_GetbitsReturnsTheStreamField_exhausted :
    CoreInv (exhausted [1]) ∧ ReaderReady (exhausted [1]) ∧ (exhausted [1]).overflow = true :=
  ⟨⟨by decide, by decide, rfl, by decide, fun _ => rfl, by decide, (fun h => by cases h), by decide, by decide⟩,
    ready_of rfl rfl (by decide) (by decide), rfl⟩

theorem witness_GetbitsBaseAddsTheField : (0 < 16 ∧ 16 ≤ 16) ∧ ReaderReady (tst [1]) :=
  ⟨by decide, ready_of rfl rfl (by decide) (by decide)⟩

theorem witness_WideGetbitsRefused : 16 < 17 := by decide

theorem witness_BuilderAcceptsExactlyCompleteCodes : ∀ l ∈ [1, 2, 3, 15], l ≤ 15 := by decide

theorem witness_BuildTreePostconditions :
    ∀ lens ∈ [[], [0, 0, 0], [0, 0, 1, 0], [3, 3, 3, 3, 3, 2, 4, 4]],
      buildContract (withLengths lens State.reset).lengths 0 lens.length = true
        ∧ buildCheck (slice (withLengths lens State.reset) 0 lens.length) = none := by decide +kernel

theorem witness_FailedBuildLeavesTheCounts :
    ∀ p ∈ [([1, 1, 1], Cause.treeOversubscribed), ([1, 2], .treeIncomplete), ([2], .treeSingleNotLen1)],
      buildContract (withLengths p.1 State.reset).lengths 0 p.1.length = true
        ∧ buildCheck (slice (withLengths p.1 State.reset) 0 p.1.length) = some p.2 := by decide +kernel

theorem witness_BuildTreeOutsideContractRefused :
    288 < 289 ∧ 320 < 33 + 288 ∧ ∃ l ∈ slice (withLengths [16] State.reset) 0 1, 15 < l := by decide +kernel

theorem witness_DecodeSymbolInvertsTheCanonicalCode :
    ∃ s : State, [2, 1, 3, 3].length ≤ 288 ∧ (∀ l ∈ [2, 1, 3, 3], l ≤ 15) ∧ buildCheck [2, 1, 3, 3] = none
      ∧ getTree .ltree s = finishedTree [2, 1, 3, 3] Tree.empty ∧ 0 < [2, 1, 3, 3].getD 3 0 ∧ AtPosition s 0
      ∧ StreamHas s 0 (codeBits [2, 1, 3, 3] 3) :=
  ⟨{ tst [7] with ltree := finishedTree [2, 1, 3, 3] Tree.empty }, by decide, by decide, by decide, rfl, by decide,
    at_zero rfl rfl rfl rfl rfl rfl, by constructor <;> decide⟩

theorem witness_DecodeSymbolEndsOnCompleteTrees :
    KraftEq (getTree .ltree (body [])) ∧ (getTree .ltree (body [])).table.toList.sum ≤ 288 ∧ ReaderReady (body []) :=
  ⟨by unfold KraftEq; decide +kernel, by decide, ready_of rfl rfl (by decide) (by decide)⟩

theorem entry_replicate_zero (n i : Nat) : entry (Vector.replicate n 0) i = 0 := by
  unfold entry
  by_cases h : i < n <;> simp [h]

theorem witness_EmptyTreeRefusesToDecode :
    (∀ l, entry (getTree .ltree (tst [1, 2])).table l = 0) ∧ ReaderReady (tst [1, 2]) :=
  ⟨entry_replicate_zero 16, ready_of rfl rfl (by decide) (by decide)⟩

theorem witness_FixedCodesDecode_lit :
    (body [0b11100011]).ltree = fixedLitTree ∧ 287 < 288 ∧ AtPosition (body [0b11100011]) 0
      ∧ StreamHas (body [0b11100011]) 0 (fixedLitCode 287) :=
  ⟨rfl, by decide, body_at _, by constructor <;> decide⟩

theorem witness_FixedCodesDecode_dist :
    (body [0x1f]).dtree = fixedDistTree Tree.empty ∧ 31 < 32 ∧ AtPosition (body [0x1f]) 0
      ∧ StreamHas (body [0x1f]) 0 (fixedDistCode 31) :=
  ⟨rfl, by decide, body_at _, by constructor <;> decide⟩

/-- The source and the output are both just large enough. -/
theorem witness_StoredBlockIsCopied :
    ∃ s : State, AtPosition s 0 ∧ 8 * alignedByte 0 + 32 ≤ 8 * s.sourceLen
      ∧ field s (8 * alignedByte 0) 16 + field s (8 * alignedByte 0 + 16) 16 = 65535
      ∧ alignedByte 0 + 4 + field s (8 * alignedByte 0) 16 ≤ s.sourceLen
      ∧ s.dest + field s (8 * alignedByte 0) 16 ≤ s.destCap :=
  ⟨{ tst [2, 0, 0xfd, 0xff, 0x79, 0x7a] with destCap := 2 }, at_zero rfl rfl rfl rfl rfl rfl, by decide, by decide, by decide,
    by decide⟩

theorem witness_StoredBlockTestsInOrder_complement :
    ∃ s : State, AtPosition s 0 ∧ 8 * alignedByte 0 + 32 ≤ 8 * s.sourceLen
      ∧ field s (8 * alignedByte 0) 16 + field s (8 * alignedByte 0 + 16) 16 ≠ 65535 :=
  ⟨tst [2, 0, 0xfc, 0xff], tst_at _, by decide, by decide⟩

theorem witness_StoredBlockTestsInOrder_short :
    ∃ s : State, AtPosition s 0 ∧ 8 * alignedByte 0 + 32 ≤ 8 * s.sourceLen
      ∧ field s (8 * alignedByte 0) 16 + field s (8 * alignedByte 0 + 16) 16 = 65535
      ∧ s.sourceLen < alignedByte 0 + 4 + field s (8 * alignedByte 0) 16 :=
  ⟨tst [2, 0, 0xfd, 0xff, 0x79], tst_at _, by decide, by decide, by decide⟩

theorem witness_StoredBlockTestsInOrder_room :
    ∃ s : State, AtPosition s 0 ∧ 8 * alignedByte 0 + 32 ≤ 8 * s.sourceLen
      ∧ field s (8 * alignedByte 0) 16 + field s (8 * alignedByte 0 + 16) 16 = 65535
      ∧ alignedByte 0 + 4 + field s (8 * alignedByte 0) 16 ≤ s.sourceLen
      ∧ s.destCap < s.dest + field s (8 * alignedByte 0) 16 :=
  ⟨{ tst [2, 0, 0xfd, 0xff, 0x79, 0x7a] with destCap := 1 }, at_zero rfl rfl rfl rfl rfl rfl, by decide, by decide, by decide,
    by decide⟩

theorem witness_TruncatedStoredBlockRejected :
    ReaderReady (tst [0xff, 0xff, 0]) ∧ ((tst [0xff, 0xff, 0]).overflow = true → (tst [0xff, 0xff, 0]).src = 3)
      ∧ (tst [0xff, 0xff, 0]).sourceLen < (tst [0xff, 0xff, 0]).src + 4 :=
  ⟨ready_of rfl rfl (by decide) (by decide), (fun h => by cases h), by decide⟩

/-- HLIT, HDIST at their largest and HCLEN at its smallest; the symbols 16 and 18 have codes of length 1. -/
theorem witness_DynamicHeaderBuildsTheCodeLengthTree :
    ∃ s : State, AtPosition s 0 ∧ field s 0 5 ≤ 29 ∧ field s (0 + 5) 5 ≤ 29
      ∧ 0 + 14 + 3 * (4 + field s (0 + 10) 4) ≤ 8 * s.sourceLen
      ∧ buildCheck (headerClens s (0 + 14) (4 + field s (0 + 10) 4)) = none
      ∧ 0 < codedCount (headerClens s (0 + 14) (4 + field s (0 + 10) 4)) :=
  ⟨tst (packBytes 4
      (lsbBits 5 29 ++ lsbBits 5 29 ++ lsbBits 4 0 ++ lsbBits 3 1 ++ lsbBits 3 0 ++ lsbBits 3 1 ++ lsbBits 3 0)),
    tst_at _, by decide +kernel, by decide +kernel, by decide +kernel, by decide +kernel, by decide +kernel⟩

/-- Lengths that the builder rejects (one code of length 2), and no code at all (95 part 5, H4). -/
theorem witness_DynamicHeaderBuildsTheCodeLengthTree_rejects :
    ∀ v ∈ [2, 0], AtPosition (tst (packBytes 4 (lsbBits 14 0 ++ lsbBits 3 v ++ lsbBits 9 0))) 0
      ∧ field (tst (packBytes 4 (lsbBits 14 0 ++ lsbBits 3 v ++ lsbBits 9 0))) 0 5 ≤ 29
      ∧ field (tst (packBytes 4 (lsbBits 14 0 ++ lsbBits 3 v ++ lsbBits 9 0))) (0 + 5) 5 ≤ 29
      ∧ 0 + 14 + 3 * (4 + field (tst (packBytes 4 (lsbBits 14 0 ++ lsbBits 3 v ++ lsbBits 9 0))) (0 + 10) 4)
          ≤ 8 * (tst (packBytes 4 (lsbBits 14 0 ++ lsbBits 3 v ++ lsbBits 9 0))).sourceLen
      ∧ (v = 2 → buildCheck (headerClens (tst (packBytes 4 (lsbBits 14 0 ++ lsbBits 3 v ++ lsbBits 9 0))) (0 + 14) 4) ≠ none)
      ∧ (v = 0 →
          codedCount (headerClens (tst (packBytes 4 (lsbBits 14 0 ++ lsbBits 3 v ++ lsbBits 9 0))) (0 + 14) 4) = 0) :=
  fun v hv => ⟨tst_at _, by revert v; decide +kernel⟩

theorem witness_CountsOutOfRangeRejected_hlit :
    AtPosition (tst [30, 0]) 0 ∧ 0 + 14 ≤ 8 * (tst [30, 0]).sourceLen ∧ 286 < 257 + field (tst [30, 0]) 0 5 :=
  ⟨tst_at _, by decide, by decide⟩

theorem witness_CountsOutOfRangeRejected_hdist :
    AtPosition (tst [0xdd, 0x03]) 0 ∧ 0 + 14 ≤ 8 * (tst [0xdd, 0x03]).sourceLen
      ∧ 257 + field (tst [0xdd, 0x03]) 0 5 = 286 ∧ 30 < 1 + field (tst [0xdd, 0x03]) (0 + 5) 5 :=
  ⟨tst_at _, by decide, by decide, by decide⟩

theorem witness_LiteralIsWritten :
    (exhausted []).overflow = true
      ∧ (({ tst [] with dest := 16 } : State).overflow = false ∧ ({ tst [] with dest := 16 } : State).dest = (tst []).destCap)
      ∧ (({ tst [] with dest := 15 } : State).overflow = false ∧ ({ tst [] with dest := 15 } : State).dest < (tst []).destCap) := by
  decide

theorem witness_EndOfBlockReturns : (tst []).overflow = false ∧ (exhausted []).overflow = true := by decide

/-- The symbol is the largest allowed, and its extra bits end with the source. -/
theorem witness_LengthSymbolsReadTheirLength :
    ((.len285, 285, 258, 0) ∈ lenRows ∧ (285 : Int) ≤ (body [0x1f]).ltree.maxSym)
      ∧ (.len284, 284, 227, 5) ∈ lenRows ∧ ReaderReady (body [0x1f]) ∧ (body [0x1f]).overflow = false
      ∧ (284 : Int) ≤ (body [0x1f]).ltree.maxSym ∧ (body [0x1f]).dtree.maxSym ≠ -1 ∧ AtPosition (body [0x1f]) 0
      ∧ 0 + 5 ≤ 8 * (body [0x1f]).sourceLen :=
  ⟨by decide, by decide, ready_of rfl rfl (by decide) (by decide), rfl, by decide, by decide, body_at _, by decide⟩

theorem witness_LengthSymbolsRejected :
    (.len257, 257, 3, 0) ∈ lenRows ∧ (exhausted []).overflow = true
      ∧ ({ tst [] with ltree := { Tree.empty with maxSym := 256 } } : State).ltree.maxSym < 257
      ∧ (tst []).dtree.maxSym = -1 := by decide

/-- The distance reaches back to the first byte, and the match fills the room that is left. -/
theorem witness_DistanceSymbolsCopyTheMatch :
    ∃ s : State, (.dist0, 0, 1, 0) ∈ distRows ∧ ReaderReady s ∧ s.destLen = s.dest
      ∧ (∀ a, a < s.dest → (memRead s.out a).isSome) ∧ (0 : Int) ≤ s.dtree.maxSym
      ∧ (∃ u, getBits 0 s = .ok 0 u) ∧ 1 + 0 ≤ s.destLen ∧ s.dest + s.matchLen ≤ s.destCap :=
  ⟨{ pair [] with destCap := 4 }, by decide, ready_of (bytes := []) rfl rfl (by decide) (by decide), rfl, pair_written [],
    by decide, ⟨_, rfl⟩, by decide, by decide⟩

theorem witness_DistanceIsReadFromTheStream :
    ∃ s : State, (.dist4, 4, 5, 1) ∈ distRows ∧ AtPosition s 0 ∧ 0 + 1 ≤ 8 * s.sourceLen ∧ s.destLen = s.dest
      ∧ (∀ a, a < s.dest → (memRead s.out a).isSome) ∧ (4 : Int) ≤ s.dtree.maxSym
      ∧ 5 + field s 0 1 ≤ s.destLen ∧ s.dest + s.matchLen ≤ s.destCap :=
  ⟨{ pair [1] with dest := 6, destLen := 6, out := memOfBytes 0 [1, 2, 3, 4, 5, 6] }, by decide,
    at_zero (bytes := [1]) rfl rfl rfl rfl rfl rfl, by decide, rfl, by decide, by decide, by decide, by decide⟩

theorem witness_DistanceSymbolsRejected :
    ((.dist29, 29, 24577, 13) ∈ distRows ∧ (tst []).dtree.maxSym < 29)
      ∧ (.dist1, 1, 2, 0) ∈ distRows ∧ ReaderReady (pair []) ∧ (1 : Int) ≤ (pair []).dtree.maxSym
      ∧ (∃ u, getBits 0 (pair []) = .ok 0 u) ∧ (pair []).destLen < 2 + 0
      ∧ 1 + 0 ≤ (pair []).destLen ∧ ({ pair [] with destCap := 3 } : State).destCap < (pair []).dest + (pair []).matchLen :=
  ⟨by decide, by decide, ready_of rfl rfl (by decide) (by decide), by decide, ⟨_, rfl⟩, by decide, by decide, by decide⟩

theorem witness_CodeLengthLiteralIsStored :
    ((15#4).toNat : Int) ≤ (items [] 257).ltree.maxSym ∧ (items [] 257).num < (items [] 257).hlit + (items [] 257).hdist
      ∧ (items [] 257).num < 320 := by decide +kernel

theorem witness_RepeatPreviousCopiesTheLastLength_first : (items [] 0).num = 0 := rfl

/-- Three entries are left: a run of three fits, and a run of four does not. -/
theorem witness_RepeatPreviousCopiesTheLastLength :
    (16 : Int) ≤ (items [0] 255).ltree.maxSym ∧ 0 < (items [0] 255).num
      ∧ (items [0] 255).num ≤ (items [0] 255).hlit + (items [0] 255).hdist ∧ ReaderReady (items [0] 255)
      ∧ ((∃ u, getBits 2 (items [0] 255) = .ok 0 u) ∧ 255 + (3 + 0) ≤ 257 + 1)
      ∧ (∃ u, getBits 2 (items [1] 255) = .ok 1 u) ∧ 257 + 1 < 255 + (3 + 1) :=
  ⟨by decide +kernel, by decide, by decide, ready_of rfl rfl (by decide) (by decide), ⟨⟨_, rfl⟩, by decide⟩, ⟨_, rfl⟩,
    by decide⟩

theorem witness_ZeroRunsAreStored :
    (.cl17, 17, 3, 3) ∈ zeroRows ∧ (.cl18, 18, 11, 7) ∈ zeroRows ∧ (18 : Int) ≤ (items [0] 247).ltree.maxSym
      ∧ ReaderReady (items [0] 247) ∧ ((∃ u, getBits 7 (items [0] 247) = .ok 0 u) ∧ 247 + (11 + 0) ≤ 257 + 1)
      ∧ (∃ u, getBits 7 (items [1] 247) = .ok 1 u) ∧ 257 + 1 < 247 + (11 + 1) :=
  ⟨by decide, by decide, by decide +kernel, ready_of rfl rfl (by decide) (by decide), ⟨⟨_, rfl⟩, by decide⟩, ⟨_, rfl⟩,
    by decide⟩

theorem witness_ValuesAboveMaxSymRejected :
    ({ tst [] with ltree := { Tree.empty with maxSym := 14 } } : State).ltree.maxSym < (15#4).toNat
      ∧ (tst []).ltree.maxSym < 16 ∧ (tst []).ltree.maxSym < 17 ∧ (tst []).ltree.maxSym < 18 := by decide

theorem complete_ready (a b d : Nat) :
    (complete a b d).request = none ∧ (complete a b d).issue = none ∧ (complete a b d).phase = .run
      ∧ (complete a b d).seq = .codeLen ∧ (complete a b d).num = (complete a b d).hlit + (complete a b d).hdist
      ∧ 257 ≤ (complete a b d).hlit ∧ (complete a b d).hlit ≤ 286 ∧ (complete a b d).hdist ≤ 30 :=
  ⟨rfl, rfl, rfl, rfl, rfl, Nat.le_refl 257, show 257 ≤ 286 by decide, show 1 ≤ 30 by decide⟩

theorem complete_small {a b d : Nat} (ha : a ≤ 15) (hb : b ≤ 15) (hd : d ≤ 15) :
    ∀ i, entry (complete a b d).lengths i ≤ 15 := by
  intro i
  have hm : ∀ x ∈ List.replicate 255 0 ++ [a, b, d], x ≤ 15 := by
    intro x hx
    rcases List.mem_append.1 hx with h | h
    · rw [(List.mem_replicate.1 h).2]
      decide
    · simp only [List.mem_cons, List.not_mem_nil, or_false] at h
      omega
  simp only [complete, withLengths, entry_ofFn]
  split
  · rw [List.getD_eq_getElem?_getD]
    cases h : (List.replicate 255 0 ++ [a, b, d])[i]? with
    | none => decide
    | some x => exact hm x (List.mem_of_getElem? h)
  · decide

theorem witness_HeaderEndBuildsBothTrees_noEob :
    (∀ i, entry (complete 1 0 1).lengths i ≤ 15) ∧ entry (complete 1 0 1).lengths 256 = 0 :=
  ⟨complete_small (by decide) (by decide) (by decide), by decide +kernel⟩

theorem witness_HeaderEndBuildsBothTrees_raises :
    (∀ i, entry (complete 1 2 1).lengths i ≤ 15) ∧ 0 < entry (complete 1 2 1).lengths 256
      ∧ buildCheck (slice (complete 1 2 1) 0 257) ≠ none ∧ buildCheck (slice (complete 1 1 2) 257 1) ≠ none :=
  ⟨complete_small (by decide) (by decide) (by decide), by decide +kernel, by decide +kernel, by decide +kernel⟩

theorem witness_HeaderEndBuildsBothTrees_builds :
    (∀ i, entry (complete 1 1 1).lengths i ≤ 15) ∧ 0 < entry (complete 1 1 1).lengths 256
      ∧ buildCheck (slice (complete 1 1 1) 0 257) = none ∧ buildCheck (slice (complete 1 1 1) 257 1) = none :=
  ⟨complete_small (by decide) (by decide) (by decide), by decide +kernel, by decide +kernel, by decide +kernel⟩

/-- The smallest header: 257 literal/length codes, one distance code. -/
theorem witness_DecodeTreesReadsBackAHeader :
    ∃ s : State, AtPosition s 0 ∧ (List.replicate 255 0 ++ [1, 1]).length = 257 ∧ [1].length = 1
      ∧ (∀ l ∈ (List.replicate 255 0 ++ [1, 1]) ++ [1], l ≤ 15) ∧ 0 < (List.replicate 255 0 ++ [1, 1]).getD 256 0
      ∧ buildCheck (List.replicate 255 0 ++ [1, 1]) = none ∧ buildCheck [1] = none
      ∧ StreamHas s 0 (plainHeader (List.replicate 255 0 ++ [1, 1]) [1]) :=
  ⟨tst (streamBytes (plainHeader (List.replicate 255 0 ++ [1, 1]) [1])), tst_at _, by decide +kernel, by decide,
    by decide +kernel, by decide +kernel, by decide +kernel, by decide, by constructor <;> decide +kernel⟩

/-- Two literals fill the room that is left. -/
theorem witness_BlockDataWritesItsLiterals :
    ∃ s : State, s.ltree = fixedLitTree ∧ s.dtree = fixedDistTree Tree.empty ∧ AtPosition s 0
      ∧ StreamHas s 0 (assembleFixed 0 ([0x48, 0xff].map .lit ++ [.eob]))
      ∧ s.dest + ([0x48, 0xff] : List Byte).length ≤ s.destCap :=
  ⟨{ body (streamBytes (assembleFixed 0 ([0x48, 0xff].map .lit ++ [.eob]))) with dest := 14, destLen := 14 }, rfl, rfl,
    at_zero (bytes := streamBytes (assembleFixed 0 ([0x48, 0xff].map .lit ++ [.eob]))) rfl rfl rfl rfl rfl rfl,
    by constructor <;> decide +kernel, by decide⟩

theorem witness_UnbuiltTreesRefused :
    State.reset.ltree.built = false ∧ (State.reset.ltree.built = false ∨ State.reset.dtree.built = false) := by decide

theorem witness_StoredStreamRoundTrip :
    State.reset.phase ≠ .run ∧ ([7, 8] : List Byte).length ≤ 65535 ∧ ([7, 8] : List Byte).length ≤ 2 := by decide

theorem witness_LiteralStreamRoundTrip : State.reset.phase ≠ .run ∧ ([7, 8] : List Byte).length ≤ 2 := by decide

theorem witness_UncompressAlwaysEnds : State.reset.phase ≠ .run := by decide

theorem witness_UncompressIsDeterministic :
    State.reset.phase ≠ .run ∧ ({ tst [1] with phase := .done } : State).phase ≠ .run
      ∧ (∃ t, exec (.uncompress [3, 0] 2 0) State.reset = .next t)
      ∧ ∃ t, exec (.uncompress [3, 0] 2 0) { tst [1] with phase := .done } = .next t :=
  ⟨by decide, by decide, next_of (by decide +kernel), next_of (by decide +kernel)⟩

theorem witness_StepsCarryOutUncompress :
    State.reset.phase ≠ .run ∧ State.reset.request = none ∧ State.reset.issue = none := by decide

/-! ### Invariants -/

theorem tst_core (bytes : List Byte) : CoreInv (tst bytes) :=
  ⟨Nat.zero_le _, show (0 : Nat) < 1 by decide, rfl, Nat.zero_le _, (fun h => by cases h), Nat.zero_le _,
    (fun h => by cases h), Memory.wf_memOfBytes bytes 0, rfl⟩

theorem witness_CoreInvariantIsKept : CoreInv (tst [3, 0]) ∧ ∃ t, step (tst [3, 0]) = .next t := ⟨tst_core _, ⟨_, rfl⟩⟩

theorem witness_AtMostSevenBitsAreHeld :
    ReaderInv { tst [3, 0] with bitcount := 7 } ∧ ∃ t, step { tst [3, 0] with bitcount := 7 } = .next t :=
  ⟨⟨rfl, by decide⟩, ⟨_, rfl⟩⟩

theorem witness_OutputBelowDestIsWritten : WrittenInv (pair [0, 0]) ∧ ∃ t, step (pair [0, 0]) = .next t :=
  ⟨⟨rfl, rfl, fun _ => pair_written _⟩, ⟨_, rfl⟩⟩

theorem witness_OverflowIsClearAtABlockEnd :
    ∃ s t : State, CoreInv s ∧ ReaderInv s ∧ (s.seq = .blockEnd → s.overflow = false) ∧ step s = .next t
      ∧ t.seq = .blockEnd :=
  ⟨body [0], _, ⟨by decide, by decide, rfl, Nat.zero_le _, (fun h => by cases h), by decide, (fun h => by cases h), rfl, rfl⟩,
    ⟨rfl, by decide⟩, (fun h => by cases h), rfl, rfl⟩

theorem fixedLitTree_ok : TreeOk 288 fixedLitTree :=
  ⟨by unfold KraftEq; decide +kernel, by decide +kernel, by unfold TransBelow; decide +kernel, rfl⟩

theorem fixedDistTree_ok : TreeOk 32 (fixedDistTree Tree.empty) :=
  ⟨by unfold KraftEq; decide +kernel, by decide +kernel, by unfold TransBelow; decide +kernel, rfl⟩

theorem items_tree_ok : TreeOk 20 (items [] 0).ltree :=
  ⟨by unfold KraftEq; decide +kernel, by decide +kernel, by unfold TransBelow; decide +kernel, by decide +kernel⟩

/-- A run's invariant at a header. -/
theorem witness_RunsNeverStop : RunInv (tst [3, 0]) where
  core := tst_core _
  reader := ⟨rfl, by decide⟩
  written := ⟨rfl, rfl, fun _ a ha => absurd ha (Nat.not_lt_zero a)⟩
  noRequest := rfl
  readable := readable_of rfl rfl
  lengthsLe i := by
    show entry (Vector.replicate 320 0) i ≤ 15
    rw [entry_replicate_zero]
    decide
  header _ h := by cases h
  body _ h := by cases h
  pair _ h := by cases h

/-- A run's invariant in the middle of a pair. -/
theorem witness_RunsNeverStop_pair : RunInv (pair [0]) where
  core := ⟨by decide, by decide, rfl, Nat.zero_le _, (fun h => by cases h), by decide, (fun h => by cases h), rfl, rfl⟩
  reader := ⟨rfl, by decide⟩
  written := ⟨rfl, rfl, fun _ => pair_written _⟩
  noRequest := rfl
  readable := readable_of (bytes := [0]) rfl rfl
  lengthsLe i := by
    show entry (Vector.replicate 320 0) i ≤ 15
    rw [entry_replicate_zero]
    decide
  header _ h := by cases h
  body _ h := by cases h
  pair _ _ := ⟨fixedLitTree_ok, fixedDistTree_ok⟩

/-- A run's invariant inside a dynamic header, one entry before its end. -/
theorem witness_RunsNeverStop_header : RunInv (items [0] 257) where
  core := ⟨by decide, by decide, rfl, Nat.zero_le _, (fun h => by cases h), by decide, (fun h => by cases h), rfl, rfl⟩
  reader := ⟨rfl, by decide⟩
  written := ⟨rfl, rfl, fun _ a ha => absurd ha (Nat.not_lt_zero a)⟩
  noRequest := rfl
  readable := readable_of (bytes := [0]) rfl rfl
  lengthsLe i := by
    show entry (Vector.replicate 320 0) i ≤ 15
    rw [entry_replicate_zero]
    decide
  header _ _ := ⟨by decide, by decide, by decide, by decide, by decide, items_tree_ok⟩
  body _ h := by cases h
  pair _ h := by cases h

theorem witness_EveryRunReachesDone : RunInv (tst [3, 0]) ∧ (tst [3, 0]).phase = .run := ⟨witness_RunsNeverStop, rfl⟩

theorem witness_SourceAndLimitsAreConstant :
    (tst [3, 0]).request = none ∧ (tst [3, 0]).issue = none ∧ ∃ t, step (tst [3, 0]) = .next t := ⟨rfl, rfl, ⟨_, rfl⟩⟩

/-- The step writes a byte and the run goes on. -/
theorem witness_OutputIsOnlyAppended :
    ∃ s t : State, s.request = none ∧ s.issue = none ∧ s.phase = .run ∧ step s = .next t ∧ t.phase = .run
      ∧ t.dest = s.dest + 1 :=
  ⟨body [0b00011110, 0], _, rfl, rfl, rfl, rfl, rfl, rfl⟩

end Sys2Proof.Tests
end

