-- ==== Sys2Proof/Proofs/BitReader.lean ====
section
/-! PROOFS. The bit reader (40): what CONSUME, GETBITS and GETBITS_BASE return and leave (R131, R133, R135). The key fact
is an invariant of REFILL's loop: from a position of the stream, `tag` holds the stream bits that follow it, injected
zeros included. -/

namespace Sys2Proof.Machine

/-! ## The operations issued on their own -/

theorem exec_consume (n : Nat) (s : State) : exec (.consume n) s = (consume n s).finishValue := rfl

theorem exec_getbits (n : Nat) (s : State) : exec (.getbits n) s = (getBits n s).finishValue := rfl

theorem exec_getbits_ok {n v : Nat} {s t : State} (h : getBits n s = .ok v t) :
    exec (.getbits n) s = .next { t with ret := v } := by
  rw [exec_getbits, h, Res.finishValue_ok]

theorem exec_getbitsBase (n base : Nat) (s : State) :
    exec (.getbitsBase n base) s = (getBitsBase n base s).finishValue := rfl

/-! ## CONSUME and GETBITS_BASE -/

theorem consume_ok {n : Nat} {s : State} (h : n ≤ s.bitcount) :
    consume n s = .ok (s.tag.toNat % 2 ^ n) { s with tag := s.tag >>> n, bitcount := s.bitcount - n } :=
  if_neg (Nat.not_lt.2 h)

theorem consume_refused {n : Nat} {s : State} (h : s.bitcount < n) : consume n s = .refused .consumeTooMany :=
  if_pos h

theorem getBitsBase_zero (base : Nat) (s : State) : getBitsBase 0 base s = .ok base s := rfl

theorem getBitsBase_of_getBits {n v : Nat} {s t : State} (base : Nat) (hn : 0 < n) (h : getBits n s = .ok v t) :
    getBitsBase n base s = .ok (base + v) t := by
  simp [getBitsBase, hn.ne', h]

/-! ## Bytes in the stream and in `tag` -/

/-- A byte of the source is the 8-bit field at its first bit (R9, R91). -/
theorem field_byte {s : State} {a : Nat} {b : Byte} (ha : a < s.sourceLen) (hb : memRead s.source a = some b) :
    field s (8 * a) 8 = b.toNat := by
  have hbits : streamBits s (8 * a) 8 = lsbBits 8 b.toNat := by
    refine List.map_congr_left fun j hj => ?_
    have hj : j < 8 := List.mem_range.1 hj
    simp only [streamBit, show 8 * a + j < 8 * s.sourceLen by omega, if_true, show (8 * a + j) / 8 = a by omega, hb,
      show (8 * a + j) % 8 = j by omega, BitVec.testBit_toNat]
  rw [field, hbits, fieldValue_lsbBits, Nat.mod_eq_of_lt b.isLt]

/-- Past the end of the source every field is zero (R9). -/
theorem field_past {s : State} {p : Nat} (h : 8 * s.sourceLen ≤ p) (n : Nat) : field s p n = 0 := by
  induction n with
  | zero => rfl
  | succ n ih =>
    have hbit : field s (p + n) 1 = 0 := by
      simp [field, streamBits, fieldValue, streamBit_past s (show _ ≤ p + n by omega)]
    rw [field_add, ih, hbit, Nat.mul_zero]

/-- A byte put into `tag` above the bits it holds is added at its weight. -/
theorem toNat_or_byte {tag : Tag} {b : Byte} {c : Nat} (hclean : tag.toNat < 2 ^ c) (hc : c + 8 ≤ 32) :
    (tag ||| (b.setWidth 32 <<< c)).toNat = tag.toNat + 2 ^ c * b.toNat := by
  have hlt : b.toNat * 2 ^ c < 2 ^ 32 :=
    calc b.toNat * 2 ^ c < 2 ^ 8 * 2 ^ c := Nat.mul_lt_mul_of_pos_right b.isLt (Nat.two_pow_pos c)
      _ = 2 ^ (c + 8) := by rw [← Nat.pow_add, Nat.add_comm]
      _ ≤ 2 ^ 32 := Nat.pow_le_pow_right (by decide) hc
  have hb : b.toNat % 2 ^ 32 = b.toNat := Nat.mod_eq_of_lt (Nat.lt_trans b.isLt (by decide))
  rw [BitVec.toNat_or, BitVec.toNat_shiftLeft, BitVec.toNat_setWidth, hb, Nat.shiftLeft_eq, Nat.mod_eq_of_lt hlt,
    Nat.mul_comm, Nat.or_comm, ← Nat.two_pow_add_eq_or_of_lt hclean, Nat.add_comm]

/-! ## REFILL from a position of the stream -/

/-- What REFILL(n) keeps from turn to turn when it starts in `s` at position `p`: `tag` holds the stream bits from `p` on;
until the source is exhausted they end where the loaded bytes end, and it is exhausted only for a field that ends past
it. -/
structure Filled (s : State) (p n : Nat) (t : State) : Prop where
  frame : ReaderFrame s t
  srcLe : t.src ≤ s.sourceLen
  held : t.tag.toNat = field s p t.bitcount
  loaded : t.overflow = false → p + t.bitcount = 8 * t.src
  exhausted : t.overflow = true → t.src = s.sourceLen ∧ 8 * s.sourceLen < p + n ∧ 8 * s.sourceLen ≤ p + t.bitcount

/-- The reader's registers at a position (R36 I2, R37). -/
theorem AtPosition.reader_fields {s : State} {p : Nat} (h : AtPosition s p) :
    s.src = (p + 7) / 8 ∧ s.bitcount = 8 * ((p + 7) / 8) - p ∧ s.tag = BitVec.ofNat 32 (field s p s.bitcount) := by
  have hb : s.bitcount = 8 * ((p + 7) / 8) - p := (congrArg State.bitcount h.reader).symm
  refine ⟨(congrArg State.src h.reader).symm, hb, ?_⟩
  rw [hb]
  exact (congrArg State.tag h.reader).symm

/-- At a position at most 7 bits are held and the loaded bytes are bytes of the source, so a read can answer. -/
theorem AtPosition.ready {s : State} {p : Nat} (h : AtPosition s p) : ReaderReady s := by
  obtain ⟨hsrc, hcount, -⟩ := h.reader_fields
  have := h.inSource
  exact ⟨h.readable, by omega, by omega⟩

/-- Before REFILL's first turn `tag` already holds the stream from the position on. -/
theorem AtPosition.filled {s : State} {p : Nat} (h : AtPosition s p) (n : Nat) : Filled s p n s := by
  obtain ⟨hsrc, hcount, htag⟩ := h.reader_fields
  have hlt : field s p s.bitcount < 2 ^ 32 :=
    Nat.lt_of_lt_of_le (field_lt s p _) (Nat.pow_le_pow_right (by decide) (by omega))
  refine ⟨ReaderFrame.refl s, h.ready.srcLe, ?_, fun _ => by omega, fun ho => ?_⟩
  · rw [htag, BitVec.toNat_ofNat, Nat.mod_eq_of_lt hlt]
  · simp [h.noOverflow] at ho

/-- One turn of REFILL keeps it: a loaded byte is the next field of the stream, and so are the injected zeros. -/
theorem Filled.loadByte {s t u : State} {p n : Nat} (h : Filled s p n t) (hn : t.bitcount < n)
    (hw : t.bitcount + 8 ≤ 32) (hu : loadByte t = .ok () u) : Filled s p n u := by
  obtain ⟨hframe, -⟩ := loadByte_frame hu
  have hsource := h.frame.source
  have hlen := h.frame.sourceLen
  obtain ⟨b, hne, hlt, hb, rfl⟩ | ⟨hend, rfl⟩ := loadByte_cases hu
  · have ho : t.overflow = false :=
      Bool.eq_false_iff.2 fun ho => hne ((h.exhausted ho).1.trans hlen.symm)
    have hpos := h.loaded ho
    refine ⟨h.frame.trans hframe, hlen ▸ hlt, ?_, fun _ => by simp only; omega, fun ho' => ?_⟩
    · simp only [field_add, hpos, field_byte (hlen ▸ hlt) (hsource ▸ hb)]
      rw [toNat_or_byte (h.held ▸ field_lt s p _) hw, h.held]
    · simp [ho] at ho'
  · have hpast : 8 * s.sourceLen ≤ p + t.bitcount ∧ 8 * s.sourceLen < p + n := by
      cases ho : t.overflow with
      | false =>
        have hpos := h.loaded ho
        omega
      | true =>
        obtain ⟨-, hfield, htag⟩ := h.exhausted ho
        exact ⟨htag, hfield⟩
    refine ⟨h.frame.trans hframe, h.srcLe, ?_, fun ho => by simp at ho, fun _ => ?_⟩
    · simp only [field_add, field_past hpast.1, h.held, Nat.mul_zero, Nat.add_zero]
    · exact ⟨hend.trans hlen, hpast.2, by simp only; omega⟩

/-- REFILL from a position returns with `tag` filled from the stream and enough bits in it. -/
theorem AtPosition.filled_refill {s t : State} {p n : Nat} (h : AtPosition s p) (ht : refill n s = .ok () t) :
    Filled s p n t ∧ n ≤ t.bitcount :=
  refillLoop_induct (P := Filled s p n) (fun _ _ hf hn hw hu => hf.loadByte hn hw hu) (h.filled n) ht

/-- The bits that CONSUME takes from a filled `tag`, and those it leaves, are the next fields of the stream. -/
theorem Filled.split {s t : State} {p n : Nat} (h : Filled s p n t) (hn : n ≤ t.bitcount) :
    t.tag.toNat % 2 ^ n = field s p n ∧ (t.tag >>> n).toNat = field s (p + n) (t.bitcount - n) := by
  have hsplit : t.tag.toNat = field s p n + 2 ^ n * field s (p + n) (t.bitcount - n) := by
    rw [h.held, ← field_add, Nat.add_sub_cancel' hn]
  have hlt := field_lt s p n
  constructor
  · rw [hsplit, Nat.add_mul_mod_self_left, Nat.mod_eq_of_lt hlt]
  · rw [BitVec.toNat_ushiftRight, Nat.shiftRight_eq_div_pow, hsplit, Nat.add_mul_div_left _ _ (Nat.two_pow_pos n),
      Nat.div_eq_of_lt hlt, Nat.zero_add]

/-! ## GETBITS (R135) -/

/-- GETBITS at a position returns the field there; what is left in `tag` is the stream behind the field, and the reader
stands where REFILL has left it. -/
theorem getBits_at {s : State} {p n : Nat} (h : AtPosition s p) (hn : n ≤ 16) :
    ∃ u, Filled s p n u ∧ n ≤ u.bitcount ∧ u.bitcount - n ≤ 7
      ∧ getBits n s = .ok (field s p n) { u with tag := u.tag >>> n, bitcount := u.bitcount - n } := by
  obtain ⟨v, t, hg, hready⟩ := getBits_answers h.ready hn
  obtain ⟨-, u, hu, hc⟩ := getBits_cases hg
  obtain ⟨hnu, rfl, rfl⟩ := consume_cases hc
  have hf := (h.filled_refill hu).1
  exact ⟨u, hf, hnu, hready.bitcountLe, by rw [hg, (hf.split hnu).1]⟩

/-- A field inside the source moves the reader to its end, and nothing else. -/
theorem getBits_inside {s : State} {p n : Nat} (h : AtPosition s p) (hn : n ≤ 16) (hin : p + n ≤ 8 * s.sourceLen) :
    getBits n s = .ok (field s p n) (seek s (p + n)) := by
  obtain ⟨u, hf, hnu, hle, hg⟩ := getBits_at h hn
  have ho : u.overflow = false := by
    refine Bool.eq_false_iff.2 fun ho => ?_
    obtain ⟨-, hpast, -⟩ := hf.exhausted ho
    omega
  have hpos := hf.loaded ho
  have hsrc : u.src = (p + n + 7) / 8 := by omega
  have hcount : u.bitcount - n = 8 * ((p + n + 7) / 8) - (p + n) := by omega
  have htag : u.tag >>> n = BitVec.ofNat 32 (field s (p + n) (u.bitcount - n)) := by
    rw [← (hf.split hnu).2, BitVec.ofNat_toNat, BitVec.setWidth_eq]
  rw [hg, htag, hcount, ReaderFrame.iff.1 hf.frame, hsrc, ho, ← h.noOverflow]
  rfl

/-- A field that ends past the source sets `overflow`; only the bit reader has moved. -/
theorem getBits_past {s : State} {p n : Nat} (h : AtPosition s p) (hn : n ≤ 16) (hout : 8 * s.sourceLen < p + n) :
    ∃ t, getBits n s = .ok (field s p n) t ∧ t.overflow = true ∧ t.src = s.sourceLen ∧ ReaderFrame s t := by
  obtain ⟨u, hf, hnu, -, hg⟩ := getBits_at h hn
  have ho : u.overflow = true := by
    by_contra hne
    have hpos := hf.loaded (Bool.eq_false_iff.2 hne)
    have hsrc := hf.srcLe
    omega
  exact ⟨_, hg, ho, (hf.exhausted ho).1, hf.frame.trans rfl⟩

/-- Once the source is exhausted, REFILL only raises `bitcount`: zeros become valid. -/
theorem refill_exhausted {s t : State} {n : Nat} (hsrc : s.src = s.sourceLen) (ho : s.overflow = true)
    (h : refill n s = .ok () t) : t = { s with bitcount := t.bitcount } := by
  refine (refillLoop_induct (P := fun t => t = { s with bitcount := t.bitcount }) (fun u w hu _ _ hw => ?_) rfl h).1
  obtain ⟨b, hne, -⟩ | ⟨-, rfl⟩ := loadByte_cases hw
  · rw [hu] at hne
    exact absurd hsrc hne
  · rw [hu, ← ho]

/-- GETBITS from an exhausted source takes the low bits of `tag`. -/
theorem getBits_exhausted {s : State} {n : Nat} (h : ReaderReady s) (hsrc : s.src = s.sourceLen)
    (ho : s.overflow = true) (hn : n ≤ 16) :
    ∃ c, getBits n s = .ok (s.tag.toNat % 2 ^ n) { s with tag := s.tag >>> n, bitcount := c } := by
  obtain ⟨v, t, hg, -⟩ := getBits_answers h hn
  obtain ⟨-, u, hu, hc⟩ := getBits_cases hg
  obtain ⟨-, rfl, rfl⟩ := consume_cases hc
  exact ⟨u.bitcount - n, by rw [hg, refill_exhausted hsrc ho hu]⟩

end Sys2Proof.Machine

namespace Sys2Proof

open Machine

/-- Settles O12, by the invariant `Filled` of REFILL's loop (a) and by the loop's behaviour on an exhausted source (b). -/
theorem getbitsReturnsTheStreamField : Obligations.GetbitsReturnsTheStreamField := by
  refine ⟨fun s p n hat hn => ⟨fun hin => ?_, fun hout => ?_⟩, fun s n hcore hready ho hn => ?_⟩
  · exact exec_getbits_ok (getBits_inside hat hn hin)
  · obtain ⟨t, hg, hov, hsrc, hframe⟩ := getBits_past hat hn hout
    refine ⟨_, exec_getbits_ok hg, rfl, hov, hsrc, ?_⟩
    rw [ReaderFrame.iff.1 hframe]
  · have hsrc := hcore.exhausted ho
    obtain ⟨c, hg⟩ := getBits_exhausted hready hsrc ho hn
    exact ⟨hsrc, _, exec_getbits_ok hg, rfl, ho, hsrc, rfl, rfl⟩

/-- Settles O13: on a ready reader GETBITS answers, and GETBITS_BASE goes on from its answer. -/
theorem getbitsBaseAddsTheField : Obligations.GetbitsBaseAddsTheField := by
  refine fun s n base => ⟨by rw [exec_getbitsBase, getBitsBase_zero, Res.finishValue_ok], fun hpos hn hready => ?_⟩
  obtain ⟨v, t, hg, -⟩ := getBits_answers hready hn
  exact ⟨_, exec_getbits_ok hg, by rw [exec_getbitsBase, getBitsBase_of_getBits base hpos hg, Res.finishValue_ok]⟩

/-- Settles O11, by the two branches of CONSUME. -/
theorem consumeTakesTheLowBits : Obligations.ConsumeTakesTheLowBits := by
  refine fun s n => ⟨fun hn => ?_, fun hn => ?_⟩
  · rw [exec_consume, consume_ok hn, Res.finishValue_ok]
  · rw [exec_consume, consume_refused hn, Res.finishValue_refused]

end Sys2Proof
end

