-- ==== Sys2Proof/Proofs/TreeBuilder.lean ====
section
/-! PROOFS. The tree builder (41): what the symbol scan of BUILD_TREE puts into `max_sym` (R150, steps 1 and 2), and what
a rejected build leaves (R155). -/

namespace Sys2Proof.Machine

theorem exec_buildTree (id : TreeId) (off num : Nat) (s : State) :
    exec (.buildTree id off num) s = (buildTree id off num s).finish := rfl

theorem length_slice_le (s : State) (off num : Nat) : (slice s off num).length ≤ num := List.length_take_le _ _

/-- Without a coded symbol every symbol's length is 0. -/
theorem getD_of_uncoded {lens : List Nat} (h : ∀ l ∈ lens, l = 0) (i : Nat) : lens.getD i 0 = 0 := by
  rw [List.getD_eq_getElem?_getD]
  cases hi : lens[i]? with
  | none => rfl
  | some l => exact h l (List.mem_of_getElem? hi)

/-- The scan for `max_sym` from symbol `i` on: without a coded symbol the start value stays; else it is the symbol of the
last positive length. -/
theorem lastCoded_cases (lens : List Nat) (i : Nat) (acc : Int) :
    ((∀ l ∈ lens, l = 0) ∧ lastCoded lens i acc = acc)
      ∨ ∃ m, m < lens.length ∧ lastCoded lens i acc = ↑(i + m) ∧ 0 < lens.getD m 0
          ∧ ∀ j, m < j → lens.getD j 0 = 0 := by
  induction lens generalizing i acc with
  | nil => exact .inl ⟨by simp, rfl⟩
  | cons l ls ih =>
    rw [lastCoded]
    obtain ⟨hzero, hlast⟩ | ⟨m, hm, hlast, hpos, habove⟩ := ih (i + 1) (if 0 < l then i else acc)
    · rw [hlast]
      by_cases hl : 0 < l
      · refine .inr ⟨0, by simp, by simp [hl], hl, fun j hj => ?_⟩
        obtain ⟨k, rfl⟩ := Nat.exists_eq_succ_of_ne_zero hj.ne'
        exact getD_of_uncoded hzero k
      · exact .inl ⟨List.forall_mem_cons.2 ⟨Nat.eq_zero_of_not_pos hl, hzero⟩, if_neg hl⟩
    · refine .inr ⟨m + 1, Nat.succ_lt_succ hm, by rw [hlast, Nat.add_right_comm, Nat.add_assoc], hpos, fun j hj => ?_⟩
      obtain ⟨k, rfl⟩ := Nat.exists_eq_succ_of_ne_zero (Nat.ne_of_gt (Nat.zero_lt_of_lt hj))
      exact habove k (Nat.lt_of_succ_lt_succ hj)

/-- Without a coded symbol every count is 0. -/
theorem countLengths_of_uncoded {lens : List Nat} (h : ∀ l ∈ lens, l = 0) : countLengths lens = Vector.replicate 16 0 := by
  refine Vector.ext fun l hl => ?_
  have hcount : l ≠ 0 → lens.count l = 0 := fun hne => List.count_eq_zero.2 fun hmem => hne (h l hmem)
  simpa [countLengths] using hcount

/-- The checks accept a set without a coded symbol (R153). -/
theorem buildCheck_of_uncoded {lens : List Nat} (h : ∀ l ∈ lens, l = 0) : buildCheck lens = none := by
  unfold buildCheck
  rw [countLengths_of_uncoded h]
  decide

/-- A rejected set has a coded symbol, so `max_sym` is the largest one. -/
theorem lastCoded_of_rejected {lens : List Nat} {c : Cause} (h : buildCheck lens = some c) :
    ∃ m, m < lens.length ∧ lastCoded lens 0 (-1) = ↑m ∧ 0 < lens.getD m 0 ∧ ∀ j, m < j → lens.getD j 0 = 0 := by
  obtain ⟨hzero, -⟩ | hlast := lastCoded_cases lens 0 (-1)
  · rw [buildCheck_of_uncoded hzero] at h
    cases h
  · simpa only [Nat.zero_add] using hlast

/-- A rejected build ends the run with its cause, in the state that holds the counted tree. -/
theorem exec_buildTree_rejected {id : TreeId} {off num : Nat} {s : State} {c : Cause}
    (hcontract : buildContract s.lengths off num = true) (hcheck : buildCheck (slice s off num) = some c) :
    exec (.buildTree id off num) s
      = .next (takeException c (setTree id (countedTree (slice s off num) (getTree id s)) s)) := by
  rw [exec_buildTree]
  obtain ⟨hout, -⟩ | ⟨-, c', hc, hraised⟩ | ⟨-, hnone, -⟩ := buildTree_cases id off num s
  · simp [hcontract] at hout
  · cases hcheck.symm.trans hc
    rw [hraised, Res.finish_raised]
  · cases hcheck.symm.trans hnone

@[simp] theorem getTree_takeException (id : TreeId) (c : Cause) (s : State) :
    getTree id (takeException c s) = getTree id s := by cases id <;> rfl

end Sys2Proof.Machine

namespace Sys2Proof

open Machine

/-- Settles O17: the raise leaves `countedTree`, and a rejected set has a coded symbol for `max_sym`. -/
theorem failedBuildLeavesTheCounts : Obligations.FailedBuildLeavesTheCounts := by
  intro s id off num c hcontract hcheck
  obtain ⟨m, hm, hlast, hpos, habove⟩ := lastCoded_of_rejected hcheck
  have htree : getTree id (takeException c (setTree id (countedTree (slice s off num) (getTree id s)) s))
      = countedTree (slice s off num) (getTree id s) := by simp
  refine ⟨_, exec_buildTree_rejected hcontract hcheck, buildCheck_cause hcheck, rfl, rfl, ?_⟩
  rw [htree]
  refine ⟨rfl, entry_countLengths _ 0, fun l hlo hhi => ?_, m, hm.trans_le (length_slice_le s off num), hlast, hpos, habove⟩
  exact (entry_countLengths _ l).trans (if_neg (by omega))

end Sys2Proof
end

