-- ==== Sys2Proof/Proofs/BlockBody.lean ====
section
/-! PROOFS. The block body (45): a literal as a stream element (R221), and what a raise amounts to as the outcome of an
instruction (R294). -/

namespace Sys2Proof.Machine

/-- An operation that ends in a raise ends the run with the status of its cause. -/
theorem raises_finish {c : Cause} {s : State} {x : Res Unit} (h : x = .raised c s) : Raises x.finish c.status :=
  ⟨takeException c s, by rw [h, Res.finish_raised], rfl, rfl, rfl⟩

theorem exec_lit (b : Byte) (s : State) : exec (.lit b) s = (literalElement b s).finish := rfl

theorem testOverflow_raised {s : State} (h : s.overflow = true) : testOverflow s = .raised .overflowInBody s := if_pos h

theorem testOverflow_ok {s : State} (h : s.overflow = false) : testOverflow s = .ok () s := by
  simp [testOverflow, h]

theorem putLiteral_noRoom (b : Byte) {s : State} (h : s.dest = s.destCap) :
    putLiteral b s = .raised .literalNoRoom s := if_pos h

theorem putLiteral_ok (b : Byte) {s : State} (h : s.dest < s.destCap) :
    putLiteral b s = .ok () { s with out := memWrite s.out s.dest b, dest := s.dest + 1, destLen := s.destLen + 1 } :=
  (if_neg h.ne).trans (emitByte_ok h)

/-- Past the end of the source a literal is not written, whatever room there is. -/
theorem literalElement_raised (b : Byte) {s : State} (h : s.overflow = true) :
    literalElement b s = .raised .overflowInBody s := by
  rw [literalElement, testOverflow_raised h, Res.bind_raised]

/-- Without `overflow` the literal goes to the output. -/
theorem literalElement_eq_putLiteral (b : Byte) {s : State} (h : s.overflow = false) :
    literalElement b s = putLiteral b s := by
  rw [literalElement, testOverflow_ok h, Res.bind_ok]

end Sys2Proof.Machine

namespace Sys2Proof

open Machine

/-- Settles O31, by the order of the tests: `overflow`, then room, then the write. -/
theorem literalIsWritten : Obligations.LiteralIsWritten := by
  refine fun s v => ⟨Laws.RoundTrip.lit v, fun hover => ?_, fun hover hfull => ?_,
    fun hover hroom => ⟨?_, ?_, fun a ha => ?_⟩⟩
  · exact raises_finish (literalElement_raised v hover)
  · exact raises_finish ((literalElement_eq_putLiteral v hover).trans (putLiteral_noRoom v hfull))
  · rw [exec_lit, literalElement_eq_putLiteral v hover, putLiteral_ok v hroom, Res.finish_ok]
  · exact memRead_memWrite_same s.out s.dest v
  · exact memRead_memWrite_other s.out v ha

end Sys2Proof
end

