-- ==== Sys2Proof/Proofs/UncompressedBlock.lean ====
section
/-! PROOFS. The uncompressed block (46): alignment moves the reader to the next whole byte, LEN and NLEN are the two
fields there (R261, R262), and the three tests then decide in their order (R263). -/

namespace Sys2Proof.Machine

theorem exec_inflateUncompressed (s : State) : exec .inflateUncompressed s = (inflateUncompressed s).finish := rfl

/-! ## LEN and NLEN -/

/-- A reader that stands at a position can be moved to any other position of the source. -/
theorem AtPosition.seek {s : State} {p q : Nat} (h : AtPosition s p) (hq : q ≤ 8 * s.sourceLen) :
    AtPosition (seek s q) q :=
  ⟨h.readable, h.noOverflow, hq, seek_seek s q q⟩

/-- Alignment moves the reader to the next whole byte (R261). -/
theorem alignReader_eq_seek {s : State} {p : Nat} (h : AtPosition s p) :
    alignReader s = seek s (8 * alignedByte p) := by
  obtain ⟨hsrc, -, -⟩ := h.reader_fields
  have hbyte : (8 * alignedByte p + 7) / 8 = alignedByte p := by omega
  rw [seek, hbyte, Nat.sub_self, field_zero, alignedByte, ← hsrc]
  rfl

theorem readU16_inside {s : State} {p : Nat} (h : AtPosition s p) (hin : p + 16 ≤ 8 * s.sourceLen) :
    readU16 s = .ok (field s p 16) (seek s (p + 16)) := by
  rw [readU16, operand, getBits_inside h (by decide) hin, Res.bind_ok, Nat.zero_add]

/-- With LEN and NLEN in the source, the block is its tests and its copy from the byte behind NLEN on. -/
theorem inflateUncompressed_eq {s : State} {p : Nat} (h : AtPosition s p)
    (hin : 8 * alignedByte p + 32 ≤ 8 * s.sourceLen) :
    inflateUncompressed s
      = (checkStored (field s (8 * alignedByte p) 16) (field s (8 * alignedByte p + 16) 16)
          (seek s (8 * alignedByte p + 32))).bind fun _ t =>
        (copyStored (field s (8 * alignedByte p) 16) t).bind fun _ t => .ok () (alignReader t) := by
  have hlen : readU16 (alignReader s)
      = .ok (field s (8 * alignedByte p) 16) (seek s (8 * alignedByte p + 16)) := by
    rw [alignReader_eq_seek h, readU16_inside (h.seek (by omega)) (by rw [seek_sourceLen]; omega), seek_seek]
    rfl
  have hnlen : readU16 (seek s (8 * alignedByte p + 16))
      = .ok (field s (8 * alignedByte p + 16) 16) (seek s (8 * alignedByte p + 32)) := by
    rw [readU16_inside (h.seek (by omega)) (by rw [seek_sourceLen]; omega), seek_seek]
    rfl
  rw [inflateUncompressed, hlen, Res.bind_ok, hnlen, Res.bind_ok]

/-! ## The tests -/

/-- NLEN is the complement of LEN within 16 bits exactly when the two add up to 65535 (R8, R260). -/
theorem eq_complement_iff {len nlen : Nat} (hn : nlen < 2 ^ 16) :
    len = (~~~(BitVec.ofNat 16 nlen)).toNat ↔ len + nlen = 65535 := by
  rw [BitVec.toNat_not, BitVec.toNat_ofNat, Nat.mod_eq_of_lt hn]
  omega

section
variable {len nlen : Nat} {s : State}

theorem checkStored_mismatch (hn : nlen < 2 ^ 16) (h : len + nlen ≠ 65535) :
    checkStored len nlen s = .raised .lenNlenMismatch s :=
  if_pos (mt (eq_complement_iff hn).1 h)

theorem checkStored_short (hn : nlen < 2 ^ 16) (h : len + nlen = 65535) (hs : s.sourceLen < s.src + len) :
    checkStored len nlen s = .raised .storedSourceShort s :=
  (if_neg (not_not.2 ((eq_complement_iff hn).2 h))).trans (if_pos hs)

theorem checkStored_noRoom (hn : nlen < 2 ^ 16) (h : len + nlen = 65535) (hs : s.src + len ≤ s.sourceLen)
    (hd : s.destCap < s.dest + len) : checkStored len nlen s = .raised .storedNoRoom s :=
  (if_neg (not_not.2 ((eq_complement_iff hn).2 h))).trans ((if_neg (Nat.not_lt.2 hs)).trans (if_pos hd))

end

/-- A failing test ends the block's run with the status of its cause. -/
theorem exec_inflateUncompressed_raises {s : State} {p : Nat} {c : Cause} (h : AtPosition s p)
    (hin : 8 * alignedByte p + 32 ≤ 8 * s.sourceLen)
    (hc : checkStored (field s (8 * alignedByte p) 16) (field s (8 * alignedByte p + 16) 16)
        (seek s (8 * alignedByte p + 32)) = .raised c (seek s (8 * alignedByte p + 32))) :
    Raises (exec .inflateUncompressed s) c.status := by
  rw [exec_inflateUncompressed]
  exact raises_finish (by rw [inflateUncompressed_eq h hin, hc, Res.bind_raised])

end Sys2Proof.Machine

namespace Sys2Proof

open Machine

/-- Settles O26, by the three tests on the reader that stands behind NLEN, four bytes after the aligned one. -/
theorem storedBlockTestsInOrder : Obligations.StoredBlockTestsInOrder := by
  intro s p hat hin
  have hnlen := field_lt s (8 * alignedByte p + 16) 16
  have hsrc : (seek s (8 * alignedByte p + 32)).src = alignedByte p + 4 := by rw [seek_src]; omega
  refine ⟨fun hne => ?_, fun hsum hshort => ?_, fun hsum hfits hroom => ?_⟩
  · exact exec_inflateUncompressed_raises hat hin (checkStored_mismatch hnlen hne)
  · exact exec_inflateUncompressed_raises hat hin (checkStored_short hnlen hsum (by rwa [hsrc, seek_sourceLen]))
  · exact exec_inflateUncompressed_raises hat hin (checkStored_noRoom hnlen hsum
      (by rw [hsrc, seek_sourceLen]; exact hfits) (by rwa [seek_destCap, seek_dest]))

end Sys2Proof
end

