-- ==== Sys2Proof/Proofs/Dispatcher.lean ====
section
/-! PROOFS. The block dispatcher (47): the header of the reserved block type (R275). -/

namespace Sys2Proof.Machine

theorem exec_reserved (f : Bool) (s : State) :
    exec (.reserved f) s = (Res.raised .btypeReserved { s with bfinal := f } : Res Unit).finish := rfl

end Sys2Proof.Machine

namespace Sys2Proof

open Machine

/-- Settles O30: the selector is the one that the encoder writes for BTYPE 3, and the raise stands before any test. -/
theorem reservedBlockTypeRejected : Obligations.ReservedBlockTypeRejected := by
  refine fun s f => ⟨Laws.RoundTrip.reserved f, ?_⟩
  rw [exec_reserved]
  exact raises_finish (c := .btypeReserved) rfl

end Sys2Proof
end

