-- ==== Sys2Proof/Proofs/Exceptions.lean ====
section
/-! PROOFS. Taking an exception (60): the status of each cause and what a raise leaves as it was (R291, R294). -/

namespace Sys2Proof.Machine

/-- Causes 21 to 23 of R291 are the BufErrors; every other cause is a DataError. -/
theorem Cause.status_eq_ite (c : Cause) :
    c.status = if c = .literalNoRoom ∨ c = .matchNoRoom ∨ c = .storedNoRoom then .bufError else .dataError := by
  cases c <;> rfl

/-- A raise writes the two results, the phase and OUT, and no other field. -/
theorem takeException_frame (c : Cause) (s : State) :
    { takeException c s with status := s.status, destLenOut := s.destLenOut, phase := s.phase, out := s.out } = s := rfl

end Sys2Proof.Machine

namespace Sys2Proof

open Machine

/-- Settles O5, by what taking an exception writes and the status of each cause. -/
theorem raiseEndsTheRun : Obligations.RaiseEndsTheRun := by
  refine ⟨fun c s => ⟨Res.finish_raised c s, ?_, takeException_destLenOut c s, takeException_phase c s,
    takeException_frame c s⟩, rfl, rfl⟩
  rw [takeException_status, Cause.status_eq_ite]

end Sys2Proof
end

