-- ==== Sys2Proof/Proofs/Host.lean ====
section
/-! PROOFS. The host (70): START begins a run from the phases IDLE and DONE (R331), during RUN every action of the host but
hardware reset is refused, and outside RUN the core does nothing by itself (R346). -/

namespace Sys2Proof.Machine

/-! ## The step with an action of the host pending, and with nothing pending -/

theorem step_request (s : State) (a : HostAction) :
    step { s with request := some a } = (hostStep a { s with request := none }).finish := rfl

theorem step_outside_run {s : State} (hp : s.phase ≠ .run) (hr : s.request = none) (hi : s.issue = none) :
    step s = .next s := by
  rw [step, hr, hi]
  cases h : s.phase with
  | idle => rfl
  | done => rfl
  | run => exact absurd h hp

/-! ## When the host's actions answer -/

section
variable {s : State}

theorem startRun_answers (source : List Byte) (cap : Nat) (h : s.phase ≠ .run) :
    ∃ t, startRun source source.length cap s = .ok () t :=
  ⟨_, (if_neg h).trans (if_neg (not_not.2 rfl))⟩

theorem startRun_refused (source : List Byte) (len cap : Nat) (h : s.phase = .run) :
    startRun source len cap s = .refused .startDuringRun := if_pos h

theorem hostAccess_refused (t : State) (h : s.phase = .run) : hostAccess s t = .refused .hostAccessDuringRun := if_pos h

/-- During RUN hardware reset is the one action of the host that is not refused. -/
theorem hostStep_refused {a : HostAction} (h : s.phase = .run) (ha : a ≠ .reset) : ∃ r, hostStep a s = .refused r := by
  cases a with
  | reset => exact absurd rfl ha
  | start source len cap => exact ⟨_, startRun_refused source len cap h⟩
  | writeSrc i v => exact ⟨_, hostAccess_refused _ h⟩
  | readSrc i => exact ⟨_, hostAccess_refused _ h⟩
  | writeOut i v => exact ⟨_, hostAccess_refused _ h⟩
  | readOut i => exact ⟨_, hostAccess_refused _ h⟩

end

end Sys2Proof.Machine

namespace Sys2Proof

open Machine

/-- Settles O2: START answers outside RUN, and an answer of START is the state with the start values (`startRun_cases`). -/
theorem startInitialisesTheRun : Obligations.StartInitialisesTheRun := by
  intro s bytes cap hp
  obtain ⟨t, ht⟩ := startRun_answers (s := { s with request := none }) bytes cap hp
  have hstep : step { s with request := some (.start bytes bytes.length cap) } = .next t := by
    rw [step_request, hostStep, ht, Res.finish_ok]
  obtain ⟨-, -, rfl⟩ := startRun_cases ht
  refine ⟨_, hstep, rfl, rfl, fun a => ?_, rfl, rfl, rfl, rfl, rfl, rfl, rfl⟩
  rw [memRead_memOfBytes, if_pos (Nat.zero_le a), Nat.sub_zero]

/-- Settles O4: each of the host's actions tests the phase first, and a step with nothing pending acts in RUN only. -/
theorem hostIsShutOutDuringRun : Obligations.HostIsShutOutDuringRun := by
  refine ⟨fun s bytes len cap hp => ?_, fun s a i v hp ha => ?_, fun s => step_outside_run⟩
  · have hstart := startRun_refused (s := { s with request := none }) bytes len cap hp
    rw [step_request, hostStep, hstart, Res.finish_refused]
  · have hreset : a ≠ .reset := by rcases ha with rfl | rfl | rfl | rfl <;> simp
    obtain ⟨r, hr⟩ := hostStep_refused (s := { s with request := none }) hp hreset
    exact ⟨r, by rw [step_request, hr, Res.finish_refused]⟩

end Sys2Proof
end

