-- ==== Sys2Proof/Proofs/Sequencer.lean ====
section
/-! PROOFS. The step (70, 47): hardware reset and what START leaves alone (R330, R332), how a step fetches, decodes and
executes (R103, R344), and what follows a block (R270, R276, R277). -/

namespace Sys2Proof.Machine

section
variable {s : State}

theorem step_issued {i : Instr} (hr : s.request = none) (hi : s.issue = some i) :
    step s = exec i { s with issue := none } := by
  rw [step, hr, hi]

/-- With nothing pending a step in phase RUN is a step of the run. -/
theorem step_run (hr : s.request = none) (hi : s.issue = none) (hp : s.phase = .run) : step s = runStep s := by
  rw [step, hr, hi, hp]

theorem runStep_of_mode {f : Format} (hm : mode s = some f) : runStep s = runElement f s := by
  rw [runStep, hm]

theorem runStep_of_no_mode (hm : mode s = none) : runStep s = (sequence s).finish := by
  rw [runStep, hm]

theorem runElement_ok {f : Format} {n : Nat} {t : State} {i : Instr} (hf : fetch f s = .ok n t)
    (hd : decode ⟨f, n, [], []⟩ = .ok i) : runElement f s = exec i t := by
  rw [runElement, hf]
  simp only [hd]

theorem endRun_overflow (h : s.overflow = true) : endRun s = .raised .overflowAtEnd s := if_pos h

theorem endRun_ok (h : s.overflow = false) :
    endRun s = .ok () { s with status := .ok, destLenOut := s.destLen, phase := .done } :=
  if_neg (Bool.eq_false_iff.1 h)

theorem blockEnd_final (h : s.bfinal = true) : blockEnd s = endRun s := if_pos h

theorem blockEnd_next (h : s.bfinal = false) : blockEnd s = .ok () { s with seq := .header } :=
  if_neg (Bool.eq_false_iff.1 h)

/-- Between two blocks a step is the dispatcher's decision on `bfinal`. -/
theorem step_blockEnd (hr : s.request = none) (hi : s.issue = none) (hp : s.phase = .run) (hq : s.seq = .blockEnd) :
    step s = (blockEnd s).finish := by
  rw [step_run hr hi hp, runStep_of_no_mode (by rw [mode, hq]), sequence, hq]

end

end Sys2Proof.Machine

namespace Sys2Proof

open Machine

/-- Settles O1: hardware reset answers in every phase, and the host reads a result in phase DONE only. -/
theorem hardwareResetAbandonsTheRun : Obligations.HardwareResetAbandonsTheRun := by
  intro s hr
  refine ⟨?_, rfl, rfl⟩
  rw [step, hr]
  rfl

/-- Settles O3, by the state that an answer of START is (`startRun_cases`). -/
theorem startLeavesTheRestAlone : Obligations.StartLeavesTheRestAlone := by
  intro s t bytes len cap h
  rw [step_request, hostStep, Res.finish_eq_next] at h
  obtain hok | ⟨c, u, hraised, -⟩ := h
  · obtain ⟨-, -, rfl⟩ := startRun_cases hok
    exact ⟨rfl, rfl, rfl, rfl, rfl, rfl, rfl, rfl, rfl, rfl, rfl⟩
  · exact absurd hraised (startRun_quiet bytes len cap _ c u)

/-- Settles O6, by the branches of the step. -/
theorem stepRunsTheDecodedInstruction : Obligations.StepRunsTheDecodedInstruction := by
  refine ⟨fun s t f n i hr hi hp hm hf hd => ?_, fun s i hr hi => step_issued hr hi⟩
  rw [step_run hr hi hp, runStep_of_mode hm, runElement_ok hf hd]

/-- Settles O7, by the dispatcher's decision on `bfinal` and the `overflow` test at the end of a run. -/
theorem blockEndDecides : Obligations.BlockEndDecides := by
  intro s hr hi hp hq
  rw [step_blockEnd hr hi hp hq]
  refine ⟨fun hf ho => ?_, fun hf ho => ?_, fun hf => ?_⟩
  · exact raises_finish ((blockEnd_final hf).trans (endRun_overflow ho))
  · rw [blockEnd_final hf, endRun_ok ho, Res.finish_ok]
  · rw [blockEnd_next hf, Res.finish_ok]

end Sys2Proof
end

