-- ==== Sys2Proof/Proofs/Encoding.lean ====
section
/-! PROOFS. Encoding (30): the decoder inverts the encoder (R105, R107), and selectors written out from the tables decode
as the tables say (R92, R97, R98, R99). -/

namespace Sys2Proof

open Machine Laws

/-- The decoder gives back every instruction the encoder writes: one law per row of the opcode table. -/
theorem decode_encode (i : Instr) : decode (encode i) = .ok i := by
  cases i with
  | stored f => exact RoundTrip.stored f
  | fixed f => exact RoundTrip.fixed f
  | dynamic f => exact RoundTrip.dynamic f
  | reserved f => exact RoundTrip.reserved f
  | lit b => exact RoundTrip.lit b
  | cl v => exact RoundTrip.cl v
  | buildTree t off num => exact RoundTrip.buildTree t off num
  | decodeSymbol t => exact RoundTrip.decodeSymbol t
  | _ => rfl

/-- Settles O8, by the round trip of every row, for well-formed operands and others alike. -/
theorem decodeInvertsEncode : Obligations.DecodeInvertsEncode := fun i _ => decode_encode i

/-- Settles O9, by the decoder's tables at the sixteen selectors. -/
theorem writtenSelectorsDecode : Obligations.WrittenSelectorsDecode := by
  unfold Obligations.WrittenSelectorsDecode
  decide

end Sys2Proof
end

