-- ==== Sys2Proof/Proofs/Elements.lean ====
section
/-! PROOFS. The stream elements as operations (R103): `element f n` is what the element with selector `n` of format `f`
does, `exec` carries it out, and every selector that DECODE_SYMBOL can give has an instruction (R107). -/

namespace Sys2Proof.Machine

/-- What a block header with selector `h` does (R92, R272 to R275). -/
def headerElement (h : Nat) (s : State) : Res Unit :=
  match h / 2 with
  | 0 => (inflateUncompressed { s with bfinal := h % 2 == 1 }).bind fun _ s => .ok () { s with seq := .blockEnd }
  | 1 => .ok () { buildFixedTrees { s with bfinal := h % 2 == 1 } with seq := .litLen }
  | 2 => (beginHeader { s with bfinal := h % 2 == 1 }).bind fun _ s => .ok () { s with seq := .codeLen }
  | _ => .raised .btypeReserved { s with bfinal := h % 2 == 1 }

/-- What a literal/length symbol does (R221, R222, R223). -/
def litLenElement (sym : Nat) (s : State) : Res Unit :=
  if sym < 256 then literalElement (BitVec.ofNat 8 sym) s
  else if sym = 256 then eobElement s
  else lengthElement sym s

/-- What a code-length symbol does; 19 is the sentinel (R195 to R199). -/
def clElement (sym : Nat) (s : State) : Res Unit :=
  if sym = 19 then .raised .clsymRange s else clItem sym s

/-- What the element with selector `n` of a format does; an internal operation is no element of the stream (R105). -/
def element (f : Format) (n : Nat) (s : State) : Res Unit :=
  match f with
  | .bh => headerElement n s
  | .ll => litLenElement n s
  | .ds => distElement n s
  | .cl => clElement n s
  | .op => .refused (.undecodable .opIndex)

/-- How many selectors of a format have a row in the opcode table (R107). -/
def selectors : Format → Nat
  | .bh => 8
  | .ll => 288
  | .ds => 32
  | .cl => 20
  | .op => 0

theorem litLenElement_literal {sym : Nat} (h : sym < 256) (s : State) :
    litLenElement sym s = literalElement (BitVec.ofNat 8 sym) s := if_pos h

theorem litLenElement_eob (s : State) : litLenElement 256 s = eobElement s := rfl

theorem litLenElement_length {sym : Nat} (h : 256 < sym) (s : State) : litLenElement sym s = lengthElement sym s := by
  rw [litLenElement, if_neg (by omega), if_neg (by omega)]

theorem clElement_item {sym : Nat} (h : sym ≠ 19) (s : State) : clElement sym s = clItem sym s := if_neg h

/-- Executing the instruction of a stream element is carrying out the element of its selector. -/
theorem exec_eq_element (i : Instr) (s : State) (h : (encode i).format ≠ .op) :
    exec i s = (element (encode i).format (encode i).selector s).finish := by
  cases i with
  | stored f => cases f <;> rfl
  | fixed f => cases f <;> rfl
  | dynamic f => cases f <;> rfl
  | reserved f => cases f <;> rfl
  | lit b =>
    have hb : litLenElement b.toNat s = literalElement b s := by
      rw [litLenElement_literal b.isLt, BitVec.ofNat_toNat, BitVec.setWidth_eq]
    exact (congrArg Res.finish hb).symm
  | cl v =>
    have hv : clElement v.toNat s = (checkClSym v.toNat s).bind fun _ s => clLiteral v.toNat s := by
      have hlt : v.toNat < 16 := v.isLt
      rw [clElement_item (by omega), clItem]
      simp [show v.toNat ≠ 16 by omega, show v.toNat ≠ 17 by omega, show v.toNat ≠ 18 by omega]
    exact (congrArg Res.finish hv).symm
  | refill | consume | getbits | getbitsBase | buildTree | decodeSymbol | buildFixedTrees | decodeTrees
  | inflateBlockData | inflateUncompressed | uncompress => exact absurd rfl h
  | _ => rfl

/-- The instruction of a row of LL, found again from its place in the table. -/
theorem llRows_selector : ∀ k, k < 32 → ∃ i, llRows[k]? = some i ∧ encode i = ⟨.ll, 256 + k, [], []⟩ := by
  decide

theorem dsRows_selector : ∀ d, d < 32 → ∃ i, dsRows[d]? = some i ∧ encode i = ⟨.ds, d, [], []⟩ := by
  decide

/-- Every selector below a format's bound is the selector of an instruction. -/
theorem exists_encode {f : Format} {n : Nat} (h : n < selectors f) : ∃ i, encode i = ⟨f, n, [], []⟩ := by
  cases f with
  | bh =>
    have hall : ∀ k < 8, ∃ b, encode (.stored b) = ⟨.bh, k, [], []⟩ ∨ encode (.fixed b) = ⟨.bh, k, [], []⟩
        ∨ encode (.dynamic b) = ⟨.bh, k, [], []⟩ ∨ encode (.reserved b) = ⟨.bh, k, [], []⟩ := by decide
    obtain ⟨b, hb | hb | hb | hb⟩ := hall n h <;> exact ⟨_, hb⟩
  | ll =>
    by_cases hn : n < 256
    · exact ⟨.lit (BitVec.ofNat 8 n), by simp [encode, Nat.mod_eq_of_lt hn]⟩
    · have h288 : n < 288 := h
      obtain ⟨i, -, hi⟩ := llRows_selector (n - 256) (by omega)
      exact ⟨i, by rw [hi, Nat.add_sub_cancel' (by omega)]⟩
  | ds =>
    obtain ⟨i, -, hi⟩ := dsRows_selector n h
    exact ⟨i, hi⟩
  | cl =>
    have h20 : n < 20 := h
    by_cases hn : n < 16
    · exact ⟨.cl (BitVec.ofNat 4 n), by simp [encode, Nat.mod_eq_of_lt hn]⟩
    · obtain rfl | rfl | rfl | rfl : n = 16 ∨ n = 17 ∨ n = 18 ∨ n = 19 := by omega
      · exact ⟨.cl16, rfl⟩
      · exact ⟨.cl17, rfl⟩
      · exact ⟨.cl18, rfl⟩
      · exact ⟨.sentinel19, rfl⟩
  | op => exact absurd h (Nat.not_lt_zero n)

/-- No row selects a selector past a stream format's bound. -/
theorem decode_past {f : Format} {n : Nat} (hf : f ≠ .op) (h : selectors f ≤ n) :
    ∃ r, decode ⟨f, n, [], []⟩ = .error r := by
  cases f with
  | bh => exact ⟨.headerSelector, if_pos h⟩
  | ll =>
    have h288 : 288 ≤ n := h
    have hrow : llRows[n - 256]? = none := List.getElem?_eq_none (by simp [llRows]; omega)
    exact ⟨.litLenSymbol, by simp [decode, decodeLL, show ¬ n < 256 by omega, hrow]⟩
  | ds =>
    have hrow : dsRows[n]? = none := List.getElem?_eq_none h
    exact ⟨.distSymbol, by simp [decode, decodeDS, hrow]⟩
  | cl =>
    have h20 : 20 ≤ n := h
    obtain ⟨k, rfl⟩ := Nat.exists_eq_add_of_le' h20
    have hcl : decodeCL (k + 20) = .error .clSymbol := by
      rw [decodeCL, if_neg (by omega)] <;> omega
    exact ⟨.clSymbol, hcl⟩
  | op => exact absurd rfl hf

/-- The element that a selector names is executed in the state its fetch has left. -/
theorem runElement_eq {f : Format} {n : Nat} {s t : State} (hf : fetch f s = .ok n t) (hn : n < selectors f) :
    runElement f s = (element f n t).finish := by
  obtain ⟨i, hi⟩ := exists_encode hn
  have hop : f ≠ .op := by
    rintro rfl
    exact Nat.not_lt_zero n hn
  have hd : decode ⟨f, n, [], []⟩ = .ok i := hi ▸ decode_encode i
  rw [runElement_ok hf hd, exec_eq_element i t (by rw [hi]; exact hop), hi]

theorem fetch_quiet (f : Format) (s : State) : (fetch f s).Quiet := by
  cases f with
  | bh =>
    exact Res.quiet_bind (getBits_quiet 1 s) fun _ _ =>
      Res.quiet_bind (getBits_quiet 2 _) fun _ _ => Res.quiet_ok _ _
  | ll => exact decodeSymbol_quiet .ltree s
  | ds => exact decodeSymbol_quiet .dtree s
  | cl => exact decodeSymbol_quiet .ltree s
  | op => exact Res.quiet_refused _

theorem mode_ne_op (s : State) : mode s ≠ some .op := by
  unfold mode
  cases s.seq <;> simp

/-- What a step of a run with nothing pending can do: an element of the stream, or a move of the sequencer. -/
theorem step_run_cases {s u : State} (hr : s.request = none) (hi : s.issue = none) (hp : s.phase = .run)
    (h : step s = .next u) :
    (∃ f n t, mode s = some f ∧ fetch f s = .ok n t ∧ n < selectors f ∧ (element f n t).finish = .next u)
      ∨ (mode s = none ∧ (sequence s).finish = .next u) := by
  rw [step_run hr hi hp] at h
  cases hm : mode s with
  | none => exact .inr ⟨rfl, by rwa [runStep_of_no_mode hm] at h⟩
  | some f =>
    have hop : f ≠ .op := fun hf => mode_ne_op s (hf ▸ hm)
    rw [runStep_of_mode hm] at h
    cases hf : fetch f s with
    | ok n t =>
      by_cases hn : n < selectors f
      · exact .inl ⟨f, n, t, rfl, hf, hn, by rwa [runElement_eq hf hn] at h⟩
      · obtain ⟨r, hd⟩ := decode_past hop (Nat.not_lt.1 hn)
        simp [runElement, hf, hd] at h
    | raised c t => exact absurd hf (fetch_quiet f s c t)
    | fault e => simp [runElement, hf] at h
    | refused r => simp [runElement, hf] at h

end Sys2Proof.Machine
end

