-- ==== Sys2Proof/Proofs/Rejections.lean ====
section
/-! PROOFS. What is refused or rejected, and the elements that need no more of the stream: operations outside their
contracts (R134, R156, R304), the end of a block (R222), the tests of the length symbols (R223, R226), the literal code
length and the test on code-length symbols (R195, R199). -/

namespace Sys2Proof.Machine

/-! ## Operations outside their contracts -/

theorem getBits_tooWide {n : Nat} (s : State) (h : 16 < n) : getBits n s = .refused .getbitsTooWide := if_pos h

theorem getBitsBase_tooWide {n : Nat} (base : Nat) (s : State) (h : 16 < n) :
    getBitsBase n base s = .refused .getbitsTooWide := by
  rw [getBitsBase, if_neg (by omega), getBits_tooWide s h, Res.bind_refused]

theorem buildTree_refused (id : TreeId) {off num : Nat} {s : State} (h : buildContract s.lengths off num = false) :
    buildTree id off num s = .refused .buildTreeContract :=
  if_neg (Bool.eq_false_iff.1 h)

theorem exec_inflateBlockData (s : State) : exec .inflateBlockData s = (inflateBlockData s).finish := rfl

theorem inflateBlockData_refused {s : State} (h : s.ltree.built = false ∨ s.dtree.built = false) :
    inflateBlockData s = .refused .treesNotBuilt := by
  rw [inflateBlockData, if_neg]
  rw [Bool.and_eq_true]
  rintro ⟨hl, hd⟩
  rcases h with h | h
  · exact Bool.false_ne_true (h.symm.trans hl)
  · exact Bool.false_ne_true (h.symm.trans hd)

/-! ## The end of a block -/

theorem exec_eob (s : State) : exec .eob s = (eobElement s).finish := rfl

theorem eobElement_ok {s : State} (h : s.overflow = false) : eobElement s = .ok () { s with seq := .blockEnd } := by
  rw [eobElement, testOverflow_ok h, Res.bind_ok]

theorem eobElement_raised {s : State} (h : s.overflow = true) : eobElement s = .raised .overflowInBody s := by
  rw [eobElement, testOverflow_raised h, Res.bind_raised]

/-! ## Length symbols -/

/-- The rows of R98 in the encoder and in the tables of the length half. -/
theorem lenRows_row {i : Instr} {sym base bits : Nat} (h : (i, sym, base, bits) ∈ lenRows) :
    encode i = ⟨.ll, sym, [], []⟩ ∧ 257 ≤ sym ∧ sym ≤ 285 ∧ lengthBase.getD (sym - 257) 0 = base
      ∧ lengthBits.getD (sym - 257) 0 = bits ∧ bits ≤ 16 := by
  have hall : ∀ r ∈ lenRows, encode r.1 = ⟨.ll, r.2.1, [], []⟩ ∧ 257 ≤ r.2.1 ∧ r.2.1 ≤ 285
      ∧ lengthBase.getD (r.2.1 - 257) 0 = r.2.2.1 ∧ lengthBits.getD (r.2.1 - 257) 0 = r.2.2.2 ∧ r.2.2.2 ≤ 16 := by
    decide
  exact hall _ h

/-- A length symbol's instruction carries out the element of its symbol. -/
theorem exec_lenRow {i : Instr} {sym base bits : Nat} (h : (i, sym, base, bits) ∈ lenRows) (s : State) :
    exec i s = (lengthElement sym s).finish := by
  obtain ⟨henc, hlo, -⟩ := lenRows_row h
  have hlen : 256 < sym := by omega
  rw [exec_eq_element i s (by simp [henc]), henc]
  exact congrArg Res.finish (litLenElement_length hlen s)

theorem exec_rsvd286 (s : State) : exec .rsvd286 s = (lengthElement 286 s).finish := rfl

theorem exec_rsvd287 (s : State) : exec .rsvd287 s = (lengthElement 287 s).finish := rfl

/-- R230: the length half is its three tests, then the read. -/
theorem lengthHalf_cases (sym : Nat) (s : State) :
    (∃ c, c.status = .dataError ∧ lengthHalf sym s = .raised c s
        ∧ (s.ltree.maxSym < sym ∨ 28 < sym - 257 ∨ s.dtree.maxSym = -1))
      ∨ ((sym : Int) ≤ s.ltree.maxSym ∧ sym - 257 ≤ 28 ∧ s.dtree.maxSym ≠ -1
        ∧ lengthHalf sym s = (readLength sym s).bind fun length s => .ok () { s with matchLen := length }) := by
  unfold lengthHalf
  split
  · exact .inl ⟨.litlenSymRange, rfl, rfl, .inl ‹_›⟩
  · split
    · exact .inl ⟨.litlenSymReserved, rfl, rfl, .inr (.inl ‹_›)⟩
    · split
      · exact .inl ⟨.noDistanceCodes, rfl, rfl, .inr (.inr ‹_›)⟩
      · exact .inr ⟨Int.not_lt.1 ‹_›, Nat.not_lt.1 ‹_›, ‹_›, rfl⟩

/-- A failing test of a length symbol ends the run with TINF_DATA_ERROR, whichever of them it is. -/
theorem lengthElement_raises {sym : Nat} {s : State}
    (h : s.overflow = true ∨ s.ltree.maxSym < sym ∨ 28 < sym - 257 ∨ s.dtree.maxSym = -1) :
    Raises (lengthElement sym s).finish .dataError := by
  obtain ⟨-, ho⟩ | ⟨hfalse, ho⟩ := testOverflow_cases s
  · exact raises_finish (c := .overflowInBody) (by rw [lengthElement, ho, Res.bind_raised])
  · obtain ⟨c, hc, hraised, -⟩ | ⟨hsym, hrow, hdist, -⟩ := lengthHalf_cases sym s
    · exact hc ▸ raises_finish (by rw [lengthElement, ho, Res.bind_ok, hraised, Res.bind_raised])
    · rcases h with h | h | h | h
      · exact absurd (h.symm.trans hfalse) (by decide)
      · omega
      · omega
      · exact absurd h hdist

/-! ## Code-length symbols -/

theorem checkClSym_raised {sym : Nat} {s : State} (h : s.ltree.maxSym < sym) :
    checkClSym sym s = .raised .clsymRange s := if_pos h

theorem checkClSym_ok {sym : Nat} {s : State} (h : (sym : Int) ≤ s.ltree.maxSym) : checkClSym sym s = .ok () s :=
  if_neg (Int.not_lt.2 h)

theorem storeRun_ok {val rep : Nat} {s : State} (h : s.num + rep ≤ s.hlit + s.hdist) :
    storeRun val rep s = fillLengths rep val s := if_neg (Nat.not_lt.2 h)

theorem storeRun_raised {val rep : Nat} {s : State} (h : s.hlit + s.hdist < s.num + rep) :
    storeRun val rep s = .raised .repeatOvershoot s := if_pos h

/-- A literal code length is a run of one entry. -/
theorem clLiteral_ok {v : Nat} {s : State} (h : s.num < s.hlit + s.hdist) (hs : s.num < 320) :
    clLiteral v s = .ok () { s with lengths := s.lengths.setIfInBounds s.num v, num := s.num + 1 } := by
  rw [clLiteral, storeRun_ok h, fillLengths, writeLength_ok hs, Res.bind_ok, fillLengths]

theorem exec_cl (v : BitVec 4) (s : State) :
    exec (.cl v) s = ((checkClSym v.toNat s).bind fun _ s => clLiteral v.toNat s).finish := rfl

theorem exec_cl16 (s : State) : exec .cl16 s = ((checkClSym 16 s).bind fun _ s => clRepeatPrevious s).finish := rfl

/-- A code-length symbol above `max_sym` raises whatever it would do. -/
theorem checkClSym_bind_raises {sym : Nat} {s : State} (h : s.ltree.maxSym < sym) (f : Unit → State → Res Unit) :
    Raises ((checkClSym sym s).bind f).finish .dataError :=
  raises_finish (c := .clsymRange) (by rw [checkClSym_raised h, Res.bind_raised])

end Sys2Proof.Machine

namespace Sys2Proof

open Machine

/-- Settles O14: the width is tested before anything is read. -/
theorem wideGetbitsRefused : Obligations.WideGetbitsRefused := by
  refine fun s n base hn => ⟨?_, ?_⟩
  · rw [exec_getbits, getBits_tooWide s hn, Res.finishValue_refused]
  · rw [exec_getbitsBase, getBitsBase_tooWide base s hn, Res.finishValue_refused]

/-- Settles O18: each way out of the contract makes the test of R156 fail. -/
theorem buildTreeOutsideContractRefused : Obligations.BuildTreeOutsideContractRefused := by
  intro s id off num h
  have hcontract : buildContract s.lengths off num = false := by
    refine Bool.eq_false_iff.2 fun htrue => ?_
    obtain ⟨hnum, hslice, hle⟩ := buildContract_iff.1 htrue
    obtain h | h | ⟨l, hl, h⟩ := h
    · omega
    · omega
    · exact absurd (hle l hl) (Nat.not_le.2 h)
  rw [exec_buildTree, buildTree_refused id hcontract, Res.finish_refused]

/-- Settles O45: the marks of the two trees are tested on entry. -/
theorem unbuiltTreesRefused : Obligations.UnbuiltTreesRefused := by
  intro s h
  rw [exec_inflateBlockData, inflateBlockData_refused h, Res.finish_refused]

/-- Settles O32: EOB tests `overflow` and does nothing else. -/
theorem endOfBlockReturns : Obligations.EndOfBlockReturns := by
  refine ⟨Laws.RoundTrip.eob, by decide, fun s => ⟨fun ho => ?_, fun ho => ?_⟩⟩
  · rw [exec_eob, eobElement_ok ho, Res.finish_ok]
  · exact raises_finish (eobElement_raised ho)

/-- Settles O34, by the tests of the length half; symbols 286 and 287 fail the second one if not the first. -/
theorem lengthSymbolsRejected : Obligations.LengthSymbolsRejected := by
  refine ⟨fun i sym base bits hrow s h => ?_, fun s => ⟨?_, ?_⟩⟩
  · rw [exec_lenRow hrow]
    refine lengthElement_raises ?_
    rcases h with h | h | h
    · exact .inl h
    · exact .inr (.inl h)
    · exact .inr (.inr (.inr h))
  · rw [exec_rsvd286]
    exact lengthElement_raises (.inr (.inr (.inl (by decide))))
  · rw [exec_rsvd287]
    exact lengthElement_raises (.inr (.inr (.inl (by decide))))

/-- Settles O38: inside the counts and the scratch array a literal is one write. -/
theorem codeLengthLiteralIsStored : Obligations.CodeLengthLiteralIsStored := by
  intro s v hmax hroom hsize
  rw [exec_cl, checkClSym_ok hmax, Res.bind_ok, clLiteral_ok hroom hsize, Res.finish_ok]

/-- Settles O41: the test on `max_sym` comes first in every code-length symbol, and the sentinel does nothing else. -/
theorem valuesAboveMaxSymRejected : Obligations.ValuesAboveMaxSymRejected := by
  refine fun s => ⟨fun v h => ?_, fun h => ?_, fun h => ?_, fun h => ?_, ?_⟩
  · exact checkClSym_bind_raises h _
  · exact checkClSym_bind_raises h _
  · exact checkClSym_bind_raises h _
  · exact checkClSym_bind_raises h _
  · exact raises_finish (c := .clsymRange) rfl

/-- Settles O51: at reset nothing is held, written or reported. -/
theorem coreInvariantHoldsAtReset : Obligations.CoreInvariantHoldsAtReset where
  bitcountLe := by decide
  tagClean := by decide
  destLenEq := rfl
  srcLe := by decide
  exhausted h := by simp [State.reset] at h
  destLe := by decide
  bounded _ := by decide
  sourceWf := reset_memories_wf.1
  outWf := reset_memories_wf.2

end Sys2Proof
end

