-- ==== Sys2Proof/Proofs/Refill.lean ====
section
/-! PROOFS. REFILL from any state (40): which calls answer, and what they leave after how many turns of the loop (R130,
R134). -/

namespace Sys2Proof.Machine

theorem exec_refill (n : Nat) (s : State) : exec (.refill n) s = (refill n s).finish := rfl

/-- How many turns REFILL(n) takes. -/
def turns (n : Nat) (s : State) : Nat := (n - s.bitcount + 7) / 8

/-- The bits of `tag` after a byte has been put in at offset `c`. -/
theorem getLsbD_or_byte (tag : Tag) (b : Byte) {c : Nat} (hc : c + 8 ≤ 32) (i : Nat) :
    (tag ||| (b.setWidth 32 <<< c)).getLsbD i
      = (tag.getLsbD i || (decide (c ≤ i ∧ i < c + 8) && b.getLsbD (i - c))) := by
  rw [BitVec.getLsbD_or, BitVec.getLsbD_shiftLeft, BitVec.getLsbD_setWidth]
  by_cases hlo : c ≤ i
  · by_cases hhi : i < c + 8
    · simp [hlo, hhi, show i < 32 by omega, show ¬ i < c by omega, show i - c < 32 by omega]
    · simp [hhi, BitVec.getLsbD_of_ge b (i - c) (by omega)]
  · simp [hlo, show i < c by omega]

/-- A bit of a byte of the source is a bit of the stream (R9). -/
theorem streamBit_byte {s : State} {a j : Nat} {b : Byte} (ha : a < s.sourceLen) (hb : memRead s.source a = some b)
    (hj : j < 8) : streamBit s (8 * a + j) = b.getLsbD j := by
  simp only [streamBit, show 8 * a + j < 8 * s.sourceLen by omega, if_true, show (8 * a + j) / 8 = a by omega, hb,
    show (8 * a + j) % 8 = j by omega]

/-- The state after `j` turns of REFILL from `s`. -/
structure Turned (s : State) (j : Nat) (t : State) : Prop where
  frame : ReaderFrame s t
  bitcount : t.bitcount = s.bitcount + 8 * j
  src : t.src = min s.sourceLen (s.src + j)
  overflow : t.overflow = true ↔ s.overflow = true ∨ s.sourceLen - s.src < j
  tag : ∀ i, t.tag.getLsbD i
    = (s.tag.getLsbD i
        || (decide (s.bitcount ≤ i ∧ i < t.bitcount) && streamBit s (8 * s.src + (i - s.bitcount))))

theorem Turned.zero {s : State} (hs : s.src ≤ s.sourceLen) : Turned s 0 s where
  frame := ReaderFrame.refl s
  bitcount := rfl
  src := by omega
  overflow := by simp
  tag i := by simp [show ¬ (s.bitcount ≤ i ∧ i < s.bitcount) by omega]

/-- The bits that a turn adds: the turn's eight bits are the next ones of the stream. -/
theorem turned_tag {s : State} {j : Nat} {x y : Bool} {i c : Nat} (hc : c = s.bitcount + 8 * j)
    (hx : x = (y || (decide (s.bitcount ≤ i ∧ i < c) && streamBit s (8 * s.src + (i - s.bitcount))))) :
    (x || (decide (c ≤ i ∧ i < c + 8) && streamBit s (8 * (s.src + j) + (i - c))))
      = (y || (decide (s.bitcount ≤ i ∧ i < c + 8) && streamBit s (8 * s.src + (i - s.bitcount)))) := by
  subst hx
  by_cases hlo : c ≤ i
  · by_cases hhi : i < c + 8
    · simp [hlo, hhi, show ¬ i < c by omega, show s.bitcount ≤ i by omega,
        show 8 * (s.src + j) + (i - c) = 8 * s.src + (i - s.bitcount) by omega]
    · simp [hhi, show ¬ i < c by omega]
  · simp [hlo, show i < c by omega, show i < c + 8 by omega]

/-- One more turn: a byte of the source, or the eight zeros behind it. -/
theorem Turned.loadByte {s t u : State} {j : Nat} (h : Turned s j t) (hs : s.src ≤ s.sourceLen)
    (hw : t.bitcount + 8 ≤ 32) (hu : loadByte t = .ok () u) : Turned s (j + 1) u := by
  obtain ⟨hframe, -⟩ := loadByte_frame hu
  have hlen := h.frame.sourceLen
  have hsource := h.frame.source
  have hsrc := h.src
  have hcount := h.bitcount
  have hov := h.overflow
  obtain ⟨b, -, hlt, hb, rfl⟩ | ⟨hend, rfl⟩ := loadByte_cases hu
  · refine ⟨h.frame.trans hframe, by simp only; omega, by simp only; omega, ?_, fun i => ?_⟩
    · simp only
      rw [hov]
      exact or_congr_right (by omega)
    · rw [← turned_tag hcount (h.tag i), getLsbD_or_byte _ _ hw]
      by_cases hi : t.bitcount ≤ i ∧ i < t.bitcount + 8
      · rw [← streamBit_byte (s := s) (hlen ▸ hlt) (hsource ▸ hb) (show i - t.bitcount < 8 by omega),
          show t.src = s.src + j by omega]
      · simp [hi]
  · refine ⟨h.frame.trans hframe, by simp only; omega, by simp only; omega, ?_, fun i => ?_⟩
    · simp only [true_iff]
      omega
    · rw [← turned_tag hcount (h.tag i)]
      by_cases hi : t.bitcount ≤ i ∧ i < t.bitcount + 8
      · simp [streamBit_past s (show 8 * s.sourceLen ≤ 8 * (s.src + j) + (i - t.bitcount) by omega)]
      · simp [hi]

/-- From a readable source a turn of REFILL can always be taken. -/
theorem Turned.answers {s t : State} {j : Nat} (h : Turned s j t) (hr : SourceReadable s) :
    ∃ u, Machine.loadByte t = .ok () u := by
  have hlen := h.frame.sourceLen
  have hsrc := h.src
  refine loadByte_answers (fun a ha => ?_) (by omega)
  rw [h.frame.source]
  exact hr a (hlen ▸ ha)

/-- REFILL's loop answers after its turns when `tag` is wide enough for them. -/
theorem refillLoop_turned {s : State} {n : Nat} (hr : SourceReadable s) (hs : s.src ≤ s.sourceLen) :
    ∀ {k j : Nat} {t : State}, Turned s j t → turns n t ≤ k → n ≤ t.bitcount ∨ t.bitcount + 8 * turns n t ≤ 32 →
      ∃ u, refillLoop k n t = .ok () u ∧ Turned s (j + turns n t) u := by
  intro k
  induction k with
  | zero =>
    intro j t ht hk _
    have hn : ¬ t.bitcount < n := by
      unfold turns at hk
      omega
    exact ⟨t, if_neg hn, by rwa [Nat.le_zero.1 hk]⟩
  | succ k ih =>
    intro j t ht hk hw
    unfold refillLoop
    by_cases hn : t.bitcount < n
    · have hw8 : t.bitcount + 8 ≤ 32 := by
        unfold turns at hw
        omega
      obtain ⟨u, hu⟩ := ht.answers hr
      have hcount := loadByte_bitcount hu
      have hturns : turns n t = turns n u + 1 := by
        unfold turns
        omega
      obtain ⟨v, hv, hturned⟩ := ih (ht.loadByte hs hw8 hu) (by omega) (by omega)
      refine ⟨v, ?_, ?_⟩
      · rw [if_pos hn, if_neg (Nat.not_lt.2 hw8), hu, Res.bind_ok, hv]
      · rwa [hturns, Nat.add_comm (turns n u), ← Nat.add_assoc]
    · have hturns : turns n t = 0 := by
        unfold turns
        omega
      exact ⟨t, if_neg hn, by rwa [hturns]⟩

/-- REFILL's loop is refused when its turns would take `bitcount` above 32. -/
theorem refillLoop_refused {s : State} {n : Nat} (hr : SourceReadable s) (hs : s.src ≤ s.sourceLen) :
    ∀ {k j : Nat} {t : State}, Turned s j t → t.bitcount < n → 32 < t.bitcount + 8 * turns n t →
      refillLoop k n t = .refused .refillTooWide := by
  intro k
  induction k with
  | zero => exact fun _ hn _ => if_pos hn
  | succ k ih =>
    intro j t ht hn hw
    unfold refillLoop
    rw [if_pos hn]
    by_cases hw8 : 32 < t.bitcount + 8
    · rw [if_pos hw8]
    · obtain ⟨u, hu⟩ := ht.answers hr
      have hcount := loadByte_bitcount hu
      have hturns : turns n t = (n - t.bitcount + 7) / 8 := rfl
      have hturns' : turns n u = (n - u.bitcount + 7) / 8 := rfl
      rw [if_neg hw8, hu, Res.bind_ok]
      exact ih (ht.loadByte hs (Nat.not_lt.1 hw8) hu) (by omega) (by omega)

end Sys2Proof.Machine

namespace Sys2Proof

open Machine

/-- Settles O10, by the state after each turn of REFILL's loop. -/
theorem refillHoldsEnoughOrRefuses : Obligations.RefillHoldsEnoughOrRefuses := by
  refine fun s n hr hs => ⟨fun hn hw => ?_, fun hfits => ?_⟩
  · rw [exec_refill, refill, refillLoop_refused hr hs (Turned.zero hs) hn hw, Res.finish_refused]
  · obtain ⟨t, hrefill, ht⟩ := refillLoop_turned (n := n) (k := 4) hr hs (Turned.zero hs) (by unfold turns; omega) hfits
    rw [Nat.zero_add] at ht
    have hcount := ht.bitcount
    have hturns : turns n s = (n - s.bitcount + 7) / 8 := rfl
    refine ⟨t, by rw [exec_refill, refill, hrefill, Res.finish_ok], by omega, by omega, hcount, ht.tag, fun hle => ?_, ?_,
      ht.src, ht.frame⟩
    · have hnone : refillLoop 4 n s = .ok () s := if_neg (Nat.not_lt.2 hle)
      cases hnone.symm.trans hrefill
      rfl
    · rw [ht.overflow]
      exact or_congr_right (by omega)

end Sys2Proof
end

