-- ==== Sys2Proof/Proofs/Kraft.lean ====
section
/-! PROOFS. Which length sets the builder accepts (41, R150 steps 4 and 5, R152, R153): the feasibility walk computes the
Kraft sum of the set. -/

namespace Sys2Proof.Machine

/-! ## The feasibility walk -/

/-- The codes a list of counts uses up, in units of half a code after its last length. -/
def weight : List Nat → Nat
  | [] => 0
  | c :: cs => c * 2 ^ (cs.length + 1) + weight cs

/-- Step 4 of R150 in closed form: the walk fails exactly when the counts use up more codes than there are, and what it
leaves over are the unused ones. -/
theorem walk_eq (cs : List Nat) (max : Nat) :
    walk cs max
      = if weight cs ≤ max * 2 ^ cs.length then some (max * 2 ^ cs.length - weight cs) else none := by
  induction cs generalizing max with
  | nil => simp [walk, weight]
  | cons c cs ih =>
    have hpow : 0 < 2 ^ (cs.length + 1) := Nat.two_pow_pos _
    by_cases hlt : max < c
    · have hweight : ¬ weight (c :: cs) ≤ max * 2 ^ (cs.length + 1) := by
        have := Nat.mul_lt_mul_of_pos_right hlt hpow
        rw [weight]
        omega
      rw [walk, if_pos hlt, List.length_cons, if_neg hweight]
    · have hrest : 2 * (max - c) * 2 ^ cs.length = max * 2 ^ (cs.length + 1) - c * 2 ^ (cs.length + 1) := by
        rw [← Nat.sub_mul, Nat.pow_succ, Nat.mul_comm 2, Nat.mul_assoc, Nat.mul_comm 2]
      have hle := Nat.mul_le_mul_right (2 ^ (cs.length + 1)) (Nat.not_lt.1 hlt)
      rw [walk, if_neg hlt, ih, hrest, List.length_cons, weight]
      by_cases hfits : c * 2 ^ (cs.length + 1) + weight cs ≤ max * 2 ^ (cs.length + 1)
      · rw [if_pos (by omega), if_pos hfits]
        congr 1
        omega
      · rw [if_neg (by omega), if_neg hfits]

/-! ## Counting the code lengths -/

theorem toList_countLengths (lens : List Nat) :
    (countLengths lens).toList = 0 :: (List.range 15).map fun l => lens.count (l + 1) := rfl

theorem weight_countLengths (lens : List Nat) : weight (countLengths lens).toList = 2 * kraftSum lens := by
  rw [toList_countLengths, kraftSum]
  simp only [List.range, List.range.loop, weight, List.map_cons, List.map_nil, List.length_cons, List.length_nil,
    List.sum_cons, List.sum_nil, Nat.mul_add, Nat.mul_left_comm 2, Nat.reduceAdd, Nat.reduceSub, Nat.reducePow,
    Nat.reduceMul, Nat.zero_mul, Nat.zero_add, Nat.add_zero]

/-- A coded symbol is counted under its length, and under no other. -/
theorem sum_indicator {l : Nat} (h : l ≤ 15) :
    ((List.range 15).map fun k => if l == k + 1 then 1 else 0).sum = if 0 < l then 1 else 0 := by
  interval_cases l <;> rfl

/-- The counts add up to the number of coded symbols (R154 b). -/
theorem sum_countLengths {lens : List Nat} (h : ∀ l ∈ lens, l ≤ 15) :
    (countLengths lens).toList.sum = codedCount lens := by
  rw [toList_countLengths, List.sum_cons, Nat.zero_add, codedCount]
  induction lens with
  | nil => rfl
  | cons l ls ih =>
    have hrest := ih fun x hx => h x (List.mem_cons_of_mem l hx)
    simp only [List.count_cons, List.sum_map_add, List.countP_cons, hrest, sum_indicator (h l List.mem_cons_self),
      decide_eq_true_eq]

/-- Each coded symbol weighs at most half of the Kraft sum 1. -/
theorem kraftSum_le_of_codedCount {lens : List Nat} (h : ∀ l ∈ lens, l ≤ 15) :
    kraftSum lens ≤ codedCount lens * 2 ^ 14 := by
  rw [kraftSum, ← sum_countLengths h, toList_countLengths, List.sum_cons, Nat.zero_add, ← List.sum_map_mul_right]
  exact List.sum_le_sum fun l _ => Nat.mul_le_mul_left _ (Nat.pow_le_pow_right (by decide) (Nat.sub_le _ _))

/-! ## The builder's checks -/

/-- R150 step 4 on a length set: it passes exactly when the Kraft sum is at most 1. -/
theorem walk_countLengths (lens : List Nat) :
    walk (countLengths lens).toList 1
      = if kraftSum lens ≤ 2 ^ 15 then some (2 * (2 ^ 15 - kraftSum lens)) else none := by
  rw [walk_eq, weight_countLengths, Vector.length_toList, show 1 * 2 ^ 16 = 2 * 2 ^ 15 by decide, ← Nat.mul_sub]
  simp only [Nat.mul_le_mul_left_iff Nat.two_pos]

/-- The checks in terms of the number of coded symbols and the Kraft sum. -/
theorem buildCheck_eq_none_iff {lens : List Nat} (h : ∀ l ∈ lens, l ≤ 15) :
    buildCheck lens = none ↔
      kraftSum lens ≤ 2 ^ 15 ∧ (1 < codedCount lens → kraftSum lens = 2 ^ 15)
        ∧ (codedCount lens = 1 → lens.count 1 = 1) := by
  have hcount : entry (countLengths lens) 1 = lens.count 1 := entry_countLengths lens 1
  rw [buildCheck, walk_countLengths, sum_countLengths h, hcount]
  by_cases hk : kraftSum lens ≤ 2 ^ 15
  · simp only [if_pos hk]
    split
    · simp only [reduceCtorEq, false_iff]
      omega
    · split
      · simp only [reduceCtorEq, false_iff]
        omega
      · simp only [true_iff]
        omega
  · simp only [hk, if_false, reduceCtorEq, false_and]

end Sys2Proof.Machine

namespace Sys2Proof

open Machine

/-- Settles O15: the checks are a bound on the Kraft sum, which a set with at most one coded symbol keeps by itself. -/
theorem builderAcceptsExactlyCompleteCodes : Obligations.BuilderAcceptsExactlyCompleteCodes := by
  intro lens h
  have hones : lens.count 1 ≤ codedCount lens := List.countP_mono_left fun l _ hl => by simp_all
  rw [buildCheck_eq_none_iff h, ← List.count_pos_iff]
  refine ⟨fun ⟨_, hmany, hone⟩ => by omega, ?_⟩
  rintro (hzero | ⟨hcoded, hmem⟩ | ⟨hcoded, hkraft⟩)
  · have hk := kraftSum_le_of_codedCount h
    omega
  · have hk := kraftSum_le_of_codedCount h
    omega
  · omega

end Sys2Proof
end

