-- ==== Sys2Proof/Proofs/CanonicalOrder.lean ====
section
/-! PROOFS. The distribution sort of BUILD_TREE (41, R150 step 6): the place of a symbol in `trans` is its place in the
order by length and symbol, and the postconditions of a successful build follow (R152, R154). -/

namespace Sys2Proof.Machine

/-! ## Where the sort puts a symbol -/

/-- The place that the sort of step 6 finds for symbol `j` of a list, from the offsets per length. -/
def slot (ls : List Nat) (offs : Vector Nat 16) (j : Nat) : Nat :=
  entry offs (ls.getD j 0) + (ls.take j).count (ls.getD j 0)

theorem slot_uncoded_cons (ls : List Nat) (offs : Vector Nat 16) {j : Nat} (h : 0 < ls.getD j 0) :
    slot (0 :: ls) offs (j + 1) = slot ls offs j := by
  simp only [slot, List.getD_cons_succ, List.take_succ_cons, List.count_cons_of_ne h.ne]

theorem slot_coded_cons (ls : List Nat) (offs : Vector Nat 16) {l : Nat} (hl : l ≤ 15) (j : Nat) :
    slot (l :: ls) offs (j + 1) = slot ls (offs.setIfInBounds l (entry offs l + 1)) j := by
  simp only [slot, List.getD_cons_succ, List.take_succ_cons, List.count_cons, entry_setIfInBounds]
  generalize ls.getD j 0 = x
  by_cases h : l = x
  · subst h
    simp [show l < 16 by omega, Nat.add_assoc, Nat.add_comm 1]
  · simp [h]

/-- R150 step 6: a coded symbol goes to its place, and every other entry of `trans` stays as it was. -/
theorem distribute_spec {ls : List Nat} {i : Nat} {offs : Vector Nat 16} {tr : Vector Nat 288}
    (hle : ∀ l ∈ ls, l ≤ 15) (hsize : ∀ j, 0 < ls.getD j 0 → slot ls offs j < 288)
    (hinj : ∀ j k, 0 < ls.getD j 0 → 0 < ls.getD k 0 → slot ls offs j = slot ls offs k → j = k) :
    (∀ j, 0 < ls.getD j 0 → entry (distribute ls i offs tr) (slot ls offs j) = i + j)
      ∧ ∀ k, (∀ j, 0 < ls.getD j 0 → slot ls offs j ≠ k) → entry (distribute ls i offs tr) k = entry tr k := by
  induction ls generalizing i offs tr with
  | nil => exact ⟨fun j hj => absurd hj (by simp), fun _ _ => rfl⟩
  | cons l ls ih =>
    obtain ⟨hl, hls⟩ := List.forall_mem_cons.1 hle
    by_cases h0 : l = 0
    · subst h0
      obtain ⟨hput, hrest⟩ := ih (i := i + 1) (offs := offs) (tr := tr) hls
        (fun j hj => slot_uncoded_cons ls offs hj ▸ hsize (j + 1) hj)
        (fun j k hj hk h => Nat.succ_injective (hinj (j + 1) (k + 1) hj hk
          (by rw [slot_uncoded_cons ls offs hj, slot_uncoded_cons ls offs hk, h])))
      rw [distribute, if_pos rfl]
      refine ⟨fun j hj => ?_, fun k hk => ?_⟩
      · cases j with
        | zero => exact absurd hj (by simp)
        | succ j => rw [slot_uncoded_cons ls offs hj, hput j hj, Nat.add_assoc, Nat.add_comm 1]
      · exact hrest k fun j hj => slot_uncoded_cons ls offs hj ▸ hk (j + 1) hj
    · have hhead : 0 < (l :: ls).getD 0 0 := Nat.pos_of_ne_zero h0
      have hslot0 : slot (l :: ls) offs 0 = entry offs l := rfl
      obtain ⟨hput, hrest⟩ := ih (i := i + 1) (offs := offs.setIfInBounds l (entry offs l + 1))
        (tr := tr.setIfInBounds (entry offs l) i) hls
        (fun j hj => slot_coded_cons ls offs hl j ▸ hsize (j + 1) hj)
        (fun j k hj hk h => Nat.succ_injective (hinj (j + 1) (k + 1) hj hk
          (by rw [slot_coded_cons ls offs hl, slot_coded_cons ls offs hl, h])))
      rw [distribute, if_neg h0]
      refine ⟨fun j hj => ?_, fun k hk => ?_⟩
      · cases j with
        | zero =>
          rw [hslot0, hrest, entry_setIfInBounds, if_pos ⟨rfl, hsize 0 hhead⟩, Nat.add_zero]
          intro j hj heq
          exact Nat.succ_ne_zero j (hinj (j + 1) 0 hj hhead (by rw [slot_coded_cons ls offs hl, heq, hslot0]))
        | succ j => rw [slot_coded_cons ls offs hl, hput j hj, Nat.add_assoc, Nat.add_comm 1]
      · rw [hrest k fun j hj => slot_coded_cons ls offs hl j ▸ hk (j + 1) hj, entry_setIfInBounds,
          if_neg fun h => hk 0 hhead (hslot0.trans h.1)]

/-! ## The order by length and symbol -/

/-- How many symbols have a code shorter than `l` (`offs[l]` of R150 step 4). -/
def shorter (lens : List Nat) (l : Nat) : Nat := ((countLengths lens).toList.take l).sum

/-- The place of a coded symbol in the order by length and symbol. -/
def place (lens : List Nat) (i : Nat) : Nat := shorter lens (lens.getD i 0) + (lens.take i).count (lens.getD i 0)

section
variable {lens : List Nat}

theorem getD_le (h : ∀ l ∈ lens, l ≤ 15) (i : Nat) : lens.getD i 0 ≤ 15 := by
  rw [List.getD_eq_getElem?_getD]
  cases hi : lens[i]? with
  | none => simp
  | some l => exact h l (List.mem_of_getElem? hi)

theorem lt_length_of_coded {i : Nat} (h : 0 < lens.getD i 0) : i < lens.length := by
  by_contra hge
  rw [List.getD_eq_default _ _ (Nat.not_lt.1 hge)] at h
  exact Nat.lt_irrefl 0 h

theorem slot_offsets (h : ∀ l ∈ lens, l ≤ 15) (i : Nat) : slot lens (offsets (countLengths lens)) i = place lens i := by
  have hlt : lens.getD i 0 < 16 := Nat.lt_succ_of_le (getD_le h i)
  rw [slot, offsets, entry_ofFn, dif_pos hlt, place, shorter]

theorem shorter_succ {l : Nat} (h1 : 1 ≤ l) (h15 : l ≤ 15) : shorter lens (l + 1) = shorter lens l + lens.count l := by
  have hlen : l < (countLengths lens).toList.length := by simp; omega
  have hget : (countLengths lens).toList[l] = lens.count l := by
    simp [countLengths, show l ≠ 0 by omega]
  rw [shorter, List.sum_take_succ _ _ hlen, hget, shorter]

theorem shorter_zero : shorter lens 0 = 0 := by rw [shorter, List.take_zero, List.sum_nil]

theorem shorter_one : shorter lens 1 = 0 := by
  rw [shorter, toList_countLengths, List.take_succ_cons, List.take_zero, List.sum_singleton]

theorem shorter_mono {l m : Nat} (h : l ≤ m) : shorter lens l ≤ shorter lens m :=
  (List.take_sublist_take_left h).sum_le_sum fun _ _ => Nat.zero_le _

theorem shorter_sixteen (h : ∀ l ∈ lens, l ≤ 15) : shorter lens 16 = codedCount lens := by
  rw [← sum_countLengths h, shorter, List.take_of_length_le (by simp)]

/-- Before its own position a list holds its element fewer times than in all. -/
theorem count_take_lt {i : Nat} (h : i < lens.length) : (lens.take i).count lens[i] < lens.count lens[i] := by
  have hsub : (lens.take (i + 1)).count lens[i] ≤ lens.count lens[i] := (List.take_sublist _ _).count_le _
  rw [List.take_succ_eq_append_getElem h, List.count_append, List.count_singleton_self] at hsub
  omega

theorem count_take_getD_lt {i : Nat} (h : 0 < lens.getD i 0) :
    (lens.take i).count (lens.getD i 0) < lens.count (lens.getD i 0) := by
  have hi := lt_length_of_coded h
  rw [List.getD_eq_getElem _ _ hi]
  exact count_take_lt hi

/-- The places of the symbols of one length lie between those of the shorter and those of the longer codes. -/
theorem place_lt_shorter_succ (hle : ∀ l ∈ lens, l ≤ 15) {i : Nat} (h : 0 < lens.getD i 0) :
    place lens i < shorter lens (lens.getD i 0 + 1) := by
  rw [shorter_succ h (getD_le hle i), place]
  have := count_take_getD_lt h
  omega

theorem place_lt_codedCount (hle : ∀ l ∈ lens, l ≤ 15) {i : Nat} (h : 0 < lens.getD i 0) :
    place lens i < codedCount lens := by
  have hlen := getD_le hle i
  calc place lens i < shorter lens (lens.getD i 0 + 1) := place_lt_shorter_succ hle h
    _ ≤ shorter lens 16 := shorter_mono (by omega)
    _ = codedCount lens := shorter_sixteen hle

theorem place_lt_of_shorter (hle : ∀ l ∈ lens, l ≤ 15) {i j : Nat} (hi : 0 < lens.getD i 0)
    (h : lens.getD i 0 < lens.getD j 0) : place lens i < place lens j :=
  calc place lens i < shorter lens (lens.getD i 0 + 1) := place_lt_shorter_succ hle hi
    _ ≤ shorter lens (lens.getD j 0) := shorter_mono h
    _ ≤ place lens j := Nat.le_add_right _ _

theorem place_lt_of_index {i j : Nat} (hi : 0 < lens.getD i 0) (h : lens.getD i 0 = lens.getD j 0) (hij : i < j) :
    place lens i < place lens j := by
  have hlt := lt_length_of_coded hi
  have hcount : (lens.take i).count lens[i] < (lens.take j).count lens[i] := by
    have hi' : i < (lens.take j).length := by rw [List.length_take]; omega
    have := count_take_lt hi'
    rwa [List.getElem_take, List.take_take, Nat.min_eq_left hij.le] at this
  rw [place, place, ← h, List.getD_eq_getElem _ _ hlt]
  omega

/-- The order of the places is the order by length and symbol. -/
theorem lex_of_place_lt (hle : ∀ l ∈ lens, l ≤ 15) {i j : Nat} (hj : 0 < lens.getD j 0)
    (h : place lens i < place lens j) :
    lens.getD i 0 < lens.getD j 0 ∨ (lens.getD i 0 = lens.getD j 0 ∧ i < j) := by
  rcases Nat.lt_trichotomy (lens.getD i 0) (lens.getD j 0) with hlt | heq | hgt
  · exact .inl hlt
  · refine .inr ⟨heq, ?_⟩
    rcases Nat.lt_trichotomy i j with hij | rfl | hji
    · exact hij
    · exact absurd h (Nat.lt_irrefl _)
    · exact absurd (place_lt_of_index hj heq.symm hji) (Nat.lt_asymm h)
  · exact absurd (place_lt_of_shorter hle hj hgt) (Nat.lt_asymm h)

theorem place_injective (hle : ∀ l ∈ lens, l ≤ 15) {i j : Nat} (hi : 0 < lens.getD i 0) (hj : 0 < lens.getD j 0)
    (h : place lens i = place lens j) : i = j := by
  rcases Nat.lt_trichotomy (lens.getD i 0) (lens.getD j 0) with hlt | heq | hgt
  · exact absurd h (place_lt_of_shorter hle hi hlt).ne
  · rcases Nat.lt_trichotomy i j with hij | rfl | hji
    · exact absurd h (place_lt_of_index hi heq hij).ne
    · rfl
    · exact absurd h (place_lt_of_index hj heq.symm hji).ne'
  · exact absurd h (place_lt_of_shorter hle hj hgt).ne'

/-- The `r`-th occurrence of an element. -/
theorem exists_occurrence {l r : Nat} (h : r < lens.count l) :
    ∃ i, ∃ hi : i < lens.length, lens[i] = l ∧ (lens.take i).count l = r := by
  induction lens generalizing r with
  | nil => simp at h
  | cons x xs ih =>
    by_cases hx : x = l
    · subst hx
      cases r with
      | zero => exact ⟨0, by simp, rfl, by simp⟩
      | succ r =>
        rw [List.count_cons_self] at h
        obtain ⟨i, hi, hget, hcount⟩ := ih (Nat.lt_of_succ_lt_succ h)
        exact ⟨i + 1, by simpa using hi, by simpa using hget, by simp [hcount]⟩
    · rw [List.count_cons_of_ne hx] at h
      obtain ⟨i, hi, hget, hcount⟩ := ih h
      exact ⟨i + 1, by simpa using hi, by simpa using hget, by simp [hx, hcount]⟩

/-- Every place below the number of coded symbols is taken. -/
theorem exists_place (hle : ∀ l ∈ lens, l ≤ 15) {k : Nat} (h : k < codedCount lens) :
    ∃ i, 0 < lens.getD i 0 ∧ place lens i = k := by
  have hlen : ∀ m, m ≤ 16 → k < shorter lens m → ∃ l, 1 ≤ l ∧ l ≤ 15 ∧ shorter lens l ≤ k ∧ k < shorter lens (l + 1) := by
    intro m
    induction m with
    | zero =>
      intro _ hk
      rw [shorter_zero] at hk
      exact absurd hk (Nat.not_lt_zero k)
    | succ m ih =>
      intro hm hk
      by_cases hlow : k < shorter lens m
      · exact ih (by omega) hlow
      · refine ⟨m, ?_, by omega, Nat.not_lt.1 hlow, hk⟩
        refine Nat.pos_of_ne_zero fun h0 => hlow ?_
        rw [h0, Nat.zero_add, shorter_one] at hk
        exact absurd hk (Nat.not_lt_zero k)
  obtain ⟨l, h1, h15, hlo, hhi⟩ := hlen 16 (Nat.le_refl _) (by rwa [shorter_sixteen hle])
  rw [shorter_succ h1 h15] at hhi
  obtain ⟨i, hi, hget, hcount⟩ := exists_occurrence (lens := lens) (l := l) (r := k - shorter lens l) (by omega)
  have hgetD : lens.getD i 0 = l := by rw [List.getD_eq_getElem _ _ hi, hget]
  exact ⟨i, by omega, by rw [place, hgetD, hcount]; omega⟩

end

/-! ## The finished tree -/

theorem toList_eq_map_entry {n : Nat} (v : Vector Nat n) : v.toList = (List.range n).map (entry v) := by
  refine List.ext_getElem (by simp) fun i hi _ => ?_
  have hlt : i < n := by simpa using hi
  simp [entry, hlt]

section
variable {lens : List Nat}

theorem codedCount_le_length (lens : List Nat) : codedCount lens ≤ lens.length := List.countP_le_length

theorem codedCount_pos_iff : 0 < codedCount lens ↔ ∃ i, 0 < lens.getD i 0 := by
  rw [codedCount, List.countP_pos_iff]
  constructor
  · rintro ⟨l, hl, hpos⟩
    obtain ⟨i, hi, rfl⟩ := List.getElem_of_mem hl
    exact ⟨i, by rw [List.getD_eq_getElem _ _ hi]; exact of_decide_eq_true hpos⟩
  · rintro ⟨i, hi⟩
    have hlt := lt_length_of_coded hi
    exact ⟨lens[i], List.getElem_mem hlt, decide_eq_true (by rwa [List.getD_eq_getElem _ _ hlt] at hi)⟩

/-- The sort of step 6 on a length set: each coded symbol stands at its place, and the entries past the coded symbols
are the old ones. -/
theorem distribute_place (hle : ∀ l ∈ lens, l ≤ 15) (hsize : lens.length ≤ 288) (tr : Vector Nat 288) :
    (∀ i, 0 < lens.getD i 0 → entry (distribute lens 0 (offsets (countLengths lens)) tr) (place lens i) = i)
      ∧ ∀ k, codedCount lens ≤ k → entry (distribute lens 0 (offsets (countLengths lens)) tr) k = entry tr k := by
  have hplace : ∀ i, slot lens (offsets (countLengths lens)) i = place lens i := slot_offsets hle
  have hcount := codedCount_le_length lens
  obtain ⟨hput, hrest⟩ := distribute_spec (ls := lens) (i := 0) (offs := offsets (countLengths lens)) (tr := tr) hle
    (fun j hj => by rw [hplace]; have := place_lt_codedCount hle hj; omega)
    (fun j k hj hk h => place_injective hle hj hk (by rwa [hplace, hplace] at h))
  refine ⟨fun i hi => by rw [← hplace, hput i hi, Nat.zero_add], fun k hk => hrest k fun j hj h => ?_⟩
  have := place_lt_codedCount hle hj
  rw [hplace] at h
  omega

/-- R152: the one coded symbol of a single-code set has the length 1, and every other count is 0. -/
theorem count_of_single (hle : ∀ l ∈ lens, l ≤ 15) (hcheck : buildCheck lens = none) (hone : codedCount lens = 1) :
    lens.count 1 = 1 ∧ ∀ i, 0 < lens.getD i 0 → lens.getD i 0 = 1 ∧ place lens i = 0 := by
  have hcount := ((buildCheck_eq_none_iff hle).1 hcheck).2.2 hone
  refine ⟨hcount, fun i hi => ?_⟩
  have hplace : place lens i = 0 := by
    have := place_lt_codedCount hle hi
    omega
  obtain ⟨j, hj, hget, -⟩ := exists_occurrence (lens := lens) (l := 1) (r := 0) (by omega)
  have hgetD : lens.getD j 0 = 1 := by rw [List.getD_eq_getElem _ _ hj, hget]
  have hplace' := place_lt_codedCount hle (i := j) (by omega)
  rw [place_injective hle hi (j := j) (by omega) (by omega)]
  exact ⟨hgetD, by omega⟩

theorem finishedTree_of_many (hle : ∀ l ∈ lens, l ≤ 15) (h : codedCount lens ≠ 1) (old : Tree) :
    (finishedTree lens old).table = countLengths lens
      ∧ (finishedTree lens old).trans = distribute lens 0 (offsets (countLengths lens)) old.trans := by
  rw [finishedTree, sum_countLengths hle, if_neg h]
  exact ⟨rfl, rfl⟩

theorem finishedTree_of_single (hle : ∀ l ∈ lens, l ≤ 15) (h : codedCount lens = 1) (old : Tree) :
    (finishedTree lens old).table = (countLengths lens).setIfInBounds 1 2
      ∧ (finishedTree lens old).trans
        = (distribute lens 0 (offsets (countLengths lens)) old.trans).setIfInBounds 1
            (lastCoded lens 0 (-1) + 1).toNat := by
  rw [finishedTree, sum_countLengths hle, if_pos h]
  exact ⟨rfl, rfl⟩

/-- R154 a: the counts per length, with the exception of a single-code tree. -/
theorem entry_finishedTree_table (hle : ∀ l ∈ lens, l ≤ 15) (old : Tree) (l : Nat) :
    entry (finishedTree lens old).table l
      = if codedCount lens = 1 ∧ l = 1 then 2 else entry (countLengths lens) l := by
  by_cases hone : codedCount lens = 1
  · rw [(finishedTree_of_single hle hone old).1, entry_setIfInBounds]
    by_cases hl : l = 1
    · simp [hone, hl]
    · simp [hl, Ne.symm hl]
  · rw [(finishedTree_of_many hle hone old).1, if_neg fun h => hone h.1]

/-- The counts of a single-code tree (R152). -/
theorem entry_finishedTree_table_of_single (hle : ∀ l ∈ lens, l ≤ 15) (hcheck : buildCheck lens = none)
    (hone : codedCount lens = 1) (old : Tree) (l : Nat) :
    entry (finishedTree lens old).table l = if l = 1 then 2 else 0 := by
  rw [entry_finishedTree_table hle, entry_countLengths]
  by_cases hl : l = 1
  · rw [if_pos ⟨hone, hl⟩, if_pos hl]
  · rw [if_neg fun h => hl h.2, if_neg hl]
    split
    · rfl
    · refine List.count_eq_zero.2 fun hmem => hl ?_
      obtain ⟨i, hi, rfl⟩ := List.getElem_of_mem hmem
      rw [← List.getD_eq_getElem _ 0 hi] at *
      exact ((count_of_single hle hcheck hone).2 i (by omega)).1

/-- R154 b: how many entries of `trans` are meaningful. -/
theorem sum_finishedTree_table (hle : ∀ l ∈ lens, l ≤ 15) (hcheck : buildCheck lens = none) (old : Tree) :
    (finishedTree lens old).table.toList.sum = if codedCount lens = 1 then 2 else codedCount lens := by
  by_cases hone : codedCount lens = 1
  · rw [if_pos hone, toList_eq_map_entry, funext (entry_finishedTree_table_of_single hle hcheck hone old)]
    rfl
  · rw [(finishedTree_of_many hle hone old).1, sum_countLengths hle, if_neg hone]

/-- R154 c: a coded symbol stands at its place. -/
theorem entry_finishedTree_trans (hle : ∀ l ∈ lens, l ≤ 15) (hsize : lens.length ≤ 288) (hcheck : buildCheck lens = none)
    (old : Tree) {i : Nat} (hi : 0 < lens.getD i 0) : entry (finishedTree lens old).trans (place lens i) = i := by
  have hput := (distribute_place hle hsize old.trans).1 i hi
  by_cases hone : codedCount lens = 1
  · have hplace := ((count_of_single hle hcheck hone).2 i hi).2
    rw [(finishedTree_of_single hle hone old).2, entry_setIfInBounds, if_neg (by omega), hput]
  · rw [(finishedTree_of_many hle hone old).2, hput]

/-- R154 h: the entries of `trans` behind the meaningful ones are the old ones. -/
theorem entry_finishedTree_trans_past (hle : ∀ l ∈ lens, l ≤ 15) (hsize : lens.length ≤ 288)
    (hcheck : buildCheck lens = none) (old : Tree) {k : Nat} (hk : (finishedTree lens old).table.toList.sum ≤ k) :
    entry (finishedTree lens old).trans k = entry old.trans k := by
  rw [sum_finishedTree_table hle hcheck] at hk
  by_cases hone : codedCount lens = 1
  · rw [if_pos hone] at hk
    rw [(finishedTree_of_single hle hone old).2, entry_setIfInBounds, if_neg (by omega),
      (distribute_place hle hsize old.trans).2 k (by omega)]
  · rw [if_neg hone] at hk
    rw [(finishedTree_of_many hle hone old).2, (distribute_place hle hsize old.trans).2 k hk]

/-- The last coded symbol is the largest one. -/
theorem lastCoded_of_coded (h : 0 < codedCount lens) :
    ∃ m, m < lens.length ∧ lastCoded lens 0 (-1) = ↑m ∧ 0 < lens.getD m 0 ∧ ∀ j, m < j → lens.getD j 0 = 0 := by
  obtain ⟨hzero, -⟩ | hlast := lastCoded_cases lens 0 (-1)
  · obtain ⟨i, hi⟩ := codedCount_pos_iff.1 h
    exact absurd (getD_of_uncoded hzero i) hi.ne'
  · simpa only [Nat.zero_add] using hlast

theorem lastCoded_of_empty (h : codedCount lens = 0) : lastCoded lens 0 (-1) = -1 := by
  obtain ⟨-, hlast⟩ | ⟨m, -, -, hm, -⟩ := lastCoded_cases lens 0 (-1)
  · exact hlast
  · exact absurd (codedCount_pos_iff.2 ⟨m, hm⟩) (by omega)

/-- R152: the two entries of a single-code tree, its symbol and the sentinel behind it. -/
theorem finishedTree_trans_of_single (hle : ∀ l ∈ lens, l ≤ 15) (hsize : lens.length ≤ 288)
    (hcheck : buildCheck lens = none) (hone : codedCount lens = 1) (old : Tree) :
    ∃ m, m < lens.length ∧ 0 < lens.getD m 0 ∧ lastCoded lens 0 (-1) = ↑m
      ∧ entry (finishedTree lens old).trans 0 = m ∧ entry (finishedTree lens old).trans 1 = m + 1 := by
  obtain ⟨m, hm, hlast, hpos, -⟩ := lastCoded_of_coded (lens := lens) (by omega)
  have hplace := ((count_of_single hle hcheck hone).2 m hpos).2
  refine ⟨m, hm, hpos, hlast, ?_, ?_⟩
  · rw [← hplace, entry_finishedTree_trans hle hsize hcheck old hpos]
  · rw [(finishedTree_of_single hle hone old).2, entry_setIfInBounds, if_pos ⟨rfl, by decide⟩, hlast]
    omega

/-- R154 f: the Kraft equality of a tree with a code. -/
theorem kraftEq_finishedTree (hle : ∀ l ∈ lens, l ≤ 15) (hcheck : buildCheck lens = none) (old : Tree)
    (hpos : 0 < codedCount lens) : KraftEq (finishedTree lens old) := by
  refine ⟨by rw [entry_finishedTree_table hle, entry_countLengths]; simp, ?_⟩
  by_cases hone : codedCount lens = 1
  · rw [funext (entry_finishedTree_table_of_single hle hcheck hone old)]
    rfl
  · have hkraft := ((buildCheck_eq_none_iff hle).1 hcheck).2.1 (by omega)
    rw [(finishedTree_of_many hle hone old).1, List.range_succ_eq_map, List.map_cons, List.sum_cons, List.map_map,
      entry_countLengths, if_pos (.inl rfl), Nat.zero_mul, Nat.zero_add, ← hkraft, kraftSum]
    refine congrArg List.sum (List.map_congr_left fun l hl => ?_)
    have hlt : l < 15 := List.mem_range.1 hl
    rw [Function.comp_apply, entry_countLengths, if_neg (by omega), Nat.succ_eq_add_one,
      show 15 - (l + 1) = 14 - l by omega]

end

end Sys2Proof.Machine
end

