-- ==== Sys2Proof/Proofs/BuiltTrees.lean ====
section
/-! PROOFS. A successful BUILD_TREE (41): its postconditions (R154), and that a tree with a code is usable (R36 I5,
R172). -/

namespace Sys2Proof.Machine

section
variable {lens : List Nat}

/-- The meaningful entries of a tree with two or more codes are the coded symbols, in the order by length and symbol. -/
theorem finishedTree_trans_of_many (hle : ∀ l ∈ lens, l ≤ 15) (hsize : lens.length ≤ 288)
    (hcheck : buildCheck lens = none) (old : Tree) {k : Nat} (hk : k < codedCount lens) :
    0 < lens.getD (entry (finishedTree lens old).trans k) 0 ∧ place lens (entry (finishedTree lens old).trans k) = k := by
  obtain ⟨i, hi, rfl⟩ := exists_place hle hk
  rw [entry_finishedTree_trans hle hsize hcheck old hi]
  exact ⟨hi, rfl⟩

/-- Every entry of `trans` that is meaningful lies below any bound that leaves room for the sentinel. -/
theorem transBelow_finishedTree (hle : ∀ l ∈ lens, l ≤ 15) (hsize : lens.length ≤ 288) (hcheck : buildCheck lens = none)
    (old : Tree) {n : Nat} (hn : lens.length < n) : TransBelow (finishedTree lens old) n := by
  intro k hk
  rw [sum_finishedTree_table hle hcheck] at hk
  by_cases hone : codedCount lens = 1
  · rw [if_pos hone] at hk
    obtain ⟨m, hm, -, -, h0, h1⟩ := finishedTree_trans_of_single hle hsize hcheck hone old
    obtain rfl | rfl : k = 0 ∨ k = 1 := by omega
    · omega
    · omega
  · rw [if_neg hone] at hk
    have := lt_length_of_coded (finishedTree_trans_of_many hle hsize hcheck old hk).1
    omega

/-- What the builder makes of a length set with a code can be decoded from. -/
theorem treeOk_finishedTree (hle : ∀ l ∈ lens, l ≤ 15) (hcheck : buildCheck lens = none) (hpos : 0 < codedCount lens)
    (old : Tree) {n : Nat} (hn : lens.length < n) (hsize : lens.length ≤ 288) : TreeOk n (finishedTree lens old) where
  kraft := kraftEq_finishedTree hle hcheck old hpos
  size := by
    have := codedCount_le_length lens
    rw [sum_finishedTree_table hle hcheck]
    split <;> omega
  below := transBelow_finishedTree hle hsize hcheck old hn
  built := finishedTree_built lens old

end

/-! ## The operation -/

section
variable {s : State} {off num : Nat}

theorem slice_le (h : buildContract s.lengths off num = true) : ∀ l ∈ slice s off num, l ≤ 15 :=
  (buildContract_iff.1 h).2.2

theorem length_slice (h : off + num ≤ 320) : (slice s off num).length = num := by
  simp [slice]
  omega

theorem buildTree_ok (id : TreeId) (hcontract : buildContract s.lengths off num = true)
    (hcheck : buildCheck (slice s off num) = none) :
    buildTree id off num s = .ok () (setTree id (finishedTree (slice s off num) (getTree id s)) s) := by
  obtain ⟨hout, -⟩ | ⟨-, c, hc, -⟩ | ⟨-, -, hok⟩ := buildTree_cases id off num s
  · exact absurd (hcontract.symm.trans hout) (by decide)
  · exact absurd (hcheck.symm.trans hc) (by simp)
  · exact hok

theorem buildTree_raised (id : TreeId) {c : Cause} (hcontract : buildContract s.lengths off num = true)
    (hcheck : buildCheck (slice s off num) = some c) :
    buildTree id off num s = .raised c (setTree id (countedTree (slice s off num) (getTree id s)) s) := by
  obtain ⟨hout, -⟩ | ⟨-, c', hc, hraised⟩ | ⟨-, hnone, -⟩ := buildTree_cases id off num s
  · exact absurd (hcontract.symm.trans hout) (by decide)
  · cases hcheck.symm.trans hc
    exact hraised
  · exact absurd (hcheck.symm.trans hnone) (by simp)

end

end Sys2Proof.Machine

namespace Sys2Proof

open Machine

/-- Settles O16: the finished tree meets R154 a to h, from where the sort puts each symbol. -/
theorem buildTreePostconditions : Obligations.BuildTreePostconditions := by
  intro s id off num hcontract hcheck
  have hle := slice_le hcontract
  obtain ⟨hnum, hin, -⟩ := buildContract_iff.1 hcontract
  have hlen : (slice s off num).length = num := length_slice hin
  have hsize : (slice s off num).length ≤ 288 := hlen.le.trans hnum
  have hsum := sum_finishedTree_table hle hcheck (getTree id s)
  have htable := entry_finishedTree_table hle (getTree id s)
  refine ⟨_, by rw [exec_buildTree, buildTree_ok id hcontract hcheck, Res.finish_ok], by simp, ?_⟩
  rw [getTree_setTree]
  refine ⟨finishedTree_built _ _, ?_, fun l hlo hhi => ?_, hsum, fun hmany k hk => ?_, fun hmany j k hjk hk => ?_,
    fun hone => ?_, fun hzero => ?_, fun hpos => ?_, fun htwo => ?_,
    fun k hk => entry_finishedTree_trans_past hle hsize hcheck _ hk, setTree_lengths _ _ _⟩
  · rw [htable, entry_countLengths]
    simp
  · rw [htable, entry_countLengths, if_neg (show ¬ (l = 0 ∨ 16 ≤ l) by omega)]
  · have hcoded := (finishedTree_trans_of_many hle hsize hcheck (getTree id s) hk).1
    exact ⟨(lt_length_of_coded hcoded).trans_eq hlen, hcoded⟩
  · obtain ⟨-, hj⟩ := finishedTree_trans_of_many hle hsize hcheck (getTree id s) (hjk.trans hk)
    obtain ⟨hcoded, hk⟩ := finishedTree_trans_of_many hle hsize hcheck (getTree id s) hk
    exact lex_of_place_lt hle hcoded (by rwa [hj, hk])
  · obtain ⟨m, hm, hcoded, hlast, h0, h1⟩ := finishedTree_trans_of_single hle hsize hcheck hone (getTree id s)
    rw [h0, h1, finishedTree_maxSym]
    exact ⟨hm.trans_eq hlen, hcoded, hlast, rfl⟩
  · rw [finishedTree_maxSym, lastCoded_of_empty hzero]
  · obtain ⟨m, hm, hlast, hcoded, habove⟩ := lastCoded_of_coded hpos
    exact ⟨m, hm.trans_eq hlen, by rw [finishedTree_maxSym, hlast], hcoded, habove⟩
  · refine kraftEq_finishedTree hle hcheck _ ?_
    rw [hsum] at htwo
    split at htwo <;> omega

end Sys2Proof
end

