-- ==== Sys2Proof/Proofs/SymbolDecoder.lean ====
section
/-! PROOFS. DECODE_SYMBOL (42): it inverts the canonical code (R171), it ends on every bit sequence of a tree with the
Kraft equality (R172), and it is refused on a tree without codes (R173). -/

namespace Sys2Proof.Machine

theorem exec_decodeSymbol (id : TreeId) (s : State) : exec (.decodeSymbol id) s = (decodeSymbol id s).finishValue := rfl

theorem transAt_ok {tr : Tree} {i : Nat} (h : i < 288) (s : State) : transAt tr i s = .ok (entry tr.trans i) s := by
  simp [transAt, entry, h]

/-! ## What the descent computes with -/

/-- How many codes are no longer than `l`: the local `sum` after `l` bits (R170). -/
def codesUpTo (tr : Tree) : Nat → Nat
  | 0 => 0
  | l + 1 => codesUpTo tr l + entry tr.table (l + 1)

/-- The first code of length `l` (R96), from the tree's own counts. -/
def firstOf (tr : Tree) : Nat → Nat
  | 0 => 0
  | l + 1 => 2 * (firstOf tr l + entry tr.table l)

/-- How many bit strings of length `l` no code is a beginning of. -/
def free (tr : Tree) : Nat → Int
  | 0 => 1
  | l + 1 => 2 * free tr l - entry tr.table (l + 1)

theorem codesUpTo_mono {tr : Tree} {l m : Nat} (h : l ≤ m) : codesUpTo tr l ≤ codesUpTo tr m := by
  induction h with
  | refl => exact Nat.le_refl _
  | step _ ih => exact ih.trans (Nat.le_add_right _ _)

theorem codesUpTo_eq_sum (tr : Tree) (n : Nat) :
    codesUpTo tr n = ((List.range n).map fun l => entry tr.table (l + 1)).sum := by
  induction n with
  | zero => rfl
  | succ n ih => simp [codesUpTo, ih, List.range_succ]

/-- All codes of a tree are counted up to length 15. -/
theorem sum_table_eq_codesUpTo {tr : Tree} (h : entry tr.table 0 = 0) : tr.table.toList.sum = codesUpTo tr 15 := by
  rw [toList_eq_map_entry, codesUpTo_eq_sum, List.range_succ_eq_map, List.map_cons, List.sum_cons, h, Nat.zero_add,
    List.map_map]
  rfl

/-- The Kraft equality says that no bit string of length 15 is left over. -/
theorem free_of_kraftEq {tr : Tree} (h : KraftEq tr) : free tr 15 = 0 := by
  obtain ⟨hzero, hsum⟩ := h
  have hsum := congrArg (Nat.cast : Nat → Int) hsum
  simp only [hzero, List.range, List.range.loop, List.map_cons, List.map_nil, List.sum_cons, List.sum_nil] at hsum
  push_cast at hsum
  simp only [free, Nat.reduceAdd]
  linarith

theorem two_pow_mul_firstOf_le (tr : Tree) (l m : Nat) :
    2 ^ (m + 1) * (firstOf tr l + entry tr.table l) ≤ firstOf tr (l + (m + 1)) := by
  induction m with
  | zero => exact Nat.le_refl _
  | succ m ih =>
    have hstep : firstOf tr (l + (m + 1 + 1)) = 2 * (firstOf tr (l + (m + 1)) + entry tr.table (l + (m + 1))) := rfl
    rw [hstep, Nat.pow_succ, Nat.mul_comm _ 2, Nat.mul_assoc]
    omega

/-! ## R172, R173: the descent on any bit sequence -/

/-- While a bit string is no code, it is one of those that are left over; on a complete tree there is none of length 15,
so the descent meets a code. -/
theorem descend_complete {tr : Tree} (hfree : free tr 15 = 0) (hsize : codesUpTo tr 15 ≤ 288) :
    ∀ {k len : Nat} {cur : Int} {s : State}, len + k = 15 → 0 ≤ cur → cur < free tr len → ReaderReady s →
      ∃ i t, descend tr k len (codesUpTo tr len) cur s = .ok (entry tr.trans i) t ∧ i < codesUpTo tr 15
        ∧ ReaderReady t := by
  intro k
  induction k with
  | zero =>
    intro len cur s hlen hlo hhi _
    rw [show len = 15 by omega, hfree] at hhi
    omega
  | succ k ih =>
    intro len cur s hlen hlo hhi hready
    obtain ⟨b, u, hb, hu⟩ := getBits_answers hready (n := 1) (by decide)
    obtain ⟨-, -, -, -, hbit, -⟩ := getBits_spec hb
    rw [descend, hb, Res.bind_ok]
    dsimp only
    have hcodes : codesUpTo tr len + entry tr.table (len + 1) = codesUpTo tr (len + 1) := rfl
    have hnext : free tr (len + 1) = 2 * free tr len - entry tr.table (len + 1) := rfl
    have hmono : codesUpTo tr (len + 1) ≤ codesUpTo tr 15 := codesUpTo_mono (by omega)
    rw [hcodes]
    split
    · exact ⟨_, u, transAt_ok (by omega) u, by omega, hu⟩
    · exact ih (by omega) (by omega) (by omega) hu

/-- With no code at all the descent goes on to the sixteenth bit. -/
theorem descend_empty {tr : Tree} (htable : ∀ l, entry tr.table l = 0) :
    ∀ {k len sum : Nat} {cur : Int} {s : State}, 0 ≤ cur → ReaderReady s →
      descend tr k len sum cur s = .refused .noCodeWithin15 := by
  intro k
  induction k with
  | zero =>
    intro len sum cur s _ hready
    obtain ⟨b, u, hb, -⟩ := getBits_answers hready (n := 1) (by decide)
    rw [descend, hb, Res.bind_ok]
  | succ k ih =>
    intro len sum cur s hcur hready
    obtain ⟨b, u, hb, hu⟩ := getBits_answers hready (n := 1) (by decide)
    rw [descend, hb, Res.bind_ok]
    simp only [htable]
    rw [if_neg (by omega)]
    exact ih (by omega) hu

/-- R172: on a complete tree DECODE_SYMBOL answers a meaningful entry of `trans` and leaves the reader ready. -/
theorem decodeSymbol_complete {id : TreeId} {s : State} (hkraft : KraftEq (getTree id s))
    (hsize : (getTree id s).table.toList.sum ≤ 288) (hready : ReaderReady s) :
    ∃ i t, decodeSymbol id s = .ok (entry (getTree id s).trans i) t ∧ i < (getTree id s).table.toList.sum
      ∧ ReaderReady t := by
  rw [sum_table_eq_codesUpTo hkraft.1] at hsize ⊢
  exact descend_complete (free_of_kraftEq hkraft) hsize (len := 0) (by decide) (Int.le_refl 0) Int.one_pos hready

/-- On a tree that the builder accepts, with symbols below `n`, DECODE_SYMBOL answers a symbol below `n`. -/
theorem decodeSymbol_answers {id : TreeId} {n : Nat} {s : State} (htree : TreeOk n (getTree id s))
    (hready : ReaderReady s) : ∃ v t, decodeSymbol id s = .ok v t ∧ v < n ∧ ReaderReady t := by
  obtain ⟨i, t, hdec, hi, ht⟩ := decodeSymbol_complete htree.kraft htree.size hready
  exact ⟨_, t, hdec, htree.below i hi, ht⟩

/-! ## R171: the descent on a code -/

theorem streamHas_congr {s t : State} {p : Nat} {bits : List Bool} (h : StreamHas s p bits)
    (hsource : t.source = s.source) (hlen : t.sourceLen = s.sourceLen) : StreamHas t p bits := by
  refine ⟨hlen ▸ h.1, ?_⟩
  rw [← h.2]
  simp [streamBits, streamBit_congr hsource hlen]

/-- The first of the bits that a stream holds at a position is the one-bit field there; the rest stands behind it. -/
theorem streamHas_cons {s : State} {p : Nat} {b : Bool} {bits : List Bool} (h : StreamHas s p (b :: bits)) :
    field s p 1 = b.toNat ∧ p + 1 ≤ 8 * s.sourceLen ∧ StreamHas s (p + 1) bits := by
  obtain ⟨h1, h2⟩ := StreamHas.append (as := [b]) h
  refine ⟨?_, h1.1, h2⟩
  have := h1.2
  simp only [List.length_cons, List.length_nil, Nat.zero_add] at this
  simp [field, this, fieldValue]

theorem div_two_pow_eq (c m : Nat) : c / 2 ^ m = 2 * (c / 2 ^ (m + 1)) + (c.testBit m).toNat := by
  have hbit : (c.testBit m).toNat = c / 2 ^ m % 2 := by
    rw [Nat.testBit_eq_decide_div_mod_eq]
    rcases Nat.mod_two_eq_zero_or_one (c / 2 ^ m) with h | h <;> simp [h]
  rw [hbit, Nat.pow_succ, ← Nat.div_div_eq_div_mul]
  omega

/-- Reading the last `m + 1` bits of the `r`-th code of length `len + (m + 1)`: the descent meets no shorter code on the
way, and ends at the code's place in `trans`. -/
theorem descend_code {tr : Tree} {r : Nat} :
    ∀ {m k len p : Nat} {s : State}, m < k → r < entry tr.table (len + (m + 1)) →
      codesUpTo tr (len + m) + r < 288 → AtPosition s p →
      StreamHas s p (msbBits (m + 1) (firstOf tr (len + (m + 1)) + r)) →
      descend tr k len (codesUpTo tr len)
          (((firstOf tr (len + (m + 1)) + r) / 2 ^ (m + 1) : Nat) - (firstOf tr len + entry tr.table len : Nat)) s
        = .ok (entry tr.trans (codesUpTo tr (len + m) + r)) (seek s (p + (m + 1))) := by
  intro m
  induction m with
  | zero =>
    intro k len p s hk hr hsize hat hbits
    obtain ⟨k, rfl⟩ := Nat.exists_eq_succ_of_ne_zero (Nat.ne_of_gt hk)
    obtain ⟨hfield, hin, -⟩ := streamHas_cons hbits
    have hdiv := div_two_pow_eq (firstOf tr (len + 1) + r) 0
    have hfirst : firstOf tr (len + 1) = 2 * (firstOf tr len + entry tr.table len) := rfl
    have hcodes : codesUpTo tr len + entry tr.table (len + 1) = codesUpTo tr (len + 1) := rfl
    rw [descend, getBits_inside hat (by decide) hin, Res.bind_ok]
    dsimp only
    rw [hfield]
    simp only [Nat.zero_add, Nat.pow_zero, Nat.div_one] at hdiv hr hsize ⊢
    rw [if_pos (by omega)]
    have hindex : ((codesUpTo tr len + entry tr.table (len + 1) : Nat)
        + (2 * (((firstOf tr (len + 1) + r) / 2 ^ 1 : Nat) - (firstOf tr len + entry tr.table len : Nat) : Int)
          + ((firstOf tr (len + 1) + r).testBit 0).toNat - entry tr.table (len + 1)) : Int).toNat
        = codesUpTo tr (len + 0) + r := by
      simp only [Nat.add_zero]
      omega
    rw [hindex, transAt_ok hsize]
  | succ m ih =>
    intro k len p s hk hr hsize hat hbits
    obtain ⟨k, rfl⟩ := Nat.exists_eq_succ_of_ne_zero (Nat.ne_of_gt (Nat.zero_lt_of_lt hk))
    obtain ⟨hfield, hin, hrest⟩ := streamHas_cons hbits
    have hlen : len + (m + 1 + 1) = len + 1 + (m + 1) := by omega
    have hdiv := div_two_pow_eq (firstOf tr (len + (m + 1 + 1)) + r) (m + 1)
    have hfirst : firstOf tr (len + 1) = 2 * (firstOf tr len + entry tr.table len) := rfl
    have hle : firstOf tr (len + 1) + entry tr.table (len + 1) ≤ (firstOf tr (len + (m + 1 + 1)) + r) / 2 ^ (m + 1) := by
      rw [Nat.le_div_iff_mul_le (Nat.two_pow_pos _), Nat.mul_comm, hlen]
      exact (two_pow_mul_firstOf_le tr (len + 1) m).trans (Nat.le_add_right _ _)
    rw [descend, getBits_inside hat (by decide) hin, Res.bind_ok]
    dsimp only
    rw [hfield]
    have hcur : 2 * (((firstOf tr (len + (m + 1 + 1)) + r) / 2 ^ (m + 1 + 1) : Nat)
          - (firstOf tr len + entry tr.table len : Nat) : Int)
          + ((firstOf tr (len + (m + 1 + 1)) + r).testBit (m + 1)).toNat - entry tr.table (len + 1)
        = ((firstOf tr (len + (m + 1 + 1)) + r) / 2 ^ (m + 1) : Nat)
          - (firstOf tr (len + 1) + entry tr.table (len + 1) : Nat) := by omega
    rw [hcur, if_neg (by omega)]
    rw [hlen] at hr hrest ⊢
    have hstep := ih (k := k) (len := len + 1) (s := seek s (p + 1)) (by omega) hr (by rwa [Nat.add_right_comm, Nat.add_assoc])
      (hat.seek hin) (streamHas_congr hrest rfl rfl)
    rw [seek_seek] at hstep
    rw [show codesUpTo tr len + entry tr.table (len + 1) = codesUpTo tr (len + 1) from rfl, hstep,
      show len + (m + 1) = len + 1 + m by omega, show p + (m + 1 + 1) = p + 1 + (m + 1) by omega]

/-! ## The canonical codes of a length set -/

section
variable {lens : List Nat}

/-- A code of length `l` has `l` bits: the codes up to a length use up no more than the Kraft sum. -/
theorem firstCode_add_count_le (lens : List Nat) {l : Nat} (h : l ≤ 15) :
    (firstCode lens l + lengthCount lens l) * 2 ^ (15 - l) ≤ kraftSum lens := by
  have hpartial : ∀ l ≤ 15, (firstCode lens l + lengthCount lens l) * 2 ^ (15 - l)
      = ((List.range l).map fun l => lens.count (l + 1) * 2 ^ (14 - l)).sum := by
    intro l
    induction l with
    | zero => simp [firstCode, lengthCount]
    | succ l ih =>
      intro hl
      have hcount : lengthCount lens (l + 1) = lens.count (l + 1) := rfl
      rw [List.range_succ, List.map_append, List.sum_append, ← ih (by omega), List.map_singleton, List.sum_singleton,
        hcount, firstCode, show 15 - l = 14 - l + 1 by omega, show 15 - (l + 1) = 14 - l by omega, Nat.add_mul,
        Nat.pow_succ, Nat.mul_comm (2 ^ (14 - l)) 2, ← Nat.mul_assoc, Nat.mul_comm 2]
  rw [hpartial l h]
  exact ((List.range_sublist.2 h).map _).sum_le_sum fun _ _ => Nat.zero_le _

/-- A code's value fits in its length. -/
theorem codeValue_lt (hle : ∀ l ∈ lens, l ≤ 15) (hcheck : buildCheck lens = none) {i : Nat} (hi : 0 < lens.getD i 0) :
    codeValue lens i < 2 ^ lens.getD i 0 := by
  have hlen := getD_le hle i
  have hkraft := ((buildCheck_eq_none_iff hle).1 hcheck).1
  have hcount : lengthCount lens (lens.getD i 0) = lens.count (lens.getD i 0) := if_neg hi.ne'
  have hlt := count_take_getD_lt hi
  have hpow : 2 ^ lens.getD i 0 * 2 ^ (15 - lens.getD i 0) = 2 ^ 15 := by
    rw [← Nat.pow_add, Nat.add_sub_cancel' hlen]
  have hle := (firstCode_add_count_le lens hlen).trans (hkraft.trans hpow.ge)
  have := Nat.le_of_mul_le_mul_right hle (Nat.two_pow_pos _)
  rw [codeValue]
  omega

/-- Up to a length below which the tree has the counts of the set, its codes begin where the set's do. -/
theorem firstOf_eq_firstCode {tr : Tree} {n : Nat} (h : ∀ l < n, entry tr.table l = lengthCount lens l) :
    firstOf tr n = firstCode lens n := by
  induction n with
  | zero => rfl
  | succ n ih => rw [firstOf, firstCode, ih fun l hl => h l (by omega), h n (Nat.lt_succ_self n)]

theorem codesUpTo_eq_shorter {tr : Tree} {n : Nat} (hn : n ≤ 15) (h : ∀ l ≤ n, entry tr.table l = lengthCount lens l) :
    codesUpTo tr n = shorter lens (n + 1) := by
  induction n with
  | zero => rw [codesUpTo, shorter_one]
  | succ n ih =>
    rw [codesUpTo, shorter_succ (by omega) hn, ih (by omega) fun l hl => h l (by omega), h (n + 1) (Nat.le_refl _),
      lengthCount, if_neg (Nat.succ_ne_zero n)]

/-- Below the length of a coded symbol the finished tree has the counts of the set; at it, at least as many. -/
theorem finishedTree_counts (hle : ∀ l ∈ lens, l ≤ 15) (hcheck : buildCheck lens = none) (old : Tree) {i : Nat}
    (hi : 0 < lens.getD i 0) :
    (∀ l < lens.getD i 0, entry (finishedTree lens old).table l = lengthCount lens l)
      ∧ (lens.take i).count (lens.getD i 0) < entry (finishedTree lens old).table (lens.getD i 0) := by
  have hlen := getD_le hle i
  have hlt := count_take_getD_lt hi
  have hcounts : ∀ l ≤ 15, entry (countLengths lens) l = lengthCount lens l := fun l hl => by
    rw [entry_countLengths, lengthCount]
    by_cases h0 : l = 0
    · simp [h0]
    · rw [if_neg (by omega), if_neg h0]
  have hcount : lengthCount lens (lens.getD i 0) = lens.count (lens.getD i 0) := if_neg hi.ne'
  have htable := entry_finishedTree_table hle old
  by_cases hone : codedCount lens = 1
  · obtain ⟨hones, hsingle⟩ := count_of_single hle hcheck hone
    rw [(hsingle i hi).1] at hlt ⊢
    refine ⟨fun l hl => ?_, ?_⟩
    · rw [htable, if_neg (by omega), hcounts l (by omega)]
    · rw [htable, if_pos ⟨hone, rfl⟩]
      omega
  · refine ⟨fun l hl => ?_, ?_⟩
    · rw [htable, if_neg fun h => hone h.1, hcounts l (by omega)]
    · rwa [htable, if_neg fun h => hone h.1, hcounts _ hlen, hcount]

/-- R171, for any tree with the counts and the symbols of the finished tree: DECODE_SYMBOL reads the code that stands at
the position. -/
theorem decodeSymbol_code {s : State} {id : TreeId} {old : Tree} {p i : Nat} (hsize : lens.length ≤ 288)
    (hle : ∀ l ∈ lens, l ≤ 15) (hcheck : buildCheck lens = none)
    (htable : (getTree id s).table = (finishedTree lens old).table)
    (htrans : (getTree id s).trans = (finishedTree lens old).trans) (hi : 0 < lens.getD i 0) (hat : AtPosition s p)
    (hbits : StreamHas s p (codeBits lens i)) :
    decodeSymbol id s = .ok i (seek s (p + lens.getD i 0)) := by
  obtain ⟨m, hm⟩ := Nat.exists_eq_succ_of_ne_zero hi.ne'
  have hlen := getD_le hle i
  have hlt := codeValue_lt hle hcheck hi
  have hplace := place_lt_codedCount hle hi
  have hcoded := codedCount_le_length lens
  obtain ⟨hbelow, hcount⟩ := finishedTree_counts hle hcheck old hi
  have hsymbol := entry_finishedTree_trans hle hsize hcheck old hi
  rw [← htable] at hbelow hcount
  rw [← htrans] at hsymbol
  have hfirst := firstOf_eq_firstCode hbelow
  rw [codeBits] at hbits
  rw [codeValue, ← hfirst] at hbits hlt
  rw [place] at hsymbol hplace
  rw [hm] at hbits hlt hbelow hcount hlen hsymbol hplace ⊢
  have hcodes := codesUpTo_eq_shorter (n := m) (by omega) fun l hl => hbelow l (by omega)
  rw [← hcodes] at hsymbol hplace
  have hdescend := descend_code (m := m) (k := 15) (len := 0) (by omega) (by rwa [Nat.zero_add])
    (by rw [Nat.zero_add]; omega) hat (by rwa [Nat.zero_add])
  simp only [Nat.zero_add] at hdescend
  rw [Nat.div_eq_of_lt hlt, hsymbol, hbelow 0 (by omega)] at hdescend
  exact hdescend

end

end Sys2Proof.Machine

namespace Sys2Proof

open Machine

/-- Settles O19: the descent on a canonical code ends at the code's place in `trans`, where its symbol stands. -/
theorem decodeSymbolInvertsTheCanonicalCode : Obligations.DecodeSymbolInvertsTheCanonicalCode := by
  intro s id lens old p i hsize hle hcheck htree hi hat hbits
  have hdec := decodeSymbol_code hsize hle hcheck (congrArg Tree.table htree) (congrArg Tree.trans htree) hi hat hbits
  rw [exec_decodeSymbol, hdec, Res.finishValue_ok]

/-- Settles O20: on a complete tree no bit string of length 15 is left over. -/
theorem decodeSymbolEndsOnCompleteTrees : Obligations.DecodeSymbolEndsOnCompleteTrees := by
  intro s id hkraft hsize hready
  obtain ⟨i, t, hdec, hi, hr, hs, hb⟩ := decodeSymbol_complete hkraft hsize hready
  obtain ⟨hframe, -⟩ := decodeSymbol_spec hdec
  refine ⟨{ t with ret := entry (getTree id s).trans i }, by rw [exec_decodeSymbol, hdec, Res.finishValue_ok],
    ⟨i, hi, rfl⟩, ⟨hr, hs, hb⟩, ?_⟩
  rw [ReaderFrame.iff.1 hframe]

/-- Settles O21: without codes the descent never goes below zero. -/
theorem emptyTreeRefusesToDecode : Obligations.EmptyTreeRefusesToDecode := by
  intro s id htable hready
  have hdescend := descend_empty htable (k := 15) (len := 0) (sum := 0) (Int.le_refl 0) hready
  rw [exec_decodeSymbol, decodeSymbol, Config.maxBits, hdescend, Res.finishValue_refused]

end Sys2Proof
end

