-- ==== Sys2Proof/Proofs/FixedTrees.lean ====
section
/-! PROOFS. The fixed trees (43): what BUILD_FIXED_TREES writes (R180, R183), that they are the builder's trees of the
fixed lengths but for `max_sym` (R182), and that every fixed code decodes (R100). -/

namespace Sys2Proof.Machine

theorem exec_buildFixedTrees (s : State) : exec .buildFixedTrees s = .next (buildFixedTrees s) := rfl

theorem exec_fixed (b : Bool) (s : State) :
    exec (.fixed b) s = .next { buildFixedTrees { s with bfinal := b } with seq := .litLen } := rfl

/-- An entry of a storage that is written as a list. -/
theorem entry_mk {n : Nat} (l : List Nat) (h : l.toArray.size = n) (i : Nat) : entry ⟨l.toArray, h⟩ i = l.getD i 0 := by
  simp [entry, List.getD_eq_getElem?_getD]

/-- A storage is determined by its entries. -/
theorem vector_ext_entry {n : Nat} {v w : Vector Nat n} (h : ∀ i, i < n → entry v i = entry w i) : v = w := by
  refine Vector.ext fun i hi => ?_
  simpa [entry, hi] using h i hi

/-! ## What is written -/

theorem entry_fixedLitTree_table (l : Nat) :
    entry fixedLitTree.table l = if l = 7 then 24 else if l = 8 then 152 else if l = 9 then 112 else 0 := by
  by_cases hl : l < 16
  · revert l
    decide
  · have hpast : entry fixedLitTree.table l = 0 := by simp [entry, hl]
    rw [hpast, if_neg (by omega), if_neg (by omega), if_neg (by omega)]

theorem entry_fixedDistTree_table (t : Tree) (l : Nat) :
    entry (fixedDistTree t).table l = if l = 5 then 32 else 0 := by
  by_cases hl : l < 16
  · have hall : ∀ m < 16, entry (#v[0, 0, 0, 0, 0, 32, 0, 0, 0, 0, 0, 0, 0, 0, 0, 0] : Vector Nat 16) m
        = if m = 5 then 32 else 0 := by decide
    exact hall l hl
  · have hpast : entry (fixedDistTree t).table l = 0 := by simp [entry, hl]
    rw [hpast, if_neg (by omega)]

theorem getD_range' {a n i : Nat} (h : i < n) : (List.range' a n).getD i 0 = a + i := by
  simp [h]

/-- `ltree.trans` of R180: symbols 256..279, 0..143, 280..287, 144..255. -/
theorem entry_fixedLitTree_trans :
    (∀ i, i < 24 → entry fixedLitTree.trans i = 256 + i) ∧ (∀ i, i < 144 → entry fixedLitTree.trans (24 + i) = i)
      ∧ (∀ i, i < 8 → entry fixedLitTree.trans (168 + i) = 280 + i)
      ∧ ∀ i, i < 112 → entry fixedLitTree.trans (176 + i) = 144 + i := by
  have hentry : ∀ i, entry fixedLitTree.trans i = fixedLitTrans.getD i 0 := entry_mk _ _
  refine ⟨fun i hi => ?_, fun i hi => ?_, fun i hi => ?_, fun i hi => ?_⟩ <;> rw [hentry, fixedLitTrans]
  · rw [List.getD_append _ _ _ _ (by simp; omega), List.getD_append _ _ _ _ (by simp; omega),
      List.getD_append _ _ _ _ (by simpa), getD_range' hi]
  · rw [List.getD_append _ _ _ _ (by simp; omega), List.getD_append _ _ _ _ (by simp; omega),
      List.getD_append_right _ _ _ _ (by simp), List.length_range', Nat.add_sub_cancel_left, getD_range' hi,
      Nat.zero_add]
  · rw [List.getD_append _ _ _ _ (by simp; omega), List.getD_append_right _ _ _ _ (by simp), List.length_append,
      List.length_range', List.length_range', Nat.add_sub_cancel_left, getD_range' hi]
  · rw [List.getD_append_right _ _ _ _ (by simp), List.length_append, List.length_append, List.length_range',
      List.length_range', List.length_range', Nat.add_sub_cancel_left, getD_range' hi]

theorem entry_fixedDistTree_trans (t : Tree) (i : Nat) :
    entry (fixedDistTree t).trans i = if i < 32 then i else entry t.trans i := by
  rw [fixedDistTree, entry_mk]
  by_cases hi : i < 32
  · rw [if_pos hi, List.getD_append _ _ _ _ (by simpa), getD_range' hi, Nat.zero_add]
  · rw [if_neg hi, List.getD_append_right _ _ _ _ (by simp; omega), List.length_range', List.getD_eq_getElem?_getD,
      List.getElem?_drop, Nat.add_sub_cancel' (by omega)]
    simp [entry]

/-! ## The fixed lengths as a length set -/

theorem fixedLitLengths_le : ∀ l ∈ fixedLitLengths, l ≤ 15 := by
  simp only [fixedLitLengths, List.forall_mem_append, List.forall_mem_replicate]
  decide

theorem fixedDistLengths_le : ∀ l ∈ fixedDistLengths, l ≤ 15 := by
  simp only [fixedDistLengths, List.forall_mem_replicate]
  decide

theorem length_fixedLitLengths : fixedLitLengths.length = 288 := by
  simp only [fixedLitLengths, List.length_append, List.length_replicate]

theorem length_fixedDistLengths : fixedDistLengths.length = 32 := List.length_replicate

theorem count_fixedLitLengths (l : Nat) :
    fixedLitLengths.count l = if l = 7 then 24 else if l = 8 then 152 else if l = 9 then 112 else 0 := by
  simp only [fixedLitLengths, List.count_append, List.count_replicate, beq_iff_eq]
  split_ifs <;> omega

theorem count_fixedDistLengths (l : Nat) : fixedDistLengths.count l = if l = 5 then 32 else 0 := by
  simp only [fixedDistLengths, List.count_replicate, beq_iff_eq, eq_comm (a := l)]

theorem codedCount_fixedLitLengths : codedCount fixedLitLengths = 288 := by
  simp only [codedCount, fixedLitLengths, List.countP_append, List.countP_replicate]
  decide

theorem codedCount_fixedDistLengths : codedCount fixedDistLengths = 32 := by
  simp only [codedCount, fixedDistLengths, List.countP_replicate]
  decide

/-- R182: both sets are complete codes. -/
theorem buildCheck_fixedLitLengths : buildCheck fixedLitLengths = none := by
  have hkraft : kraftSum fixedLitLengths = 2 ^ 15 := by
    simp only [kraftSum, count_fixedLitLengths]
    decide
  rw [buildCheck_eq_none_iff fixedLitLengths_le, hkraft, codedCount_fixedLitLengths]
  decide

theorem buildCheck_fixedDistLengths : buildCheck fixedDistLengths = none := by
  have hkraft : kraftSum fixedDistLengths = 2 ^ 15 := by
    simp only [kraftSum, count_fixedDistLengths]
    decide
  rw [buildCheck_eq_none_iff fixedDistLengths_le, hkraft, codedCount_fixedDistLengths]
  decide

/-- The length of a symbol of the fixed literal/length alphabet, and how many symbols before it have the same. -/
theorem fixedLitLengths_cases {i : Nat} (h : i < 288) :
    (i < 144 ∧ fixedLitLengths.getD i 0 = 8 ∧ (fixedLitLengths.take i).count 8 = i)
      ∨ (144 ≤ i ∧ i < 256 ∧ fixedLitLengths.getD i 0 = 9 ∧ (fixedLitLengths.take i).count 9 = i - 144)
      ∨ (256 ≤ i ∧ i < 280 ∧ fixedLitLengths.getD i 0 = 7 ∧ (fixedLitLengths.take i).count 7 = i - 256)
      ∨ (280 ≤ i ∧ fixedLitLengths.getD i 0 = 8 ∧ (fixedLitLengths.take i).count 8 = 144 + (i - 280)) := by
  have hget : fixedLitLengths.getD i 0 = if i < 144 then 8 else if i < 256 then 9 else if i < 280 then 7 else 8 := by
    simp only [fixedLitLengths, List.getD_eq_getElem?_getD, List.getElem?_append, List.getElem?_replicate,
      List.length_append, List.length_replicate]
    split_ifs <;> first | rfl | omega
  have hcount : ∀ l, (fixedLitLengths.take i).count l
      = (if l = 8 then min i 144 + min (i - 280) 8 else 0) + (if l = 9 then min (i - 144) 112 else 0)
        + if l = 7 then min (i - 256) 24 else 0 := by
    intro l
    simp only [fixedLitLengths, List.take_append, List.take_replicate, List.count_append, List.count_replicate,
      List.length_append, List.length_replicate, beq_iff_eq]
    split_ifs <;> omega
  rw [hget, hcount, hcount, hcount]
  by_cases h1 : i < 144
  · exact .inl ⟨h1, if_pos h1, by simp; omega⟩
  · by_cases h2 : i < 256
    · exact .inr (.inl ⟨by omega, h2, by rw [if_neg h1, if_pos h2], by simp; omega⟩)
    · by_cases h3 : i < 280
      · exact .inr (.inr (.inl ⟨by omega, h3, by rw [if_neg h1, if_neg h2, if_pos h3], by simp; omega⟩))
      · exact .inr (.inr (.inr ⟨by omega, by rw [if_neg h1, if_neg h2, if_neg h3], by simp; omega⟩))

theorem fixedDistLengths_rank {i : Nat} (h : i < 32) :
    fixedDistLengths.getD i 0 = 5 ∧ (fixedDistLengths.take i).count 5 = i := by
  constructor
  · rw [fixedDistLengths, List.getD_replicate _ h]
  · rw [fixedDistLengths, List.take_replicate, List.count_replicate_self]
    omega

/-- R100 against R96: the written codes are the canonical ones of the fixed lengths. -/
theorem codeBits_fixedLitLengths {i : Nat} (h : i < 288) : codeBits fixedLitLengths i = fixedLitCode i := by
  have h7 : firstCode fixedLitLengths 7 = 0 := by simp [firstCode, lengthCount, count_fixedLitLengths]
  have h8 : firstCode fixedLitLengths 8 = 48 := by rw [firstCode, h7, lengthCount, count_fixedLitLengths]; rfl
  have h9 : firstCode fixedLitLengths 9 = 400 := by rw [firstCode, h8, lengthCount, count_fixedLitLengths]; rfl
  rw [codeBits, codeValue, fixedLitCode]
  obtain ⟨hi, hlen, hrank⟩ | ⟨hlo, hi, hlen, hrank⟩ | ⟨hlo, hi, hlen, hrank⟩ | ⟨hlo, hlen, hrank⟩ :=
    fixedLitLengths_cases h
  · rw [hlen, hrank, h8, if_pos hi]
  · rw [hlen, hrank, h9, if_neg (by omega), if_pos hi]
  · rw [hlen, hrank, h7, if_neg (by omega), if_neg (by omega), if_pos hi, Nat.zero_add]
  · rw [hlen, hrank, h8, if_neg (by omega), if_neg (by omega), if_neg (by omega), ← Nat.add_assoc]

theorem codeBits_fixedDistLengths {d : Nat} (h : d < 32) : codeBits fixedDistLengths d = fixedDistCode d := by
  obtain ⟨hlen, hrank⟩ := fixedDistLengths_rank h
  have h5 : firstCode fixedDistLengths 5 = 0 := by simp [firstCode, lengthCount, count_fixedDistLengths]
  rw [codeBits, codeValue, hlen, hrank, h5, Nat.zero_add, fixedDistCode]

/-! ## The builder's trees of the fixed lengths -/

section
variable (old : Tree)

theorem table_finishedTree_fixedLit : (finishedTree fixedLitLengths old).table = fixedLitTree.table := by
  refine vector_ext_entry fun l hl => ?_
  rw [entry_finishedTree_table fixedLitLengths_le, codedCount_fixedLitLengths, if_neg (by omega), entry_countLengths,
    count_fixedLitLengths, entry_fixedLitTree_table]
  split_ifs <;> first | rfl | omega

theorem table_finishedTree_fixedDist :
    (finishedTree fixedDistLengths old).table = (fixedDistTree old).table := by
  refine vector_ext_entry fun l hl => ?_
  rw [entry_finishedTree_table fixedDistLengths_le, codedCount_fixedDistLengths, if_neg (by omega), entry_countLengths,
    count_fixedDistLengths, entry_fixedDistTree_table]
  split_ifs <;> first | rfl | omega

theorem trans_finishedTree_fixedLit : (finishedTree fixedLitLengths old).trans = fixedLitTree.trans := by
  have h7 : shorter fixedLitLengths 7 = 0 := by
    simp [shorter_succ, shorter_one, count_fixedLitLengths]
  have h8 : shorter fixedLitLengths 8 = 24 := by
    rw [shorter_succ (by decide) (by decide), h7, count_fixedLitLengths]; rfl
  have h9 : shorter fixedLitLengths 9 = 176 := by
    rw [shorter_succ (by decide) (by decide), h8, count_fixedLitLengths]; rfl
  obtain ⟨ht7, ht8, ht8', ht9⟩ := entry_fixedLitTree_trans
  refine vector_ext_entry fun k hk => ?_
  obtain ⟨i, hi, rfl⟩ := exists_place fixedLitLengths_le (codedCount_fixedLitLengths ▸ hk)
  have hlt : i < 288 := length_fixedLitLengths ▸ lt_length_of_coded hi
  rw [entry_finishedTree_trans fixedLitLengths_le length_fixedLitLengths.le buildCheck_fixedLitLengths old hi, place]
  obtain ⟨hi, hlen, hrank⟩ | ⟨hlo, hi, hlen, hrank⟩ | ⟨hlo, hi, hlen, hrank⟩ | ⟨hlo, hlen, hrank⟩ :=
    fixedLitLengths_cases hlt
  · rw [hlen, hrank, h8, ht8 i hi]
  · rw [hlen, hrank, h9, ht9 (i - 144) (by omega)]
    omega
  · rw [hlen, hrank, h7, Nat.zero_add, ht7 (i - 256) (by omega)]
    omega
  · rw [hlen, hrank, h8, ← Nat.add_assoc, ht8' (i - 280) (by omega)]
    omega

theorem trans_finishedTree_fixedDist :
    (finishedTree fixedDistLengths old).trans = (fixedDistTree old).trans := by
  have h5 : shorter fixedDistLengths 5 = 0 := by
    simp [shorter_succ, shorter_one, count_fixedDistLengths]
  refine vector_ext_entry fun k _ => ?_
  rw [entry_fixedDistTree_trans]
  by_cases hk : k < 32
  · obtain ⟨i, hi, rfl⟩ := exists_place fixedDistLengths_le (codedCount_fixedDistLengths ▸ hk)
    have hlt : i < 32 := length_fixedDistLengths ▸ lt_length_of_coded hi
    obtain ⟨hlen, hrank⟩ := fixedDistLengths_rank hlt
    rw [if_pos hk, entry_finishedTree_trans fixedDistLengths_le (by rw [length_fixedDistLengths]; decide)
      buildCheck_fixedDistLengths old hi, place, hlen, hrank, h5, Nat.zero_add]
  · rw [if_neg hk, entry_finishedTree_trans_past fixedDistLengths_le (by rw [length_fixedDistLengths]; decide)
      buildCheck_fixedDistLengths]
    rw [sum_finishedTree_table fixedDistLengths_le buildCheck_fixedDistLengths, codedCount_fixedDistLengths, if_neg (by decide)]
    omega

end

/-- The last symbol of a set in which every symbol has a code. -/
theorem lastCoded_of_all {lens : List Nat} {n : Nat} (hlen : lens.length = n + 1) (h : 0 < lens.getD n 0) :
    lastCoded lens 0 (-1) = n := by
  obtain ⟨m, hm, hlast, -, habove⟩ := lastCoded_of_coded (codedCount_pos_iff.2 ⟨n, h⟩)
  have hmn : m = n := by
    by_contra hne
    exact absurd (habove n (by omega)) h.ne'
  rw [hlast, hmn]

theorem maxSym_finishedTree_fixedLit (old : Tree) : (finishedTree fixedLitLengths old).maxSym = 287 := by
  rw [finishedTree_maxSym]
  exact lastCoded_of_all length_fixedLitLengths (by decide)

theorem maxSym_finishedTree_fixedDist (old : Tree) : (finishedTree fixedDistLengths old).maxSym = 31 := by
  rw [finishedTree_maxSym]
  exact lastCoded_of_all length_fixedDistLengths (by decide)

/-- R182: but for `max_sym` the fixed literal/length tree is the builder's. -/
theorem finishedTree_fixedLitLengths (old : Tree) :
    { finishedTree fixedLitLengths old with maxSym := 285 } = fixedLitTree := by
  dsimp only
  rw [table_finishedTree_fixedLit, trans_finishedTree_fixedLit, finishedTree_built]
  rfl

/-- R182: but for `max_sym` the fixed distance tree is the builder's. -/
theorem finishedTree_fixedDistLengths (old : Tree) :
    { finishedTree fixedDistLengths old with maxSym := 29 } = fixedDistTree old := by
  dsimp only
  rw [table_finishedTree_fixedDist, trans_finishedTree_fixedDist, finishedTree_built]
  rfl

/-! ## Decoding with the fixed trees -/

section
variable {s : State} {p : Nat}

theorem length_fixedLitCode {i : Nat} (h : i < 288) : (fixedLitCode i).length = fixedLitLengths.getD i 0 := by
  rw [← codeBits_fixedLitLengths h, codeBits_length]

/-- R100: with the fixed literal/length tree the code of the table decodes to its symbol. -/
theorem decodeSymbol_fixedLit {sym : Nat} (htree : s.ltree = fixedLitTree) (hsym : sym < 288) (hat : AtPosition s p)
    (hbits : StreamHas s p (fixedLitCode sym)) :
    decodeSymbol .ltree s = .ok sym (seek s (p + (fixedLitCode sym).length)) := by
  have hpos : 0 < fixedLitLengths.getD sym 0 := by
    rcases fixedLitLengths_cases hsym with h | h | h | h <;> omega
  rw [length_fixedLitCode hsym]
  refine decodeSymbol_code (old := fixedLitTree) length_fixedLitLengths.le fixedLitLengths_le buildCheck_fixedLitLengths
    ?_ ?_ hpos hat (by rwa [codeBits_fixedLitLengths hsym])
  · rw [getTree_ltree, htree, table_finishedTree_fixedLit]
  · rw [getTree_ltree, htree, trans_finishedTree_fixedLit]

/-- R100: with the fixed distance tree the code of the table decodes to its symbol. -/
theorem decodeSymbol_fixedDist {old : Tree} {d : Nat} (htree : s.dtree = fixedDistTree old) (hd : d < 32)
    (hat : AtPosition s p) (hbits : StreamHas s p (fixedDistCode d)) :
    decodeSymbol .dtree s = .ok d (seek s (p + 5)) := by
  obtain ⟨hlen, -⟩ := fixedDistLengths_rank hd
  rw [← codeBits_fixedDistLengths hd] at hbits
  rw [← hlen]
  refine decodeSymbol_code (old := old) (by rw [length_fixedDistLengths]; decide) fixedDistLengths_le
    buildCheck_fixedDistLengths ?_ ?_ (by omega) hat hbits
  · rw [getTree_dtree, htree, table_finishedTree_fixedDist]
  · rw [getTree_dtree, htree, trans_finishedTree_fixedDist]

end

end Sys2Proof.Machine

namespace Sys2Proof

open Machine

/-- Settles O22, entry by entry from the written lists. -/
theorem fixedTreesAreWritten : Obligations.FixedTreesAreWritten := by
  obtain ⟨ht7, ht8, ht8', ht9⟩ := entry_fixedLitTree_trans
  refine fun s b => ⟨buildFixedTrees s, exec_buildFixedTrees s, exec_fixed b s, entry_fixedLitTree_table,
    entry_fixedDistTree_table s.dtree, ht7, ht8, ht8', ht9, fun i hi => ?_, fun i hi => ?_, rfl, rfl, rfl⟩
  · exact (entry_fixedDistTree_trans s.dtree i).trans (if_pos hi)
  · exact (entry_fixedDistTree_trans s.dtree i).trans (if_neg (Nat.not_lt.2 hi))

/-- Settles O23: the fixed trees hold the builder's symbols, so the descent inverts the canonical codes (`decodeSymbol_code`),
and these are the codes of R100. -/
theorem fixedCodesDecode : Obligations.FixedCodesDecode := by
  refine ⟨fun s p sym htree hsym hat hbits => ?_, fun s old p d htree hd hat hbits => ?_,
    fun sym => codeBits_fixedLitLengths, fun d => codeBits_fixedDistLengths⟩
  · rw [exec_decodeSymbol, decodeSymbol_fixedLit htree hsym hat hbits, Res.finishValue_ok]
  · rw [exec_decodeSymbol, decodeSymbol_fixedDist htree hd hat hbits, Res.finishValue_ok]

/-- Settles O24, by the counts and the places of the fixed lengths. -/
theorem fixedTreesAgreeWithTheBuilder : Obligations.FixedTreesAgreeWithTheBuilder :=
  ⟨buildCheck_fixedLitLengths, buildCheck_fixedDistLengths, finishedTree_fixedLitLengths, finishedTree_fixedDistLengths,
    fun old => ⟨maxSym_finishedTree_fixedLit old, maxSym_finishedTree_fixedDist old⟩⟩

end Sys2Proof
end

