-- ==== Sys2Proof/Proofs/Outer.lean ====
section
/-! PROOFS. What the operations do not look at (log entries 1, 3, 4, 29): the fields that only the step, the dispatcher and
the host use, `seq`, `issue`, `request` and `bfinal`. Every shared operation commutes with a change of them. -/

namespace Sys2Proof.Machine

/-! ## Operations that commute with a change of the state -/

/-- The same result, in changed states. -/
def Res.mapState {α : Type} (g : State → State) (x : Res α) : Res α :=
  match x with
  | .ok a s => .ok a (g s)
  | .raised c s => .raised c (g s)
  | .fault e => .fault e
  | .refused r => .refused r

/-- Changing the state first and last is the same. -/
def Commutes {α : Type} (g : State → State) (x : State → Res α) : Prop := ∀ s, x (g s) = (x s).mapState g

section
variable {α β : Type} {g : State → State}

@[simp] theorem Res.mapState_ok (a : α) (s : State) : (Res.ok a s).mapState g = .ok a (g s) := rfl

@[simp] theorem Res.mapState_raised (c : Cause) (s : State) :
    (Res.raised c s : Res α).mapState g = .raised c (g s) := rfl

theorem Commutes.bind {x : State → Res α} {f : α → State → Res β} (hx : Commutes g x) (hf : ∀ a, Commutes g (f a)) :
    Commutes g fun s => (x s).bind f := by
  intro s
  simp only [hx s]
  cases x s with
  | ok a t => exact hf a t
  | raised c t => rfl
  | fault e => rfl
  | refused r => rfl

theorem Commutes.ite {p : State → Prop} [DecidablePred p] {x y : State → Res α} (hp : ∀ s, p (g s) ↔ p s)
    (hx : Commutes g x) (hy : Commutes g y) : Commutes g fun s => if p s then x s else y s := by
  intro s
  by_cases h : p s
  · simp only [if_pos h, if_pos ((hp s).2 h), hx s]
  · simp only [if_neg h, if_neg (mt (hp s).1 h), hy s]

end

/-! ## The outer fields -/

/-- The state `s` with the outer fields of `o`. -/
def withOuter (o s : State) : State :=
  { s with seq := o.seq, issue := o.issue, request := o.request, bfinal := o.bfinal }

@[simp] theorem withOuter_source (o s : State) : (withOuter o s).source = s.source := rfl

@[simp] theorem withOuter_out (o s : State) : (withOuter o s).out = s.out := rfl

@[simp] theorem withOuter_dest (o s : State) : (withOuter o s).dest = s.dest := rfl

@[simp] theorem withOuter_lengths (o s : State) : (withOuter o s).lengths = s.lengths := rfl

@[simp] theorem getTree_withOuter (id : TreeId) (o s : State) : getTree id (withOuter o s) = getTree id s := by
  cases id <;> rfl

theorem setTree_withOuter (id : TreeId) (v : Tree) (o s : State) :
    setTree id v (withOuter o s) = withOuter o (setTree id v s) := by cases id <;> rfl

/-- An operation that neither reads nor writes the outer fields. -/
abbrev Inner {α : Type} (x : State → Res α) : Prop := ∀ o, Commutes (withOuter o) x

/-! ## The bit reader -/

theorem inner_srcRead (a : Nat) : Inner (srcRead a) := fun o =>
  Commutes.ite (fun _ => Iff.rfl) (fun s => by simp only [withOuter_source]; cases memRead s.source a <;> rfl)
    fun _ => rfl

theorem inner_loadByte : Inner loadByte := by
  exact fun o => Commutes.ite (fun _ => Iff.rfl) (fun s => Commutes.bind (inner_srcRead s.src o) (fun _ _ => rfl) s)
    fun _ => rfl

theorem inner_refillLoop : ∀ k n, Inner (refillLoop k n)
  | 0, _ => fun _ => Commutes.ite (fun _ => Iff.rfl) (fun _ => rfl) (fun _ => rfl)
  | k + 1, n => fun o => Commutes.ite (fun _ => Iff.rfl)
      (Commutes.ite (fun _ => Iff.rfl) (fun _ => rfl)
        (Commutes.bind (inner_loadByte o) fun _ => inner_refillLoop k n o))
      (fun _ => rfl)

theorem inner_consume (n : Nat) : Inner (consume n) := fun _ =>
  Commutes.ite (fun _ => Iff.rfl) (fun _ => rfl) fun _ => rfl

theorem inner_getBits (n : Nat) : Inner (getBits n) := fun o =>
  Commutes.ite (fun _ => Iff.rfl) (fun _ => rfl)
    (Commutes.bind (inner_refillLoop 4 n o) fun _ => inner_consume n o)

theorem inner_getBitsBase (n base : Nat) : Inner (getBitsBase n base) := fun o =>
  Commutes.ite (fun _ => Iff.rfl) (fun _ => rfl)
    (Commutes.bind (inner_getBits n o) fun _ _ => rfl)

theorem inner_operand (base n : Nat) : Inner (operand base n) := fun o =>
  Commutes.bind (inner_getBits n o) fun _ _ => rfl

/-! ## DECODE_SYMBOL -/

theorem inner_transAt (t : Tree) (i : Nat) : Inner (transAt t i) := by
  intro o s
  unfold transAt
  cases t.trans[i]? <;> rfl

theorem inner_descend (t : Tree) : ∀ k len sum cur, Inner (descend t k len sum cur)
  | 0, _, _, _ => fun o => Commutes.bind (inner_getBits 1 o) fun _ _ => rfl
  | k + 1, _, _, _ => fun o => Commutes.bind (inner_getBits 1 o) fun _ =>
      Commutes.ite (fun _ => Iff.rfl) (inner_transAt t _ o) (inner_descend t k _ _ _ o)

theorem inner_decodeSymbol (id : TreeId) : Inner (decodeSymbol id) := by
  intro o s
  rw [decodeSymbol, getTree_withOuter]
  exact inner_descend _ _ _ _ _ o s

/-! ## The block body -/

theorem inner_testOverflow : Inner testOverflow := fun _ =>
  Commutes.ite (fun _ => Iff.rfl) (fun _ => rfl) (fun _ => rfl)

theorem inner_outWrite (v : Byte) : Inner fun s => outWrite s.dest v s := fun _ =>
  Commutes.ite (fun _ => Iff.rfl) (fun _ => rfl) (fun _ => rfl)

theorem inner_emitByte (v : Byte) : Inner (emitByte v) := fun o =>
  Commutes.bind (inner_outWrite v o) fun _ _ => rfl

theorem inner_putLiteral (b : Byte) : Inner (putLiteral b) := fun o =>
  Commutes.ite (fun _ => Iff.rfl) (fun _ => rfl) (inner_emitByte b o)

theorem inner_outRead (offs : Nat) : Inner fun s => outRead (s.dest - offs) s := fun o =>
  Commutes.ite (fun _ => Iff.rfl)
    (fun s => by simp only [withOuter_out, withOuter_dest]; cases memRead s.out (s.dest - offs) <;> rfl) fun _ => rfl

theorem inner_copyMatch : ∀ n offs, Inner (copyMatch n offs)
  | 0, _ => fun _ => fun _ => rfl
  | n + 1, offs => fun o => Commutes.ite (fun _ => Iff.rfl) (fun _ => rfl)
      (Commutes.bind (inner_outRead offs o) fun v =>
        Commutes.bind (inner_emitByte v o) fun _ => inner_copyMatch n offs o)

theorem inner_lengthHalf (sym : Nat) : Inner (lengthHalf sym) := fun o =>
  Commutes.ite (fun _ => Iff.rfl) (fun _ => rfl)
    (Commutes.ite (fun _ => Iff.rfl) (fun _ => rfl)
      (Commutes.ite (fun _ => Iff.rfl) (fun _ => rfl)
        (Commutes.bind (inner_getBitsBase _ _ o) fun _ _ => rfl)))

theorem inner_distHalf (d : Nat) : Inner (distHalf d) := fun o =>
  Commutes.ite (fun _ => Iff.rfl) (fun _ => rfl)
    (Commutes.bind (inner_getBitsBase _ _ o) fun offs =>
      Commutes.ite (fun _ => Iff.rfl) (fun _ => rfl)
        (Commutes.ite (fun _ => Iff.rfl) (fun _ => rfl) fun s => inner_copyMatch s.matchLen offs o s))

/-! ## The dynamic header -/

theorem inner_writeLength (i v : Nat) : Inner (writeLength i v) := fun _ =>
  Commutes.ite (fun _ => Iff.rfl) (fun _ => rfl) (fun _ => rfl)

theorem inner_zeroLengths : ∀ n i, Inner (zeroLengths n i)
  | 0, _ => fun _ => fun _ => rfl
  | n + 1, i => fun o => Commutes.bind (inner_writeLength i 0 o) fun _ => inner_zeroLengths n (i + 1) o

theorem inner_readClens : ∀ syms, Inner (readClens syms)
  | [] => fun _ => fun _ => rfl
  | sym :: syms => fun o => Commutes.bind (inner_operand 0 3 o) fun v =>
      Commutes.bind (inner_writeLength sym v o) fun _ => inner_readClens syms o

theorem inner_checkCounts (hlit hdist : Nat) : Inner (checkCounts hlit hdist) := fun _ =>
  Commutes.ite (fun _ => Iff.rfl) (fun _ => rfl)
    (Commutes.ite (fun _ => Iff.rfl) (fun _ => rfl) (fun _ => rfl))

theorem inner_buildTree (id : TreeId) (off num : Nat) : Inner (buildTree id off num) := fun o =>
  Commutes.ite (fun _ => Iff.rfl)
    (fun s => by
      simp only [withOuter_lengths, getTree_withOuter, setTree_withOuter]
      cases buildCheck ((s.lengths.toList.drop off).take num) <;> rfl)
    fun _ => rfl

theorem inner_beginHeader : Inner beginHeader := fun o =>
  Commutes.bind (inner_operand 257 5 o) fun hlit =>
  Commutes.bind (inner_operand 1 5 o) fun hdist =>
  Commutes.bind (inner_operand 4 4 o) fun _ =>
  Commutes.bind (inner_checkCounts hlit hdist o) fun _ =>
  Commutes.bind (inner_zeroLengths 19 0 o) fun _ =>
  Commutes.bind (inner_readClens _ o) fun _ =>
  Commutes.bind (inner_buildTree .ltree 0 19 o) fun _ =>
  Commutes.ite (fun _ => Iff.rfl) (fun _ => rfl) (fun _ => rfl)

theorem inner_checkClSym (sym : Nat) : Inner (checkClSym sym) := fun _ =>
  Commutes.ite (fun _ => Iff.rfl) (fun _ => rfl) (fun _ => rfl)

theorem inner_fillLengths : ∀ rep val, Inner (fillLengths rep val)
  | 0, _ => fun _ => fun _ => rfl
  | rep + 1, val => fun o s =>
      Commutes.bind (inner_writeLength s.num val o) (fun _ s => inner_fillLengths rep val o { s with num := s.num + 1 }) s

theorem inner_storeRun (val rep : Nat) : Inner (storeRun val rep) := fun o =>
  Commutes.ite (fun _ => Iff.rfl) (fun _ => rfl) (inner_fillLengths rep val o)

theorem inner_previousLength : Inner previousLength := fun _ =>
  Commutes.ite (fun _ => Iff.rfl) (fun _ => rfl)
    (Commutes.ite (fun _ => Iff.rfl) (fun _ => rfl) (fun _ => rfl))

theorem inner_clItem (sym : Nat) : Inner (clItem sym) := fun o =>
  Commutes.bind (inner_checkClSym sym o) fun _ =>
  Commutes.ite (fun _ => Iff.rfl)
    (Commutes.bind (inner_previousLength o) fun val =>
      Commutes.bind (inner_operand 3 2 o) fun rep => inner_storeRun val rep o)
    (Commutes.ite (fun _ => Iff.rfl) (Commutes.bind (inner_operand 3 3 o) fun rep => inner_storeRun 0 rep o)
      (Commutes.ite (fun _ => Iff.rfl) (Commutes.bind (inner_operand 11 7 o) fun rep => inner_storeRun 0 rep o)
        (inner_storeRun sym 1 o)))

theorem inner_endHeader : Inner endHeader := fun o =>
  Commutes.ite (fun _ => Iff.rfl) (fun _ => rfl) fun s =>
    Commutes.bind (inner_buildTree .ltree 0 s.hlit o) (fun _ s => inner_buildTree .dtree s.hlit s.hdist o s) s

/-! ## The uncompressed block -/

theorem inner_checkStored (len nlen : Nat) : Inner (checkStored len nlen) := fun _ =>
  Commutes.ite (fun _ => Iff.rfl) (fun _ => rfl)
    (Commutes.ite (fun _ => Iff.rfl) (fun _ => rfl)
      (Commutes.ite (fun _ => Iff.rfl) (fun _ => rfl) (fun _ => rfl)))

theorem inner_copyStored : ∀ n, Inner (copyStored n)
  | 0 => fun _ => fun _ => rfl
  | n + 1 => fun o s =>
      Commutes.bind (inner_srcRead s.src o)
        (fun v s => Commutes.bind (inner_emitByte v o) (fun _ => inner_copyStored n o) { s with src := s.src + 1 }) s

theorem inner_inflateUncompressed : Inner inflateUncompressed := fun o s =>
  Commutes.bind (inner_operand 0 16 o) (fun len =>
    Commutes.bind (inner_operand 0 16 o) fun nlen =>
    Commutes.bind (inner_checkStored len nlen o) fun _ =>
    Commutes.bind (inner_copyStored len o) fun _ _ => rfl) (alignReader s)

end Sys2Proof.Machine
end

