-- ==== Sys2Proof/Proofs/StoredBlock.lean ====
section
/-! PROOFS. The uncompressed block, its copy (46): a block that passes its tests is copied verbatim (R260, R261, R264), and
a block whose LEN or NLEN is cut off by the end of the source is always rejected (R262). -/

namespace Sys2Proof.Machine

/-! ## The element STORED -/

theorem exec_stored (b : Bool) (s : State) :
    exec (.stored b) s
      = ((inflateUncompressed { s with bfinal := b }).bind fun _ s => .ok () { s with seq := .blockEnd }).finish := rfl

/-- The operation does not look at `bfinal`, so the element does what the operation does. -/
theorem inflateUncompressed_bfinal (b : Bool) (s : State) :
    inflateUncompressed { s with bfinal := b }
      = (inflateUncompressed s).mapState (withOuter { s with bfinal := b }) :=
  inner_inflateUncompressed { s with bfinal := b } s

theorem exec_stored_ok {s t : State} (b : Bool) (h : inflateUncompressed s = .ok () t) (hi : t.issue = s.issue)
    (hr : t.request = s.request) : exec (.stored b) s = .next { t with bfinal := b, seq := .blockEnd } := by
  rw [exec_stored, inflateUncompressed_bfinal, h, Res.mapState_ok, Res.bind_ok, Res.finish_ok, ← hi, ← hr]
  rfl

theorem exec_stored_raises {s t : State} {c : Cause} (b : Bool) (h : inflateUncompressed s = .raised c t) :
    Raises (exec (.stored b) s) c.status := by
  rw [exec_stored, inflateUncompressed_bfinal, h]
  exact raises_finish rfl

/-! ## The copy -/

/-- The stored copy gives the bytes of the source. -/
theorem copyStored_bytes :
    ∀ {n : Nat} {s t : State}, copyStored n s = .ok () t →
      ∀ i, i < n → memRead t.out (s.dest + i) = memRead s.source (s.src + i) := by
  intro n
  induction n with
  | zero => exact fun _ i hi => absurd hi (Nat.not_lt_zero i)
  | succ n ih =>
    intro s t h i hi
    obtain ⟨v, u, hu, h1⟩ := Res.bind_eq_ok.1 h
    obtain ⟨rfl, -, hv⟩ := srcRead_cases hu
    obtain ⟨_, w, hw, h2⟩ := Res.bind_eq_ok.1 h1
    obtain ⟨-, rfl⟩ := emitByte_cases hw
    cases i with
    | zero =>
      have hkept := (copyStored_spec h2).1.others u.dest (.inl (Nat.lt_succ_self _))
      rw [Nat.add_zero, Nat.add_zero, hkept, hv]
      exact memRead_memWrite_same _ _ _
    | succ i =>
      have := ih h2 i (Nat.lt_of_succ_lt_succ hi)
      simp only at this
      rwa [show u.dest + (i + 1) = u.dest + 1 + i by omega, show u.src + (i + 1) = u.src + 1 + i by omega]

theorem checkStored_ok {len nlen : Nat} {s : State} (hn : nlen < 2 ^ 16) (h : len + nlen = 65535)
    (hs : s.src + len ≤ s.sourceLen) (hd : s.dest + len ≤ s.destCap) : checkStored len nlen s = .ok () s := by
  rw [checkStored, if_neg (not_not.2 ((eq_complement_iff hn).2 h)), if_neg (Nat.not_lt.2 hs), if_neg (Nat.not_lt.2 hd)]

/-- A block that passes its tests: the state it answers, but for OUT, and the bytes it puts there. -/
theorem inflateUncompressed_ok {s : State} {p : Nat} (hat : AtPosition s p)
    (hin : 8 * alignedByte p + 32 ≤ 8 * s.sourceLen)
    (hsum : field s (8 * alignedByte p) 16 + field s (8 * alignedByte p + 16) 16 = 65535)
    (hsrc : alignedByte p + 4 + field s (8 * alignedByte p) 16 ≤ s.sourceLen)
    (hdest : s.dest + field s (8 * alignedByte p) 16 ≤ s.destCap) :
    ∃ t, inflateUncompressed s = .ok () t
      ∧ (∀ i, i < field s (8 * alignedByte p) 16 →
          memRead t.out (s.dest + i) = memRead s.source (alignedByte p + 4 + i))
      ∧ (∀ a, a < s.dest ∨ s.dest + field s (8 * alignedByte p) 16 ≤ a → memRead t.out a = memRead s.out a)
      ∧ { t with out := s.out }
          = { s with
              tag := 0, bitcount := 0, src := alignedByte p + 4 + field s (8 * alignedByte p) 16
              dest := s.dest + field s (8 * alignedByte p) 16, destLen := s.destLen + field s (8 * alignedByte p) 16 } := by
  have hbyte : (8 * alignedByte p + 32 + 7) / 8 = alignedByte p + 4 := by omega
  have hcheck := checkStored_ok (s := seek s (8 * alignedByte p + 32)) (field_lt s (8 * alignedByte p + 16) 16) hsum
    (by rw [seek_src, seek_sourceLen, hbyte]; exact hsrc) hdest
  obtain ⟨v, hv⟩ := copyStored_answers (n := field s (8 * alignedByte p) 16) (s := seek s (8 * alignedByte p + 32))
    hat.readable (by rw [seek_src, seek_sourceLen, hbyte]; exact hsrc) hdest
  obtain ⟨happ, hvsrc, hframe⟩ := copyStored_spec hv
  have hbytes := copyStored_bytes hv
  rw [seek_src, hbyte] at hvsrc
  rw [seek_src, hbyte] at hbytes
  refine ⟨alignReader v, ?_, hbytes, happ.others, ?_⟩
  · rw [inflateUncompressed_eq hat hin, hcheck, Res.bind_ok, hv, Res.bind_ok]
  · have hdest := happ.dest
    have hdestLen := happ.destLen
    cases v
    cases s
    simp only [seek, State.mk.injEq] at hframe hvsrc hdest hdestLen ⊢
    simp [alignReader, hframe, hvsrc, hdest, hdestLen]

/-! ## LEN and NLEN at the end of the source -/

/-- REFILL from an aligned reader after `j` turns: the bytes are counted while there are any, and the last byte of `tag` is
zero once there are none. -/
structure AlignedTurn (s : State) (j : Nat) (t : State) : Prop where
  bitcount : t.bitcount = 8 * j
  tag : t.tag.toNat < 2 ^ (8 * j)
  loaded : t.overflow = false → t.src = s.src + j
  exhausted : t.overflow = true → t.src = t.sourceLen ∧ t.tag.toNat < 2 ^ (8 * (j - 1))

theorem AlignedTurn.loadByte {s t u : State} {j : Nat} (h : AlignedTurn s j t) (hw : t.bitcount + 8 ≤ 32)
    (hu : loadByte t = .ok () u) : AlignedTurn s (j + 1) u := by
  have hcount := h.bitcount
  have htag := h.tag
  have hmul : 8 * (j + 1) = 8 * j + 8 := by omega
  obtain ⟨b, hne, -, -, rfl⟩ | ⟨hend, rfl⟩ := loadByte_cases hu
  · have ho : t.overflow = false := Bool.eq_false_iff.2 fun ho => hne (h.exhausted ho).1
    have hsrc := h.loaded ho
    refine ⟨by simp only; omega, ?_, fun _ => by simp only; omega, fun ho' => ?_⟩
    · have hb : b.toNat < 2 ^ 8 := b.isLt
      rw [← hcount] at htag
      rw [toNat_or_byte htag hw, hmul, ← hcount, Nat.pow_add]
      have : 2 ^ t.bitcount * b.toNat + 2 ^ t.bitcount ≤ 2 ^ t.bitcount * 2 ^ 8 :=
        Nat.mul_le_mul_left (2 ^ t.bitcount) hb
      omega
    · exact absurd (ho.symm.trans ho') Bool.false_ne_true
  · refine ⟨by simp only; omega, ?_, fun ho => absurd ho (by simp), fun _ => ⟨hend, ?_⟩⟩
    · exact htag.trans_le (Nat.pow_le_pow_right (by decide) (by omega))
    · rwa [Nat.add_sub_cancel]

/-- Reading LEN or NLEN with an aligned reader: it stays aligned, and a field that runs past the end of the source has a
zero high byte. -/
theorem readU16_aligned {s t : State} {v : Nat} (hcount : s.bitcount = 0) (htag : s.tag = 0)
    (hover : s.overflow = true → s.src = s.sourceLen) (h : readU16 s = .ok v t) :
    t.bitcount = 0 ∧ t.tag = 0 ∧ (t.overflow = false → t.src = s.src + 2)
      ∧ (t.overflow = true → t.src = t.sourceLen ∧ v < 256) := by
  obtain ⟨x, hx, rfl⟩ := operand_cases h
  obtain ⟨-, u, hu, hc⟩ := getBits_cases hx
  have hzero : s.tag.toNat < 2 ^ 0 := by rw [htag]; decide
  obtain ⟨⟨j, hj⟩, hlo⟩ := refillLoop_induct (P := fun t => ∃ j, AlignedTurn s j t) (n := 16)
    (fun _ _ ⟨j, hj⟩ _ hw hl => ⟨j + 1, hj.loadByte hw hl⟩)
    ⟨0, hcount, hzero, fun _ => rfl, fun ho => ⟨hover ho, hzero⟩⟩ hu
  obtain ⟨-, -, -, -, -, -, hhi⟩ := refill_spec hu
  obtain ⟨-, rfl, rfl⟩ := consume_cases hc
  have hbits := hj.bitcount
  obtain rfl : j = 2 := by omega
  have hlt : u.tag.toNat < 2 ^ 16 := hj.tag
  refine ⟨by simp only; omega, ?_, hj.loaded, fun ho => ⟨(hj.exhausted ho).1, ?_⟩⟩
  · refine BitVec.eq_of_toNat_eq ?_
    rw [BitVec.toNat_ushiftRight, Nat.shiftRight_eq_div_pow, Nat.div_eq_of_lt hlt]
    rfl
  · have hbyte : u.tag.toNat < 2 ^ 8 := (hj.exhausted ho).2
    rw [Nat.zero_add, Nat.mod_eq_of_lt hlt]
    exact hbyte

/-- R262: when NLEN runs past the end of the source, either it is not the complement of LEN, or LEN is not 0 and there is
no byte left to copy. -/
theorem checkStored_past {s : State} {len nlen : Nat} (hsrc : s.src = s.sourceLen) (hn : nlen < 256) :
    ∃ c, c.status = .dataError ∧ checkStored len nlen s = .raised c s := by
  have hlt : nlen < 2 ^ 16 := hn.trans (by decide)
  by_cases hsum : len + nlen = 65535
  · exact ⟨.storedSourceShort, rfl, checkStored_short hlt hsum (by omega)⟩
  · exact ⟨.lenNlenMismatch, rfl, checkStored_mismatch hlt hsum⟩

/-- The two reads of an uncompressed block, when they return. -/
theorem readU16_twice {s u w : State} {len nlen : Nat} (hover : s.overflow = true → s.src = s.sourceLen)
    (hu : readU16 (alignReader s) = .ok len u) (hw : readU16 u = .ok nlen w) :
    (w.overflow = false → w.src = s.src + 4) ∧ (w.overflow = true → w.src = w.sourceLen ∧ nlen < 256) := by
  obtain ⟨hcount, htag, hload, hpast⟩ := readU16_aligned (s := alignReader s) rfl rfl hover hu
  obtain ⟨-, -, hload', hpast'⟩ := readU16_aligned hcount htag (fun ho => (hpast ho).1) hw
  refine ⟨fun ho => ?_, hpast'⟩
  obtain ⟨x, hx, -⟩ := operand_cases hw
  obtain ⟨-, -, -, hmono, -⟩ := getBits_spec hx
  have hu' : u.overflow = false := Bool.eq_false_iff.2 fun h => Bool.false_ne_true (ho.symm.trans (hmono h))
  rw [hload' ho, hload hu', alignReader_src]

/-- An uncompressed block that returns has not run past the end of the source. -/
theorem inflateUncompressed_noOverflow {s t : State} (hover : s.overflow = true → s.src = s.sourceLen)
    (h : inflateUncompressed s = .ok () t) : t.overflow = false := by
  obtain ⟨len, u, hu, h1⟩ := Res.bind_eq_ok.1 h
  obtain ⟨nlen, w, hw, h2⟩ := Res.bind_eq_ok.1 h1
  obtain ⟨_, x, hx, h3⟩ := Res.bind_eq_ok.1 h2
  obtain ⟨_, y, hy, h4⟩ := Res.bind_eq_ok.1 h3
  cases h4
  have hw' : w.overflow = false := by
    refine Bool.eq_false_iff.2 fun ho => ?_
    obtain ⟨hsrc, hn⟩ := (readU16_twice hover hu hw).2 ho
    obtain ⟨c, -, hraised⟩ := checkStored_past (len := len) hsrc hn
    exact absurd (hraised.symm.trans hx) (by simp)
  obtain ⟨rfl, -⟩ := checkStored_cases hx
  obtain ⟨-, -, hframe⟩ := copyStored_spec hy
  exact (congrArg State.overflow hframe).trans hw'

/-- R262: with fewer than four bytes left an uncompressed block raises. -/
theorem inflateUncompressed_truncated {s : State} (hready : ReaderReady s)
    (hover : s.overflow = true → s.src = s.sourceLen) (hshort : s.sourceLen < s.src + 4) :
    ∃ c t, c.status = .dataError ∧ inflateUncompressed s = .raised c t := by
  have haligned : ReaderReady (alignReader s) := ⟨hready.readable, hready.srcLe, Nat.zero_le 7⟩
  obtain ⟨len, u, hu, hready'⟩ := operand_answers haligned (base := 0) (n := 16) (by decide)
  obtain ⟨nlen, w, hw, hready''⟩ := operand_answers hready' (base := 0) (n := 16) (by decide)
  obtain ⟨hload, hpast⟩ := readU16_twice hover hu hw
  have hlen : w.sourceLen = s.sourceLen := by
    obtain ⟨x, hx, -⟩ := operand_cases hu
    obtain ⟨y, hy, -⟩ := operand_cases hw
    exact (getBits_spec hy).1.sourceLen.trans (getBits_spec hx).1.sourceLen
  have ho : w.overflow = true := by
    refine Bool.eq_true_of_not_eq_false fun ho => ?_
    have := hload ho
    have := hready''.srcLe
    omega
  obtain ⟨c, hc, hraised⟩ := checkStored_past (len := len) (hpast ho).1 (hpast ho).2
  exact ⟨c, w, hc, by rw [inflateUncompressed, readU16, hu, Res.bind_ok, readU16, hw, Res.bind_ok, hraised, Res.bind_raised]⟩

end Sys2Proof.Machine

namespace Sys2Proof

open Machine

/-- Settles O25: the block's copy gives the source's bytes (`copyStored_bytes`) and changes nothing else; the element does
what the operation does. -/
theorem storedBlockIsCopied : Obligations.StoredBlockIsCopied := by
  intro s p b hat hin hsum hsrc hdest
  obtain ⟨t, hok, hbytes, hothers, hframe⟩ := inflateUncompressed_ok hat hin hsum hsrc hdest
  have hissue := congrArg State.issue hframe
  have hrequest := congrArg State.request hframe
  exact ⟨t, by rw [exec_inflateUncompressed, hok, Res.finish_ok], exec_stored_ok b hok hissue hrequest, hbytes, hothers,
    hframe⟩

/-- Settles O27: a NLEN that runs past the end of the source has a zero high byte, so that the tests reject the block. -/
theorem truncatedStoredBlockRejected : Obligations.TruncatedStoredBlockRejected := by
  intro s b hready hover hshort
  obtain ⟨c, t, hc, hraised⟩ := inflateUncompressed_truncated hready hover hshort
  rw [exec_inflateUncompressed, ← hc]
  exact ⟨raises_finish hraised, exec_stored_raises b hraised⟩

end Sys2Proof
end

