-- ==== Sys2Proof/Proofs/Matches.lean ====
section
/-! PROOFS. Length/distance pairs (45): what the length half reads and holds (R223), what the distance half reads, tests and
copies (R224, R225, R227, R230). -/

namespace Sys2Proof.Machine

/-! ## Operands -/

theorem getBits_zero (s : State) : getBits 0 s = .ok 0 s := by
  simp [getBits, refill, refillLoop, consume, Nat.mod_one]

/-- GETBITS_BASE is the operand form of R101, for `n = 0` too. -/
theorem getBitsBase_eq_operand (n base : Nat) (s : State) : getBitsBase n base s = operand base n s := by
  by_cases hn : n = 0
  · subst hn
    rw [getBitsBase_zero, operand, getBits_zero, Res.bind_ok, Nat.add_zero]
  · rw [getBitsBase, if_neg hn, operand]

theorem operand_of_getBits {base n v : Nat} {s u : State} (h : getBits n s = .ok v u) :
    operand base n s = .ok (base + v) u := by
  rw [operand, h, Res.bind_ok]

/-- An operand inside the source: its base and the field at the position. -/
theorem operand_inside {s : State} {base p n : Nat} (hat : AtPosition s p) (hn : n ≤ 16)
    (hin : p + n ≤ 8 * s.sourceLen) : operand base n s = .ok (base + field s p n) (seek s (p + n)) :=
  operand_of_getBits (getBits_inside hat hn hin)

/-! ## The length half -/

theorem lengthHalf_ok {sym v : Nat} {s u : State} (hsym : (sym : Int) ≤ s.ltree.maxSym) (hrow : sym ≤ 285)
    (hdist : s.dtree.maxSym ≠ -1) (hread : readLength sym s = .ok v u) :
    lengthHalf sym s = .ok () { u with matchLen := v } := by
  rw [lengthHalf, if_neg (Int.not_lt.2 hsym), if_neg (by omega), if_neg hdist, hread, Res.bind_ok]

theorem lengthElement_ok {sym v : Nat} {s u : State} (ho : s.overflow = false) (hsym : (sym : Int) ≤ s.ltree.maxSym)
    (hrow : sym ≤ 285) (hdist : s.dtree.maxSym ≠ -1) (hread : readLength sym s = .ok v u) :
    lengthElement sym s = .ok () { u with matchLen := v, seq := .dist } := by
  rw [lengthElement, testOverflow_ok ho, Res.bind_ok, lengthHalf_ok hsym hrow hdist hread, Res.bind_ok]

/-- The rows of R98 read their extra bits. -/
theorem readLength_lenRow {i : Instr} {sym base bits : Nat} (h : (i, sym, base, bits) ∈ lenRows) (s : State) :
    readLength sym s = operand base bits s := by
  obtain ⟨-, -, -, hbase, hbits, -⟩ := lenRows_row h
  rw [readLength, hbase, hbits, getBitsBase_eq_operand]

/-! ## The copy engine -/

/-- R225 in closed form: byte `j` of a match is byte `j mod offs` of the bytes behind `dest`. -/
theorem copyMatch_bytes {offs : Nat} (ho : 0 < offs) :
    ∀ {n : Nat} {s t : State}, copyMatch n offs s = .ok () t → offs ≤ s.dest →
      ∀ j, j < n → memRead t.out (s.dest + j) = matchByte s.out s.dest offs j := by
  intro n
  induction n with
  | zero => exact fun _ _ j hj => absurd hj (Nat.not_lt_zero j)
  | succ n ih =>
    intro s t h hd j hj
    rw [copyMatch, if_neg (Nat.not_lt.2 hd)] at h
    obtain ⟨v, u, hu, h1⟩ := Res.bind_eq_ok.1 h
    obtain ⟨rfl, -, hv⟩ := outRead_cases hu
    obtain ⟨_, w, hw, h2⟩ := Res.bind_eq_ok.1 h1
    obtain ⟨-, rfl⟩ := emitByte_cases hw
    cases j with
    | zero =>
      have hkept := (copyMatch_spec h2).1.others u.dest (.inl (Nat.lt_succ_self _))
      rw [matchByte, Nat.zero_mod, Nat.add_zero, Nat.add_zero, hv, hkept]
      exact memRead_memWrite_same _ _ _
    | succ j =>
      have hstep := ih h2 (Nat.le_succ_of_le hd) j (Nat.lt_of_succ_lt_succ hj)
      simp only [matchByte] at hstep ⊢
      rw [show u.dest + (j + 1) = u.dest + 1 + j by omega, hstep]
      have hmod := Nat.mod_lt j ho
      by_cases hlast : j % offs = offs - 1
      · have hwrap : (j + 1) % offs = 0 := by
          rw [Nat.add_mod_eq_add_mod_right 1 (show j % offs = (offs - 1) % offs by
            rw [hlast, Nat.mod_eq_of_lt (by omega)]), Nat.sub_add_cancel ho, Nat.mod_self]
        rw [show u.dest + 1 - offs + j % offs = u.dest by omega, memRead_memWrite_same, hwrap, Nat.add_zero, hv]
      · have hnext : (j + 1) % offs = j % offs + 1 := by
          rw [← Nat.mod_add_mod, Nat.mod_eq_of_lt (by omega)]
        rw [memRead_memWrite_other _ _ (by omega), hnext, show u.dest + 1 - offs + j % offs = u.dest - offs + (j % offs + 1) by omega]

/-! ## The distance half -/

/-- The rows of R99 in the encoder and in the tables of the distance half. -/
theorem distRows_row {i : Instr} {d base bits : Nat} (h : (i, d, base, bits) ∈ distRows) :
    encode i = ⟨.ds, d, [], []⟩ ∧ d ≤ 29 ∧ distBase.getD d 0 = base ∧ distBits.getD d 0 = bits ∧ 1 ≤ base
      ∧ bits ≤ 16 := by
  have hall : ∀ r ∈ distRows, encode r.1 = ⟨.ds, r.2.1, [], []⟩ ∧ r.2.1 ≤ 29 ∧ distBase.getD r.2.1 0 = r.2.2.1
      ∧ distBits.getD r.2.1 0 = r.2.2.2 ∧ 1 ≤ r.2.2.1 ∧ r.2.2.2 ≤ 16 := by
    decide
  exact hall _ h

theorem exec_distRow {i : Instr} {d base bits : Nat} (h : (i, d, base, bits) ∈ distRows) (s : State) :
    exec i s = (distElement d s).finish := by
  obtain ⟨henc, -⟩ := distRows_row h
  rw [exec_eq_element i s (by simp [henc]), henc]
  rfl

theorem exec_rsvd30 (s : State) : exec .rsvd30 s = (distElement 30 s).finish := rfl

theorem exec_rsvd31 (s : State) : exec .rsvd31 s = (distElement 31 s).finish := rfl

theorem readDistance_distRow {i : Instr} {d base bits : Nat} (h : (i, d, base, bits) ∈ distRows) (s : State) :
    readDistance d s = operand base bits s := by
  obtain ⟨-, -, hbase, hbits, -⟩ := distRows_row h
  rw [readDistance, hbase, hbits, getBitsBase_eq_operand]

section
variable {d offs : Nat} {s u : State}

theorem distHalf_range (h : s.dtree.maxSym < d ∨ 29 < d) : distHalf d s = .raised .distSymRange s := if_pos h

theorem distHalf_read (hd : (d : Int) ≤ s.dtree.maxSym) (hrow : d ≤ 29) (hread : readDistance d s = .ok offs u) :
    distHalf d s
      = if u.destLen < offs then .raised .distanceTooFar u
        else if u.destCap < u.dest + u.matchLen then .raised .matchNoRoom u
        else copyMatch u.matchLen offs u := by
  rw [distHalf, if_neg (by omega), hread, Res.bind_ok]

theorem distElement_range (h : s.dtree.maxSym < d ∨ 29 < d) : distElement d s = .raised .distSymRange s := by
  rw [distElement, distHalf_range h, Res.bind_raised]

theorem distElement_tooFar (hd : (d : Int) ≤ s.dtree.maxSym) (hrow : d ≤ 29) (hread : readDistance d s = .ok offs u)
    (hfar : u.destLen < offs) : distElement d s = .raised .distanceTooFar u := by
  rw [distElement, distHalf_read hd hrow hread, if_pos hfar, Res.bind_raised]

theorem distElement_noRoom (hd : (d : Int) ≤ s.dtree.maxSym) (hrow : d ≤ 29) (hread : readDistance d s = .ok offs u)
    (hfar : offs ≤ u.destLen) (hroom : u.destCap < u.dest + u.matchLen) :
    distElement d s = .raised .matchNoRoom u := by
  rw [distElement, distHalf_read hd hrow hread, if_neg (Nat.not_lt.2 hfar), if_pos hroom, Res.bind_raised]

/-- A legal distance with room for the match: the match is copied and nothing else changes. -/
theorem distElement_ok (hd : (d : Int) ≤ s.dtree.maxSym) (hrow : d ≤ 29) (hread : readDistance d s = .ok offs u)
    (hoffs : 0 < offs) (hfar : offs ≤ u.destLen) (hdest : u.destLen = u.dest) (hroom : u.dest + u.matchLen ≤ u.destCap)
    (hwritten : ∀ a, a < u.dest → (memRead u.out a).isSome) :
    ∃ t, distElement d s = .ok () t
      ∧ (∀ j, j < u.matchLen → memRead t.out (u.dest + j) = matchByte u.out u.dest offs j)
      ∧ (∀ a, a < u.dest ∨ u.dest + u.matchLen ≤ a → memRead t.out a = memRead u.out a)
      ∧ { t with out := u.out }
          = { u with dest := u.dest + u.matchLen, destLen := u.destLen + u.matchLen, seq := .litLen } := by
  obtain ⟨t, ht⟩ := copyMatch_answers hoffs (by omega) hroom hwritten
  obtain ⟨happ, hframe⟩ := copyMatch_spec ht
  have hbytes := copyMatch_bytes hoffs ht (by omega)
  refine ⟨{ t with seq := .litLen }, ?_, hbytes, happ.others, ?_⟩
  · rw [distElement, distHalf_read hd hrow hread, if_neg (Nat.not_lt.2 hfar), if_neg (Nat.not_lt.2 hroom), ht, Res.bind_ok]
  · have hdest' := happ.dest
    have hdestLen := happ.destLen
    cases t
    cases u
    simp only [State.mk.injEq] at hframe hdest' hdestLen ⊢
    simp [hframe, hdest', hdestLen]

end

/-- What the bit reader leaves alone, for the distance half. -/
theorem ReaderFrame.output {s u : State} (h : ReaderFrame s u) :
    u.out = s.out ∧ u.dest = s.dest ∧ u.destLen = s.destLen ∧ u.destCap = s.destCap ∧ u.matchLen = s.matchLen := by
  rw [ReaderFrame.iff.1 h]
  exact ⟨rfl, rfl, rfl, rfl, rfl⟩

/-- A distance row in a state with a ready reader: it reads `base + v`, and the match is copied from so far back. -/
theorem distRow_copies {i : Instr} {d base bits v : Nat} {s u : State} (hrow : (i, d, base, bits) ∈ distRows)
    (hread : getBits bits s = .ok v u) (hdest : s.destLen = s.dest) (hwritten : ∀ a, a < s.dest → (memRead s.out a).isSome)
    (hd : (d : Int) ≤ s.dtree.maxSym) (hfar : base + v ≤ s.destLen) (hroom : s.dest + s.matchLen ≤ s.destCap) :
    ∃ t, exec i s = .next t
      ∧ (∀ j, j < s.matchLen → memRead t.out (s.dest + j) = matchByte s.out s.dest (base + v) j)
      ∧ (∀ a, a < s.dest ∨ s.dest + s.matchLen ≤ a → memRead t.out a = memRead s.out a)
      ∧ { t with out := s.out }
          = { u with dest := s.dest + s.matchLen, destLen := s.destLen + s.matchLen, seq := .litLen } := by
  obtain ⟨-, hd29, -, -, hbase, -⟩ := distRows_row hrow
  obtain ⟨hout, hudest, hulen, hucap, humatch⟩ := (getBits_spec hread).1.output
  have hoffs : readDistance d s = .ok (base + v) u := by
    rw [readDistance_distRow hrow, operand_of_getBits hread]
  obtain ⟨t, ht, hcopy⟩ := distElement_ok hd hd29 hoffs (by omega) (hulen ▸ hfar) (by rw [hulen, hudest, hdest])
    (by rwa [hudest, humatch, hucap]) (by rwa [hudest, hout])
  refine ⟨t, by rw [exec_distRow hrow, ht, Res.finish_ok], ?_⟩
  rw [← hout, ← hudest, ← hulen, ← humatch]
  exact hcopy

end Sys2Proof.Machine

namespace Sys2Proof

open Machine

/-- Settles O33: the tests of the length half pass, and its read is the row's. -/
theorem lengthSymbolsReadTheirLength : Obligations.LengthSymbolsReadTheirLength := by
  intro i sym base bits hrow
  obtain ⟨henc, -, h285, -, -, hbits⟩ := lenRows_row hrow
  have hread := readLength_lenRow hrow
  refine ⟨henc ▸ decode_encode i, fun s hready ho hsym hdist => ?_, fun s p hat hsym hdist hin => ?_⟩
  · obtain ⟨v, u, hv, -⟩ := getBits_answers hready hbits
    have hlen := lengthElement_ok ho hsym h285 hdist ((hread s).trans (operand_of_getBits hv))
    exact ⟨v, u, hv, by rw [exec_lenRow hrow, hlen, Res.finish_ok]⟩
  · have hlen := lengthElement_ok hat.noOverflow hsym h285 hdist ((hread s).trans (operand_inside hat hbits hin))
    rw [exec_lenRow hrow, hlen, Res.finish_ok]

/-- Settles O35: the read is the row's, and the copy engine's bytes are those of R225 (`copyMatch_bytes`). -/
theorem distanceSymbolsCopyTheMatch : Obligations.DistanceSymbolsCopyTheMatch := by
  intro i d base bits hrow
  obtain ⟨henc, -, -, -, -, hbits⟩ := distRows_row hrow
  refine ⟨henc ▸ decode_encode i, fun s hready hdest hwritten hd => ?_⟩
  obtain ⟨v, u, hv, -⟩ := getBits_answers hready hbits
  exact ⟨v, u, hv, distRow_copies hrow hv hdest hwritten hd⟩

/-- Settles O36: at a position the distance is read from the stream (`getBits_inside`). -/
theorem distanceIsReadFromTheStream : Obligations.DistanceIsReadFromTheStream := by
  intro i d base bits hrow s p hat hin hdest hwritten hd hfar hroom
  obtain ⟨-, -, -, -, -, hbits⟩ := distRows_row hrow
  obtain ⟨t, ht, hbytes, -, hframe⟩ :=
    distRow_copies hrow (getBits_inside hat hbits hin) hdest hwritten hd hfar hroom
  have hsrc := congrArg State.src hframe
  have hcount := congrArg State.bitcount hframe
  have htag := congrArg State.tag hframe
  have hdest' := congrArg State.dest hframe
  exact ⟨t, ht, hsrc, hcount, htag, hdest', hbytes⟩

/-- Settles O37, by the tests of the distance half in their order; symbols 30 and 31 fail the first one. -/
theorem distanceSymbolsRejected : Obligations.DistanceSymbolsRejected := by
  refine ⟨fun i d base bits hrow s => ⟨fun hd => ?_, fun hready hd => ?_⟩, fun s => ⟨?_, ?_⟩⟩
  · rw [exec_distRow hrow]
    exact raises_finish (distElement_range (.inl hd))
  · obtain ⟨-, h29, -, -, -, hbits⟩ := distRows_row hrow
    obtain ⟨v, u, hv, -⟩ := getBits_answers hready hbits
    obtain ⟨-, hudest, hulen, hucap, humatch⟩ := (getBits_spec hv).1.output
    have hread := (readDistance_distRow hrow s).trans (operand_of_getBits hv)
    refine ⟨v, u, hv, fun hfar => ?_, fun hfar hroom => ?_⟩
    · rw [exec_distRow hrow]
      exact raises_finish (distElement_tooFar hd h29 hread (hulen ▸ hfar))
    · rw [exec_distRow hrow]
      exact raises_finish (distElement_noRoom hd h29 hread (hulen ▸ hfar) (by rwa [hudest, humatch, hucap]))
  · rw [exec_rsvd30]
    exact raises_finish (distElement_range (.inr (by decide)))
  · rw [exec_rsvd31]
    exact raises_finish (distElement_range (.inr (by decide)))

end Sys2Proof
end

