-- ==== Sys2Proof/Proofs/DynamicHeader.lean ====
section
/-! PROOFS. The dynamic header (44): the counts and the code-length tree (R191 to R194), the runs of code lengths (R196 to
R198, R200), and the two builds at the end (R201, R202). -/

namespace Sys2Proof.Machine

/-! ## The scratch array -/

/-- The state with other code lengths. -/
def withLengths (lengths : Vector Nat 320) (s : State) : State := { s with lengths := lengths }

@[simp] theorem withLengths_lengths (v : Vector Nat 320) (s : State) : (withLengths v s).lengths = v := rfl

@[simp] theorem withLengths_ltree (v : Vector Nat 320) (s : State) : (withLengths v s).ltree = s.ltree := rfl

@[simp] theorem withLengths_withLengths (v w : Vector Nat 320) (s : State) :
    withLengths w (withLengths v s) = withLengths w s := rfl

@[simp] theorem withLengths_self (s : State) : withLengths s.lengths s = s := rfl

@[simp] theorem field_withLengths (v : Vector Nat 320) (s : State) (p n : Nat) :
    field (withLengths v s) p n = field s p n := field_congr rfl rfl p n

@[simp] theorem field_seek (s : State) (p q n : Nat) : field (seek s p) q n = field s q n := field_congr rfl rfl q n

theorem seek_withLengths (s : State) (v : Vector Nat 320) (p : Nat) :
    seek (withLengths v s) p = withLengths v (seek s p) := by
  rw [seek, field_withLengths]
  rfl

/-- The reader's position does not depend on the scratch array. -/
theorem AtPosition.withLengths {s : State} {p : Nat} (h : AtPosition s p) (v : Vector Nat 320) :
    AtPosition (withLengths v s) p :=
  ⟨h.readable, h.noOverflow, h.inSource, by rw [seek_withLengths, h.reader]⟩

theorem writeLength_eq {i v : Nat} {s : State} (h : i < 320) :
    writeLength i v s = .ok () (withLengths (s.lengths.setIfInBounds i v) s) := writeLength_ok h

/-- A slice depends on the scratch array alone. -/
theorem slice_congr {s t : State} (h : t.lengths = s.lengths) (off num : Nat) : slice t off num = slice s off num := by
  rw [slice, slice, h]

theorem slice_eq_map {s : State} {off num : Nat} (h : off + num ≤ 320) :
    slice s off num = (List.range' off num).map (entry s.lengths) := by
  refine List.ext_getElem (by rw [length_slice h]; simp) fun i hi _ => ?_
  have hlt : i < num := by rwa [length_slice h] at hi
  simp [slice, entry, show off + i < 320 by omega]

/-- R156 for a slice whose entries are code lengths. -/
theorem buildContract_of_entries {s : State} {off num : Nat} (hnum : num ≤ 288) (hin : off + num ≤ 320)
    (hle : ∀ i, off ≤ i → i < off + num → entry s.lengths i ≤ 15) : buildContract s.lengths off num = true := by
  refine buildContract_iff.2 ⟨hnum, hin, fun l hl => ?_⟩
  rw [← slice, slice_eq_map hin] at hl
  obtain ⟨i, hi, rfl⟩ := List.mem_map.1 hl
  obtain ⟨hlo, hhi⟩ := List.mem_range'_1.1 hi
  exact hle i hlo hhi

/-! ## The fixed part of the header -/

/-- R193: the first `n` entries from `i` on are 0. -/
theorem zeroLengths_spec :
    ∀ {n i : Nat} {s : State}, i + n ≤ 320 →
      ∃ v, zeroLengths n i s = .ok () (withLengths v s)
        ∧ ∀ k, entry v k = if i ≤ k ∧ k < i + n then 0 else entry s.lengths k := by
  intro n
  induction n with
  | zero => exact fun {_ s} _ => ⟨s.lengths, rfl, fun k => by rw [if_neg (by omega)]⟩
  | succ n ih =>
    intro i s hi
    obtain ⟨v, hzero, hentry⟩ := ih (i := i + 1) (s := withLengths (s.lengths.setIfInBounds i 0) s) (by omega)
    refine ⟨v, by rw [zeroLengths, writeLength_eq (by omega), Res.bind_ok, hzero, withLengths_withLengths], fun k => ?_⟩
    rw [hentry k, withLengths_lengths, entry_setIfInBounds]
    by_cases hk : i = k
    · rw [if_neg (by omega), if_pos (by omega), if_pos (by omega)]
    · rw [if_neg (show ¬ (i = k ∧ k < 320) from fun h => hk h.1)]
      by_cases h : i + 1 ≤ k ∧ k < i + 1 + n
      · rw [if_pos h, if_pos (by omega)]
      · rw [if_neg h, if_neg (by omega)]

/-- R193: each `clen` field goes to the entry of its symbol. -/
theorem readClens_spec :
    ∀ {syms : List Nat} {s : State} {p : Nat}, syms.Nodup → (∀ sym ∈ syms, sym < 320) → AtPosition s p →
      p + 3 * syms.length ≤ 8 * s.sourceLen →
      ∃ v, readClens syms s = .ok () (withLengths v (seek s (p + 3 * syms.length)))
        ∧ ∀ k, entry v k = if k ∈ syms then field s (p + 3 * syms.idxOf k) 3 else entry s.lengths k := by
  intro syms
  induction syms with
  | nil =>
    intro s p _ _ hat _
    refine ⟨s.lengths, ?_, fun k => by simp⟩
    rw [List.length_nil, Nat.mul_zero, Nat.add_zero, hat.reader, withLengths_self, readClens]
  | cons sym syms ih =>
    intro s p hnodup hlt hat hin
    obtain ⟨hnot, hnodup⟩ := List.nodup_cons.1 hnodup
    obtain ⟨hsym, hlt⟩ := List.forall_mem_cons.1 hlt
    have hlen : p + 3 + 3 * syms.length = p + 3 * (sym :: syms).length := by
      rw [List.length_cons]
      omega
    obtain ⟨v, hread, hentry⟩ := ih hnodup hlt
      ((hat.seek (q := p + 3) (by omega)).withLengths (s.lengths.setIfInBounds sym (field s p 3)))
      (by rw [hlen]; exact hin)
    rw [hlen, seek_withLengths, seek_seek, withLengths_withLengths] at hread
    refine ⟨v, ?_, fun k => ?_⟩
    · rw [readClens, readClen, operand_inside hat (by decide) (by omega), Res.bind_ok, Nat.zero_add,
        writeLength_eq hsym, Res.bind_ok, seek_lengths, hread]
    · rw [hentry k, field_withLengths, field_seek, withLengths_lengths, entry_setIfInBounds]
      by_cases hk : sym = k
      · subst hk
        rw [if_neg hnot, if_pos ⟨rfl, hsym⟩, if_pos List.mem_cons_self, List.idxOf_cons_self, Nat.mul_zero, Nat.add_zero]
      · have hmem : k ∈ sym :: syms ↔ k ∈ syms := by simp [Ne.symm hk]
        rw [if_neg (show ¬ (sym = k ∧ k < 320) from fun h => hk h.1), List.idxOf_cons_ne _ hk, if_congr hmem rfl rfl,
          show p + 3 + 3 * syms.idxOf k = p + 3 * (syms.idxOf k).succ by omega]

/-- The state at the end of the fixed part: the counts, the code-length tree and the code lengths. -/
def withHeader (hlit hdist : Nat) (T : Tree) (lengths : Vector Nat 320) (s : State) : State :=
  { s with hlit := hlit, hdist := hdist, num := 0, ltree := T, lengths := lengths }

@[simp] theorem withHeader_issue (hlit hdist : Nat) (T : Tree) (v : Vector Nat 320) (s : State) :
    (withHeader hlit hdist T v s).issue = s.issue := rfl

@[simp] theorem withHeader_request (hlit hdist : Nat) (T : Tree) (v : Vector Nat 320) (s : State) :
    (withHeader hlit hdist T v s).request = s.request := rfl

/-- R194: a code-length tree without a code raises. -/
def checkCodes (hlit hdist : Nat) (s : State) : Res Unit :=
  if s.ltree.maxSym = -1 then .raised .cltreeEmpty s else .ok () { s with hlit := hlit, hdist := hdist, num := 0 }

theorem checkCodes_raised {hlit hdist : Nat} {T : Tree} {s : State} (h : T.maxSym = -1) :
    ∃ u, checkCodes hlit hdist (setTree .ltree T s) = .raised .cltreeEmpty u :=
  ⟨setTree .ltree T s, if_pos h⟩

theorem checkCodes_ok {hlit hdist : Nat} {T : Tree} {v : Vector Nat 320} {s : State} (h : T.maxSym ≠ -1) :
    checkCodes hlit hdist (setTree .ltree T (withLengths v s)) = .ok () (withHeader hlit hdist T v s) :=
  if_neg h

/-- The rest of the header behind the three counts (R192 to R194). -/
def clTreePart (hlit hdist hclen : Nat) (s : State) : Res Unit :=
  (checkCounts hlit hdist s).bind fun _ s =>
  (zeroLengths 19 0 s).bind fun _ s =>
  (readClens (clOrder.take hclen) s).bind fun _ s =>
  (buildTree .ltree 0 19 s).bind fun _ s => checkCodes hlit hdist s

section
variable {s : State} {p : Nat}

/-- R191: the three counts at the position. -/
theorem beginHeader_eq (hat : AtPosition s p) (hin : p + 14 ≤ 8 * s.sourceLen) :
    beginHeader s
      = clTreePart (257 + field s p 5) (1 + field s (p + 5) 5) (4 + field s (p + 10) 4) (seek s (p + 14)) := by
  have hlit : readHlit s = .ok (257 + field s p 5) (seek s (p + 5)) := operand_inside hat (by decide) (by omega)
  have hdist : readHdist (seek s (p + 5)) = .ok (1 + field s (p + 5) 5) (seek s (p + 10)) := by
    rw [readHdist, operand_inside (hat.seek (by omega)) (by decide) (by rw [seek_sourceLen]; omega), seek_seek]
    rfl
  have hclen : readHclen (seek s (p + 10)) = .ok (4 + field s (p + 10) 4) (seek s (p + 14)) := by
    rw [readHclen, operand_inside (hat.seek (by omega)) (by decide) (by rw [seek_sourceLen]; omega), seek_seek]
    rfl
  rw [beginHeader, hlit, Res.bind_ok, hdist, Res.bind_ok, hclen, Res.bind_ok]
  rfl

/-- R192: a count out of range raises. -/
theorem clTreePart_range {hlit hdist : Nat} (hclen : Nat) (h : 286 < hlit ∨ 30 < hdist) :
    ∃ c, c.status = .dataError ∧ clTreePart hlit hdist hclen s = .raised c s := by
  rw [clTreePart, checkCounts]
  by_cases hl : 286 < hlit
  · exact ⟨.hlitRange, rfl, by rw [if_pos hl, Res.bind_raised]⟩
  · have hd : 30 < hdist := by omega
    exact ⟨.hdistRange, rfl, by rw [if_neg hl, if_pos hd, Res.bind_raised]⟩

theorem clOrder_spec : clOrder.Nodup ∧ ∀ sym, sym ∈ clOrder ↔ sym < 19 := by
  have hlt : ∀ sym ∈ clOrder, sym < 19 := by decide
  have hmem : ∀ sym < 19, sym ∈ clOrder := by decide
  exact ⟨by decide, fun sym => ⟨hlt sym, hmem sym⟩⟩

/-- A symbol's field is read exactly when its place in CLORDER is below HCLEN, and its place does not change. -/
theorem clOrder_take {hclen k : Nat} (hk : k < 19) :
    (k ∈ clOrder.take hclen ↔ clOrder.idxOf k < hclen)
      ∧ (k ∈ clOrder.take hclen → (clOrder.take hclen).idxOf k = clOrder.idxOf k) := by
  have hsplit : clOrder.idxOf k = (clOrder.take hclen ++ clOrder.drop hclen).idxOf k := by rw [List.take_append_drop]
  have hlt := List.idxOf_lt_length_of_mem ((clOrder_spec.2 k).2 hk)
  by_cases hmem : k ∈ clOrder.take hclen
  · have hidx : clOrder.idxOf k = (clOrder.take hclen).idxOf k := hsplit.trans (List.idxOf_append_of_mem hmem)
    have hlow := List.idxOf_lt_length_of_mem hmem
    rw [List.length_take] at hlow
    exact ⟨⟨fun _ => by omega, fun _ => hmem⟩, fun _ => hidx.symm⟩
  · refine ⟨⟨fun h => absurd h hmem, fun h => absurd ?_ hmem⟩, fun h => absurd h hmem⟩
    have hget : clOrder[clOrder.idxOf k] = k := List.getElem_idxOf hlt
    exact List.mem_take_iff_getElem.2 ⟨clOrder.idxOf k, by omega, hget⟩

theorem length_headerClens (s : State) (p hclen : Nat) : (headerClens s p hclen).length = 19 := by simp [headerClens]

theorem headerClens_getD {hclen k : Nat} (hk : k < 19) :
    (headerClens s p hclen).getD k 0
      = if clOrder.idxOf k < hclen then field s (p + 3 * clOrder.idxOf k) 3 else 0 := by
  simp [headerClens, hk]

theorem headerClens_lt {hclen : Nat} : ∀ l ∈ headerClens s p hclen, l < 8 := by
  intro l hl
  obtain ⟨k, -, rfl⟩ := List.mem_map.1 hl
  split
  · exact field_lt s _ 3
  · decide

theorem headerClens_congr {s t : State} (h : t.source = s.source) (hl : t.sourceLen = s.sourceLen) (p hclen : Nat) :
    headerClens t p hclen = headerClens s p hclen := by
  simp only [headerClens, field_congr h hl]

/-- R193: with the counts in range and the `clen` fields in the source, the code lengths stand in their entries. -/
theorem clTreePart_reads {hlit hdist hclen : Nat} (hat : AtPosition s p) (hl : hlit ≤ 286) (hd : hdist ≤ 30)
    (hc : hclen ≤ 19) (hin : p + 3 * hclen ≤ 8 * s.sourceLen) :
    ∃ v, clTreePart hlit hdist hclen s
          = ((buildTree .ltree 0 19 (withLengths v (seek s (p + 3 * hclen)))).bind fun _ s => checkCodes hlit hdist s)
        ∧ ∀ k, entry v k = if k < 19 then (headerClens s p hclen).getD k 0 else entry s.lengths k := by
  obtain ⟨hnodup, hrange⟩ := clOrder_spec
  have htake : (clOrder.take hclen).length = hclen := by
    rw [List.length_take]
    exact Nat.min_eq_left hc
  obtain ⟨zeros, hzero, hzentry⟩ := zeroLengths_spec (n := 19) (i := 0) (s := s) (by decide)
  obtain ⟨v, hread, hentry⟩ := readClens_spec (syms := clOrder.take hclen)
    (hnodup.sublist (List.take_sublist _ _))
    (fun sym hsym => ((hrange sym).1 (List.mem_of_mem_take hsym)).trans (by decide)) (hat.withLengths zeros)
    (by rw [htake]; exact hin)
  rw [htake, seek_withLengths, withLengths_withLengths] at hread
  refine ⟨v, ?_, fun k => ?_⟩
  · rw [clTreePart, checkCounts, if_neg (Nat.not_lt.2 hl), if_neg (Nat.not_lt.2 hd), Res.bind_ok, hzero, Res.bind_ok,
      hread, Res.bind_ok]
  · rw [hentry k, withLengths_lengths, hzentry k]
    by_cases hk : k < 19
    · obtain ⟨hmem, hidx⟩ := clOrder_take (hclen := hclen) hk
      rw [if_pos hk, headerClens_getD hk, if_pos (show 0 ≤ k ∧ k < 0 + 19 by omega)]
      by_cases h : k ∈ clOrder.take hclen
      · rw [if_pos h, if_pos (hmem.1 h), hidx h, field_withLengths]
      · rw [if_neg h, if_neg (mt hmem.2 h)]
    · rw [if_neg hk, if_neg (show ¬ (0 ≤ k ∧ k < 0 + 19) by omega),
        if_neg fun h => hk ((hrange k).1 (List.mem_of_mem_take h))]

/-- What the header does behind its counts: the builder's verdict on the code lengths, and whether there is any code. -/
theorem clTreePart_cases {hlit hdist hclen : Nat} (hat : AtPosition s p) (hl : hlit ≤ 286) (hd : hdist ≤ 30)
    (hc : hclen ≤ 19) (hin : p + 3 * hclen ≤ 8 * s.sourceLen) :
    (buildCheck (headerClens s p hclen) ≠ none ∨ codedCount (headerClens s p hclen) = 0 →
        ∃ c u, c.status = .dataError ∧ clTreePart hlit hdist hclen s = .raised c u)
      ∧ (buildCheck (headerClens s p hclen) = none → 0 < codedCount (headerClens s p hclen) →
          ∃ v, clTreePart hlit hdist hclen s
                = .ok () (withHeader hlit hdist (finishedTree (headerClens s p hclen) s.ltree) v
                    (seek s (p + 3 * hclen)))
              ∧ ∀ k, entry v k = if k < 19 then (headerClens s p hclen).getD k 0 else entry s.lengths k) := by
  obtain ⟨v, hpart, hentry⟩ := clTreePart_reads hat hl hd hc hin
  have hslice : slice (withLengths v (seek s (p + 3 * hclen))) 0 19 = headerClens s p hclen := by
    rw [slice_eq_map (by decide)]
    refine List.ext_getElem (by simp [length_headerClens]) fun i hi _ => ?_
    have hlt : i < 19 := by simpa using hi
    rw [List.getElem_map, List.getElem_range', Nat.zero_add, Nat.one_mul, withLengths_lengths, hentry i, if_pos hlt,
      List.getD_eq_getElem]
  have hcontract : buildContract (withLengths v (seek s (p + 3 * hclen))).lengths 0 19 = true := by
    refine buildContract_iff.2 ⟨by decide, by decide, fun l hl => ?_⟩
    rw [← slice, hslice] at hl
    have := headerClens_lt l hl
    omega
  have hraise := fun c => buildTree_raised (c := c) .ltree hcontract
  have hbuild := buildTree_ok .ltree hcontract
  rw [hslice] at hraise hbuild
  rw [hpart]
  refine ⟨fun hbad => ?_, fun hcheck hpos => ⟨v, ?_, hentry⟩⟩
  · cases hcheck : buildCheck (headerClens s p hclen) with
    | some c => exact ⟨c, _, buildCheck_cause hcheck, by rw [hraise c hcheck, Res.bind_raised]⟩
    | none =>
      have hempty := lastCoded_of_empty (hbad.resolve_left fun h => h hcheck)
      rw [hbuild hcheck, Res.bind_ok]
      obtain ⟨u, hu⟩ := checkCodes_raised (hlit := hlit) (hdist := hdist) ((finishedTree_maxSym _ _).trans hempty)
      exact ⟨.cltreeEmpty, u, rfl, hu⟩
  · obtain ⟨m, -, hlast, -⟩ := lastCoded_of_coded hpos
    rw [hbuild hcheck, Res.bind_ok, getTree_ltree, withLengths_ltree, seek_ltree, checkCodes_ok]
    rw [finishedTree_maxSym, hlast]
    omega

end

/-! ## The element DYNAMIC and the operation -/

theorem exec_dynamic (b : Bool) (s : State) :
    exec (.dynamic b) s
      = ((beginHeader { s with bfinal := b }).bind fun _ s => .ok () { s with seq := .codeLen }).finish := rfl

theorem exec_decodeTrees (s : State) : exec .decodeTrees s = (decodeTrees s).finish := rfl

theorem beginHeader_bfinal (b : Bool) (s : State) :
    beginHeader { s with bfinal := b } = (beginHeader s).mapState (withOuter { s with bfinal := b }) :=
  inner_beginHeader { s with bfinal := b } s

theorem exec_dynamic_ok {s t : State} (b : Bool) (h : beginHeader s = .ok () t) (hi : t.issue = s.issue)
    (hr : t.request = s.request) : exec (.dynamic b) s = .next { t with bfinal := b, seq := .codeLen } := by
  rw [exec_dynamic, beginHeader_bfinal, h, Res.mapState_ok, Res.bind_ok, Res.finish_ok, ← hi, ← hr]
  rfl

/-- A header that raises does so as an element and inside the operation. -/
theorem beginHeader_raises {s t : State} {c : Cause} (b : Bool) (h : beginHeader s = .raised c t) :
    Raises (exec (.dynamic b) s) c.status ∧ Raises (exec .decodeTrees s) c.status := by
  refine ⟨?_, ?_⟩
  · rw [exec_dynamic, beginHeader_bfinal, h]
    exact raises_finish rfl
  · rw [exec_decodeTrees, decodeTrees, h]
    exact raises_finish rfl

/-! ## Runs of code lengths -/

/-- A run that fits: its entries are written, and `num` stands behind them. -/
theorem storeRun_fits {val rep : Nat} {s : State} (hfits : s.num + rep ≤ s.hlit + s.hdist)
    (hsize : s.hlit + s.hdist ≤ 320) :
    ∃ t, storeRun val rep s = .ok () t
      ∧ (∀ k, entry t.lengths k = if s.num ≤ k ∧ k < s.num + rep then val else entry s.lengths k)
      ∧ { t with lengths := s.lengths } = { s with num := s.num + rep } := by
  obtain ⟨t, ht⟩ := fillLengths_answers (val := val) (s := s) (hfits.trans hsize)
  obtain ⟨hnum, hframe, -, hentry⟩ := fillLengths_spec ht
  refine ⟨t, by rw [storeRun_ok hfits, ht], hentry, ?_⟩
  cases t
  cases s
  simp only [State.mk.injEq] at hframe hnum ⊢
  simp [hframe, hnum]

/-- What the bit reader leaves alone, for the code-length symbols. -/
theorem ReaderFrame.header {s u : State} (h : ReaderFrame s u) :
    u.num = s.num ∧ u.hlit = s.hlit ∧ u.hdist = s.hdist ∧ u.lengths = s.lengths := by
  rw [ReaderFrame.iff.1 h]
  exact ⟨rfl, rfl, rfl, rfl⟩

/-- A run behind the read of its repeat count: it raises past the counts and leaves the entries alone, or is written. -/
theorem storeRun_after_read {val rep : Nat} {s u : State} (hframe : ReaderFrame s u) (hsize : s.hlit + s.hdist ≤ 320) :
    (s.hlit + s.hdist < s.num + rep → storeRun val rep u = .raised .repeatOvershoot u)
      ∧ (s.num + rep ≤ s.hlit + s.hdist →
          ∃ t, storeRun val rep u = .ok () t
            ∧ (∀ k, entry t.lengths k = if s.num ≤ k ∧ k < s.num + rep then val else entry s.lengths k)
            ∧ { t with lengths := s.lengths } = { u with num := s.num + rep }) := by
  obtain ⟨hnum, hhlit, hhdist, hlengths⟩ := hframe.header
  refine ⟨fun h => storeRun_raised (by omega), fun h => ?_⟩
  obtain ⟨t, ht, hentry, htframe⟩ := storeRun_fits (val := val) (rep := rep) (s := u) (by omega) (by omega)
  refine ⟨t, ht, ?_⟩
  rw [← hnum, ← hlengths]
  exact ⟨hentry, htframe⟩

theorem previousLength_first {s : State} (h : s.num = 0) : previousLength s = .raised .repeatNoPrevious s := if_pos h

theorem previousLength_ok {s : State} (h : 0 < s.num) (hsize : s.num ≤ 320) :
    previousLength s = .ok (entry s.lengths (s.num - 1)) s :=
  (if_neg h.ne').trans (if_pos hsize)

/-- The zero runs, with the forms of their rows (R197, R198). -/
theorem exec_zeroRow {i : Instr} {sym base bits : Nat} (h : (i, sym, base, bits) ∈ zeroRows) (s : State) :
    encode i = ⟨.cl, sym, [], []⟩ ∧ bits ≤ 16
      ∧ exec i s = ((checkClSym sym s).bind fun _ s => (operand base bits s).bind fun rep s => storeRun 0 rep s).finish := by
  simp only [zeroRows, List.mem_cons, List.not_mem_nil, or_false, Prod.mk.injEq] at h
  obtain ⟨rfl, rfl, rfl, rfl⟩ | ⟨rfl, rfl, rfl, rfl⟩ := h
  · exact ⟨rfl, by decide, rfl⟩
  · exact ⟨rfl, by decide, rfl⟩

/-! ## The end of the header -/

section
variable {s : State}

/-- At the end of a dynamic header the step is the two builds. -/
theorem step_headerEnd (hr : s.request = none) (hi : s.issue = none) (hp : s.phase = .run) (hq : s.seq = .codeLen)
    (hnum : s.num = s.hlit + s.hdist) :
    step s = ((endHeader s).bind fun _ s => .ok () { s with seq := .litLen }).finish := by
  have hmode : mode s = none := by
    rw [mode, hq]
    exact if_neg (by omega)
  rw [step_run hr hi hp, runStep_of_no_mode hmode, sequence, hq]

/-- R201, R202: the three ways the end of a header goes. -/
theorem endHeader_cases (hlit : s.hlit ≤ 286) (hdist : s.hdist ≤ 30)
    (hle : ∀ i, i < s.hlit + s.hdist → entry s.lengths i ≤ 15) :
    (entry s.lengths 256 = 0 ∧ endHeader s = .raised .noEobCode s)
      ∨ (0 < entry s.lengths 256 ∧ (buildCheck (slice s 0 s.hlit) ≠ none ∨ buildCheck (slice s s.hlit s.hdist) ≠ none)
          ∧ ∃ c t, c.status = .dataError ∧ endHeader s = .raised c t)
      ∨ (0 < entry s.lengths 256 ∧ buildCheck (slice s 0 s.hlit) = none ∧ buildCheck (slice s s.hlit s.hdist) = none
          ∧ endHeader s = .ok ()
              { s with
                ltree := finishedTree (slice s 0 s.hlit) s.ltree
                dtree := finishedTree (slice s s.hlit s.hdist) s.dtree }) := by
  by_cases heob : entry s.lengths 256 = 0
  · exact .inl ⟨heob, if_pos heob⟩
  · have hpos := Nat.pos_of_ne_zero heob
    have hl := buildContract_of_entries (s := s) (off := 0) (num := s.hlit) (by omega) (by omega)
      fun i _ hi => hle i (by omega)
    have hd := buildContract_of_entries (s := s) (off := s.hlit) (num := s.hdist) (by omega) (by omega)
      fun i _ hi => hle i hi
    rw [endHeader, if_neg heob]
    cases hlcheck : buildCheck (slice s 0 s.hlit) with
    | some c =>
      rw [buildTree_raised .ltree hl hlcheck, Res.bind_raised]
      exact .inr (.inl ⟨hpos, .inl (by simp), c, _, buildCheck_cause hlcheck, rfl⟩)
    | none =>
      rw [buildTree_ok .ltree hl hlcheck, Res.bind_ok]
      have hd' : buildContract (setTree .ltree (finishedTree (slice s 0 s.hlit) (getTree .ltree s)) s).lengths s.hlit
          s.hdist = true := by
        rw [setTree_lengths]
        exact hd
      have hraise := fun c => buildTree_raised (c := c) .dtree hd'
      have hbuild := buildTree_ok .dtree hd'
      rw [slice_congr (setTree_lengths _ _ _)] at hraise hbuild
      cases hdcheck : buildCheck (slice s s.hlit s.hdist) with
      | some c =>
        rw [setTree_hlit, setTree_hdist, hraise c hdcheck]
        exact .inr (.inl ⟨hpos, .inr (by simp), c, _, buildCheck_cause hdcheck, rfl⟩)
      | none =>
        refine .inr (.inr ⟨hpos, rfl, rfl, ?_⟩)
        rw [setTree_hlit, setTree_hdist, hbuild hdcheck, setTree_dtree, setTree_ltree, getTree_dtree, getTree_ltree]

end

end Sys2Proof.Machine

namespace Sys2Proof

open Machine

/-- Settles O28: the fields behind the counts are the code lengths through CLORDER (`clTreePart_reads`), and the builder
decides. -/
theorem dynamicHeaderBuildsTheCodeLengthTree : Obligations.DynamicHeaderBuildsTheCodeLengthTree := by
  intro s p b hat hlit hdist hin
  have hclen := field_lt s (p + 10) 4
  have hbegin := beginHeader_eq hat (by omega)
  obtain ⟨hbad, hgood⟩ := clTreePart_cases (hlit := 257 + field s p 5) (hdist := 1 + field s (p + 5) 5)
    (hclen := 4 + field s (p + 10) 4) (hat.seek (q := p + 14) (by omega)) (by omega) (by omega) (by omega)
    (by rw [seek_sourceLen]; omega)
  have hclens : headerClens (seek s (p + 14)) (p + 14) (4 + field s (p + 10) 4)
      = headerClens s (p + 14) (4 + field s (p + 10) 4) := headerClens_congr rfl rfl _ _
  rw [hclens, ← hbegin] at hbad hgood
  refine ⟨fun h => ?_, fun hcheck hpos => ?_⟩
  · obtain ⟨c, u, hc, hraised⟩ := hbad h
    exact hc ▸ beginHeader_raises b hraised
  · obtain ⟨v, hok, hentry⟩ := hgood hcheck hpos
    rw [seek_seek, seek_ltree] at hok
    generalize finishedTree _ s.ltree = T at hok ⊢
    have hexec := exec_dynamic_ok b hok ((withHeader_issue ..).trans (seek_issue ..))
      ((withHeader_request ..).trans (seek_request ..))
    refine ⟨_, hexec, rfl, rfl, rfl, rfl, rfl, rfl, fun i hi => ?_, fun i hi => ?_, rfl⟩
    · exact (hentry i).trans (if_pos hi)
    · exact (hentry i).trans (if_neg (Nat.not_lt.2 hi))

/-- Settles O29: the counts are tested behind their reads. -/
theorem countsOutOfRangeRejected : Obligations.CountsOutOfRangeRejected := by
  intro s p b hat hin hrange
  obtain ⟨c, hc, hraised⟩ := clTreePart_range (s := seek s (p + 14)) (4 + field s (p + 10) 4) hrange
  exact hc ▸ beginHeader_raises b ((beginHeader_eq hat hin).trans hraised)

/-- Settles O39, by the test for the first position, the read and the run. -/
theorem repeatPreviousCopiesTheLastLength : Obligations.RepeatPreviousCopiesTheLastLength := by
  refine fun s => ⟨fun hnum => ?_, fun hmax hpos hnum hsize hready => ?_⟩
  · rw [exec_cl16]
    obtain ⟨hlt, -⟩ | ⟨-, hok⟩ := checkClSym_cases 16 s
    · exact checkClSym_bind_raises hlt _
    · refine raises_finish (c := .repeatNoPrevious) (s := s) ?_
      rw [hok, Res.bind_ok, clRepeatPrevious, previousLength_first hnum, Res.bind_raised]
  · obtain ⟨v, u, hv, -⟩ := getBits_answers hready (n := 2) (by decide)
    obtain ⟨hframe, -, -, -, hlt, -⟩ := getBits_spec hv
    have hexec : exec .cl16 s = (storeRun (entry s.lengths (s.num - 1)) (3 + v) u).finish := by
      rw [exec_cl16, checkClSym_ok hmax, Res.bind_ok, clRepeatPrevious, previousLength_ok hpos (hnum.trans hsize),
        Res.bind_ok, readRepeat16, operand_of_getBits hv, Res.bind_ok]
    obtain ⟨hover, hfits⟩ := storeRun_after_read (val := entry s.lengths (s.num - 1)) (rep := 3 + v) hframe hsize
    rw [hexec]
    refine ⟨v, u, hv, Nat.le_of_lt_succ hlt, fun h => raises_finish (hover h), fun h => ?_⟩
    obtain ⟨t, ht, hentry, htframe⟩ := hfits h
    exact ⟨t, by rw [ht, Res.finish_ok], hentry, htframe⟩

/-- Settles O40, by the read and the run; the overshoot test comes before the first write. -/
theorem zeroRunsAreStored : Obligations.ZeroRunsAreStored := by
  intro i sym base bits hrow
  have henc := (exec_zeroRow hrow State.reset).1
  refine ⟨henc ▸ decode_encode i, fun s hmax hsize hready => ?_⟩
  obtain ⟨-, hbits, hexec⟩ := exec_zeroRow hrow s
  obtain ⟨v, u, hv, -⟩ := getBits_answers hready hbits
  obtain ⟨hframe, -⟩ := getBits_spec hv
  rw [checkClSym_ok hmax, Res.bind_ok, operand_of_getBits hv, Res.bind_ok] at hexec
  obtain ⟨hover, hfits⟩ := storeRun_after_read (val := 0) (rep := base + v) hframe hsize
  rw [hexec]
  refine ⟨v, u, hv, fun h => ⟨raises_finish (hover h), fun t ht => ?_⟩, fun h => ?_⟩
  · rw [hover h, Res.finish_raised] at ht
    cases ht
    obtain ⟨hnum, -, -, hlengths⟩ := hframe.header
    exact ⟨hlengths, hnum⟩
  · obtain ⟨t, ht, hentry, htframe⟩ := hfits h
    exact ⟨t, by rw [ht, Res.finish_ok], hentry, htframe⟩

/-- Settles O42, by the three ways the end of a header goes. -/
theorem headerEndBuildsBothTrees : Obligations.HeaderEndBuildsBothTrees := by
  intro s hr hi hp hq hnum _ hlit hdist hle
  rw [step_headerEnd hr hi hp hq hnum]
  obtain ⟨heob, hraised⟩ | ⟨heob, hbad, c, t, hc, hraised⟩ | ⟨heob, hl, hd, hok⟩ :=
    endHeader_cases hlit hdist fun i _ => hle i
  · refine ⟨fun _ => raises_finish (c := .noEobCode) (s := s) ?_, fun h => by omega, fun h => by omega⟩
    rw [hraised, Res.bind_raised]
  · refine ⟨fun h => by omega, fun _ _ => ?_, fun _ hl hd => by simp [hl, hd] at hbad⟩
    rw [hraised, Res.bind_raised, ← hc]
    exact raises_finish rfl
  · refine ⟨fun h => by omega, fun _ h => by simp [hl, hd] at h, fun _ _ _ => ?_⟩
    rw [hok, Res.bind_ok, Res.finish_ok]

end Sys2Proof
end

