-- ==== Sys2Proof/Proofs/RoundTrips.lean ====
section
/-! PROOFS. Streams that an encoder writes (R281 row 1): the literals of a fixed block, alone and inside UNCOMPRESS, and a
stored block inside UNCOMPRESS. -/

namespace Sys2Proof.Machine

/-! ## The bits of packed bytes -/

theorem testBit_fieldValue (bits : List Bool) (i : Nat) : (fieldValue bits).testBit i = bits.getD i false := by
  by_cases h : i < bits.length
  · have hbits := congrArg (fun l => l[i]?) (lsbBits_fieldValue bits)
    simp only [lsbBits, List.getElem?_map, List.getElem?_range h, List.getElem?_eq_getElem h, Option.map_some,
      Option.some.injEq] at hbits
    rw [hbits, List.getD_eq_getElem _ _ h]
  · have hlt := (fieldValue_lt bits).trans_le (Nat.pow_le_pow_right (by decide) (Nat.not_lt.1 h))
    rw [Nat.testBit_lt_two_pow hlt, List.getD_eq_default _ _ (Nat.not_lt.1 h)]

theorem packBytes_getElem? {n j : Nat} (bits : List Bool) (h : j < n) :
    (packBytes n bits)[j]? = some (BitVec.ofNat 8 (fieldValue ((bits.drop (8 * j)).take 8))) := by
  induction n generalizing j bits with
  | zero => omega
  | succ n ih =>
    cases j with
    | zero => rfl
    | succ j => rw [packBytes, List.getElem?_cons_succ, ih _ (by omega), List.drop_drop, Nat.mul_succ, Nat.add_comm 8]

section
variable {s : State} {bits : List Bool}

/-- A source that holds the bytes of a bit sequence gives these bits. -/
theorem streamHas_streamBytes (hs : s.source = memOfBytes 0 (streamBytes bits))
    (hl : s.sourceLen = (streamBytes bits).length) : StreamHas s 0 bits := by
  have hlen : s.sourceLen = (bits.length + 7) / 8 := by rw [hl, streamBytes, packBytes_length]
  refine ⟨by omega, List.ext_getElem (streamBits_length s 0 _) fun i hi hi' => ?_⟩
  have hbyte : i / 8 < (bits.length + 7) / 8 := by omega
  have hread : memRead s.source (i / 8) = some (BitVec.ofNat 8 (fieldValue ((bits.drop (8 * (i / 8))).take 8))) := by
    rw [hs, memRead_memOfBytes, if_pos (Nat.zero_le _), Nat.sub_zero, streamBytes, packBytes_getElem? bits hbyte]
  have hindex : 8 * (i / 8) + i % 8 = i := Nat.div_add_mod i 8
  have hmod : i % 8 < 8 := Nat.mod_lt i (by decide)
  simp only [streamBits, List.getElem_map, List.getElem_range, Nat.zero_add, streamBit,
    if_pos (show i < 8 * s.sourceLen by omega), hread, BitVec.getLsbD_ofNat, testBit_fieldValue]
  simp [hmod, List.getD_eq_getElem?_getD, List.getElem?_drop, hindex, hi']

/-- A stretch of whole bytes: the source holds them. -/
theorem memRead_of_streamHas (hr : SourceReadable s) :
    ∀ {bs : List Byte} {a : Nat}, StreamHas s (8 * a) (unpackBytes bs) →
      ∀ i, i < bs.length → memRead s.source (a + i) = bs[i]? := by
  intro bs
  induction bs with
  | nil => exact fun _ i hi => absurd hi (Nat.not_lt_zero i)
  | cons b bs ih =>
    intro a h i hi
    obtain ⟨hfirst, hrest⟩ := StreamHas.append h
    cases i with
    | zero =>
      have hin := hfirst.1
      rw [lsbBits_length] at hin
      have ha : a < s.sourceLen := by omega
      obtain ⟨v, hv⟩ := Option.isSome_iff_exists.1 (hr a ha)
      have hfield := (field_byte ha hv).symm.trans hfirst.field
      rw [Nat.mod_eq_of_lt b.isLt] at hfield
      rw [Nat.add_zero, hv, BitVec.eq_of_toNat_eq hfield]
      rfl
    | succ i =>
      rw [lsbBits_length, show 8 * a + 8 = 8 * (a + 1) by omega] at hrest
      rw [show a + (i + 1) = a + 1 + i by omega, ih hrest i (Nat.lt_of_succ_lt_succ hi)]
      rfl

end

/-! ## The literals of a fixed block -/

/-- The state with another OUT, `n` bytes longer. -/
def emitted (out : Memory) (n : Nat) (s : State) : State :=
  { s with out := out, dest := s.dest + n, destLen := s.destLen + n }

@[simp] theorem field_emitted (out : Memory) (n : Nat) (s : State) (p k : Nat) :
    field (emitted out n s) p k = field s p k := field_congr rfl rfl p k

theorem seek_emitted (out : Memory) (n : Nat) (s : State) (p : Nat) :
    seek (emitted out n s) p = emitted out n (seek s p) := by
  rw [seek, field_emitted]
  rfl

theorem AtPosition.emitted {s : State} {p : Nat} (h : AtPosition s p) (out : Memory) (n : Nat) :
    AtPosition (emitted out n s) p :=
  ⟨h.readable, h.noOverflow, h.inSource, by rw [seek_emitted, h.reader]⟩

section
variable {k sym : Nat} {s u : State}

theorem bodyLoop_eob (h : decodeSymbol .ltree s = .ok 256 u) (ho : u.overflow = false) :
    bodyLoop (k + 1) s = .ok () u := by
  rw [bodyLoop, h, Res.bind_ok, testOverflow_ok ho, Res.bind_ok, if_pos rfl]

theorem bodyLoop_literal (h : decodeSymbol .ltree s = .ok sym u) (ho : u.overflow = false) (hsym : sym < 256)
    (hroom : u.dest < u.destCap) :
    bodyLoop (k + 1) s = bodyLoop k (emitted (memWrite u.out u.dest (BitVec.ofNat 8 sym)) 1 u) := by
  rw [bodyLoop, h, Res.bind_ok, testOverflow_ok ho, Res.bind_ok, if_neg hsym.ne, if_pos hsym, putLiteral_ok _ hroom,
    Res.bind_ok]
  rfl

end

section
variable {p : Nat}

theorem assembleFixed_literal (b : Byte) (es : List Element) :
    assembleFixed p (.lit b :: es)
      = fixedLitCode b.toNat ++ assembleFixed (p + (fixedLitCode b.toNat).length) es := by
  have hlt : b.toNat < 288 := b.isLt.trans (by decide)
  rw [assembleFixed, assemble_cons, elementBits, codeBits_fixedLitLengths hlt]
  rfl

theorem assembleFixed_eob : assembleFixed p [.eob] = fixedLitCode 256 := by
  rw [assembleFixed, assemble_cons, assemble_nil, List.append_nil, elementBits, codeBits_fixedLitLengths (by decide)]

/-- Every literal takes a bit at least. -/
theorem length_le_assembleFixed (bs : List Byte) :
    bs.length ≤ (assembleFixed p (bs.map .lit ++ [.eob])).length := by
  induction bs generalizing p with
  | nil => exact Nat.zero_le _
  | cons b bs ih =>
    have hcode : 0 < (fixedLitCode b.toNat).length := by
      have hlt : b.toNat < 288 := b.isLt.trans (by decide)
      rw [length_fixedLitCode hlt]
      rcases fixedLitLengths_cases hlt with h | h | h | h <;> omega
    have := ih (p := p + (fixedLitCode b.toNat).length)
    rw [List.map_cons, List.cons_append, assembleFixed_literal, List.length_append, List.length_cons]
    omega

/-- R220: the loop writes each literal of the stream and returns at EOB. -/
theorem bodyLoop_literals :
    ∀ {bs : List Byte} {k p : Nat} {s : State}, s.ltree = fixedLitTree → AtPosition s p →
      StreamHas s p (assembleFixed p (bs.map .lit ++ [.eob])) → s.dest + bs.length ≤ s.destCap → bs.length < k →
      ∃ out,
        bodyLoop k s
            = .ok () (emitted out bs.length (seek s (p + (assembleFixed p (bs.map .lit ++ [.eob])).length)))
          ∧ (∀ i, i < bs.length → memRead out (s.dest + i) = bs[i]?)
          ∧ ∀ a, a < s.dest ∨ s.dest + bs.length ≤ a → memRead out a = memRead s.out a := by
  intro bs
  induction bs with
  | nil =>
    intro k p s htree hat hbits _ hk
    obtain ⟨k, rfl⟩ := Nat.exists_eq_succ_of_ne_zero (Nat.pos_iff_ne_zero.1 hk)
    rw [List.map_nil, List.nil_append, assembleFixed_eob] at hbits ⊢
    refine ⟨s.out, ?_, fun i hi => absurd hi (Nat.not_lt_zero i), fun _ _ => rfl⟩
    exact bodyLoop_eob (decodeSymbol_fixedLit htree (by decide) hat hbits) hat.noOverflow
  | cons b bs ih =>
    intro k p s htree hat hbits hroom hk
    obtain ⟨k, rfl⟩ := Nat.exists_eq_succ_of_ne_zero (Nat.ne_of_gt (Nat.zero_lt_of_lt hk))
    rw [List.map_cons, List.cons_append, assembleFixed_literal] at hbits ⊢
    rw [List.length_cons] at hroom hk
    obtain ⟨hcode, hrest⟩ := hbits.append
    have hlt : b.toNat < 256 := b.isLt
    have hturn := bodyLoop_literal (k := k) (decodeSymbol_fixedLit htree (hlt.trans (by decide)) hat hcode)
      hat.noOverflow hlt (show s.dest < s.destCap by omega)
    rw [BitVec.ofNat_toNat, BitVec.setWidth_eq] at hturn
    obtain ⟨out, hloop, hbytes, hothers⟩ := ih (k := k)
      (s := emitted (memWrite s.out s.dest b) 1 (seek s (p + (fixedLitCode b.toNat).length))) htree
      ((hat.seek hcode.1).emitted _ _) (streamHas_congr hrest rfl rfl)
      (show s.dest + 1 + bs.length ≤ s.destCap by omega) (by omega)
    simp only [emitted, seek_dest] at hbytes hothers
    refine ⟨out, ?_, fun i hi => ?_, fun a ha => ?_⟩
    · rw [hturn]
      refine hloop.trans ?_
      rw [seek_emitted, seek_seek, List.length_append, List.length_cons, ← Nat.add_assoc, Nat.add_comm bs.length 1]
      simp only [emitted, Nat.add_assoc]
    · cases i with
      | zero =>
        rw [Nat.add_zero, hothers _ (.inl (Nat.lt_succ_self _)), memRead_memWrite_same]
        rfl
      | succ i =>
        rw [show s.dest + (i + 1) = s.dest + 1 + i by omega, hbytes i (Nat.lt_of_succ_lt_succ hi)]
        rfl
    · rw [List.length_cons] at ha
      rw [hothers a (by omega), memRead_memWrite_other _ _ (by omega)]

/-- A reader at a position has that many bits left. -/
theorem AtPosition.bitsLeft {s : State} (h : AtPosition s p) : bitsLeft s = 8 * s.sourceLen - p := by
  obtain ⟨hsrc, hcount, -⟩ := h.reader_fields
  have := h.inSource
  rw [Machine.bitsLeft, hsrc, hcount]
  omega

/-- R220 for the operation: with the fixed trees in force the block's literals are written. -/
theorem inflateBlockData_literals {bs : List Byte} {s : State} {old : Tree} (hl : s.ltree = fixedLitTree)
    (hd : s.dtree = fixedDistTree old) (hat : AtPosition s p)
    (hbits : StreamHas s p (assembleFixed p (bs.map .lit ++ [.eob]))) (hroom : s.dest + bs.length ≤ s.destCap) :
    ∃ out,
      inflateBlockData s
          = .ok () (emitted out bs.length (seek s (p + (assembleFixed p (bs.map .lit ++ [.eob])).length)))
        ∧ (∀ i, i < bs.length → memRead out (s.dest + i) = bs[i]?)
        ∧ ∀ a, a < s.dest ∨ s.dest + bs.length ≤ a → memRead out a = memRead s.out a := by
  have hbuilt : (s.ltree.built && s.dtree.built) = true := by rw [hl, hd]; rfl
  have hlen := length_le_assembleFixed (p := p) bs
  have hin := hbits.1
  have hleft := hat.bitsLeft
  rw [inflateBlockData, if_pos hbuilt]
  exact bodyLoop_literals hl hat hbits hroom (by omega)

end

/-! ## A stream of one block -/

section
variable {s t : State} {source : List Byte} {cap : Nat}

/-- START answers a state whose reader stands at the first bit of the source, with nothing written. -/
theorem startRun_at (hp : s.phase ≠ .run) :
    ∃ t, startRun source source.length cap s = .ok () t ∧ AtPosition t 0 ∧ t.source = memOfBytes 0 source
      ∧ t.sourceLen = source.length ∧ t.dest = 0 ∧ t.destLen = 0 ∧ t.destCap = cap ∧ t.out = s.out := by
  refine ⟨_, (if_neg hp).trans (if_neg (not_not.2 rfl)), ⟨fun a ha => ?_, rfl, Nat.zero_le _, rfl⟩, rfl, rfl, rfl, rfl,
    rfl, rfl⟩
  simp only at ha
  rw [memRead_memOfBytes, if_pos (Nat.zero_le a), Nat.sub_zero, List.getElem?_eq_getElem ha]
  rfl

/-- The state behind the header of a block that is the last one. -/
def inFinalBlock (s : State) (p : Nat) : State := { seek s p with bfinal := true }

theorem AtPosition.inFinalBlock {p q : Nat} (h : AtPosition s p) (hq : q ≤ 8 * s.sourceLen) :
    AtPosition (inFinalBlock s q) q :=
  ⟨h.readable, h.noOverflow, hq, rfl⟩

theorem field_inFinalBlock (s : State) (p q n : Nat) : field (inFinalBlock s p) q n = field s q n :=
  field_congr rfl rfl q n

theorem seek_inFinalBlock (s : State) (p q : Nat) : seek (inFinalBlock s p) q = inFinalBlock s q := by
  rw [seek, field_inFinalBlock]
  rfl

theorem AtPosition.buildFixedTrees {p : Nat} (h : AtPosition s p) : AtPosition (buildFixedTrees s) p := by
  refine ⟨h.readable, h.noOverflow, h.inSource, ?_⟩
  rw [Machine.seek, field_congr (s := s) (t := Machine.buildFixedTrees s) rfl rfl]
  exact congrArg Machine.buildFixedTrees h.reader

/-- R271: the loop reads the header, and returns behind the final block. -/
theorem blockLoop_final {k p type : Nat} (hat : AtPosition s p) (hbits : StreamHas s p (true :: lsbBits 2 type))
    (htype : type < 4) (hblock : inflateBlock type (inFinalBlock s (p + 3)) = .ok () t) (hf : t.bfinal = true) :
    blockLoop (k + 1) s = .ok () t := by
  obtain ⟨hfinal, hin, hrest⟩ := streamHas_cons hbits
  have hin2 := hrest.1
  rw [lsbBits_length] at hin2
  have hflag : (field s p 1 == 1) = true := by rw [hfinal]; rfl
  have htwo : getBits 2 (inFinalBlock s (p + 1)) = .ok type (inFinalBlock s (p + 3)) := by
    rw [getBits_inside (hat.inFinalBlock hin) (by decide) hin2, field_inFinalBlock, seek_inFinalBlock, hrest.field,
      Nat.mod_eq_of_lt (show type < 2 ^ 2 from htype)]
  rw [blockLoop, getBits_inside hat (by decide) hin, Res.bind_ok, hflag]
  refine (congrArg (Res.bind · _) htwo).trans ?_
  rw [Res.bind_ok, hblock, Res.bind_ok, if_pos hf]

/-- UNCOMPRESS of a stream whose first block is final and decodes: the result is what that block leaves. -/
theorem uncompress_final {bits : List Bool} {type : Nat} {u : State}
    (hstart : startRun source source.length cap s = .ok () t) (hat : AtPosition t 0)
    (hbits : StreamHas t 0 (true :: lsbBits 2 type ++ bits)) (htype : type < 4)
    (hblock : inflateBlock type (inFinalBlock t 3) = .ok () u) (hf : u.bfinal = true) (ho : u.overflow = false) :
    exec (.uncompress source source.length cap) s
      = .next { u with status := .ok, destLenOut := u.destLen, phase := .done } := by
  have hloop := blockLoop_final (k := bitsLeft t + 1) hat (StreamHas.append hbits).1 htype hblock hf
  have hexec : exec (.uncompress source source.length cap) s = (uncompress source source.length cap s).finish := rfl
  rw [hexec, uncompress, hstart, Res.bind_ok, hloop, Res.bind_ok, endRun_ok ho, Res.finish_ok]

/-- R260: a stored block at the position behind its header's padding copies its bytes. -/
theorem inflateUncompressed_stored {p : Nat} {bs : List Byte} (hat : AtPosition s p) (hsize : bs.length ≤ 65535)
    (hbits : StreamHas s (8 * alignedByte p)
      (lsbBits 16 bs.length ++ (lsbBits 16 (65535 - bs.length) ++ unpackBytes bs)))
    (hroom : s.dest + bs.length ≤ s.destCap) :
    ∃ t, inflateUncompressed s = .ok () t ∧ (∀ i, i < bs.length → memRead t.out (s.dest + i) = bs[i]?)
      ∧ (∀ a, a < s.dest ∨ s.dest + bs.length ≤ a → memRead t.out a = memRead s.out a)
      ∧ t.destLen = s.destLen + bs.length ∧ t.overflow = false ∧ t.bfinal = s.bfinal := by
  obtain ⟨hlen, hrest⟩ := hbits.append
  rw [lsbBits_length] at hrest
  obtain ⟨hnlen, hbytes⟩ := hrest.append
  rw [lsbBits_length] at hbytes
  have hin := hbytes.1
  rw [unpackBytes_length] at hin
  have hl : field s (8 * alignedByte p) 16 = bs.length := hlen.field.trans (Nat.mod_eq_of_lt (by omega))
  have hn : field s (8 * alignedByte p + 16) 16 = 65535 - bs.length := hnlen.field.trans (Nat.mod_eq_of_lt (by omega))
  obtain ⟨t, ht, hcopy, hothers, hframe⟩ := inflateUncompressed_ok hat (by omega) (by omega) (by omega) (by omega)
  rw [hl] at hcopy hothers hframe
  rw [show 8 * alignedByte p + 16 + 16 = 8 * (alignedByte p + 4) by omega] at hbytes
  refine ⟨t, ht, fun i hi => ?_, hothers, (congrArg State.destLen hframe :), ?_, (congrArg State.bfinal hframe :)⟩
  · rw [hcopy i hi, memRead_of_streamHas hat.readable hbytes i hi]
  · exact (congrArg State.overflow hframe :).trans hat.noOverflow

end

end Sys2Proof.Machine

namespace Sys2Proof

open Machine

/-- Settles O44, by induction on the literals. -/
theorem blockDataWritesItsLiterals : Obligations.BlockDataWritesItsLiterals := by
  intro s old p bs hl hd hat hbits hroom
  obtain ⟨out, hdata, hbytes, hothers⟩ := inflateBlockData_literals hl hd hat hbits hroom
  have hexec : exec .inflateBlockData s = (inflateBlockData s).finish := rfl
  exact ⟨_, by rw [hexec, hdata, Res.finish_ok], hbytes, hothers, rfl⟩

/-- Settles O46: the header, the padding and the two lengths stand before the bytes that INFLATE_UNCOMPRESSED copies. -/
theorem storedStreamRoundTrip : Obligations.StoredStreamRoundTrip := by
  intro s bs cap hp hsize hroom
  obtain ⟨t, hstart, hat, hsource, hlen, hdest, hdestLen, hcap, hout⟩ :=
    startRun_at (source := storedStream bs) (cap := cap) hp
  have hbits := streamHas_streamBytes hsource hlen
  have hstream : assemble [] [] [] 0 (.block true 0 :: storedElements bs)
      = true :: lsbBits 2 0
        ++ (List.replicate 5 false ++ (lsbBits 16 bs.length ++ (lsbBits 16 (65535 - bs.length) ++ unpackBytes bs))) := by
    simp [storedElements, assemble, elementBits]
  rw [hstream] at hbits
  have hbody := (StreamHas.append (StreamHas.append hbits).2).2
  obtain ⟨u, hblock, hbytes, hothers, hulen, hover, hfinal⟩ :=
    inflateUncompressed_stored (s := inFinalBlock t 3) (p := 3) (bs := bs)
      (hat.inFinalBlock (by have := (StreamHas.append hbits).1.1; simpa using this)) hsize
      (streamHas_congr hbody rfl rfl) (by simp only [inFinalBlock, seek_dest, seek_destCap]; omega)
  simp only [inFinalBlock, seek_dest, seek_destLen, seek_out, hdest, hdestLen, hout, Nat.zero_add] at hbytes hothers hulen
  refine ⟨_, uncompress_final hstart hat hbits (by decide) hblock (hfinal.trans rfl) hover, ?_, hbytes, fun a ha =>
    hothers a (.inr ha)⟩
  rw [hostResult, if_pos rfl, hulen]

/-- Settles O47: the header of a fixed block, then O44's argument for its literals. -/
theorem literalStreamRoundTrip : Obligations.LiteralStreamRoundTrip := by
  intro s bs cap hp hroom
  obtain ⟨t, hstart, hat, hsource, hlen, hdest, hdestLen, hcap, hout⟩ :=
    startRun_at (source := literalStream bs) (cap := cap) hp
  have hbits : StreamHas t 0 (true :: lsbBits 2 1 ++ assembleFixed 3 (bs.map .lit ++ [.eob])) :=
    streamHas_streamBytes hsource hlen
  obtain ⟨hheader, hbody⟩ := StreamHas.append hbits
  obtain ⟨out, hblock, hbytes, hothers⟩ :=
    inflateBlockData_literals (s := buildFixedTrees (inFinalBlock t 3)) (p := 3) (bs := bs) rfl rfl
      (hat.inFinalBlock (by simpa using hheader.1)).buildFixedTrees (streamHas_congr hbody rfl rfl)
      (by simp only [inFinalBlock, buildFixedTrees_dest, buildFixedTrees_destCap, seek_dest, seek_destCap]; omega)
  simp only [inFinalBlock, buildFixedTrees_dest, buildFixedTrees_out, seek_dest, seek_out, hdest, hout, Nat.zero_add]
    at hbytes hothers
  refine ⟨_, uncompress_final hstart hat hbits (by decide) hblock rfl hat.noOverflow, ?_, hbytes, fun a ha =>
    hothers a (.inr ha)⟩
  rw [hostResult, if_pos rfl]
  simp [emitted, inFinalBlock, hdestLen]

end Sys2Proof
end

