-- ==== Sys2Proof/Proofs/PlainHeader.lean ====
section
/-! PROOFS. DECODE_TREES on a header that sends every code length as a literal (R190): the counts and the code-length tree,
the loop over the items, and the two builds. -/

namespace Sys2Proof.Machine

/-! ## The parts of the header -/

/-- The code lengths of the code-length alphabet of a plain header: 4 for 0..15, none for 16, 17 and 18. -/
def plainClens : List Nat := List.replicate 16 4 ++ List.replicate 3 0

theorem plainClens_getD {v : Nat} (h : v ≤ 15) : plainClens.getD v 0 = 4 := by
  interval_cases v <;> rfl

theorem plainClens_le : ∀ l ∈ plainClens, l ≤ 15 := by decide

theorem buildCheck_plainClens : buildCheck plainClens = none := by decide

theorem lastCoded_plainClens : lastCoded plainClens 0 (-1) = 15 := by decide

theorem assemble_clens (cl ll dl : List Nat) (f : Nat → Nat) (syms : List Nat) (pos : Nat) :
    assemble cl ll dl pos (syms.map fun sym => .clen (f sym)) = syms.flatMap fun sym => lsbBits 3 (f sym) := by
  induction syms generalizing pos with
  | nil => rfl
  | cons sym syms ih => rw [List.map_cons, assemble_cons, ih]; rfl

theorem assemble_cls (cl ll dl ls : List Nat) (pos : Nat) :
    assemble cl ll dl pos (ls.map .cl) = ls.flatMap (codeBits cl) := by
  induction ls generalizing pos with
  | nil => rfl
  | cons l ls ih => rw [List.map_cons, assemble_cons, ih]; rfl

/-- The bits of a plain header: the counts, the code-length alphabet, the items. -/
theorem plainHeader_eq (ll dl : List Nat) :
    plainHeader ll dl
      = lsbBits 5 (ll.length - 257) ++ (lsbBits 5 (dl.length - 1) ++ (lsbBits 4 15
          ++ ((clOrder.flatMap fun sym => lsbBits 3 (if sym < 16 then 4 else 0))
            ++ (ll ++ dl).flatMap (codeBits plainClens)))) := by
  rw [plainHeader, List.cons_append, assemble_cons, assemble_append, assemble_clens, assemble_cls]
  simp only [elementBits, List.append_assoc]
  rfl

section
variable {s : State} {p : Nat}

/-- The `clen` field of each symbol stands at its place. -/
theorem field_of_clens {f : Nat → Nat} {syms : List Nat}
    (h : StreamHas s p (syms.flatMap fun sym => lsbBits 3 (f sym))) :
    ∀ sym ∈ syms, field s (p + 3 * syms.idxOf sym) 3 = f sym % 8 := by
  induction syms generalizing p with
  | nil => exact fun _ hsym => absurd hsym List.not_mem_nil
  | cons first syms ih =>
    intro sym hsym
    obtain ⟨hfirst, hrest⟩ := StreamHas.append h
    rw [lsbBits_length] at hrest
    by_cases heq : first = sym
    · subst heq
      rw [List.idxOf_cons_self]
      exact hfirst.field
    · have := ih hrest sym ((List.mem_cons.1 hsym).resolve_left (Ne.symm heq))
      rw [List.idxOf_cons_ne _ heq, ← this, Nat.mul_succ, Nat.add_comm (3 * _) 3, Nat.add_assoc]

theorem headerClens_plain
    (h : StreamHas s p (clOrder.flatMap fun sym => lsbBits 3 (if sym < 16 then 4 else 0))) :
    headerClens s p 19 = plainClens := by
  have hfields := field_of_clens h
  have hlt : ∀ sym < 19, clOrder.idxOf sym < 19 := by decide
  have hplain : plainClens = (List.range 19).map fun sym => (if sym < 16 then 4 else 0) % 8 := by decide
  rw [headerClens, hplain]
  refine List.map_congr_left fun sym hsym => ?_
  have hsym := List.mem_range.1 hsym
  rw [if_pos (hlt sym hsym), hfields sym ((clOrder_spec.2 sym).2 hsym)]

theorem length_items {ls : List Nat} (h : ∀ l ∈ ls, l ≤ 15) : (ls.flatMap (codeBits plainClens)).length = 4 * ls.length := by
  induction ls with
  | nil => rfl
  | cons l ls ih =>
    obtain ⟨hl, hls⟩ := List.forall_mem_cons.1 h
    rw [List.flatMap_cons, List.length_append, ih hls, codeBits_length, plainClens_getD hl, List.length_cons]
    omega

end

/-! ## The loop over the items -/

/-- The state with other code lengths, `num` of them read. -/
def withItems (lengths : Vector Nat 320) (num : Nat) (s : State) : State := { s with lengths := lengths, num := num }

@[simp] theorem withItems_num (v : Vector Nat 320) (n : Nat) (s : State) : (withItems v n s).num = n := rfl

@[simp] theorem withItems_lengths (v : Vector Nat 320) (n : Nat) (s : State) : (withItems v n s).lengths = v := rfl

@[simp] theorem withItems_withItems (v w : Vector Nat 320) (m n : Nat) (s : State) :
    withItems w n (withItems v m s) = withItems w n s := rfl

@[simp] theorem withItems_self (s : State) : withItems s.lengths s.num s = s := rfl

theorem seek_withItems (v : Vector Nat 320) (n : Nat) (s : State) (p : Nat) :
    seek (withItems v n s) p = withItems v n (seek s p) := by
  rw [seek, field_congr (s := s) (t := withItems v n s) rfl rfl]
  rfl

theorem AtPosition.withItems {s : State} {p : Nat} (h : AtPosition s p) (v : Vector Nat 320) (n : Nat) :
    AtPosition (withItems v n s) p :=
  ⟨h.readable, h.noOverflow, h.inSource, by rw [seek_withItems, h.reader]⟩

section
variable {s : State} {p : Nat} {old : Tree}

/-- One turn of the loop on a literal length. -/
theorem clLoop_literal {k l : Nat} (htree : s.ltree = finishedTree plainClens old) (hat : AtPosition s p)
    (hbits : StreamHas s p (codeBits plainClens l)) (hl : l ≤ 15) (hnum : s.num < s.hlit + s.hdist)
    (hsize : s.hlit + s.hdist ≤ 320) :
    clLoop (k + 1) s
      = clLoop k (withItems (s.lengths.setIfInBounds s.num l) (s.num + 1) (seek s (p + 4))) := by
  have hdec := decodeSymbol_code (id := .ltree) (old := old) (by decide) plainClens_le buildCheck_plainClens
    (by rw [getTree_ltree, htree]) (by rw [getTree_ltree, htree]) (by rw [plainClens_getD hl]; decide) hat hbits
  rw [plainClens_getD hl] at hdec
  have hmax : ((l : Nat) : Int) ≤ (seek s (p + 4)).ltree.maxSym := by
    rw [seek_ltree, htree, finishedTree_maxSym, lastCoded_plainClens]
    omega
  have hitem : clItem l (seek s (p + 4))
      = .ok () (withItems (s.lengths.setIfInBounds s.num l) (s.num + 1) (seek s (p + 4))) := by
    rw [clItem, checkClSym_ok hmax, Res.bind_ok, if_neg (by omega), if_neg (by omega), if_neg (by omega),
      clLiteral_ok (s := seek s (p + 4)) hnum (hnum.trans_le hsize)]
    rfl
  rw [clLoop, if_pos hnum, hdec, Res.bind_ok, hitem, Res.bind_ok]

/-- R190: the loop reads literal lengths until all are there. -/
theorem clLoop_literals :
    ∀ {ls : List Nat} {k p : Nat} {s : State}, s.ltree = finishedTree plainClens old → AtPosition s p →
      StreamHas s p (ls.flatMap (codeBits plainClens)) → (∀ l ∈ ls, l ≤ 15) → s.num + ls.length = s.hlit + s.hdist →
      s.hlit + s.hdist ≤ 320 → ls.length ≤ k →
      ∃ v, clLoop k s = .ok () (withItems v (s.num + ls.length) (seek s (p + 4 * ls.length)))
        ∧ (∀ i, i < ls.length → entry v (s.num + i) = ls.getD i 0) ∧ ∀ i, i < s.num → entry v i = entry s.lengths i := by
  intro ls
  induction ls with
  | nil =>
    intro k p s _ hat _ _ hcount _ _
    refine ⟨s.lengths, ?_, fun i hi => absurd hi (Nat.not_lt_zero i), fun _ _ => rfl⟩
    rw [List.length_nil, Nat.mul_zero, Nat.add_zero, Nat.add_zero, hat.reader, withItems_self]
    have hdone : ¬ s.num < s.hlit + s.hdist := by
      rw [List.length_nil] at hcount
      omega
    cases k with
    | zero => exact if_neg hdone
    | succ k => exact if_neg hdone
  | cons l ls ih =>
    intro k p s htree hat hbits hle hcount hsize hk
    obtain ⟨k, rfl⟩ := Nat.exists_eq_succ_of_ne_zero (Nat.ne_of_gt (Nat.zero_lt_of_lt hk))
    rw [List.length_cons] at hcount hk
    obtain ⟨hl, hle⟩ := List.forall_mem_cons.1 hle
    obtain ⟨hfirst, hrest⟩ := StreamHas.append hbits
    have hend := hfirst.1
    rw [codeBits_length, plainClens_getD hl] at hrest hend
    have hnum : s.num < s.hlit + s.hdist := by omega
    obtain ⟨v, hloop, hread, hkept⟩ := ih (k := k)
      (s := withItems (s.lengths.setIfInBounds s.num l) (s.num + 1) (seek s (p + 4))) htree
      ((hat.seek hend).withItems _ _) (streamHas_congr hrest rfl rfl) hle
      (show s.num + 1 + ls.length = s.hlit + s.hdist by omega) hsize (by omega)
    rw [withItems_num] at hloop hread hkept
    rw [seek_withItems, withItems_withItems, seek_seek] at hloop
    refine ⟨v, ?_, fun i hi => ?_, fun i hi => ?_⟩
    · rw [clLoop_literal htree hat hfirst hl hnum hsize, hloop, List.length_cons,
        show s.num + 1 + ls.length = s.num + (ls.length + 1) by omega,
        show p + 4 + 4 * ls.length = p + 4 * (ls.length + 1) by omega]
    · cases i with
      | zero =>
        rw [Nat.add_zero, hkept _ (Nat.lt_succ_self _), withItems_lengths, entry_setIfInBounds,
          if_pos ⟨rfl, hnum.trans_le hsize⟩]
        rfl
      | succ i =>
        rw [show s.num + (i + 1) = s.num + 1 + i by omega, hread i (by simpa using hi)]
        rfl
    · rw [hkept i (by omega), withItems_lengths, entry_setIfInBounds, if_neg (by omega)]

end

/-! ## The fixed part -/

@[simp] theorem withHeader_num (hlit hdist : Nat) (T : Tree) (v : Vector Nat 320) (s : State) :
    (withHeader hlit hdist T v s).num = 0 := rfl

theorem seek_withHeader (hlit hdist : Nat) (T : Tree) (v : Vector Nat 320) (s : State) (p : Nat) :
    seek (withHeader hlit hdist T v s) p = withHeader hlit hdist T v (seek s p) := by
  rw [seek, field_congr (s := s) (t := withHeader hlit hdist T v s) rfl rfl]
  rfl

theorem AtPosition.withHeader {s : State} {p : Nat} (h : AtPosition s p) (hlit hdist : Nat) (T : Tree)
    (v : Vector Nat 320) : AtPosition (withHeader hlit hdist T v s) p :=
  ⟨h.readable, h.noOverflow, h.inSource, by rw [seek_withHeader, h.reader]⟩

theorem length_plainClensFields : (clOrder.flatMap fun sym => lsbBits 3 (if sym < 16 then 4 else 0)).length = 57 := by
  decide

theorem length_plainHeader {ll dl : List Nat} (h : ∀ l ∈ ll ++ dl, l ≤ 15) :
    (plainHeader ll dl).length = 71 + 4 * (ll ++ dl).length := by
  rw [plainHeader_eq, List.length_append, lsbBits_length, List.length_append, lsbBits_length, List.length_append,
    lsbBits_length, List.length_append, length_plainClensFields, length_items h]
  omega

/-- R191 to R194 on a plain header: the tree of the plain alphabet, the counts, and the reader before the items. -/
theorem beginHeader_plain {s : State} {p : Nat} {ll dl : List Nat} (hat : AtPosition s p) (hl : 257 ≤ ll.length)
    (hl' : ll.length ≤ 286) (hd : 1 ≤ dl.length) (hd' : dl.length ≤ 30)
    (hbits : StreamHas s p (plainHeader ll dl)) :
    ∃ v, beginHeader s
          = .ok () (withHeader ll.length dl.length (finishedTree plainClens s.ltree) v (seek s (p + 71)))
      ∧ StreamHas s (p + 71) ((ll ++ dl).flatMap (codeBits plainClens)) := by
  rw [plainHeader_eq] at hbits
  obtain ⟨hlit, hrest⟩ := hbits.append
  obtain ⟨hdist, hrest⟩ := hrest.append
  obtain ⟨hclen, hrest⟩ := hrest.append
  obtain ⟨hclens, hitems⟩ := hrest.append
  simp only [lsbBits_length, length_plainClensFields, Nat.add_assoc, Nat.reduceAdd] at hdist hclen hclens hitems
  have hend := hitems.1
  have hhlit : 257 + field s p 5 = ll.length := by rw [hlit.field]; omega
  have hhdist : 1 + field s (p + 5) 5 = dl.length := by rw [hdist.field]; omega
  have hhclen : 4 + field s (p + 10) 4 = 19 := by rw [hclen.field]; decide
  have hplain : headerClens (seek s (p + 14)) (p + 14) 19 = plainClens :=
    headerClens_plain (streamHas_congr hclens rfl rfl)
  obtain ⟨v, hpart, -⟩ := (clTreePart_cases (hlit := ll.length) (hdist := dl.length) (hclen := 19)
    (hat.seek (q := p + 14) (by omega)) hl' hd' (by decide) (by rw [seek_sourceLen]; omega)).2
    (by rw [hplain]; exact buildCheck_plainClens) (by rw [hplain]; decide)
  rw [hplain, seek_seek, seek_ltree] at hpart
  refine ⟨v, ?_, hitems⟩
  rw [beginHeader_eq hat (by omega), hhlit, hhdist, hhclen, hpart]

/-! ## The two builds -/

/-- A slice of a scratch array that holds a list. -/
theorem slice_of_entries {s : State} {off : Nat} {ls : List Nat} (hin : off + ls.length ≤ 320)
    (h : ∀ i, i < ls.length → entry s.lengths (off + i) = ls.getD i 0) : slice s off ls.length = ls := by
  rw [slice_eq_map hin]
  refine List.ext_getElem (by simp) fun i hi hi' => ?_
  rw [List.getElem_map, List.getElem_range', Nat.one_mul, h i hi', List.getD_eq_getElem]

/-- The state with other trees. -/
def withTrees (L D : Tree) (s : State) : State := { s with ltree := L, dtree := D }

@[simp] theorem withTrees_ltree (L D : Tree) (s : State) : (withTrees L D s).ltree = L := rfl

@[simp] theorem withTrees_dtree (L D : Tree) (s : State) : (withTrees L D s).dtree = D := rfl

section
variable {s : State} {ll dl : List Nat}

/-- R201, R202 on a scratch array that holds two accepted sets. -/
theorem endHeader_of_lists {T D : Tree} (hT : s.ltree = T) (hD : s.dtree = D) (hlit : s.hlit = ll.length) (hdist : s.hdist = dl.length) (hl : ll.length ≤ 286)
    (hd : dl.length ≤ 30) (hl' : 257 ≤ ll.length) (hle : ∀ l ∈ ll ++ dl, l ≤ 15) (heob : 0 < ll.getD 256 0)
    (hlcheck : buildCheck ll = none) (hdcheck : buildCheck dl = none)
    (hentry : ∀ i, i < (ll ++ dl).length → entry s.lengths i = (ll ++ dl).getD i 0) :
    endHeader s = .ok () (withTrees (finishedTree ll T) (finishedTree dl D) s) := by
  have hlen : (ll ++ dl).length = ll.length + dl.length := List.length_append
  have hleft : ∀ i, i < ll.length → entry s.lengths i = ll.getD i 0 := fun i hi => by
    rw [hentry i (by omega), List.getD_append _ _ _ _ hi]
  have hlslice : slice s 0 s.hlit = ll := by
    rw [hlit]
    exact slice_of_entries (by omega) fun i hi => by rw [Nat.zero_add, hleft i hi]
  have hdslice : slice s s.hlit s.hdist = dl := by
    rw [hlit, hdist]
    refine slice_of_entries (by omega) fun i hi => ?_
    rw [hentry _ (by omega), List.getD_append_right _ _ _ _ (Nat.le_add_right _ _), Nat.add_sub_cancel_left]
  have hcases := endHeader_cases (s := s) (by omega) (by omega) fun i hi => by
    rw [hentry i (by omega)]
    exact getD_le hle i
  rw [hlslice, hdslice, hleft 256 (by omega)] at hcases
  obtain ⟨h, -⟩ | ⟨-, h, -⟩ | ⟨-, -, -, h⟩ := hcases
  · exact absurd h heob.ne'
  · exact absurd h (by simp [hlcheck, hdcheck])
  · rw [h, hT, hD]
    rfl

end

/-- DECODE_TREES is its three parts. -/
theorem exec_decodeTrees_ok {s u w t : State} (hbegin : beginHeader s = .ok () u)
    (hloop : clLoop (u.hlit + u.hdist) u = .ok () w) (hend : endHeader w = .ok () t) :
    exec .decodeTrees s = .next t := by
  rw [exec_decodeTrees, decodeTrees, hbegin, Res.bind_ok, hloop, Res.bind_ok, hend, Res.finish_ok]

end Sys2Proof.Machine

namespace Sys2Proof

open Machine

/-- Settles O43: the fixed part builds the tree of the plain alphabet, the loop reads the items back, and the builder
accepts both sets. -/
theorem decodeTreesReadsBackAHeader : Obligations.DecodeTreesReadsBackAHeader := by
  intro s p ll dl hat hl hl' hd hd' hle heob hlcheck hdcheck hbits
  have hlen : (ll ++ dl).length = ll.length + dl.length := List.length_append
  obtain ⟨v, hbegin, hitems⟩ := beginHeader_plain hat hl hl' hd hd' hbits
  have htree : finishedTree (List.replicate 16 4 ++ List.replicate 3 0) s.ltree = finishedTree plainClens s.ltree := rfl
  rw [htree, length_plainHeader hle, ← Nat.add_assoc]
  obtain ⟨T, hT⟩ : ∃ T, T = finishedTree plainClens s.ltree := ⟨_, rfl⟩
  rw [← hT] at hbegin ⊢
  obtain ⟨w, hloop, hread, -⟩ := clLoop_literals (k := ll.length + dl.length)
    (s := withHeader ll.length dl.length T v (seek s (p + 71))) hT
    ((hat.seek (Nat.le_of_add_right_le hitems.1)).withHeader ..) (streamHas_congr hitems rfl rfl) hle
    ((Nat.zero_add _).trans hlen) (show ll.length + dl.length ≤ 320 by omega) hlen.le
  rw [withHeader_num, Nat.zero_add, seek_withHeader, seek_seek] at hloop
  simp only [withHeader_num, Nat.zero_add] at hread
  have hend := endHeader_of_lists (dl := dl)
    (s := withItems w (ll ++ dl).length (withHeader ll.length dl.length T v
      (seek s (p + 71 + 4 * (ll ++ dl).length)))) rfl rfl rfl rfl hl' hd' hl hle heob hlcheck hdcheck hread
  have hexec := exec_decodeTrees_ok hbegin hloop hend
  exact ⟨_, hexec, withTrees_ltree .., withTrees_dtree .., hread, rfl, rfl, rfl, rfl⟩

end Sys2Proof
end

