-- ==== Sys2Proof/Proofs/Moves.lean ====
section
/-! PROOFS. What the operations of a run can do to the state, whether they return or raise: the host's fields stay, the bit
reader only moves on, and OUT is only appended to. Each operation keeps this relation; the invariants of R36 follow. -/

namespace Sys2Proof.Machine

/-! ## The relation -/

/-- The fields that belong to the host and to the step: no operation of a run changes them. -/
def hostPart (s : State) : Memory × Nat × Nat × Phase × Status × Nat × Option Instr × Option HostAction :=
  (s.source, s.sourceLen, s.destCap, s.phase, s.status, s.destLenOut, s.issue, s.request)

theorem hostPart_eq_iff {s t : State} :
    hostPart t = hostPart s ↔
      t.source = s.source ∧ t.sourceLen = s.sourceLen ∧ t.destCap = s.destCap ∧ t.phase = s.phase ∧ t.status = s.status
        ∧ t.destLenOut = s.destLenOut ∧ t.issue = s.issue ∧ t.request = s.request := by
  simp only [hostPart, Prod.mk.injEq]

/-- How the bit reader moves: forward, with I1 and I2 of R36 kept, and with no more bits left than before. -/
structure ReaderMoves (s t : State) : Prop where
  src : s.src ≤ t.src
  srcLe : s.src ≤ s.sourceLen → t.src ≤ t.sourceLen
  bitcountLe : s.bitcount ≤ 32 → t.bitcount ≤ 32
  tagClean : s.tag.toNat < 2 ^ s.bitcount → t.tag.toNat < 2 ^ t.bitcount
  overflow : s.overflow = true → t.overflow = true
  exhausted : (s.overflow = true → s.src = s.sourceLen) → t.overflow = true → t.src = t.sourceLen
  bits : s.src ≤ s.sourceLen → t.overflow = false → bitsLeft t ≤ bitsLeft s

/-- What an operation of a run can do. -/
structure Moves (s t : State) : Prop where
  host : hostPart t = hostPart s
  reader : ReaderMoves s t
  held : s.bitcount ≤ 7 → t.bitcount ≤ 7
  output : ∃ n, Appended n s t

theorem ReaderMoves.refl (s : State) : ReaderMoves s s :=
  ⟨Nat.le_refl _, id, id, id, id, id, fun _ _ => Nat.le_refl _⟩

theorem ReaderMoves.trans {s t u : State} (h : ReaderMoves s t) (h' : ReaderMoves t u) : ReaderMoves s u where
  src := h.src.trans h'.src
  srcLe := h'.srcLe ∘ h.srcLe
  bitcountLe := h'.bitcountLe ∘ h.bitcountLe
  tagClean := h'.tagClean ∘ h.tagClean
  overflow := h'.overflow ∘ h.overflow
  exhausted := h'.exhausted ∘ h.exhausted
  bits hs ho := (h'.bits (h.srcLe hs) ho).trans
    (h.bits hs (Bool.eq_false_iff.2 fun ht => Bool.false_ne_true (ho.symm.trans (h'.overflow ht))))

theorem Moves.refl (s : State) : Moves s s := ⟨rfl, .refl s, id, 0, .refl s⟩

theorem Moves.trans {s t u : State} (h : Moves s t) (h' : Moves t u) : Moves s u := by
  obtain ⟨m, hm⟩ := h.output
  obtain ⟨n, hn⟩ := h'.output
  obtain ⟨-, -, hcap, -⟩ := hostPart_eq_iff.1 h.host
  exact ⟨h'.host.trans h.host, h.reader.trans h'.reader, h'.held ∘ h.held, m + n, hm.trans hn hcap⟩

/-- The fields that the relation speaks of. -/
def movingPart (s : State) : Nat × Tag × Nat × Bool × Memory × Nat × Nat :=
  (s.src, s.tag, s.bitcount, s.overflow, s.out, s.dest, s.destLen)

/-- A change of the other fields is no move. -/
theorem moves_of_eq {s t : State} (hhost : hostPart t = hostPart s) (h : movingPart t = movingPart s) : Moves s t := by
  obtain ⟨-, hlen, -⟩ := hostPart_eq_iff.1 hhost
  simp only [movingPart, Prod.mk.injEq] at h
  obtain ⟨hsrc, htag, hcount, hover, hout, hdest, hdestLen⟩ := h
  refine ⟨hhost, ⟨hsrc.ge, ?_, ?_, ?_, ?_, ?_, ?_⟩, ?_, 0, ?_⟩
  · rw [hsrc, hlen]; exact id
  · rw [hcount]; exact id
  · rw [htag, hcount]; exact id
  · rw [hover]; exact id
  · rw [hover, hsrc, hlen]; exact id
  · rw [bitsLeft, bitsLeft, hsrc, hcount, hlen]; exact fun _ _ => Nat.le_refl _
  · rw [hcount]; exact id
  · exact ⟨hdest, hdestLen, .inl rfl, fun a h h' => absurd h' (by omega), fun a _ => by rw [hout], by rw [hout]; exact id⟩

/-- A move of the bit reader alone. -/
theorem moves_of_reader {s t : State} (hframe : ReaderFrame s t) (h : ReaderMoves s t)
    (hheld : s.bitcount ≤ 7 → t.bitcount ≤ 7) : Moves s t := by
  have heq := ReaderFrame.iff.1 hframe
  refine ⟨by rw [heq]; rfl, h, hheld, 0, ?_⟩
  rw [heq]
  exact ⟨rfl, rfl, .inl rfl, fun a h h' => absurd h' (by omega), fun _ _ => rfl, id⟩

/-- A move of the output alone. -/
theorem moves_of_appended {n : Nat} {s t : State} (hframe : { t with out := s.out, dest := s.dest, destLen := s.destLen } = s)
    (h : Appended n s t) : Moves s t := by
  cases t
  cases s
  simp only [State.mk.injEq] at hframe
  obtain ⟨rfl, rfl, rfl, rfl, rfl, rfl, rfl, rfl, rfl, rfl, -, -, -, rfl, rfl, rfl, rfl, rfl, rfl, rfl, rfl, rfl, rfl, rfl,
    rfl⟩ := hframe
  exact ⟨rfl, ⟨Nat.le_refl _, id, id, id, id, id, fun _ _ => Nat.le_refl _⟩, id, n, h⟩

/-! ## Operations that move -/

/-- The states in which an operation may return or raise. -/
def Res.Reaches {α : Type} (P : State → Prop) : Res α → Prop
  | .ok _ t => P t
  | .raised _ t => P t
  | .fault _ => True
  | .refused _ => True

theorem Res.Reaches.bind {α β : Type} {P Q : State → Prop} {x : Res α} {f : α → State → Res β} (hx : x.Reaches P)
    (hraised : ∀ t, P t → Q t) (hf : ∀ a t, P t → (f a t).Reaches Q) : (x.bind f).Reaches Q := by
  cases x with
  | ok a t => exact hf a t hx
  | raised c t => exact hraised t hx
  | fault e => trivial
  | refused r => trivial

theorem Res.Reaches.mono {α : Type} {P Q : State → Prop} {x : Res α} (hx : x.Reaches P) (h : ∀ t, P t → Q t) :
    x.Reaches Q := by
  cases x with
  | ok a t => exact h t hx
  | raised c t => exact h t hx
  | fault e => trivial
  | refused r => trivial

/-- An operation that moves, from every state. -/
def Moving {α : Type} (x : State → Res α) : Prop := ∀ s, (x s).Reaches (Moves s)

section
variable {α β : Type}

theorem moving_ok (a : α) : Moving fun s => .ok a s := fun s => Moves.refl s

theorem moving_raised (c : Cause) : Moving fun s => (.raised c s : Res α) := fun s => Moves.refl s

theorem moving_refused (r : Refusal) : Moving fun _ => (.refused r : Res α) := fun _ => trivial

theorem Moving.bind {x : State → Res α} {f : α → State → Res β} (hx : Moving x) (hf : ∀ a, Moving (f a)) :
    Moving fun s => (x s).bind f :=
  fun s => (hx s).bind (fun _ h => h) fun a t h => (hf a t).mono fun _ h' => h.trans h'

theorem Moving.ite {p : State → Prop} [DecidablePred p] {x y : State → Res α} (hx : Moving x) (hy : Moving y) :
    Moving fun s => if p s then x s else y s := by
  intro s
  by_cases h : p s
  · simp only [if_pos h]
    exact hx s
  · simp only [if_neg h]
    exact hy s

/-- An operation that cannot raise moves when it does so wherever it returns. -/
theorem moving_of_quiet {x : State → Res α} (hq : ∀ s, (x s).Quiet) (h : ∀ s a t, x s = .ok a t → Moves s t) :
    Moving x := by
  intro s
  cases hx : x s with
  | ok a t => exact h s a t hx
  | raised c t => exact absurd hx (hq s c t)
  | fault e => trivial
  | refused r => trivial

theorem Moving.ok {x : State → Res α} (h : Moving x) {s t : State} {a : α} (hx : x s = .ok a t) : Moves s t := by
  have := h s
  rwa [hx] at this

theorem Moving.raised {x : State → Res α} (h : Moving x) {s t : State} {c : Cause} (hx : x s = .raised c t) :
    Moves s t := by
  have := h s
  rwa [hx] at this

end

/-! ## The bit reader -/

theorem loadByte_moves {s t : State} (hw : s.bitcount + 8 ≤ 32) (h : loadByte s = .ok () t) : ReaderMoves s t := by
  obtain ⟨b, -, hlt, -, rfl⟩ | ⟨hend, rfl⟩ := loadByte_cases h
  · refine ⟨Nat.le_succ _, fun _ => hlt, fun _ => hw, fun htag => ?_, id, fun hex ho => ?_, fun _ _ => ?_⟩
    · have hb : b.toNat < 2 ^ 8 := b.isLt
      have hmul : 2 ^ s.bitcount * b.toNat + 2 ^ s.bitcount ≤ 2 ^ s.bitcount * 2 ^ 8 := Nat.mul_le_mul_left _ hb
      simp only [toNat_or_byte htag hw, Nat.pow_add]
      omega
    · exact absurd (hex ho) hlt.ne
    · simp only [bitsLeft]
      omega
  · refine ⟨Nat.le_refl _, id, fun _ => hw, fun htag => ?_, fun _ => rfl, fun _ _ => hend, fun _ ho => ?_⟩
    · exact htag.trans_le (Nat.pow_le_pow_right (by decide) (Nat.le_add_right _ _))
    · exact absurd ho (by simp)

theorem refill_moves {n : Nat} {s t : State} (h : refill n s = .ok () t) : ReaderMoves s t :=
  (refillLoop_induct (P := ReaderMoves s) (fun _ _ hu _ hw hl => hu.trans (loadByte_moves hw hl)) (.refl s) h).1

theorem consume_moves {n v : Nat} {s t : State} (h : consume n s = .ok v t) : ReaderMoves s t := by
  obtain ⟨hn, -, rfl⟩ := consume_cases h
  refine ⟨Nat.le_refl _, id, fun hc => (Nat.sub_le _ _).trans hc, fun htag => ?_, id, id, fun _ _ => ?_⟩
  · simp only [BitVec.toNat_ushiftRight, Nat.shiftRight_eq_div_pow]
    rwa [Nat.div_lt_iff_lt_mul (Nat.two_pow_pos n), ← Nat.pow_add, Nat.sub_add_cancel hn]
  · simp only [bitsLeft]
    omega

theorem moving_getBits (n : Nat) : Moving (getBits n) := by
  refine moving_of_quiet (getBits_quiet n) fun s v t h => ?_
  obtain ⟨hframe, -, -, -, -, hcount⟩ := getBits_spec h
  obtain ⟨-, u, hu, hc⟩ := getBits_cases h
  exact moves_of_reader hframe ((refill_moves hu).trans (consume_moves hc)) fun _ => by omega

/-- A read that does not run out takes its bits. -/
theorem getBits_bitsLeft {n v : Nat} {s t : State} (h : getBits n s = .ok v t) (hs : s.src ≤ s.sourceLen)
    (ho : t.overflow = false) : bitsLeft t + n ≤ bitsLeft s := by
  obtain ⟨-, u, hu, hc⟩ := getBits_cases h
  obtain ⟨hn, -, rfl⟩ := consume_cases hc
  have := (refill_moves hu).bits hs ho
  simp only [bitsLeft] at this ⊢
  omega

theorem moving_operand (base n : Nat) : Moving (operand base n) :=
  (moving_getBits n).bind fun v => moving_ok (base + v)

theorem moving_getBitsBase (n base : Nat) : Moving (getBitsBase n base) :=
  Moving.ite (moving_ok base) (moving_operand base n)

theorem moving_decodeSymbol (id : TreeId) : Moving (decodeSymbol id) :=
  moving_of_quiet (decodeSymbol_quiet id) fun s _ _ h =>
    descend_induct (getTree id s) (P := Moves s) (fun _ _ _ hu hg => hu.trans ((moving_getBits 1).ok hg)) (.refl s) h

/-! ## The block body -/

theorem moving_testOverflow : Moving testOverflow := Moving.ite (moving_raised _) (moving_ok ())

theorem moving_emitByte (v : Byte) : Moving (emitByte v) := by
  refine moving_of_quiet (emitByte_quiet v) fun s _ t h => ?_
  have happ := emitByte_appended h
  obtain ⟨-, rfl⟩ := emitByte_cases h
  exact moves_of_appended rfl happ

theorem moving_putLiteral (b : Byte) : Moving (putLiteral b) := Moving.ite (moving_raised _) (moving_emitByte b)

theorem Moving.thenMatchLen {x : State → Res Nat} (hx : Moving x) :
    Moving fun s => (x s).bind fun length s => .ok () { s with matchLen := length } :=
  hx.bind fun length s => show Moves s { s with matchLen := length } from moves_of_eq rfl rfl

theorem moving_lengthHalf (sym : Nat) : Moving (lengthHalf sym) := by
  intro s
  obtain ⟨c, -, h, -⟩ | ⟨-, -, -, h⟩ := lengthHalf_cases sym s
  · rw [h]
    exact Moves.refl s
  · have hread : Moving (readLength sym) := moving_getBitsBase _ _
    generalize readLength sym = read at h hread
    rw [h]
    exact hread.thenMatchLen s

theorem moving_copyMatch (n offs : Nat) : Moving (copyMatch n offs) :=
  moving_of_quiet (copyMatch_quiet n offs) fun _ _ _ h => moves_of_appended (copyMatch_spec h).2 (copyMatch_spec h).1

theorem moving_distHalf (d : Nat) : Moving (distHalf d) :=
  .ite (moving_raised _) ((moving_getBitsBase _ _).bind fun offs =>
    .ite (moving_raised _) (.ite (moving_raised _) fun s => moving_copyMatch s.matchLen offs s))

theorem moving_bodyLoop : ∀ k, Moving (bodyLoop k)
  | 0 => moving_refused _
  | k + 1 =>
    (moving_decodeSymbol .ltree).bind fun sym => moving_testOverflow.bind fun _ =>
      .ite (moving_ok ()) (.ite ((moving_putLiteral _).bind fun _ => moving_bodyLoop k)
        ((moving_lengthHalf sym).bind fun _ => (moving_decodeSymbol .dtree).bind fun d =>
          (moving_distHalf d).bind fun _ => moving_bodyLoop k))

theorem moving_inflateBlockData : Moving inflateBlockData :=
  .ite (fun s => moving_bodyLoop (bitsLeft s + 2) s) (moving_refused _)

/-! ## Trees and the dynamic header -/

theorem moves_setTree (id : TreeId) (v : Tree) (s : State) : Moves s (setTree id v s) := by
  cases id <;> exact moves_of_eq rfl rfl

theorem moves_lengths (s : State) (v : Vector Nat 320) : Moves s { s with lengths := v } := moves_of_eq rfl rfl

theorem moves_num (s : State) (n : Nat) : Moves s { s with num := n } := moves_of_eq rfl rfl

theorem moves_counts (s : State) (hlit hdist num : Nat) : Moves s { s with hlit := hlit, hdist := hdist, num := num } :=
  moves_of_eq rfl rfl

theorem moving_buildTree (id : TreeId) (off num : Nat) : Moving (buildTree id off num) := by
  intro s
  obtain ⟨-, h⟩ | ⟨-, c, -, h⟩ | ⟨-, -, h⟩ := buildTree_cases id off num s
  · rw [h]; trivial
  · rw [h]; exact moves_setTree ..
  · rw [h]; exact moves_setTree ..

theorem moving_writeLength (i v : Nat) : Moving (writeLength i v) :=
  .ite (fun s => moves_lengths s _) (moving_refused _)

theorem moving_zeroLengths : ∀ n i, Moving (zeroLengths n i)
  | 0, _ => moving_ok ()
  | n + 1, i => (moving_writeLength i 0).bind fun _ => moving_zeroLengths n (i + 1)

theorem moving_readClens : ∀ syms, Moving (readClens syms)
  | [] => moving_ok ()
  | sym :: syms => (moving_operand 0 3).bind fun v => (moving_writeLength sym v).bind fun _ => moving_readClens syms

theorem moving_checkCounts (hlit hdist : Nat) : Moving (checkCounts hlit hdist) :=
  .ite (moving_raised _) (.ite (moving_raised _) (moving_ok ()))

theorem moving_beginHeader : Moving beginHeader :=
  (moving_operand 257 5).bind fun hlit => (moving_operand 1 5).bind fun hdist => (moving_operand 4 4).bind fun hclen =>
  (moving_checkCounts hlit hdist).bind fun _ => (moving_zeroLengths 19 0).bind fun _ =>
  (moving_readClens (clOrder.take hclen)).bind fun _ => (moving_buildTree .ltree 0 19).bind fun _ =>
    .ite (moving_raised _) fun s => moves_counts s hlit hdist 0

theorem moving_checkClSym (sym : Nat) : Moving (checkClSym sym) := .ite (moving_raised _) (moving_ok ())

theorem moving_fillLengths : ∀ rep val, Moving (fillLengths rep val)
  | 0, _ => moving_ok ()
  | rep + 1, val => fun s =>
    (moving_writeLength s.num val).bind
      (fun _ t => (moving_fillLengths rep val { t with num := t.num + 1 }).mono fun _ h => (moves_num t _).trans h) s

theorem moving_storeRun (val rep : Nat) : Moving (storeRun val rep) :=
  .ite (moving_raised _) (moving_fillLengths rep val)

theorem moving_previousLength : Moving previousLength :=
  .ite (moving_raised _) (.ite (fun s => Moves.refl s) (moving_refused _))

theorem moving_clItem (sym : Nat) : Moving (clItem sym) :=
  (moving_checkClSym sym).bind fun _ =>
    .ite (moving_previousLength.bind fun val => (moving_operand 3 2).bind fun rep => moving_storeRun val rep)
      (.ite ((moving_operand 3 3).bind fun rep => moving_storeRun 0 rep)
        (.ite ((moving_operand 11 7).bind fun rep => moving_storeRun 0 rep) (moving_storeRun sym 1)))

theorem moving_clLoop : ∀ k, Moving (clLoop k)
  | 0 => .ite (moving_refused _) (moving_ok ())
  | k + 1 =>
    .ite ((moving_decodeSymbol .ltree).bind fun sym => (moving_clItem sym).bind fun _ => moving_clLoop k) (moving_ok ())

theorem moving_endHeader : Moving endHeader :=
  .ite (moving_raised _) fun s =>
    (moving_buildTree .ltree 0 s.hlit).bind (fun _ s => moving_buildTree .dtree s.hlit s.hdist s) s

theorem moving_decodeTrees : Moving decodeTrees :=
  moving_beginHeader.bind fun _ s =>
    Moving.bind (fun s => moving_clLoop (s.hlit + s.hdist) s) (fun _ => moving_endHeader) s

theorem moves_buildFixedTrees (s : State) : Moves s (buildFixedTrees s) :=
  (moves_setTree .ltree fixedLitTree s).trans (moves_setTree .dtree (fixedDistTree s.dtree) _)

/-! ## The uncompressed block -/

theorem moves_alignReader (s : State) : Moves s (alignReader s) :=
  moves_of_reader rfl
    ⟨Nat.le_refl _, id, fun _ => Nat.zero_le _, fun _ => Nat.two_pow_pos _, id, id, fun _ _ => by simp [bitsLeft]⟩
    fun _ => Nat.zero_le _

theorem moving_align : Moving fun s => .ok () (alignReader s) := moves_alignReader

/-- A byte of SRC that is copied to OUT. -/
theorem moves_src {s : State} (h : s.src < s.sourceLen) : Moves s { s with src := s.src + 1 } :=
  moves_of_reader rfl
    ⟨Nat.le_succ _, fun _ => h, id, id, id, fun hex ho => absurd (hex ho) h.ne, fun _ _ => by simp only [bitsLeft]; omega⟩
    id

theorem moving_copyStored : ∀ n, Moving (copyStored n)
  | 0 => moving_ok ()
  | n + 1 => by
    intro s
    cases hread : srcRead s.src s with
    | ok v t =>
      obtain ⟨rfl, hlt, -⟩ := srcRead_cases hread
      rw [copyStored, hread, Res.bind_ok]
      exact (((moving_emitByte v).bind fun _ => moving_copyStored n) _).mono fun _ h => (moves_src hlt).trans h
    | raised c t => exact absurd hread (srcRead_quiet _ _ c t)
    | fault e => rw [copyStored, hread]; trivial
    | refused r => rw [copyStored, hread]; trivial

theorem moving_checkStored (len nlen : Nat) : Moving (checkStored len nlen) :=
  .ite (moving_raised _) (.ite (moving_raised _) (.ite (moving_raised _) (moving_ok ())))

theorem moving_inflateUncompressed : Moving inflateUncompressed := fun s =>
  (((moving_operand 0 16).bind fun len => (moving_operand 0 16).bind fun nlen =>
    (moving_checkStored len nlen).bind fun _ => (moving_copyStored len).bind fun _ => moving_align)
    (alignReader s)).mono fun _ h => (moves_alignReader s).trans h

/-! ## Whole blocks -/

theorem moves_seq (s : State) (q : Seq) : Moves s { s with seq := q } := moves_of_eq rfl rfl

theorem moves_bfinal (s : State) (b : Bool) : Moves s { s with bfinal := b } := moves_of_eq rfl rfl

/-- An operation followed by a move of the sequencer. -/
theorem Moving.thenSeq {x : State → Res Unit} (hx : Moving x) (q : Seq) :
    Moving fun s => (x s).bind fun _ s => .ok () { s with seq := q } :=
  hx.bind fun _ s => moves_seq s q

/-- An operation behind the write of BFINAL. -/
theorem Moving.afterBfinal {α : Type} {x : State → Res α} (hx : Moving x) (b : Bool) :
    Moving fun s => x { s with bfinal := b } :=
  fun s => (hx _).mono fun _ h => (moves_bfinal s b).trans h

theorem moving_inflateBlock (type : Nat) : Moving (inflateBlock type) := by
  match type with
  | 0 => exact moving_inflateUncompressed
  | 1 => exact fun s => (moving_inflateBlockData _).mono fun _ h => (moves_buildFixedTrees s).trans h
  | 2 => exact moving_decodeTrees.bind fun _ => moving_inflateBlockData
  | _ + 3 => exact moving_raised _

theorem moving_blockLoop : ∀ k, Moving (blockLoop k)
  | 0 => moving_refused _
  | k + 1 =>
    (moving_getBits 1).bind fun f => ((moving_getBits 2).bind fun type => (moving_inflateBlock type).bind fun _ =>
      .ite (moving_ok ()) (moving_blockLoop k)).afterBfinal (f == 1)

/-! ## Elements -/

theorem moving_headerElement (h : Nat) : Moving (headerElement h) := by
  intro s
  rw [headerElement]
  split
  · exact ((moving_inflateUncompressed.afterBfinal _).thenSeq _) s
  · exact ((moves_bfinal s _).trans (moves_buildFixedTrees _)).trans (moves_seq _ _)
  · exact ((moving_beginHeader.afterBfinal _).thenSeq _) s
  · exact moves_bfinal s _

theorem moving_litLenElement (sym : Nat) : Moving (litLenElement sym) :=
  .ite (moving_testOverflow.bind fun _ => moving_putLiteral _)
    (.ite (moving_testOverflow.thenSeq _) (moving_testOverflow.bind fun _ => (moving_lengthHalf sym).thenSeq _))

theorem moving_element (f : Format) (n : Nat) : Moving (element f n) := by
  cases f with
  | bh => exact moving_headerElement n
  | ll => exact moving_litLenElement n
  | ds => exact (moving_distHalf n).thenSeq _
  | cl => exact .ite (moving_raised _) (moving_clItem n)
  | op => exact moving_refused _

theorem moving_fetch (f : Format) : Moving (fetch f) := by
  cases f with
  | bh => exact (moving_getBits 1).bind fun f => (moving_getBits 2).bind fun type => moving_ok (f + 2 * type)
  | ll => exact moving_decodeSymbol .ltree
  | ds => exact moving_decodeSymbol .dtree
  | cl => exact moving_decodeSymbol .ltree
  | op => exact moving_refused _

end Sys2Proof.Machine
end

