-- ==== Sys2Proof/Proofs/Invariants.lean ====
section
/-! PROOFS. The invariants of R36 as step lemmas: what a step of a run, an operation issued on its own and a host action
each leave, and from there the core's, the reader's and the output's invariant. -/

namespace Sys2Proof.Machine

/-! ## Outcomes -/

theorem finish_reaches {P : State → Prop} {x : Res Unit} {u : State} (hx : x.Reaches P) (h : x.finish = .next u) :
    P u ∨ ∃ c t, P t ∧ u = takeException c t := by
  cases x with
  | ok a t =>
    cases h
    exact .inl hx
  | raised c t =>
    cases h
    exact .inr ⟨c, t, hx, rfl⟩
  | fault e => cases h
  | refused r => cases h

/-- The state of a run that has ended with TINF_OK (R277). -/
def ended (s : State) : State := { s with status := .ok, destLenOut := s.destLen, phase := .done }

theorem sequence_cases {s : State} (h : mode s = none) :
    (s.seq = .codeLen ∧ sequence s = (endHeader s).bind fun _ s => .ok () { s with seq := .litLen })
      ∨ (s.seq = .blockEnd ∧ sequence s = blockEnd s) := by
  unfold mode at h
  unfold sequence
  split at h
  · cases h
  · exact .inl ⟨‹_›, by rw [‹s.seq = .codeLen›]⟩
  · cases h
  · cases h
  · exact .inr ⟨‹_›, by rw [‹s.seq = .blockEnd›]⟩

/-- What a step of a run can do: a move, a move and a raise, or the end of the run. -/
theorem step_run_outcome {s u : State} (hr : s.request = none) (hi : s.issue = none) (hp : s.phase = .run)
    (h : step s = .next u) :
    Moves s u ∨ (∃ c t, Moves s t ∧ u = takeException c t) ∨ (s.overflow = false ∧ u = ended s) := by
  obtain ⟨f, n, t, -, hf, -, hx⟩ | ⟨hm, hx⟩ := step_run_cases hr hi hp h
  · have hmove := (moving_fetch f).ok hf
    obtain h | h := finish_reaches ((moving_element f n t).mono fun _ h => hmove.trans h) hx
    · exact .inl h
    · exact .inr (.inl h)
  · obtain ⟨-, hs⟩ | ⟨-, hs⟩ := sequence_cases hm
    · rw [hs] at hx
      obtain h | h := finish_reaches ((moving_endHeader.thenSeq .litLen) s) hx
      · exact .inl h
      · exact .inr (.inl h)
    · rw [hs] at hx
      cases hfin : s.bfinal with
      | false =>
        rw [blockEnd_next hfin, Res.finish_ok] at hx
        cases hx
        exact .inl (moves_seq s _)
      | true =>
        rw [blockEnd_final hfin] at hx
        cases ho : s.overflow with
        | false =>
          rw [endRun_ok ho, Res.finish_ok] at hx
          cases hx
          exact .inr (.inr ⟨rfl, rfl⟩)
        | true =>
          rw [endRun_overflow ho, Res.finish_raised] at hx
          cases hx
          exact .inr (.inl ⟨_, s, .refl s, rfl⟩)

/-- What a host action can do (R330, R331, R346). -/
theorem hostStep_next {a : HostAction} {s u : State} (h : (hostStep a s).finish = .next u) :
    (∃ source len cap, startRun source len cap s = .ok () u) ∨ u = State.reset
      ∨ (s.phase ≠ .run ∧ ∃ source out, u = { s with source := source, out := out }
          ∧ (Memory.wf s.source = true → Memory.wf source = true) ∧ (Memory.wf s.out = true → Memory.wf out = true)) := by
  obtain h | ⟨c, t, h, -⟩ := Res.finish_eq_next.1 h
  · obtain ⟨source, len, cap, -, hs⟩ | ⟨-, rfl⟩ | ⟨hp, hs⟩ := hostStep_cases h
    · exact .inl ⟨source, len, cap, hs⟩
    · exact .inr (.inl rfl)
    · refine .inr (.inr ⟨hp, ?_⟩)
      obtain ⟨i, v, -, rfl⟩ | ⟨i, v, -, rfl⟩ | ⟨-, rfl⟩ := hs
      · exact ⟨_, s.out, rfl, Memory.wf_memWrite i v, id⟩
      · exact ⟨s.source, _, rfl, id, Memory.wf_memWrite i v⟩
      · exact ⟨u.source, u.out, rfl, id, id⟩
  · exact absurd h (hostStep_quiet a s c t)

/-- A step, by what is pending. -/
theorem step_pending {s u : State} (h : step s = .next u) :
    (∃ a, (hostStep a { s with request := none }).finish = .next u)
      ∨ (∃ i, s.issue = some i ∧ exec i { s with issue := none } = .next u)
      ∨ (s.phase ≠ .run ∧ u = s)
      ∨ (s.request = none ∧ s.issue = none ∧ s.phase = .run) := by
  obtain ⟨a, -, hx⟩ | ⟨i, -, hi, hx⟩ | ⟨-, -, hp, hu⟩ | ⟨_, _, _, _, hr, hi, hp, -⟩ | ⟨_, _, _, hr, hi, hp, -⟩
    | ⟨hr, hi, hp, -⟩ := step_cases h
  · exact .inl ⟨a, hx⟩
  · exact .inr (.inl ⟨i, hi, hx⟩)
  · exact .inr (.inr (.inl ⟨hp, hu⟩))
  · exact .inr (.inr (.inr ⟨hr, hi, hp⟩))
  · exact .inr (.inr (.inr ⟨hr, hi, hp⟩))
  · exact .inr (.inr (.inr ⟨hr, hi, hp⟩))

end Sys2Proof.Machine

namespace Sys2Proof

open Machine

/-! ## The core's invariant -/

section
variable {s t u : State}

theorem CoreInv.of_reader {n : Nat} (h : CoreInv s) (hhost : hostPart t = hostPart s) (hreader : ReaderMoves s t)
    (happ : Appended n s t) : CoreInv t := by
  obtain ⟨hsource, hlen, hcap, hphase, -, hout, -⟩ := hostPart_eq_iff.1 hhost
  have hdest := happ.dest
  have hdestLen := happ.destLen
  have hroom := happ.room
  have hle := h.destLe
  have heq := h.destLenEq
  exact ⟨hreader.bitcountLe h.bitcountLe, hreader.tagClean h.tagClean, by omega, hreader.srcLe h.srcLe,
    hreader.exhausted h.exhausted, by omega, fun hp => by rw [hout, hcap]; exact h.bounded (hphase ▸ hp),
    by rw [hsource]; exact h.sourceWf, happ.wf h.outWf⟩

theorem CoreInv.moves (h : CoreInv s) (hm : Moves s t) : CoreInv t := by
  obtain ⟨n, hn⟩ := hm.output
  exact h.of_reader hm.host hm.reader hn

/-- REFILL and CONSUME issued on their own. -/
theorem CoreInv.readerOp (h : CoreInv s) (hframe : ReaderFrame s t) (hreader : ReaderMoves s t) : CoreInv t := by
  refine h.of_reader (n := 0) (by rw [ReaderFrame.iff.1 hframe]; rfl) hreader ?_
  rw [ReaderFrame.iff.1 hframe]
  exact ⟨rfl, rfl, .inl rfl, fun a h h' => absurd h' (by omega), fun _ _ => rfl, id⟩

theorem CoreInv.takeException (h : CoreInv s) (c : Cause) : CoreInv (takeException c s) :=
  ⟨h.bitcountLe, h.tagClean, h.destLenEq, h.srcLe, h.exhausted, h.destLe, fun _ => Nat.zero_le _, h.sourceWf, rfl⟩

theorem CoreInv.ended (h : CoreInv s) : CoreInv (ended s) :=
  ⟨h.bitcountLe, h.tagClean, h.destLenEq, h.srcLe, h.exhausted, h.destLe, fun _ => h.destLenEq.trans_le h.destLe,
    h.sourceWf, h.outWf⟩

/-- The pending requests are no part of the invariant. -/
theorem CoreInv.pending (h : CoreInv s) (i : Option Instr) (r : Option HostAction) :
    CoreInv { s with issue := i, request := r } :=
  ⟨h.bitcountLe, h.tagClean, h.destLenEq, h.srcLe, h.exhausted, h.destLe, h.bounded, h.sourceWf, h.outWf⟩

theorem CoreInv.startRun {source : List Byte} {len cap : Nat} (h : CoreInv s)
    (hs : startRun source len cap s = .ok () t) : CoreInv t := by
  obtain ⟨-, -, rfl⟩ := startRun_cases hs
  exact ⟨Nat.zero_le _, Nat.one_pos, rfl, Nat.zero_le _, fun ho => absurd ho (by simp), Nat.zero_le _,
    fun hp => absurd hp (by simp), Memory.wf_memOfBytes _ _, h.outWf⟩

/-! ## Operations issued on their own -/

theorem CoreInv.finish {x : Res Unit} (hx : x.Reaches CoreInv) (h : x.finish = .next u) : CoreInv u := by
  obtain h | ⟨c, t, ht, rfl⟩ := finish_reaches hx h
  · exact h
  · exact ht.takeException c

theorem CoreInv.finish_moving {x : State → Res Unit} (h : CoreInv s) (hx : Moving x) (hu : (x s).finish = .next u) :
    CoreInv u := CoreInv.finish ((hx s).mono fun _ hm => h.moves hm) hu

theorem CoreInv.finishValue {x : Res Nat} (hx : x.Reaches CoreInv) (h : x.finishValue = .next u) : CoreInv u := by
  refine CoreInv.finish (hx.bind (fun _ h => h) fun v t ht => ?_) h
  exact ht.moves (moves_of_eq rfl rfl)

theorem CoreInv.finishValue_moving {x : State → Res Nat} (h : CoreInv s) (hx : Moving x)
    (hu : (x s).finishValue = .next u) : CoreInv u :=
  CoreInv.finishValue ((hx s).mono fun _ hm => h.moves hm) hu

/-- UNCOMPRESS: a START, moves, and the end of the run. -/
theorem CoreInv.uncompress {source : List Byte} {len cap : Nat} (h : CoreInv s)
    (hu : (uncompress source len cap s).finish = .next u) : CoreInv u := by
  refine CoreInv.finish (x := Machine.uncompress source len cap s) ?_ hu
  rw [Machine.uncompress]
  cases hs : Machine.startRun source len cap s with
  | ok a t =>
    rw [Res.bind_ok]
    refine (moving_blockLoop _ t).bind (fun w hw => (h.startRun hs).moves hw) fun _ w hw => ?_
    have hcore := (h.startRun hs).moves hw
    cases ho : w.overflow with
    | false =>
      rw [endRun_ok ho]
      exact hcore.ended
    | true =>
      rw [endRun_overflow ho]
      exact hcore
  | raised c t => exact absurd hs (startRun_quiet source len cap s c t)
  | fault e => trivial
  | refused r => trivial

/-- Every instruction keeps the core's invariant. -/
theorem CoreInv.exec {i : Instr} (h : CoreInv s) (hu : exec i s = .next u) : CoreInv u := by
  by_cases hop : (encode i).format = .op
  · cases i with
    | refill n =>
      have hx : (Machine.refill n s).Reaches CoreInv := by
        cases hs : Machine.refill n s with
        | ok a t => exact h.readerOp (refill_spec hs).1 (refill_moves hs)
        | raised c t => exact absurd hs (refill_quiet n s c t)
        | fault e => trivial
        | refused r => trivial
      exact CoreInv.finish hx hu
    | consume n =>
      have hx : (Machine.consume n s).Reaches CoreInv := by
        cases hs : Machine.consume n s with
        | ok a t =>
          obtain ⟨-, -, ht⟩ := consume_cases hs
          exact h.readerOp (by rw [ht]; rfl) (consume_moves hs)
        | raised c t => exact absurd hs (consume_quiet n s c t)
        | fault e => trivial
        | refused r => trivial
      exact CoreInv.finishValue hx hu
    | getbits n => exact h.finishValue_moving (moving_getBits n) hu
    | getbitsBase n base => exact h.finishValue_moving (moving_getBitsBase n base) hu
    | buildTree id off num => exact h.finish_moving (moving_buildTree id off num) hu
    | decodeSymbol id => exact h.finishValue_moving (moving_decodeSymbol id) hu
    | buildFixedTrees =>
      rw [exec_buildFixedTrees] at hu
      cases hu
      exact h.moves (moves_buildFixedTrees s)
    | decodeTrees => exact h.finish_moving moving_decodeTrees hu
    | inflateBlockData => exact h.finish_moving moving_inflateBlockData hu
    | inflateUncompressed => exact h.finish_moving moving_inflateUncompressed hu
    | uncompress source len cap => exact h.uncompress hu
    | _ => cases hop
  · rw [exec_eq_element i s hop] at hu
    exact h.finish_moving (moving_element _ _) hu

theorem CoreInv.hostStep {a : HostAction} (h : CoreInv s) (hu : (hostStep a s).finish = .next u) : CoreInv u := by
  obtain ⟨source, len, cap, hs⟩ | rfl | ⟨-, source, out, rfl, hsource, hout⟩ := hostStep_next hu
  · exact h.startRun hs
  · exact coreInvariantHoldsAtReset
  · exact ⟨h.bitcountLe, h.tagClean, h.destLenEq, h.srcLe, h.exhausted, h.destLe, h.bounded, hsource h.sourceWf,
      hout h.outWf⟩

theorem CoreInv.step_run (h : CoreInv s) (hr : s.request = none) (hi : s.issue = none) (hp : s.phase = .run)
    (hu : step s = .next u) : CoreInv u := by
  obtain hm | ⟨c, t, hm, rfl⟩ | ⟨-, rfl⟩ := step_run_outcome hr hi hp hu
  · exact h.moves hm
  · exact (h.moves hm).takeException c
  · exact h.ended

/-! ## The reader's and the output's invariant -/

theorem ReaderInv.moves (h : ReaderInv s) (hm : Moves s t) : ReaderInv t := by
  obtain ⟨-, -, -, -, -, -, hissue, -⟩ := hostPart_eq_iff.1 hm.host
  exact ⟨hissue.trans h.noIssue, hm.held h.bitcountLe⟩

theorem WrittenInv.moves (h : WrittenInv s) (hm : Moves s t) : WrittenInv t := by
  obtain ⟨-, -, -, hphase, -, -, hissue, -⟩ := hostPart_eq_iff.1 hm.host
  obtain ⟨n, hn⟩ := hm.output
  have hdest := hn.dest
  have hdestLen := hn.destLen
  have heq := h.destLenEq
  refine ⟨hissue.trans h.noIssue, by omega, fun hp a ha => ?_⟩
  by_cases hlt : a < s.dest
  · rw [hn.others a (.inl hlt)]
    exact h.written (hphase ▸ hp) a hlt
  · exact hn.written a (Nat.not_lt.1 hlt) (by omega)

end

/-! ## The outer fields of an operation -/

theorem withOuter_self (s : State) : withOuter s s = s := rfl

/-- An operation that does not look at the sequencer leaves it where it is. -/
theorem seq_of_inner {α : Type} {x : State → Res α} (h : Inner x) (s : State) :
    (x s).Reaches fun t => t.seq = s.seq := by
  have hx := h s s
  rw [withOuter_self] at hx
  cases hs : x s with
  | ok a t =>
    rw [hs, Res.mapState_ok, Res.ok.injEq] at hx
    exact (congrArg State.seq hx.2 :)
  | raised c t =>
    rw [hs, Res.mapState_raised, Res.raised.injEq] at hx
    exact (congrArg State.seq hx.2 :)
  | fault e => trivial
  | refused r => trivial

/-- R276: the step has not come to the end of a block with `overflow` set. -/
def ClearAtEnd (s : State) : Prop := s.seq = .blockEnd → s.overflow = false

section
variable {s u : State}

theorem clear_of_seq {q : Seq} (h : s.seq = q) (hq : q ≠ .blockEnd) : ClearAtEnd s := fun hs => absurd (h.symm.trans hs) hq

theorem clear_finish {x : Res Unit} (hx : x.Reaches ClearAtEnd) (h : x.finish = .next u) : ClearAtEnd u := by
  obtain h | ⟨c, t, ht, rfl⟩ := finish_reaches hx h
  · exact h
  · exact ht

/-- An operation that leaves the sequencer alone, in a mode of the stream. -/
theorem clear_of_inner {α : Type} {x : State → Res α} (h : Inner x) (hs : s.seq ≠ .blockEnd) :
    (x s).Reaches ClearAtEnd := (seq_of_inner h s).mono fun _ ht => clear_of_seq ht hs

/-- The same, followed by a move of the sequencer into the block. -/
theorem clear_of_inner_seq {x : State → Res Unit} (h : Inner x) (hs : s.seq ≠ .blockEnd) {q : Seq} (hq : q ≠ .blockEnd) :
    ((x s).bind fun _ s => .ok () { s with seq := q }).Reaches ClearAtEnd :=
  (clear_of_inner h hs).bind (fun _ ht => ht) fun _ _ _ => clear_of_seq rfl hq

/-- An element comes to the end of a block only with `overflow` clear: EOB is tested, and a stored block has its LEN and
NLEN inside the source. -/
theorem clear_element (f : Format) (n : Nat) (hs : s.seq ≠ .blockEnd) (hex : s.overflow = true → s.src = s.sourceLen) :
    (element f n s).Reaches ClearAtEnd := by
  cases f with
  | bh =>
    rw [element, headerElement]
    split
    · cases hx : inflateUncompressed { s with bfinal := n % 2 == 1 } with
      | ok a t =>
        have ho := inflateUncompressed_noOverflow (s := { s with bfinal := n % 2 == 1 }) hex hx
        exact fun _ => ho
      | raised c t =>
        have hseq := seq_of_inner inner_inflateUncompressed { s with bfinal := n % 2 == 1 }
        rw [hx] at hseq
        exact clear_of_seq hseq hs
      | fault e => trivial
      | refused r => trivial
    · exact clear_of_seq (q := .litLen) rfl (by decide)
    · exact clear_of_inner_seq (s := { s with bfinal := n % 2 == 1 }) inner_beginHeader hs (by decide)
    · exact clear_of_seq (s := { s with bfinal := n % 2 == 1 }) rfl hs
  | ll =>
    rw [element, litLenElement]
    split
    · exact clear_of_inner (x := literalElement _) (fun o => (inner_testOverflow o).bind fun _ => inner_putLiteral _ o) hs
    · split
      · rw [eobElement]
        obtain ⟨-, h⟩ | ⟨ho, h⟩ := testOverflow_cases s
        · rw [h]
          exact clear_of_seq rfl hs
        · rw [h]
          exact fun _ => ho
      · rw [lengthElement, ← Res.bind_assoc]
        exact clear_of_inner_seq (x := fun s => (testOverflow s).bind fun _ s => lengthHalf n s)
          (fun o => (inner_testOverflow o).bind fun _ => inner_lengthHalf n o) hs (by decide)
  | ds => exact clear_of_inner_seq (inner_distHalf n) hs (by decide)
  | cl =>
    rw [element, clElement]
    split
    · exact clear_of_seq rfl hs
    · exact clear_of_inner (inner_clItem n) hs
  | op => trivial

theorem inner_fetch (f : Format) : Inner (fetch f) := by
  cases f with
  | bh => exact fun o => (inner_getBits 1 o).bind fun _ => (inner_getBits 2 o).bind fun _ _ => rfl
  | ll => exact inner_decodeSymbol .ltree
  | ds => exact inner_decodeSymbol .dtree
  | cl => exact inner_decodeSymbol .ltree
  | op => exact fun _ _ => rfl

theorem mode_seq {f : Format} (h : mode s = some f) : s.seq ≠ .blockEnd := by
  intro hs
  rw [mode, hs] at h
  cases h

end

/-- Settles O52, by what is pending: a host action, an operation, or a step of a run. -/
theorem coreInvariantIsKept : Obligations.CoreInvariantIsKept := by
  intro s t h hs
  obtain ⟨a, hx⟩ | ⟨i, -, hx⟩ | ⟨-, rfl⟩ | ⟨hr, hi, hp⟩ := step_pending hs
  · exact (h.pending s.issue none).hostStep hx
  · exact (h.pending none s.request).exec hx
  · exact h
  · exact h.step_run hr hi hp hs

/-- Settles O53: a GETBITS leaves at most 7 bits (`getBits_spec`), and nothing else of a step adds bits. -/
theorem atMostSevenBitsAreHeld : Obligations.AtMostSevenBitsAreHeld := by
  intro s t h hs
  obtain ⟨a, hx⟩ | ⟨i, hi, -⟩ | ⟨-, rfl⟩ | ⟨hr, hi, hp⟩ := step_pending hs
  · obtain ⟨source, len, cap, hstart⟩ | rfl | ⟨-, source, out, rfl, -⟩ := hostStep_next hx
    · obtain ⟨-, -, rfl⟩ := startRun_cases hstart
      exact ⟨h.noIssue, Nat.zero_le _⟩
    · exact ⟨rfl, Nat.zero_le _⟩
    · exact ⟨h.noIssue, h.bitcountLe⟩
  · exact absurd (hi.symm.trans h.noIssue) (by simp)
  · exact h
  · obtain hm | ⟨c, u, hm, rfl⟩ | ⟨-, rfl⟩ := step_run_outcome hr hi hp hs
    · exact h.moves hm
    · exact ⟨(h.moves hm).noIssue, (h.moves hm).bitcountLe⟩
    · exact ⟨h.noIssue, h.bitcountLe⟩

/-- Settles O54: `dest` moves only behind bytes that have been written. -/
theorem outputBelowDestIsWritten : Obligations.OutputBelowDestIsWritten := by
  intro s t h hs
  obtain ⟨a, hx⟩ | ⟨i, hi, -⟩ | ⟨-, rfl⟩ | ⟨hr, hi, hp⟩ := step_pending hs
  · obtain ⟨source, len, cap, hstart⟩ | rfl | ⟨hphase, source, out, rfl, -⟩ := hostStep_next hx
    · obtain ⟨-, -, rfl⟩ := startRun_cases hstart
      exact ⟨h.noIssue, rfl, fun _ a ha => absurd ha (Nat.not_lt_zero a)⟩
    · exact ⟨rfl, rfl, fun hp => absurd hp (by decide)⟩
    · exact ⟨h.noIssue, h.destLenEq, fun hp => absurd hp hphase⟩
  · exact absurd (hi.symm.trans h.noIssue) (by simp)
  · exact h
  · obtain hm | ⟨c, u, hm, rfl⟩ | ⟨-, rfl⟩ := step_run_outcome hr hi hp hs
    · exact h.moves hm
    · exact ⟨(h.moves hm).noIssue, (h.moves hm).destLenEq, fun hp => absurd hp (by simp)⟩
    · exact ⟨h.noIssue, h.destLenEq, fun hp => absurd hp (by simp [ended])⟩

/-- Settles O55: EOB is tested for `overflow`, and a stored block that is accepted has read LEN and NLEN inside the
source. -/
theorem overflowIsClearAtABlockEnd : Obligations.OverflowIsClearAtABlockEnd := by
  intro s t hcore hreader hclear hs
  obtain ⟨a, hx⟩ | ⟨i, hi, -⟩ | ⟨-, rfl⟩ | ⟨hr, hi, hp⟩ := step_pending hs
  · obtain ⟨source, len, cap, hstart⟩ | rfl | ⟨-, source, out, rfl, -⟩ := hostStep_next hx
    · obtain ⟨-, -, rfl⟩ := startRun_cases hstart
      exact clear_of_seq (q := .header) rfl (by decide)
    · exact clear_of_seq (q := .header) rfl (by decide)
    · exact hclear
  · exact absurd (hi.symm.trans hreader.noIssue) (by simp)
  · exact hclear
  · obtain ⟨f, n, u, hm, hf, -, hx⟩ | ⟨hm, hx⟩ := step_run_cases hr hi hp hs
    · have hseq := seq_of_inner (inner_fetch f) s
      rw [hf] at hseq
      have hex := (hcore.moves ((moving_fetch f).ok hf)).exhausted
      exact clear_finish (clear_element f n (fun h => mode_seq hm (hseq.symm.trans h)) hex) hx
    · obtain ⟨hq, hsq⟩ | ⟨hq, hsq⟩ := sequence_cases hm
      · rw [hsq] at hx
        exact clear_finish (clear_of_inner_seq inner_endHeader (by rw [hq]; decide) (by decide)) hx
      · rw [hsq] at hx
        have ho := hclear hq
        cases hfin : s.bfinal with
        | false =>
          rw [blockEnd_next hfin, Res.finish_ok] at hx
          cases hx
          exact fun _ => ho
        | true =>
          rw [blockEnd_final hfin, endRun_ok ho, Res.finish_ok] at hx
          cases hx
          exact fun _ => ho

/-- Settles O59: no operation of a run changes the host's fields. -/
theorem sourceAndLimitsAreConstant : Obligations.SourceAndLimitsAreConstant := by
  intro s t hr hi hs
  by_cases hp : s.phase = .run
  · obtain hm | ⟨c, u, hm, rfl⟩ | ⟨-, rfl⟩ := step_run_outcome hr hi hp hs
    · obtain ⟨hsource, hlen, hcap, -⟩ := hostPart_eq_iff.1 hm.host
      exact ⟨hsource, hlen, hcap⟩
    · obtain ⟨hsource, hlen, hcap, -⟩ := hostPart_eq_iff.1 hm.host
      exact ⟨hsource, hlen, hcap⟩
    · exact ⟨rfl, rfl, rfl⟩
  · rw [step_outside_run hp hr hi] at hs
    cases hs
    exact ⟨rfl, rfl, rfl⟩

/-- Settles O60: the output of a step is appended bytes. -/
theorem outputIsOnlyAppended : Obligations.OutputIsOnlyAppended := by
  intro s t hr hi hp hs
  obtain hm | ⟨c, u, hm, rfl⟩ | ⟨-, rfl⟩ := step_run_outcome hr hi hp hs
  · obtain ⟨n, hn⟩ := hm.output
    have hdest := hn.dest
    exact ⟨hm.reader.src, by omega, fun _ a ha => hn.others a (by omega)⟩
  · obtain ⟨n, hn⟩ := hm.output
    have hdest := hn.dest
    refine ⟨hm.reader.src, by simp only [takeException_dest]; omega, fun h => ?_⟩
    have hc : c.status ≠ .ok := by cases c <;> decide
    rcases h with h | h
    · exact absurd h hc
    · exact absurd h (by simp)
  · exact ⟨Nat.le_refl _, Nat.le_refl _, fun _ _ _ => rfl⟩

end Sys2Proof
end

