-- ==== Sys2Proof/Proofs/Ends.lean ====
section
/-! PROOFS. When an operation of a run ends (R303, R304): from a sound state it returns or raises and does not stop, given
the trees and counts it needs. -/

namespace Sys2Proof.Machine

/-! ## Sound states -/

/-- What the reader and the output keep between two operations of a run (R36, R69): enough for a byte to be read, and for
the copy engine. -/
structure Sound (s : State) : Prop where
  reader : ReaderReady s
  destLenEq : s.destLen = s.dest
  destLe : s.dest ≤ s.destCap
  written : ∀ a, a < s.dest → (memRead s.out a).isSome

theorem Sound.moves {s t : State} (h : Sound s) (hm : Moves s t) : Sound t := by
  obtain ⟨hsource, hlen, hcap, -⟩ := hostPart_eq_iff.1 hm.host
  obtain ⟨n, hn⟩ := hm.output
  have hdest := hn.dest
  have hdestLen := hn.destLen
  have hroom := hn.room
  have heq := h.destLenEq
  have hle := h.destLe
  refine ⟨⟨fun a ha => ?_, hm.reader.srcLe h.reader.srcLe, hm.held h.reader.bitcountLe⟩, by omega, by omega,
    fun a ha => ?_⟩
  · rw [hsource]
    exact h.reader.readable a (hlen ▸ ha)
  · by_cases hlt : a < s.dest
    · rw [hn.others a (.inl hlt)]
      exact h.written a hlt
    · exact hn.written a (Nat.not_lt.1 hlt) (by omega)

/-! ## Operations that end -/

/-- The operation returns or raises: it does not stop. -/
inductive Res.Ends {α : Type} : Res α → Prop where
  | ok (a : α) (s : State) : Ends (.ok a s)
  | raised (c : Cause) (s : State) : Ends (.raised c s)

section
variable {α β : Type} {s : State}

theorem ends_of_ok {x : Res α} {a : α} {t : State} (h : x = .ok a t) : x.Ends := by
  rw [h]
  exact .ok a t

theorem ends_of_raised {x : Res α} {c : Cause} {t : State} (h : x = .raised c t) : x.Ends := by
  rw [h]
  exact .raised c t

theorem Res.Ends.cases {x : Res α} (h : x.Ends) : (∃ a t, x = .ok a t) ∨ ∃ c t, x = .raised c t := by
  cases h with
  | ok a t => exact .inl ⟨a, t, rfl⟩
  | raised c t => exact .inr ⟨c, t, rfl⟩

theorem Res.Ends.bind {x : Res α} {f : α → State → Res β} (hx : x.Ends) (hf : ∀ a t, x = .ok a t → (f a t).Ends) :
    (x.bind f).Ends := by
  obtain ⟨a, t, h⟩ | ⟨c, t, h⟩ := hx.cases
  · rw [h]
    exact hf a t h
  · rw [h]
    exact .raised c t

/-- A sequence whose first part moves: what follows starts in a sound state again. -/
theorem Res.Ends.bind_sound {x : State → Res α} {f : α → State → Res β} (hs : Sound s) (hm : Moving x) (hx : (x s).Ends)
    (hf : ∀ a t, x s = .ok a t → Sound t → (f a t).Ends) : ((x s).bind f).Ends :=
  hx.bind fun a t h => hf a t h (hs.moves (hm.ok h))

theorem Res.Ends.finish {x : Res Unit} (hx : x.Ends) : ∃ u, x.finish = .next u := by
  obtain ⟨a, t, h⟩ | ⟨c, t, h⟩ := hx.cases
  · exact ⟨t, by rw [h, Res.finish_ok]⟩
  · exact ⟨takeException c t, by rw [h, Res.finish_raised]⟩

/-! ## The reader -/

theorem operand_ends (base : Nat) {n : Nat} (h : Sound s) (hn : n ≤ 16) : (operand base n s).Ends := by
  obtain ⟨v, t, hv, -⟩ := operand_answers (base := base) h.reader hn
  exact ends_of_ok hv

theorem getBitsBase_ends (base : Nat) {n : Nat} (h : Sound s) (hn : n ≤ 16) : (getBitsBase n base s).Ends := by
  rw [getBitsBase_eq_operand]
  exact operand_ends base h hn

/-! ## The block body -/

theorem putLiteral_ends (b : Byte) (h : Sound s) : (putLiteral b s).Ends := by
  have hle := h.destLe
  obtain ⟨-, hx⟩ | ⟨hne, -⟩ := putLiteral_cases b s
  · exact ends_of_raised hx
  · exact ends_of_ok (putLiteral_ok b (lt_of_le_of_ne hle hne))

theorem lengthBits_le (i : Nat) : lengthBits.getD i 0 ≤ 16 := (getD_le (by decide) i).trans (by decide)

theorem distBits_le (i : Nat) : distBits.getD i 0 ≤ 16 := (getD_le (by decide) i).trans (by decide)

theorem readLength_ends (sym : Nat) (h : Sound s) : (readLength sym s).Ends := by
  have hle := lengthBits_le (sym - 257)
  rw [readLength]
  generalize lengthBits.getD (sym - 257) 0 = n at hle ⊢
  exact getBitsBase_ends _ h hle

theorem lengthHalf_ends (sym : Nat) (h : Sound s) : (lengthHalf sym s).Ends := by
  obtain ⟨c, -, hx, -⟩ | ⟨-, -, -, hx⟩ := lengthHalf_cases sym s
  · exact ends_of_raised hx
  · have hread := readLength_ends sym h
    generalize readLength sym s = x at hx hread
    rw [hx]
    exact hread.bind fun _ _ _ => .ok _ _

theorem distBase_pos : ∀ d < 30, 0 < distBase.getD d 0 := by decide

theorem distHalf_ends (d : Nat) (h : Sound s) : (distHalf d s).Ends := by
  rw [distHalf]
  split
  · exact .raised _ _
  · have hmove : Moving (readDistance d) := moving_getBitsBase _ _
    refine Res.Ends.bind_sound h hmove (getBitsBase_ends _ h (distBits_le d)) fun offs u hread hu => ?_
    split
    · exact .raised _ _
    · split
      · exact .raised _ _
      · have hoffs : 0 < offs := by
          have hbase := distBase_pos d (by omega)
          obtain ⟨-, rfl, -⟩ | ⟨-, x, -, rfl⟩ := getBitsBase_cases hread <;> omega
        have heq := hu.destLenEq
        obtain ⟨t, ht⟩ := copyMatch_answers (n := u.matchLen) hoffs (by omega) (by omega) hu.written
        exact ends_of_ok ht

/-! ## The uncompressed block -/

theorem checkStored_ends (len nlen : Nat) (s : State) : (checkStored len nlen s).Ends := by
  unfold checkStored
  split
  · exact .raised _ _
  · split
    · exact .raised _ _
    · split
      · exact .raised _ _
      · exact .ok _ _

theorem inflateUncompressed_ends (h : Sound s) : (inflateUncompressed s).Ends := by
  rw [inflateUncompressed]
  refine Res.Ends.bind_sound (h.moves (moves_alignReader s)) (moving_operand 0 16)
    (operand_ends 0 (h.moves (moves_alignReader s)) (by decide)) fun len t _ ht => ?_
  refine Res.Ends.bind_sound ht (moving_operand 0 16) (operand_ends 0 ht (by decide)) fun nlen u _ hu => ?_
  refine (checkStored_ends len nlen u).bind fun _ v hv => ?_
  obtain ⟨rfl, -, hsrc, hdest⟩ := checkStored_cases hv
  obtain ⟨w, hw⟩ := copyStored_answers hu.reader.readable hsrc hdest
  exact (ends_of_ok hw).bind fun _ _ _ => .ok _ _

/-! ## Code lengths -/

/-- The first `n` entries of the scratch array are code lengths. -/
def LengthsLe (n : Nat) (s : State) : Prop := ∀ i, i < n → entry s.lengths i ≤ 15

theorem LengthsLe.congr {n : Nat} {t : State} (h : LengthsLe n s) (ht : t.lengths = s.lengths) : LengthsLe n t := by
  unfold LengthsLe
  rw [ht]
  exact h

theorem LengthsLe.write {n i v : Nat} (h : LengthsLe n s) (hv : v ≤ 15) :
    LengthsLe n (withLengths (s.lengths.setIfInBounds i v) s) := by
  intro k hk
  rw [withLengths_lengths, entry_setIfInBounds]
  split
  · exact hv
  · exact h k hk

/-- Every entry of the scratch array, those past its end included. -/
theorem lengthsLe_iff : LengthsLe 320 s ↔ ∀ i, entry s.lengths i ≤ 15 := by
  refine ⟨fun h i => ?_, fun h i _ => h i⟩
  by_cases hi : i < 320
  · exact h i hi
  · simp [entry, hi]

/-- Reading the code lengths of the code-length alphabet. -/
theorem readClens_lengths {n : Nat} :
    ∀ {syms : List Nat} {s : State}, LengthsLe n s → (readClens syms s).Reaches (LengthsLe n) := by
  intro syms
  induction syms with
  | nil => exact fun h => h
  | cons sym syms ih =>
    intro s h
    rw [readClens]
    cases hr : readClen s with
    | ok v t =>
      obtain ⟨x, hx, rfl⟩ := operand_cases hr
      obtain ⟨hframe, -, -, -, hlt, -⟩ := getBits_spec hx
      have ht := h.congr hframe.header.2.2.2
      rw [Res.bind_ok]
      cases hw : writeLength sym (0 + x) t with
      | ok a u =>
        obtain ⟨-, rfl⟩ := writeLength_cases hw
        exact ih (ht.write (by omega))
      | raised c u =>
        unfold writeLength at hw
        split at hw <;> cases hw
      | fault e => trivial
      | refused r => trivial
    | raised c t => exact absurd hr (operand_quiet 0 3 s c t)
    | fault e => trivial
    | refused r => trivial

theorem readClens_ends :
    ∀ {syms : List Nat} {s : State}, Sound s → (∀ sym ∈ syms, sym < 320) → (readClens syms s).Ends := by
  intro syms
  induction syms with
  | nil => exact fun _ _ => .ok _ _
  | cons sym syms ih =>
    intro s h hlt
    obtain ⟨hsym, hlt⟩ := List.forall_mem_cons.1 hlt
    rw [readClens]
    refine Res.Ends.bind_sound h (moving_operand 0 3) (operand_ends 0 h (by decide)) fun v t _ ht => ?_
    exact Res.Ends.bind_sound ht (moving_writeLength sym v) (ends_of_ok (writeLength_ok hsym)) fun _ u _ hu => ih hu hlt

theorem buildTree_ends {id : TreeId} {off num : Nat} (h : buildContract s.lengths off num = true) :
    (buildTree id off num s).Ends := by
  obtain ⟨hno, -⟩ | ⟨-, c, -, hx⟩ | ⟨-, -, hx⟩ := buildTree_cases id off num s
  · exact absurd (h.symm.trans hno) (by decide)
  · exact ends_of_raised hx
  · exact ends_of_ok hx

theorem checkCounts_cases (hlit hdist : Nat) (s : State) :
    (∃ c, checkCounts hlit hdist s = .raised c s) ∨ (hlit ≤ 286 ∧ hdist ≤ 30 ∧ checkCounts hlit hdist s = .ok () s) := by
  unfold checkCounts
  split
  · exact .inl ⟨_, rfl⟩
  · split
    · exact .inl ⟨_, rfl⟩
    · exact .inr ⟨Nat.not_lt.1 ‹_›, Nat.not_lt.1 ‹_›, rfl⟩

/-- The contract of the header's first build: the 19 entries have been cleared and then read as fields of 3 bits. -/
theorem buildContract_clens {t : State} (h : LengthsLe 19 t) : buildContract t.lengths 0 19 = true :=
  buildContract_of_entries (by decide) (by decide) fun i _ hi => h i (by omega)

theorem lengthsLe_zeroed {v : Vector Nat 320} {u : State}
    (hentry : ∀ k, entry v k = if 0 ≤ k ∧ k < 0 + 19 then 0 else entry s.lengths k) (hu : u.lengths = v) :
    LengthsLe 19 u := by
  intro i hi
  rw [hu, hentry, if_pos (by omega)]
  exact Nat.zero_le _

theorem beginHeader_ends (h : Sound s) : (beginHeader s).Ends := by
  rw [beginHeader]
  refine Res.Ends.bind_sound h (moving_operand 257 5) (operand_ends _ h (by decide)) fun hlit t _ ht => ?_
  refine Res.Ends.bind_sound ht (moving_operand 1 5) (operand_ends _ ht (by decide)) fun hdist u _ hu => ?_
  refine Res.Ends.bind_sound hu (moving_operand 4 4) (operand_ends _ hu (by decide)) fun hclen v _ hv => ?_
  obtain ⟨c, hx⟩ | ⟨-, -, hx⟩ := checkCounts_cases hlit hdist v
  · rw [hx]
    exact .raised _ _
  · rw [hx, Res.bind_ok]
    obtain ⟨w, hz, hentry⟩ := zeroLengths_spec (n := 19) (i := 0) (s := v) (by decide)
    have hw : Sound (withLengths w v) := hv.moves ((moving_zeroLengths 19 0).ok hz)
    have hsyms : ∀ sym ∈ clOrder.take hclen, sym < 320 := fun sym hsym =>
      ((clOrder_spec.2 sym).1 (List.mem_of_mem_take hsym)).trans (by decide)
    rw [hz, Res.bind_ok]
    refine (readClens_ends hw hsyms).bind fun _ x hx => ?_
    have hlens := readClens_lengths (syms := clOrder.take hclen) (lengthsLe_zeroed hentry (withLengths_lengths w v))
    rw [hx] at hlens
    refine (buildTree_ends (buildContract_clens hlens)).bind fun _ y _ => ?_
    split
    · exact .raised _ _
    · exact .ok _ _

/-- What an item of the header does to a sound state: it raises before it reads, or it stores a run behind a read. -/
theorem clItem_eq_storeRun {sym : Nat} (h : Sound s) (hsym : sym ≤ 18) (hnum : s.num ≤ 320) :
    (∃ c, clItem sym s = .raised c s)
      ∨ ∃ val rep w, ReaderFrame s w ∧ 1 ≤ rep ∧ (LengthsLe s.num s → val ≤ 15)
          ∧ clItem sym s = storeRun val rep w := by
  have hread : ∀ base n, n ≤ 16 → ∃ v w, operand base n s = .ok (base + v) w ∧ ReaderFrame s w := fun base n hn => by
    obtain ⟨v, w, hv, -⟩ := getBits_answers h.reader hn
    exact ⟨v, w, operand_of_getBits hv, (getBits_spec hv).1⟩
  rw [clItem]
  obtain ⟨-, hx⟩ | ⟨-, hx⟩ := checkClSym_cases sym s
  · exact .inl ⟨_, by rw [hx, Res.bind_raised]⟩
  · rw [hx, Res.bind_ok]
    split
    · by_cases hfirst : s.num = 0
      · exact .inl ⟨_, by rw [clRepeatPrevious, previousLength_first hfirst, Res.bind_raised]⟩
      · obtain ⟨v, w, hv, hframe⟩ := hread 3 2 (by decide)
        refine .inr ⟨entry s.lengths (s.num - 1), 3 + v, w, hframe, by omega, fun hl => hl _ (by omega), ?_⟩
        rw [clRepeatPrevious, previousLength_ok (Nat.pos_of_ne_zero hfirst) hnum, Res.bind_ok, readRepeat16, hv,
          Res.bind_ok]
    · split
      · obtain ⟨v, w, hv, hframe⟩ := hread 3 3 (by decide)
        exact .inr ⟨0, 3 + v, w, hframe, by omega, fun _ => Nat.zero_le _, by
          rw [clZerosShort, readRepeat17, hv, Res.bind_ok]⟩
      · split
        · obtain ⟨v, w, hv, hframe⟩ := hread 11 7 (by decide)
          exact .inr ⟨0, 11 + v, w, hframe, by omega, fun _ => Nat.zero_le _, by
            rw [clZerosLong, readRepeat18, hv, Res.bind_ok]⟩
        · exact .inr ⟨sym, 1, s, .refl s, Nat.le_refl _, fun _ => by omega, rfl⟩

end

end Sys2Proof.Machine
end

