-- ==== Sys2Proof/Proofs/RunModes.lean ====
section
/-! PROOFS. What a run keeps from step to step in each of its modes (R172, R204, R342): the trees and counts that the next
elements need. -/

namespace Sys2Proof.Machine

/-! ## Operations that keep the trees -/

/-- A property that the operation keeps, whether it returns or raises. -/
def Keeps {α : Type} (P : State → Prop) (x : State → Res α) : Prop := ∀ s, P s → (x s).Reaches P

section
variable {α β : Type} {P : State → Prop}

theorem keeps_ok (a : α) : Keeps P fun s => .ok a s := fun _ h => h

theorem keeps_raised (c : Cause) : Keeps P fun s => (.raised c s : Res α) := fun _ h => h

theorem Keeps.bind {x : State → Res α} {f : α → State → Res β} (hx : Keeps P x) (hf : ∀ a, Keeps P (f a)) :
    Keeps P fun s => (x s).bind f :=
  fun s h => (hx s h).bind (fun _ h => h) fun a t h => hf a t h

theorem Keeps.ite {p : State → Prop} [DecidablePred p] {x y : State → Res α} (hx : Keeps P x) (hy : Keeps P y) :
    Keeps P fun s => if p s then x s else y s := by
  intro s h
  by_cases hp : p s
  · simp only [if_pos hp]
    exact hx s h
  · simp only [if_neg hp]
    exact hy s h

theorem keeps_of_quiet {x : State → Res α} (hq : ∀ s, (x s).Quiet) (h : ∀ s a t, x s = .ok a t → P s → P t) :
    Keeps P x := by
  intro s hs
  cases hx : x s with
  | ok a t => exact h s a t hx hs
  | raised c t => exact absurd hx (hq s c t)
  | fault e => trivial
  | refused r => trivial

theorem Keeps.of_ok {x : State → Res α} (h : Keeps P x) {s t : State} {a : α} (hs : P s) (hx : x s = .ok a t) : P t := by
  have := h s hs
  rwa [hx] at this

end

/-- The trees, the scratch array and its counters. -/
def treePart (s : State) : Tree × Tree × Vector Nat 320 × Nat × Nat × Nat :=
  (s.ltree, s.dtree, s.lengths, s.hlit, s.hdist, s.num)

theorem treePart_eq_iff {s t : State} :
    treePart t = treePart s ↔
      t.ltree = s.ltree ∧ t.dtree = s.dtree ∧ t.lengths = s.lengths ∧ t.hlit = s.hlit ∧ t.hdist = s.hdist
        ∧ t.num = s.num := by
  simp only [treePart, Prod.mk.injEq]

/-- A property of the trees, the scratch array and its counters. -/
def OnTrees (P : State → Prop) : Prop := ∀ s t, treePart t = treePart s → P s → P t

theorem treePart_of_reader {s t : State} (h : ReaderFrame s t) : treePart t = treePart s := by
  rw [ReaderFrame.iff.1 h]
  rfl

section
variable {P : State → Prop} (hP : OnTrees P)
include hP

theorem keeps_getBits (n : Nat) : Keeps P (getBits n) :=
  keeps_of_quiet (getBits_quiet n) fun s _ t h => hP s t (treePart_of_reader (getBits_spec h).1)

theorem keeps_operand (base n : Nat) : Keeps P (operand base n) :=
  (keeps_getBits hP n).bind fun v => keeps_ok (base + v)

theorem keeps_getBitsBase (n base : Nat) : Keeps P (getBitsBase n base) :=
  Keeps.ite (keeps_ok base) (keeps_operand hP base n)

omit hP in
theorem keeps_testOverflow : Keeps P testOverflow := Keeps.ite (keeps_raised _) (keeps_ok ())

theorem keeps_emitByte (v : Byte) : Keeps P (emitByte v) :=
  keeps_of_quiet (emitByte_quiet v) fun s _ t h => hP s t (by rw [(emitByte_cases h).2]; rfl)

theorem keeps_putLiteral (b : Byte) : Keeps P (putLiteral b) := Keeps.ite (keeps_raised _) (keeps_emitByte hP b)

theorem Keeps.thenMatchLen {x : State → Res Nat} (hx : Keeps P x) :
    Keeps P fun s => (x s).bind fun length s => .ok () { s with matchLen := length } :=
  hx.bind fun length s h => show P { s with matchLen := length } from hP s _ rfl h

theorem keeps_lengthHalf (sym : Nat) : Keeps P (lengthHalf sym) := by
  intro s hs
  obtain ⟨c, -, h, -⟩ | ⟨-, -, -, h⟩ := lengthHalf_cases sym s
  · rw [h]
    exact hs
  · have hread : Keeps P (readLength sym) := keeps_getBitsBase hP _ _
    generalize readLength sym = read at h hread
    rw [h]
    exact hread.thenMatchLen hP s hs

theorem keeps_copyMatch (n offs : Nat) : Keeps P (copyMatch n offs) := by
  refine keeps_of_quiet (copyMatch_quiet n offs) fun s _ t h => hP s t ?_
  exact (congrArg treePart (copyMatch_spec h).2 :)

theorem keeps_distHalf (d : Nat) : Keeps P (distHalf d) :=
  .ite (keeps_raised _) ((keeps_getBitsBase hP _ _).bind fun offs =>
    .ite (keeps_raised _) (.ite (keeps_raised _) fun s => keeps_copyMatch hP s.matchLen offs s))

theorem keeps_copyStored (n : Nat) : Keeps P (copyStored n) := by
  refine keeps_of_quiet (copyStored_quiet n) fun s _ t h => hP s t ?_
  exact (congrArg treePart (copyStored_spec h).2.2 :)

theorem keeps_align : Keeps P fun s => .ok () (alignReader s) := fun s h => hP s (alignReader s) rfl h

theorem keeps_inflateUncompressed : Keeps P inflateUncompressed := fun s h =>
  ((keeps_operand hP 0 16).bind fun len => (keeps_operand hP 0 16).bind fun _ =>
    Keeps.bind (.ite (keeps_raised _) (.ite (keeps_raised _) (.ite (keeps_raised _) (keeps_ok ()))))
      fun _ => (keeps_copyStored hP len).bind fun _ => keeps_align hP)
    (alignReader s) (hP s (alignReader s) rfl h)

theorem Keeps.thenSeq {x : State → Res Unit} (hx : Keeps P x) (q : Seq) :
    Keeps P fun s => (x s).bind fun _ s => .ok () { s with seq := q } :=
  hx.bind fun _ s h => show P { s with seq := q } from hP s _ rfl h

theorem Keeps.afterBfinal {α : Type} {x : State → Res α} (hx : Keeps P x) (b : Bool) :
    Keeps P fun s => x { s with bfinal := b } :=
  fun s h => hx _ (hP s _ rfl h)

end

/-! ## The scratch array -/

theorem onTrees_lengthsLe (n : Nat) : OnTrees (LengthsLe n) := fun _ _ ht h =>
  h.congr (treePart_eq_iff.1 ht).2.2.1

section
variable {n : Nat}

theorem LengthsLe.setTree {s : State} (h : LengthsLe n s) (id : TreeId) (v : Tree) : LengthsLe n (setTree id v s) :=
  h.congr (setTree_lengths id v s)

theorem keeps_buildTree (id : TreeId) (off num : Nat) : Keeps (LengthsLe n) (buildTree id off num) := by
  intro s hs
  obtain ⟨-, h⟩ | ⟨-, c, -, h⟩ | ⟨-, -, h⟩ := buildTree_cases id off num s
  · rw [h]; trivial
  · rw [h]; exact hs.setTree id _
  · rw [h]; exact hs.setTree id _

theorem keeps_endHeader : Keeps (LengthsLe n) endHeader :=
  .ite (keeps_raised _) fun s => Keeps.bind (keeps_buildTree .ltree 0 s.hlit)
    (fun _ s => keeps_buildTree .dtree s.hlit s.hdist s) s

theorem keeps_zeroLengths : ∀ k i, Keeps (LengthsLe n) (zeroLengths k i)
  | 0, _ => keeps_ok ()
  | k + 1, i => Keeps.bind (.ite (fun _ h => h.write (Nat.zero_le _)) fun _ _ => trivial) fun _ => keeps_zeroLengths k (i + 1)

theorem keeps_beginHeader : Keeps (LengthsLe n) beginHeader :=
  have hP := onTrees_lengthsLe n
  (keeps_operand hP 257 5).bind fun hlit => (keeps_operand hP 1 5).bind fun hdist => (keeps_operand hP 4 4).bind fun hclen =>
  Keeps.bind (.ite (keeps_raised _) (.ite (keeps_raised _) (keeps_ok ()))) fun _ => (keeps_zeroLengths 19 0).bind fun _ =>
  Keeps.bind (x := readClens (clOrder.take hclen)) (fun _ h => readClens_lengths h) fun _ =>
    (keeps_buildTree .ltree 0 19).bind fun _ => .ite (keeps_raised _) fun s h =>
      show LengthsLe n { s with hlit := hlit, hdist := hdist, num := 0 } from h.congr rfl

/-- A run of code lengths writes its value only. -/
theorem fillLengths_lengths {val rep : Nat} {s t : State} (h : LengthsLe n s) (hval : val ≤ 15)
    (ht : fillLengths rep val s = .ok () t) : LengthsLe n t := by
  obtain ⟨-, -, -, hentry⟩ := fillLengths_spec ht
  intro i hi
  rw [hentry i]
  split
  · exact hval
  · exact h i hi

end

/-! ## The modes -/

/-- In a dynamic header: the counts in range, a usable code-length tree, and the entries read so far. -/
structure HeaderMode (s : State) : Prop where
  hlit : 257 ≤ s.hlit ∧ s.hlit ≤ 286
  hdist : 1 ≤ s.hdist ∧ s.hdist ≤ 30
  numLe : s.num ≤ s.hlit + s.hdist
  tree : TreeOk 20 s.ltree
  lengths : LengthsLe s.num s

/-- In a block body. -/
def BodyMode (s : State) : Prop := TreeOk 288 s.ltree ∧ DistTreeOk s.dtree

/-- Inside a pair. -/
def PairMode (s : State) : Prop := TreeOk 288 s.ltree ∧ TreeOk 32 s.dtree

/-- What the mode of the sequencer needs. -/
def Mode (s : State) : Prop :=
  match s.seq with
  | .codeLen => HeaderMode s
  | .litLen => BodyMode s
  | .dist => PairMode s
  | .header => True
  | .blockEnd => True

section
variable {s t u : State}

theorem onTrees_headerMode : OnTrees HeaderMode := by
  intro s t ht h
  obtain ⟨hl, -, hlen, hlit, hdist, hnum⟩ := treePart_eq_iff.1 ht
  exact ⟨by rw [hlit]; exact h.hlit, by rw [hdist]; exact h.hdist, by rw [hnum, hlit, hdist]; exact h.numLe,
    by rw [hl]; exact h.tree, by rw [hnum]; exact h.lengths.congr hlen⟩

theorem onTrees_bodyMode : OnTrees BodyMode := by
  intro s t ht h
  obtain ⟨hl, hd, -⟩ := treePart_eq_iff.1 ht
  rw [BodyMode, hl, hd]
  exact h

theorem onTrees_pairMode : OnTrees PairMode := by
  intro s t ht h
  obtain ⟨hl, hd, -⟩ := treePart_eq_iff.1 ht
  rw [PairMode, hl, hd]
  exact h

theorem mode_codeLen (h : s.seq = .codeLen) : Mode s ↔ HeaderMode s := by rw [Mode, h]

theorem mode_litLen (h : s.seq = .litLen) : Mode s ↔ BodyMode s := by rw [Mode, h]

theorem mode_dist (h : s.seq = .dist) : Mode s ↔ PairMode s := by rw [Mode, h]

theorem mode_header (h : s.seq = .header) : Mode s := by rw [Mode, h]; trivial

theorem mode_blockEnd (h : s.seq = .blockEnd) : Mode s := by rw [Mode, h]; trivial

/-! ## The trees that the modes need -/

/-- R194: a set of lengths whose tree has a code. -/
theorem codedCount_pos_of_maxSym {lens : List Nat} (h : lastCoded lens 0 (-1) ≠ -1) : 0 < codedCount lens :=
  Nat.pos_of_ne_zero fun hzero => h (lastCoded_of_empty hzero)

theorem slice_le_of_lengths {off num : Nat} (h : LengthsLe (off + num) s) (hin : off + num ≤ 320) :
    ∀ l ∈ slice s off num, l ≤ 15 := by
  intro l hl
  rw [slice_eq_map hin] at hl
  obtain ⟨i, hi, rfl⟩ := List.mem_map.1 hl
  exact h i (List.mem_range'_1.1 hi).2

theorem slice_getD {off num i : Nat} (hi : i < num) (hin : off + num ≤ 320) :
    (slice s off num).getD i 0 = entry s.lengths (off + i) := by
  rw [slice_eq_map hin, List.getD_eq_getElem _ _ (by simpa), List.getElem_map, List.getElem_range', Nat.one_mul]

/-- The fixed part of a dynamic header enters the header's mode; its tree has a symbol below 19 at most (R194). -/
theorem beginHeader_mode (h : beginHeader s = .ok () u) : HeaderMode u ∧ u.ltree.maxSym ≤ 18 ∧ u.num = 0 := by
  obtain ⟨hlit, t1, h1, h⟩ := Res.bind_eq_ok.1 h
  obtain ⟨hdist, t2, h2, h⟩ := Res.bind_eq_ok.1 h
  obtain ⟨hclen, t3, -, h⟩ := Res.bind_eq_ok.1 h
  obtain ⟨_, t4, h4, h⟩ := Res.bind_eq_ok.1 h
  obtain ⟨_, t5, h5, h⟩ := Res.bind_eq_ok.1 h
  obtain ⟨_, t6, h6, h⟩ := Res.bind_eq_ok.1 h
  obtain ⟨_, t7, h7, h⟩ := Res.bind_eq_ok.1 h
  obtain ⟨x, -, rfl⟩ := operand_cases h1
  obtain ⟨y, -, rfl⟩ := operand_cases h2
  obtain ⟨c, hx⟩ | ⟨hle, hde, -⟩ := checkCounts_cases (257 + x) (1 + y) t3
  · rw [hx] at h4
    cases h4
  obtain ⟨w, hz, hentry⟩ := zeroLengths_spec (n := 19) (i := 0) (s := t4) (by decide)
  rw [hz, Res.ok.injEq] at h5
  have hlens := readClens_lengths (syms := clOrder.take hclen) (lengthsLe_zeroed hentry (withLengths_lengths w t4))
  rw [h5.2, h6] at hlens
  have hlens : LengthsLe (0 + 19) t6 := hlens
  have hslice := slice_le_of_lengths hlens (by decide)
  have hlen : (slice t6 0 19).length = 19 := length_slice (by decide)
  obtain ⟨-, hx⟩ | ⟨-, c, -, hx⟩ | ⟨-, hcheck, hx⟩ := buildTree_cases .ltree 0 19 t6
  · rw [hx] at h7
    cases h7
  · rw [hx] at h7
    cases h7
  have htree : (finishedTree (slice t6 0 19) t6.ltree).maxSym ≠ -1 →
      TreeOk 20 (finishedTree (slice t6 0 19) t6.ltree) ∧ (finishedTree (slice t6 0 19) t6.ltree).maxSym ≤ 18 := by
    intro hmax
    rw [finishedTree_maxSym] at hmax ⊢
    have hpos := codedCount_pos_of_maxSym hmax
    obtain ⟨m, hm, hlast, -⟩ := lastCoded_of_coded hpos
    exact ⟨treeOk_finishedTree hslice hcheck hpos _ (by omega) (by omega), by omega⟩
  rw [getTree_ltree] at hx
  generalize finishedTree (slice t6 0 19) t6.ltree = T at hx htree
  rw [hx, Res.ok.injEq] at h7
  obtain ⟨-, rfl⟩ := h7
  split at h
  · cases h
  · rename_i hmax
    obtain ⟨htree, hmaxSym⟩ := htree hmax
    cases h
    exact ⟨⟨⟨Nat.le_add_right _ _, hle⟩, ⟨Nat.le_add_right _ _, hde⟩, Nat.zero_le _, htree,
      fun i hi => absurd hi (Nat.not_lt_zero i)⟩, hmaxSym, rfl⟩

/-- R201, R202: the end of a header enters the body's mode. -/
theorem endHeader_mode (h : HeaderMode s) (hnum : s.num = s.hlit + s.hdist) (hu : endHeader s = .ok () u) :
    BodyMode u := by
  obtain ⟨⟨h257, hlit⟩, ⟨-, hdist⟩, -, -, hlens⟩ := h
  rw [hnum] at hlens
  obtain ⟨-, hx⟩ | ⟨-, -, c, t, -, hx⟩ | ⟨heob, hlcheck, hdcheck, hx⟩ := endHeader_cases hlit hdist hlens
  · rw [hx] at hu
    cases hu
  · rw [hx] at hu
    cases hu
  · have hl := slice_le_of_lengths (s := s) (off := 0) (num := s.hlit) (fun i hi => hlens i (by omega)) (by omega)
    have hd := slice_le_of_lengths (s := s) (off := s.hlit) (num := s.hdist) hlens (by omega)
    have hllen : (slice s 0 s.hlit).length = s.hlit := length_slice (by omega)
    have hdlen : (slice s s.hlit s.hdist).length = s.hdist := length_slice (by omega)
    have hlpos : 0 < codedCount (slice s 0 s.hlit) :=
      codedCount_pos_iff.2 ⟨256, by rwa [slice_getD (by omega) (by omega), Nat.zero_add]⟩
    have hltree := treeOk_finishedTree hl hlcheck hlpos s.ltree (n := 288) (by omega) (by omega)
    have hdtree : DistTreeOk (finishedTree (slice s s.hlit s.hdist) s.dtree) := by
      by_cases hdpos : 0 < codedCount (slice s s.hlit s.hdist)
      · exact .inl (treeOk_finishedTree hd hdcheck hdpos _ (by omega) (by omega))
      · exact .inr ⟨(finishedTree_maxSym _ _).trans (lastCoded_of_empty (by omega)), finishedTree_built _ _⟩
    generalize finishedTree (slice s 0 s.hlit) s.ltree = L at hx hltree
    generalize finishedTree (slice s s.hlit s.hdist) s.dtree = D at hx hdtree
    rw [hx, Res.ok.injEq] at hu
    obtain ⟨-, rfl⟩ := hu
    exact ⟨hltree, hdtree⟩

/-- The meaningful entries of a tree of two or more codes are symbols of the set: there is no sentinel. -/
theorem transBelow_of_many {lens : List Nat} (hle : ∀ l ∈ lens, l ≤ 15) (hsize : lens.length ≤ 288)
    (hcheck : buildCheck lens = none) (hmany : codedCount lens ≠ 1) (old : Tree) :
    TransBelow (finishedTree lens old) lens.length := by
  intro k hk
  rw [sum_finishedTree_table hle hcheck, if_neg hmany] at hk
  obtain ⟨i, hi, rfl⟩ := exists_place hle hk
  rw [entry_finishedTree_trans hle hsize hcheck old hi]
  exact lt_length_of_coded hi

/-- What a usable tree needs, on its table and its symbols. -/
theorem treeOk_congr {n : Nat} {t u : Tree} (htable : t.table = u.table) (htrans : t.trans = u.trans) (hkraft : KraftEq t)
    (hsize : t.table.toList.sum ≤ 288) (hbelow : TransBelow t n) (hbuilt : u.built = true) : TreeOk n u := by
  refine ⟨?_, htable ▸ hsize, ?_, hbuilt⟩
  · rw [KraftEq, ← htable]
    exact hkraft
  · rw [TransBelow, ← htable, ← htrans]
    exact hbelow

/-- A tree with the table and the symbols of a finished tree of two or more codes. -/
theorem treeOk_of_finishedTree {lens : List Nat} {t old : Tree} (hle : ∀ l ∈ lens, l ≤ 15) (hsize : lens.length ≤ 288)
    (hcheck : buildCheck lens = none) (hmany : 1 < codedCount lens)
    (htable : (finishedTree lens old).table = t.table) (htrans : (finishedTree lens old).trans = t.trans)
    (hbuilt : t.built = true) : TreeOk lens.length t := by
  have hok := treeOk_finishedTree hle hcheck (Nat.zero_lt_of_lt hmany) old (Nat.lt_succ_self _) hsize
  exact treeOk_congr htable htrans hok.kraft hok.size (transBelow_of_many hle hsize hcheck (Nat.ne_of_gt hmany) old) hbuilt

theorem treeOk_fixedLitTree : TreeOk 288 fixedLitTree :=
  length_fixedLitLengths ▸ treeOk_of_finishedTree (old := fixedLitTree) fixedLitLengths_le length_fixedLitLengths.le
    buildCheck_fixedLitLengths (by rw [codedCount_fixedLitLengths]; decide) (table_finishedTree_fixedLit _)
    (trans_finishedTree_fixedLit _) rfl

theorem treeOk_fixedDistTree (old : Tree) : TreeOk 32 (fixedDistTree old) :=
  length_fixedDistLengths ▸ treeOk_of_finishedTree (old := old) fixedDistLengths_le
    (by rw [length_fixedDistLengths]; decide) buildCheck_fixedDistLengths
    (by rw [codedCount_fixedDistLengths]; decide) (table_finishedTree_fixedDist _) (trans_finishedTree_fixedDist _) rfl

end

end Sys2Proof.Machine
end

