-- ==== Sys2Proof/Proofs/Progress.lean ====
section
/-! PROOFS. Progress of a run: every step of a live state answers, and it ends the run or leads to a live state of smaller
measure (R278, R303, R304, R345). -/

namespace Sys2Proof.Machine

/-! ## Live states -/

/-- A run in progress that can go on: what a step needs, and nothing of the host's. -/
structure Live (s : State) : Prop where
  phase : s.phase = .run
  noIssue : s.issue = none
  noRequest : s.request = none
  sound : Sound s
  exhausted : s.overflow = true → s.src = s.sourceLen
  mode : Mode s

/-- How far the sequencer is from the next element that takes bits of the stream for certain. -/
def rank (s : State) : Nat :=
  match s.seq with
  | .litLen => 1
  | .dist => 2
  | .codeLen => 3 + (s.hlit + s.hdist - s.num)
  | .header => 400
  | .blockEnd => 401

/-- What decreases from step to step: the bits that are left until the source has run out, then the rank. -/
def runMeasure (s : State) : Nat := rank s + if s.overflow then 0 else 1000 * (bitsLeft s + 1)

section
variable {s t u : State} {f : Format} {n : Nat}

theorem Live.moves (h : Live s) (hm : Moves s t) (ht : Mode t) : Live t := by
  obtain ⟨-, -, -, hphase, -, -, hissue, hrequest⟩ := hostPart_eq_iff.1 hm.host
  exact ⟨hphase.trans h.phase, hissue.trans h.noIssue, hrequest.trans h.noRequest, h.sound.moves hm,
    hm.reader.exhausted h.exhausted, ht⟩

theorem rank_litLen (h : s.seq = .litLen) : rank s = 1 := by rw [rank, h]

theorem rank_dist (h : s.seq = .dist) : rank s = 2 := by rw [rank, h]

theorem rank_codeLen (h : s.seq = .codeLen) : rank s = 3 + (s.hlit + s.hdist - s.num) := by rw [rank, h]

theorem rank_header (h : s.seq = .header) : rank s = 400 := by rw [rank, h]

theorem rank_blockEnd (h : s.seq = .blockEnd) : rank s = 401 := by rw [rank, h]

theorem rank_lt (h : Mode s) : rank s < 1000 := by
  cases hs : s.seq with
  | codeLen =>
    obtain ⟨⟨-, hlit⟩, ⟨-, hdist⟩, -⟩ := (mode_codeLen hs).1 h
    rw [rank_codeLen hs]
    omega
  | litLen => rw [rank_litLen hs]; decide
  | dist => rw [rank_dist hs]; decide
  | header => rw [rank_header hs]; decide
  | blockEnd => rw [rank_blockEnd hs]; decide

theorem runMeasure_overflow (h : s.overflow = true) : runMeasure s = rank s := by
  rw [runMeasure, h]
  rfl

theorem runMeasure_inside (h : s.overflow = false) : runMeasure s = rank s + 1000 * (bitsLeft s + 1) := by
  rw [runMeasure, h]
  rfl

/-- The measure falls when the rank does once the source has run out, and before that when no bits come back. -/
theorem runMeasure_lt_of {k : Nat} (hmode : Mode u) (hover : s.overflow = true → u.overflow = true ∧ rank u < rank s)
    (hbits : s.overflow = false → u.overflow = false → bitsLeft u + k ≤ bitsLeft s)
    (hk : 1 ≤ k ∨ rank u < rank s) : runMeasure u < runMeasure s := by
  have hlt := rank_lt hmode
  cases hos : s.overflow with
  | true =>
    obtain ⟨hou, hrank⟩ := hover hos
    rw [runMeasure_overflow hos, runMeasure_overflow hou]
    exact hrank
  | false =>
    rw [runMeasure_inside hos]
    cases hou : u.overflow with
    | true =>
      rw [runMeasure_overflow hou]
      calc rank u < 1000 := hlt
        _ ≤ 1000 * (bitsLeft s + 1) := Nat.le_mul_of_pos_right _ (Nat.succ_pos _)
        _ ≤ rank s + 1000 * (bitsLeft s + 1) := Nat.le_add_left _ _
    | false =>
      have hle := hbits hos hou
      rw [runMeasure_inside hou]
      generalize rank u = r, rank s = q, bitsLeft u = a, bitsLeft s = b at hlt hk hle
      omega

/-- An element takes at least one bit; behind it the measure is smaller, unless the source had run out before: then the
rank is. -/
theorem runMeasure_lt (hs : s.src ≤ s.sourceLen) (hm : Moves s t) (hu : Moves t u) (hmode : Mode u)
    (hbits : t.overflow = false → bitsLeft t + 1 ≤ bitsLeft s) (hrank : s.overflow = true → rank u < rank s) :
    runMeasure u < runMeasure s := by
  refine runMeasure_lt_of (k := 1) hmode
    (fun hos => ⟨hu.reader.overflow (hm.reader.overflow hos), hrank hos⟩) (fun _ hou => ?_) (.inl (Nat.le_refl _))
  have hot : t.overflow = false := Bool.eq_false_iff.2 fun ho => Bool.false_ne_true (hou.symm.trans (hu.reader.overflow ho))
  have h1 := hbits hot
  have h2 := hu.reader.bits (hm.reader.srcLe hs) hou
  omega

/-! ## The fetch -/

theorem mode_eq_some (h : mode s = some f) :
    (f = .bh ∧ s.seq = .header) ∨ (f = .ll ∧ s.seq = .litLen) ∨ (f = .ds ∧ s.seq = .dist)
      ∨ (f = .cl ∧ s.seq = .codeLen ∧ s.num < s.hlit + s.hdist) := by
  unfold mode at h
  cases hs : s.seq with
  | header => rw [hs] at h; cases h; exact .inl ⟨rfl, rfl⟩
  | codeLen =>
    rw [hs] at h
    by_cases hn : s.num < s.hlit + s.hdist
    · rw [if_pos hn] at h
      cases h
      exact .inr (.inr (.inr ⟨rfl, rfl, hn⟩))
    · rw [if_neg hn] at h
      cases h
  | litLen => rw [hs] at h; cases h; exact .inr (.inl ⟨rfl, rfl⟩)
  | dist => rw [hs] at h; cases h; exact .inr (.inr (.inl ⟨rfl, rfl⟩))
  | blockEnd => rw [hs] at h; cases h

theorem fetchHeader_cases {v : Nat} (h : fetchHeader s = .ok v t) :
    ∃ x w y, getBits 1 s = .ok x w ∧ getBits 2 w = .ok y t ∧ v = x + 2 * y := by
  obtain ⟨x, w, hx, h⟩ := Res.bind_eq_ok.1 h
  obtain ⟨y, t', hy, h⟩ := Res.bind_eq_ok.1 h
  cases h
  exact ⟨x, w, y, hx, hy, rfl⟩

theorem fetch_frame (h : fetch f s = .ok n t) : ReaderFrame s t := by
  cases f with
  | bh =>
    obtain ⟨x, w, y, hx, hy, -⟩ := fetchHeader_cases h
    exact (getBits_spec hx).1.trans (getBits_spec hy).1
  | ll => exact (decodeSymbol_spec (id := .ltree) h).1
  | ds => exact (decodeSymbol_spec (id := .dtree) h).1
  | cl => exact (decodeSymbol_spec (id := .ltree) h).1
  | op => cases h

theorem moving_descend (tr : Tree) (k len sum : Nat) (cur : Int) : Moving (descend tr k len sum cur) :=
  moving_of_quiet (descend_quiet tr k len sum cur) fun s _ _ h =>
    descend_induct tr (P := Moves s) (fun _ _ _ hu hg => hu.trans ((moving_getBits 1).ok hg)) (.refl s) h

theorem moving_transAt (tr : Tree) (i : Nat) : Moving (transAt tr i) := by
  intro s
  unfold transAt
  split
  · exact Moves.refl s
  · trivial

/-- An operation that reads bits first and moves afterwards takes them, unless the source runs out. -/
theorem bitsLeft_of_getBits {α : Type} {k v : Nat} {a : α} {f : State → Res α} (hs : s.src ≤ s.sourceLen)
    (hv : getBits k s = .ok v u) (hf : Moving f) (ht : f u = .ok a t) (ho : t.overflow = false) :
    bitsLeft t + k ≤ bitsLeft s := by
  have hm := (moving_getBits k).ok hv
  have hm' := hf.ok ht
  have hou : u.overflow = false := Bool.eq_false_iff.2 fun h => Bool.false_ne_true (ho.symm.trans (hm'.reader.overflow h))
  have h1 := getBits_bitsLeft hv hs hou
  have h2 := hm'.reader.bits (hm.reader.srcLe hs) ho
  omega

theorem decodeSymbol_bitsLeft {id : TreeId} {v : Nat} (hs : s.src ≤ s.sourceLen) (h : decodeSymbol id s = .ok v t)
    (ho : t.overflow = false) : bitsLeft t + 1 ≤ bitsLeft s := by
  obtain ⟨b, u, hb, h⟩ := Res.bind_eq_ok.1 h
  dsimp only at h
  split at h
  · exact bitsLeft_of_getBits hs hb (moving_transAt _ _) h ho
  · exact bitsLeft_of_getBits hs hb (moving_descend _ _ _ _ _) h ho

/-- The two reads of a block header take three bits. -/
theorem fetchHeader_bitsLeft {v : Nat} (hs : s.src ≤ s.sourceLen) (h : fetchHeader s = .ok v t)
    (ho : t.overflow = false) : bitsLeft t + 3 ≤ bitsLeft s := by
  obtain ⟨x, w, y, hx, hy, -⟩ := fetchHeader_cases h
  have h1 := bitsLeft_of_getBits (f := fun s => .ok () s)
    (((moving_getBits 1).ok hx).reader.srcLe hs) hy (moving_ok ()) rfl ho
  have hw : w.overflow = false :=
    Bool.eq_false_iff.2 fun h => Bool.false_ne_true (ho.symm.trans (((moving_getBits 2).ok hy).reader.overflow h))
  have h2 := getBits_bitsLeft hx hs hw
  omega

theorem fetch_bitsLeft (hs : s.src ≤ s.sourceLen) (h : fetch f s = .ok n t) (ho : t.overflow = false) :
    bitsLeft t + 1 ≤ bitsLeft s := by
  cases f with
  | bh =>
    have := fetchHeader_bitsLeft hs h ho
    omega
  | ll => exact decodeSymbol_bitsLeft (id := .ltree) hs h ho
  | ds => exact decodeSymbol_bitsLeft (id := .dtree) hs h ho
  | cl => exact decodeSymbol_bitsLeft (id := .ltree) hs h ho
  | op => cases h

/-- The fetch of a live state answers a selector of its format. -/
theorem fetch_answers (h : Live s) (hm : mode s = some f) : ∃ n t, fetch f s = .ok n t ∧ n < selectors f := by
  have hsymbol : ∀ {id m}, TreeOk m (getTree id s) → ∃ n t, decodeSymbol id s = .ok n t ∧ n < m := fun htree => by
    obtain ⟨v, t, hv, hlt, -⟩ := decodeSymbol_answers htree h.sound.reader
    exact ⟨v, t, hv, hlt⟩
  obtain ⟨rfl, -⟩ | ⟨rfl, hs⟩ | ⟨rfl, hs⟩ | ⟨rfl, hs, -⟩ := mode_eq_some hm
  · obtain ⟨x, u, hx, hu⟩ := getBits_answers h.sound.reader (n := 1) (by decide)
    obtain ⟨y, t, hy, -⟩ := getBits_answers hu (n := 2) (by decide)
    obtain ⟨-, -, -, -, hxlt, -⟩ := getBits_spec hx
    obtain ⟨-, -, -, -, hylt, -⟩ := getBits_spec hy
    refine ⟨x + 2 * y, t, ?_, show x + 2 * y < 8 by omega⟩
    rw [fetch, fetchHeader, hx, Res.bind_ok, hy, Res.bind_ok]
  · exact hsymbol (id := .ltree) ((mode_litLen hs).1 h.mode).1
  · exact hsymbol (id := .dtree) ((mode_dist hs).1 h.mode).2
  · exact hsymbol (id := .ltree) ((mode_codeLen hs).1 h.mode).tree

/-! ## The elements -/

theorem seq_of_inner_ok {x : State → Res Unit} (hx : Inner x) (h : x s = .ok () u) : u.seq = s.seq := by
  have := seq_of_inner hx s
  rwa [h] at this

/-- A literal/length symbol: the body goes on, ends, or a distance symbol follows and can be decoded. -/
theorem litLenElement_progress (h : Sound s) (hmode : BodyMode s) (hs : s.seq = .litLen) :
    (litLenElement n s).Ends ∧ ∀ u, litLenElement n s = .ok () u → Mode u ∧ s.overflow = false := by
  obtain ⟨-, htest⟩ | ⟨ho, htest⟩ := testOverflow_cases s
  · have hraised : litLenElement n s = .raised .overflowInBody s := by
      unfold litLenElement literalElement eobElement lengthElement
      rw [htest]
      split
      · rfl
      · split <;> rfl
    refine ⟨ends_of_raised hraised, fun u hu => ?_⟩
    rw [hraised] at hu
    cases hu
  · have hkeep := onTrees_bodyMode
    unfold litLenElement literalElement eobElement lengthElement
    rw [htest]
    simp only [Res.bind_ok]
    split
    · refine ⟨putLiteral_ends _ h, fun u hu => ⟨?_, ho⟩⟩
      exact (mode_litLen ((seq_of_inner_ok (inner_putLiteral _) hu).trans hs)).2
        ((keeps_putLiteral hkeep _).of_ok hmode hu)
    · split
      · refine ⟨.ok _ _, fun u hu => ⟨?_, ho⟩⟩
        cases hu
        exact mode_blockEnd rfl
      · refine ⟨(lengthHalf_ends n h).bind fun _ _ _ => .ok _ _, fun u hu => ⟨?_, ho⟩⟩
        obtain ⟨_, w, hw, hu⟩ := Res.bind_eq_ok.1 hu
        have hbody := (keeps_lengthHalf hkeep n).of_ok hmode hw
        obtain ⟨c, -, hx, -⟩ | ⟨-, -, hmax, -⟩ := lengthHalf_cases n s
        · rw [hx] at hw
          cases hw
        · have hdtree : w.dtree = s.dtree := by
            have := (keeps_lengthHalf (P := fun t => t.dtree = s.dtree)
              (fun _ _ ht hp => (treePart_eq_iff.1 ht).2.1.trans hp) n).of_ok rfl hw
            exact this
          have hpair : PairMode w := ⟨hbody.1, hbody.2.resolve_right fun hempty => hmax (hdtree ▸ hempty.1)⟩
          cases hu
          exact (mode_dist rfl).2 (onTrees_pairMode w _ rfl hpair)

/-- A distance symbol: the body goes on. -/
theorem distElement_progress (h : Sound s) (hmode : PairMode s) :
    (distElement n s).Ends ∧ ∀ u, distElement n s = .ok () u → u.seq = .litLen ∧ BodyMode u := by
  refine ⟨(distHalf_ends n h).bind fun _ _ _ => .ok _ _, fun u hu => ?_⟩
  obtain ⟨_, w, hw, hu⟩ := Res.bind_eq_ok.1 hu
  obtain ⟨hl, hd⟩ := (keeps_distHalf onTrees_pairMode n).of_ok hmode hw
  cases hu
  exact ⟨rfl, hl, .inl hd⟩

/-- An item of a dynamic header: entries are added and their number grows. -/
theorem clItem_progress (h : Sound s) (hmode : HeaderMode s) (hn : n ≤ 18) :
    (clItem n s).Ends ∧ ∀ u, clItem n s = .ok () u →
      HeaderMode u ∧ s.num < u.num ∧ u.hlit = s.hlit ∧ u.hdist = s.hdist ∧ u.ltree = s.ltree := by
  obtain ⟨⟨hlo, hlit⟩, ⟨hdlo, hdist⟩, hnum, htree, hlens⟩ := hmode
  obtain ⟨c, hx⟩ | ⟨val, rep, w, hframe, hrep, hval, hx⟩ := clItem_eq_storeRun h hn (by omega)
  · refine ⟨ends_of_raised hx, fun u hu => ?_⟩
    rw [hx] at hu
    cases hu
  · obtain ⟨hwl, -, hwlens, hwlit, hwdist, hwnum⟩ := treePart_eq_iff.1 (treePart_of_reader hframe)
    rw [hx]
    obtain ⟨-, hrun⟩ | ⟨hfits, hrun⟩ := storeRun_cases val rep w
    · rw [hrun]
      exact ⟨.raised _ _, fun u hu => by cases hu⟩
    · rw [hrun]
      obtain ⟨t, ht⟩ := fillLengths_answers (val := val) (rep := rep) (s := w) (by omega)
      refine ⟨ends_of_ok ht, fun u hu => ?_⟩
      obtain ⟨hunum, huframe, -, huentry⟩ := fillLengths_spec hu
      have hulit : u.hlit = w.hlit := (congrArg State.hlit huframe :)
      have hudist : u.hdist = w.hdist := (congrArg State.hdist huframe :)
      have hutree : u.ltree = w.ltree := (congrArg State.ltree huframe :)
      refine ⟨⟨by omega, by omega, by omega, by rw [hutree, hwl]; exact htree, fun i hi => ?_⟩, by omega, by omega,
        by omega, hutree.trans hwl⟩
      rw [huentry i]
      split
      · exact hval hlens
      · rw [hwlens]
        exact hlens i (by omega)

theorem clElement_progress (h : Sound s) (hmode : HeaderMode s) (hn : n < 20) :
    (clElement n s).Ends ∧ ∀ u, clElement n s = .ok () u →
      HeaderMode u ∧ s.num < u.num ∧ u.hlit = s.hlit ∧ u.hdist = s.hdist := by
  by_cases h19 : n = 19
  · rw [clElement, if_pos h19]
    exact ⟨.raised _ _, fun u hu => by cases hu⟩
  · rw [clElement_item h19]
    obtain ⟨hends, hok⟩ := clItem_progress h hmode (n := n) (by omega)
    exact ⟨hends, fun u hu => ⟨(hok u hu).1, (hok u hu).2.1, (hok u hu).2.2.1, (hok u hu).2.2.2.1⟩⟩

/-- A block header: the block has been copied, or its body or its dynamic header follows. -/
theorem headerElement_progress (h : Sound s) (hex : s.overflow = true → s.src = s.sourceLen) :
    (headerElement n s).Ends ∧ ∀ u, headerElement n s = .ok () u →
      Mode u ∧ (s.overflow = true → rank u < 400) := by
  have hb : Sound { s with bfinal := n % 2 == 1 } := h.moves (moves_bfinal s _)
  rw [headerElement]
  split
  · refine ⟨(inflateUncompressed_ends hb).bind fun _ _ _ => .ok _ _, fun u hu => ?_⟩
    obtain ⟨_, w, hw, hu⟩ := Res.bind_eq_ok.1 hu
    cases hu
    refine ⟨mode_blockEnd rfl, fun ho => ?_⟩
    have hclear := inflateUncompressed_noOverflow (s := { s with bfinal := n % 2 == 1 }) hex hw
    have hset := (moving_inflateUncompressed.ok hw).reader.overflow ho
    exact absurd (hset.symm.trans hclear) (by decide)
  · refine ⟨.ok _ _, fun u hu => ?_⟩
    cases hu
    exact ⟨(mode_litLen rfl).2 ⟨treeOk_fixedLitTree, .inl (treeOk_fixedDistTree s.dtree)⟩, fun _ => by
      rw [rank_litLen rfl]
      decide⟩
  · refine ⟨(beginHeader_ends hb).bind fun _ _ _ => .ok _ _, fun u hu => ?_⟩
    obtain ⟨_, w, hw, hu⟩ := Res.bind_eq_ok.1 hu
    obtain ⟨hmode, -⟩ := beginHeader_mode hw
    cases hu
    refine ⟨(mode_codeLen rfl).2 (onTrees_headerMode w _ rfl hmode), fun _ => ?_⟩
    obtain ⟨⟨-, hlit⟩, ⟨-, hdist⟩, -⟩ := hmode
    rw [rank_codeLen rfl]
    simp only
    omega
  · exact ⟨.raised _ _, fun u hu => by cases hu⟩

/-! ## A step -/

/-- What a step of a live state does. -/
def Advances (s u : State) : Prop := u.phase = .done ∨ (Live u ∧ runMeasure u < runMeasure s)

theorem Res.Ends.advances {x : Res Unit} (hx : x.Ends) (h : ∀ u, x = .ok () u → Advances s u) :
    ∃ u, x.finish = .next u ∧ Advances s u := by
  obtain ⟨a, u, hu⟩ | ⟨c, t, ht⟩ := hx.cases
  · exact ⟨u, by rw [hu, Res.finish_ok], h u hu⟩
  · exact ⟨takeException c t, by rw [ht, Res.finish_raised], .inl rfl⟩

/-- An element of the stream that ends, and behind which its mode holds. -/
theorem advances_element (h : Live s) (hf : fetch f s = .ok n t) (hx : (element f n t).Ends)
    (hok : ∀ u, element f n t = .ok () u → Mode u ∧ (s.overflow = true → rank u < rank s)) :
    ∃ u, (element f n t).finish = .next u ∧ Advances s u := by
  have hmove := (moving_fetch f).ok hf
  refine hx.advances fun u hu => .inr ?_
  have hmove' := (moving_element f n).ok hu
  obtain ⟨hmode, hrank⟩ := hok u hu
  exact ⟨h.moves (hmove.trans hmove') hmode, runMeasure_lt h.sound.reader.srcLe hmove hmove' hmode
    (fetch_bitsLeft h.sound.reader.srcLe hf) hrank⟩

/-- A move of the sequencer alone: the bits stay, and the rank falls. -/
theorem runMeasure_lt_of_rank (hs : s.src ≤ s.sourceLen) (hm : Moves s u) (hmode : Mode u) (hrank : rank u < rank s) :
    runMeasure u < runMeasure s := by
  exact runMeasure_lt_of (k := 0) hmode (fun hos => ⟨hm.reader.overflow hos, hrank⟩)
    (fun _ hou => hm.reader.bits hs hou) (.inr hrank)

theorem advances_sequence (h : Live s) (hm : mode s = none) : ∃ u, (sequence s).finish = .next u ∧ Advances s u := by
  obtain ⟨hs, hx⟩ | ⟨hs, hx⟩ := sequence_cases hm
  · have hmode := (mode_codeLen hs).1 h.mode
    have hnum : s.num = s.hlit + s.hdist := by
      have hle := hmode.numLe
      have hge : ¬ s.num < s.hlit + s.hdist := fun hlt => by simp [mode, hs, hlt] at hm
      omega
    obtain ⟨⟨-, hlit⟩, ⟨-, hdist⟩, -, -, hlens⟩ := hmode
    rw [hnum] at hlens
    have hends : (endHeader s).Ends := by
      obtain ⟨-, hx⟩ | ⟨-, -, c, t, -, hx⟩ | ⟨-, -, -, hx⟩ := endHeader_cases hlit hdist hlens
      · exact ends_of_raised hx
      · exact ends_of_raised hx
      · exact ends_of_ok hx
    rw [hx]
    refine (hends.bind fun _ _ _ => .ok _ _).advances fun u hu => .inr ?_
    have hmove := (moving_endHeader.thenSeq .litLen).ok hu
    obtain ⟨_, w, hw, hu⟩ := Res.bind_eq_ok.1 hu
    have hbody := endHeader_mode ((mode_codeLen hs).1 h.mode) hnum hw
    cases hu
    have hmode : Mode { w with seq := .litLen } := (mode_litLen rfl).2 hbody
    refine ⟨h.moves hmove hmode, runMeasure_lt_of_rank h.sound.reader.srcLe hmove hmode ?_⟩
    rw [rank_codeLen hs, rank_litLen rfl]
    omega
  · rw [hx]
    cases hfin : s.bfinal with
    | false =>
      rw [blockEnd_next hfin]
      have hmode : Mode { s with seq := .header } := mode_header rfl
      refine ⟨_, rfl, .inr ⟨h.moves (moves_seq s _) hmode,
        runMeasure_lt_of_rank h.sound.reader.srcLe (moves_seq s _) hmode ?_⟩⟩
      rw [rank_blockEnd hs, rank_header rfl]
      decide
    | true =>
      rw [blockEnd_final hfin]
      cases ho : s.overflow with
      | false => exact ⟨_, by rw [endRun_ok ho, Res.finish_ok], .inl rfl⟩
      | true => exact ⟨_, by rw [endRun_overflow ho, Res.finish_raised], .inl rfl⟩

/-- R303, R345: a step of a live state answers, and ends the run or leads to a live state of smaller measure. -/
theorem live_step (h : Live s) : ∃ u, step s = .next u ∧ Advances s u := by
  rw [step_run h.noRequest h.noIssue h.phase]
  cases hm : mode s with
  | none =>
    rw [runStep_of_no_mode hm]
    exact advances_sequence h hm
  | some f =>
    obtain ⟨n, t, hf, hn⟩ := fetch_answers h hm
    have hframe := treePart_of_reader (fetch_frame hf)
    have hmove := (moving_fetch f).ok hf
    have ht := h.sound.moves hmove
    have hover := hmove.reader.overflow
    have hseq : t.seq = s.seq := by
      have := seq_of_inner (inner_fetch f) s
      rwa [hf] at this
    rw [runStep_of_mode hm, runElement_eq hf hn]
    obtain ⟨rfl, hs⟩ | ⟨rfl, hs⟩ | ⟨rfl, hs⟩ | ⟨rfl, hs, -⟩ := mode_eq_some hm
    · obtain ⟨hends, hok⟩ := headerElement_progress (n := n) ht (hmove.reader.exhausted h.exhausted)
      exact advances_element h hf hends fun u hu => ⟨(hok u hu).1, fun ho => rank_header hs ▸ (hok u hu).2 (hover ho)⟩
    · obtain ⟨hends, hok⟩ := litLenElement_progress (n := n) ht
        (onTrees_bodyMode s t hframe ((mode_litLen hs).1 h.mode)) (hseq.trans hs)
      exact advances_element h hf hends fun u hu => ⟨(hok u hu).1, fun ho =>
        absurd ((hover ho).symm.trans (hok u hu).2) (by decide)⟩
    · obtain ⟨hends, hok⟩ := distElement_progress (n := n) ht
        (onTrees_pairMode s t hframe ((mode_dist hs).1 h.mode))
      refine advances_element h hf hends fun u hu => ?_
      obtain ⟨huseq, hbody⟩ := hok u hu
      exact ⟨(mode_litLen huseq).2 hbody, fun _ => by rw [rank_litLen huseq, rank_dist hs]; decide⟩
    · obtain ⟨hends, hok⟩ := clElement_progress (n := n) ht
        (onTrees_headerMode s t hframe ((mode_codeLen hs).1 h.mode)) hn
      refine advances_element h hf hends fun u hu => ?_
      obtain ⟨hmode, hnum, hlit, hdist⟩ := hok u hu
      have huseq : u.seq = .codeLen := by
        have hinner : Inner (clElement n) := fun o =>
          Commutes.ite (fun _ => Iff.rfl) (fun _ => rfl) (inner_clItem n o)
        exact ((seq_of_inner_ok hinner hu).trans hseq).trans hs
      obtain ⟨-, -, -, htlit, htdist, htnum⟩ := treePart_eq_iff.1 hframe
      have hle := hmode.numLe
      exact ⟨(mode_codeLen huseq).2 hmode, fun _ => by rw [rank_codeLen huseq, rank_codeLen hs]; omega⟩

end

end Sys2Proof.Machine
end

