-- ==== Sys2Proof/Proofs/Runs.lean ====
section
/-! PROOFS. Whole runs, step by step (R278, R303, R304, R345): the run's invariant is kept, a run started from reset never
stops, and every run ends. -/

namespace Sys2Proof.Machine

section
variable {s t u : State}

/-! ## Steps of the core -/

/-- A run of one more step begins with that step. -/
theorem run_succ_of_step (M : Host.Core) (k : Nat) {s t : M.State} (h : M.step s = .next t) :
    M.run (k + 1) s = M.run k t := by
  simp only [Host.Core.run, h]

theorem run_succ (k : Nat) (h : step s = .next t) : Host.Core.run core (k + 1) s = Host.Core.run core k t :=
  run_succ_of_step core k h

/-- What a step of a run leaves to the host. -/
theorem step_run_host (hr : s.request = none) (hi : s.issue = none) (hp : s.phase = .run) (h : step s = .next u) :
    u.source = s.source ∧ u.sourceLen = s.sourceLen ∧ u.request = s.request := by
  obtain hm | ⟨c, t, hm, rfl⟩ | ⟨-, rfl⟩ := step_run_outcome hr hi hp h
  · obtain ⟨hsource, hlen, -, -, -, -, -, hrequest⟩ := hostPart_eq_iff.1 hm.host
    exact ⟨hsource, hlen, hrequest⟩
  · obtain ⟨hsource, hlen, -, -, -, -, -, hrequest⟩ := hostPart_eq_iff.1 hm.host
    exact ⟨hsource, hlen, hrequest⟩
  · exact ⟨rfl, rfl, rfl⟩

/-- R345: a live run ends. -/
theorem live_reaches_done : ∀ {m : Nat} {s : State}, Live s → runMeasure s ≤ m →
    ∃ k t, Host.Core.run core k s = .next t ∧ t.phase = .done := by
  intro m
  induction m with
  | zero =>
    intro s h hm
    obtain ⟨u, hu, hdone | ⟨-, hlt⟩⟩ := live_step h
    · exact ⟨1, u, run_succ 0 hu, hdone⟩
    · omega
  | succ m ih =>
    intro s h hm
    obtain ⟨u, hu, hdone | ⟨hlive, hlt⟩⟩ := live_step h
    · exact ⟨1, u, run_succ 0 hu, hdone⟩
    · obtain ⟨k, t, hk, ht⟩ := ih hlive (by omega)
      exact ⟨k + 1, t, (run_succ k hu).trans hk, ht⟩

/-! ## The entries of the scratch array -/

theorem writeLength_quiet (i v : Nat) (s : State) : (writeLength i v s).Quiet := by
  unfold writeLength
  split
  · exact Res.quiet_ok _ _
  · exact Res.quiet_refused _

theorem fillLengths_quiet : ∀ (rep val : Nat) (s : State), (fillLengths rep val s).Quiet
  | 0, _, _ => Res.quiet_ok _ _
  | rep + 1, val, _ => Res.quiet_bind (writeLength_quiet _ _ _) fun _ _ => fillLengths_quiet rep val _

/-- Every element keeps the scratch array's entries within the code lengths. -/
theorem element_lengths {f : Format} {n : Nat} (h : Sound s) (hl : LengthsLe 320 s) (hn : n < selectors f)
    (hnum : f = .cl → s.num ≤ 320) : (element f n s).Reaches (LengthsLe 320) := by
  have hP := onTrees_lengthsLe 320
  cases f with
  | bh =>
    rw [element, headerElement]
    split
    · exact ((keeps_inflateUncompressed hP).afterBfinal hP _).thenSeq hP _ s hl
    · exact hl.congr rfl
    · exact (keeps_beginHeader.afterBfinal hP _).thenSeq hP _ s hl
    · exact hl.congr rfl
  | ll =>
    have hlit : Keeps (LengthsLe 320) (litLenElement n) :=
      .ite (keeps_testOverflow.bind fun _ => keeps_putLiteral hP _)
        (.ite (keeps_testOverflow.thenSeq hP _)
          (keeps_testOverflow.bind fun _ => (keeps_lengthHalf hP n).thenSeq hP _))
    exact hlit s hl
  | ds => exact (keeps_distHalf hP n).thenSeq hP _ s hl
  | cl =>
    rw [element, clElement]
    split
    · exact hl
    · have hlt : n < 20 := hn
      obtain ⟨c, hx⟩ | ⟨val, rep, w, hframe, -, hval, hx⟩ := clItem_eq_storeRun h (sym := n) (by omega) (hnum rfl)
      · rw [hx]
        exact hl
      · have hw := hP s w (treePart_of_reader hframe) hl
        have hle := hval fun i hi => hl i (hi.trans_le (hnum rfl))
        rw [hx]
        obtain ⟨-, hrun⟩ | ⟨-, hrun⟩ := storeRun_cases val rep w
        · rw [hrun]
          exact hw
        · rw [hrun]
          cases ht : fillLengths rep val w with
          | ok a t => exact fillLengths_lengths hw hle ht
          | raised c t => exact absurd ht (fillLengths_quiet rep val w c t)
          | fault e => trivial
          | refused r => trivial
  | op => trivial

theorem Live.step_lengths (h : Live s) (hl : LengthsLe 320 s) (hu : step s = .next u) : LengthsLe 320 u := by
  have hfinish : ∀ {x : Res Unit}, x.Reaches (LengthsLe 320) → x.finish = .next u → LengthsLe 320 u := by
    intro x hx hu
    obtain hl | ⟨c, t, ht, rfl⟩ := finish_reaches hx hu
    · exact hl
    · exact ht.congr rfl
  obtain ⟨f, n, t, hm, hf, hn, hx⟩ | ⟨hm, hx⟩ := step_run_cases h.noRequest h.noIssue h.phase hu
  · have hpart := treePart_of_reader (fetch_frame hf)
    refine hfinish (element_lengths (h.sound.moves ((moving_fetch f).ok hf)) (onTrees_lengthsLe 320 s t hpart hl) hn ?_) hx
    rintro rfl
    obtain ⟨hbad, -⟩ | ⟨hbad, -⟩ | ⟨hbad, -⟩ | ⟨-, hs, -⟩ := mode_eq_some hm
    · cases hbad
    · cases hbad
    · cases hbad
    · obtain ⟨⟨-, hlit⟩, ⟨-, hdist⟩, hnum, -⟩ := (mode_codeLen hs).1 h.mode
      obtain ⟨-, -, -, -, -, htnum⟩ := treePart_eq_iff.1 hpart
      omega
  · obtain ⟨-, hsq⟩ | ⟨-, hsq⟩ := sequence_cases hm
    · rw [hsq] at hx
      exact hfinish (keeps_endHeader.thenSeq (onTrees_lengthsLe 320) _ s hl) hx
    · rw [hsq] at hx
      have hend : Keeps (LengthsLe 320) blockEnd :=
        .ite (.ite (keeps_raised _) fun t ht => show LengthsLe 320 (ended t) from ht.congr rfl)
          fun t ht => show LengthsLe 320 { t with seq := .header } from ht.congr rfl
      exact hfinish (hend s hl) hx

end

end Sys2Proof.Machine

namespace Sys2Proof

open Machine

/-! ## The run's invariant -/

section
variable {s u : State}

theorem RunInv.live (h : RunInv s) (hp : s.phase = .run) : Live s := by
  refine ⟨hp, h.reader.noIssue, h.noRequest,
    ⟨⟨h.readable, h.core.srcLe, h.reader.bitcountLe⟩, h.core.destLenEq, h.core.destLe, h.written.written hp⟩,
    h.core.exhausted, ?_⟩
  cases hs : s.seq with
  | header => exact mode_header hs
  | blockEnd => exact mode_blockEnd hs
  | litLen => exact (mode_litLen hs).2 (h.body hp hs)
  | dist => exact (mode_dist hs).2 (h.pair hp hs)
  | codeLen =>
    obtain ⟨h257, h286, h1, h30, hnum, htree⟩ := h.header hp hs
    exact (mode_codeLen hs).2 ⟨⟨h257, h286⟩, ⟨h1, h30⟩, hnum, htree, fun i _ => h.lengthsLe i⟩

/-- The modes' part of the run's invariant, from a live state. -/
theorem RunInv.of_live (hcore : CoreInv u) (hreader : ReaderInv u) (hwritten : WrittenInv u) (hr : u.request = none)
    (hreadable : SourceReadable u) (hlens : ∀ i, entry u.lengths i ≤ 15) (hmode : u.phase = .run → Mode u) : RunInv u where
  core := hcore
  reader := hreader
  written := hwritten
  noRequest := hr
  readable := hreadable
  lengthsLe := hlens
  header hp hs := by
    obtain ⟨⟨h257, h286⟩, ⟨h1, h30⟩, hnum, htree, -⟩ := (mode_codeLen hs).1 (hmode hp)
    exact ⟨h257, h286, h1, h30, hnum, htree⟩
  body hp hs := (mode_litLen hs).1 (hmode hp)
  pair hp hs := (mode_dist hs).1 (hmode hp)

theorem RunInv.step (h : RunInv s) : ∃ u, step s = .next u ∧ RunInv u := by
  by_cases hp : s.phase = .run
  · have hlive := h.live hp
    obtain ⟨u, hu, hadvance⟩ := live_step hlive
    obtain ⟨hsource, hlen, hrequest⟩ := step_run_host h.noRequest h.reader.noIssue hp hu
    refine ⟨u, hu, .of_live (coreInvariantIsKept s u h.core hu) (atMostSevenBitsAreHeld s u h.reader hu)
      (outputBelowDestIsWritten s u h.written hu) (hrequest.trans h.noRequest) (fun a ha => ?_) ?_ fun hup => ?_⟩
    · rw [hsource]
      exact h.readable a (hlen ▸ ha)
    · exact lengthsLe_iff.1 (hlive.step_lengths (lengthsLe_iff.2 h.lengthsLe) hu)
    · obtain hdone | ⟨hlive', -⟩ := hadvance
      · exact absurd (hup.symm.trans hdone) (by decide)
      · exact hlive'.mode
  · exact ⟨s, step_outside_run hp h.noRequest h.reader.noIssue, h⟩

theorem RunInv.run (h : RunInv s) (k : Nat) : ∃ u, Host.Core.run Sys2Proof.core k s = .next u ∧ RunInv u := by
  induction k generalizing s with
  | zero => exact ⟨s, rfl, h⟩
  | succ k ih =>
    obtain ⟨t, ht, hinv⟩ := h.step
    obtain ⟨u, hu, hinv'⟩ := ih hinv
    exact ⟨u, (run_succ k ht).trans hu, hinv'⟩

/-- START from reset. -/
theorem step_start_reset (bytes : List Byte) (cap : Nat) :
    ∃ t, Machine.step { State.reset with request := some (.start bytes bytes.length cap) } = .next t ∧ RunInv t := by
  obtain ⟨t, ht⟩ := startRun_answers (s := { State.reset with request := none }) bytes cap (by decide)
  have hstep : Machine.step { State.reset with request := some (.start bytes bytes.length cap) } = .next t := by
    have hfinish : Machine.step { State.reset with request := some (.start bytes bytes.length cap) }
        = (startRun bytes bytes.length cap { State.reset with request := none }).finish := rfl
    rw [hfinish, ht, Res.finish_ok]
  refine ⟨t, hstep, ?_⟩
  have hcore := coreInvariantIsKept _ t (coreInvariantHoldsAtReset.pending none _) hstep
  obtain ⟨-, -, rfl⟩ := startRun_cases ht
  refine .of_live hcore ⟨rfl, Nat.zero_le _⟩ ⟨rfl, rfl, fun _ a ha => absurd ha (Nat.not_lt_zero a)⟩ rfl
    (fun a ha => ?_) (fun i => ?_) fun _ => mode_header rfl
  · simp only at ha
    rw [memRead_memOfBytes, if_pos (Nat.zero_le a), Nat.sub_zero, List.getElem?_eq_getElem ha]
    rfl
  · have hzero : entry State.reset.lengths i = 0 := by
      simp only [State.reset, entry]
      by_cases hi : i < 320 <;> simp [hi]
    exact hzero.trans_le (Nat.zero_le _)

end

/-- Settles O56: a live state steps (`live_step`), and the three step invariants are O52, O53 and O54. -/
theorem runsNeverStop : Obligations.RunsNeverStop := fun _ h => h.step

/-- Settles O57: START from reset meets the run's invariant, which every step keeps. -/
theorem startedRunsNeverStop : Obligations.StartedRunsNeverStop := by
  intro bytes cap
  obtain ⟨t, ht, hinv⟩ := step_start_reset bytes cap
  refine ⟨⟨t, ht, hinv⟩, fun k => ?_⟩
  cases k with
  | zero => exact ⟨_, rfl⟩
  | succ k =>
    obtain ⟨u, hu, -⟩ := hinv.run k
    exact ⟨u, (run_succ k ht).trans hu⟩

/-- Settles O58: the measure of a live run falls with every step. -/
theorem everyRunReachesDone : Obligations.EveryRunReachesDone := fun _ h hp =>
  live_reaches_done (h.live hp) (Nat.le_refl _)

end Sys2Proof
end

