-- ==== Sys2Proof/Proofs/Simulation.lean ====
section
/-! PROOFS. The steps of a run carry out the whole operations (R14, R344): from a live state some steps lead where the
operation leads, but for the place of the sequencer. -/

namespace Sys2Proof.Machine

/-! ## Changes of the outer fields -/

/-- A change of the outer fields that looks at the outer fields only. -/
def OuterChange (g : State → State) : Prop := ∀ s t, withOuter s t = t → g t = withOuter (g s) t

/-- The outer fields stay, so an operation that does not look at them commutes with a change of them. -/
theorem outer_of_inner {α : Type} {x : State → Res α} (h : Inner x) (s : State) :
    (x s).Reaches fun t => withOuter s t = t := by
  have hx := h s s
  rw [withOuter_self] at hx
  cases hs : x s with
  | ok a t =>
    rw [hs, Res.mapState_ok, Res.ok.injEq] at hx
    exact hx.2.symm
  | raised c t =>
    rw [hs, Res.mapState_raised, Res.raised.injEq] at hx
    exact hx.2.symm
  | fault e => trivial
  | refused r => trivial

theorem commutes_of_inner {α : Type} {x : State → Res α} {g : State → State} (h : Inner x) (hg : OuterChange g) :
    Commutes g x := by
  intro s
  have houter := outer_of_inner h s
  rw [hg s s rfl, h (g s) s]
  cases hs : x s with
  | ok a t =>
    rw [hs] at houter
    rw [Res.mapState_ok, Res.mapState_ok, hg s t houter]
  | raised c t =>
    rw [hs] at houter
    rw [Res.mapState_raised, Res.mapState_raised, hg s t houter]
  | fault e => rfl
  | refused r => rfl

/-- The state with the sequencer elsewhere. -/
def withSeq (q : Seq) (s : State) : State := { s with seq := q }

@[simp] theorem withSeq_seq (q : Seq) (s : State) : (withSeq q s).seq = q := rfl

theorem withSeq_self {q : Seq} {s : State} (h : s.seq = q) : withSeq q s = s := by
  subst h
  rfl

theorem outerChange_withSeq (q : Seq) : OuterChange (withSeq q) := by
  intro s t h
  rw [← h]
  rfl

/-- The state with another BFINAL. -/
def withFinal (b : Bool) (s : State) : State := { s with bfinal := b }

theorem outerChange_withFinal (b : Bool) : OuterChange (withFinal b) := by
  intro s t h
  rw [← h]
  rfl

/-! ## The whole operations do not look at the outer fields -/

theorem inner_bodyLoop : ∀ k, Inner (bodyLoop k)
  | 0 => fun _ _ => rfl
  | k + 1 => fun o =>
    Commutes.bind (inner_decodeSymbol .ltree o) fun sym => Commutes.bind (inner_testOverflow o) fun _ =>
      Commutes.ite (fun _ => Iff.rfl) (fun _ => rfl)
        (Commutes.ite (fun _ => Iff.rfl) (Commutes.bind (inner_putLiteral _ o) fun _ => inner_bodyLoop k o)
          (Commutes.bind (inner_lengthHalf sym o) fun _ => Commutes.bind (inner_decodeSymbol .dtree o) fun d =>
            Commutes.bind (inner_distHalf d o) fun _ => inner_bodyLoop k o))

theorem inner_inflateBlockData : Inner inflateBlockData := fun o =>
  Commutes.ite (fun _ => Iff.rfl) (fun s => inner_bodyLoop (bitsLeft s + 2) o s) fun _ => rfl

theorem inner_clLoop : ∀ k, Inner (clLoop k)
  | 0 => fun _ => Commutes.ite (fun _ => Iff.rfl) (fun _ => rfl) fun _ => rfl
  | k + 1 => fun o => Commutes.ite (fun _ => Iff.rfl)
      (Commutes.bind (inner_decodeSymbol .ltree o) fun sym => Commutes.bind (inner_clItem sym o) fun _ =>
        inner_clLoop k o) fun _ => rfl

theorem inner_decodeTrees : Inner decodeTrees := fun o =>
  Commutes.bind (inner_beginHeader o) fun _ s =>
    Commutes.bind (x := fun s => clLoop (s.hlit + s.hdist) s) (fun s => inner_clLoop (s.hlit + s.hdist) o s)
      (fun _ => inner_endHeader o) s

theorem inner_inflateBlock (type : Nat) : Inner (inflateBlock type) := by
  match type with
  | 0 => exact inner_inflateUncompressed
  | 1 => exact fun o s => inner_inflateBlockData o (buildFixedTrees s)
  | 2 => exact fun o => Commutes.bind (inner_decodeTrees o) fun _ => inner_inflateBlockData o
  | _ + 3 => exact fun _ _ => rfl

/-! ## Some number of steps -/

/-- The state that some number of steps leads to. -/
def Steps (s u : State) : Prop := ∃ k, Host.Core.run core k s = .next u

section
variable {s t u : State} {x : Res Unit} {q : Seq}

theorem Steps.refl (s : State) : Steps s s := ⟨0, rfl⟩

theorem Steps.head (h : step s = .next t) (h' : Steps t u) : Steps s u := by
  obtain ⟨k, hk⟩ := h'
  exact ⟨k + 1, (run_succ k h).trans hk⟩

theorem Steps.trans (h : Steps s t) (h' : Steps t u) : Steps s u := by
  obtain ⟨j, hj⟩ := h
  obtain ⟨k, hk⟩ := h'
  exact ⟨j + k, (run_add core j k s t hj).trans hk⟩

/-- A step of a live state that does not end the run leads to a live state. -/
theorem Live.next (h : Live s) (hu : step s = .next u) (hp : u.phase = .run) : Live u := by
  obtain ⟨w, hw, hadvance⟩ := live_step h
  rw [hu] at hw
  cases hw
  obtain hdone | ⟨hlive, -⟩ := hadvance
  · exact absurd (hp.symm.trans hdone) (by decide)
  · exact hlive

/-- The same for a step that moves. -/
theorem Live.next_moves (h : Live s) (hu : step s = .next u) (hm : Moves s u) : Live u :=
  h.next hu ((hostPart_eq_iff.1 hm.host).2.2.2.1.trans h.phase)

/-- A step that takes the element `n`. -/
theorem Live.step_element {f : Format} {n : Nat} (h : Live s) (hm : Machine.mode s = some f) (hf : fetch f s = .ok n t)
    (hn : n < selectors f) : step s = (element f n t).finish := by
  rw [step_run h.noRequest h.noIssue h.phase, runStep_of_mode hm, runElement_eq hf hn]

/-- Some steps from `s` carry out an operation: they reach its state with the sequencer at `q`, or the exception it
raises. -/
def Carried (q : Seq) (x : Res Unit) (s : State) : Prop :=
  (∃ t, x = .ok () t ∧ Steps s (withSeq q t) ∧ Live (withSeq q t))
    ∨ ∃ c t p, x = .raised c t ∧ Steps s (takeException c (withSeq p t))

theorem Carried.head (h : step s = .next t) (hx : Carried q x t) : Carried q x s := by
  obtain ⟨u, hu, hsteps, hlive⟩ | ⟨c, u, p, hu, hsteps⟩ := hx
  · exact .inl ⟨u, hu, hsteps.head h, hlive⟩
  · exact .inr ⟨c, u, p, hu, hsteps.head h⟩

/-- A step that raises. -/
theorem carried_of_raised {c : Cause} (p : Seq) (h : step s = .next (takeException c (withSeq p t))) (hx : x = .raised c t) :
    Carried q x s := .inr ⟨c, t, p, hx, .head h (.refl _)⟩

/-- A step that completes the operation. -/
theorem carried_of_ok (hlive : Live s) (h : step s = .next (withSeq q t)) (hm : Moves s t) (hx : x = .ok () t) :
    Carried q x s :=
  .inl ⟨t, hx, .head h (.refl _), hlive.next_moves h (hm.trans (moves_seq t q))⟩

/-- One operation behind another. -/
theorem Carried.bind {p : Seq} {f : Unit → State → Res Unit} (h : Carried p x s)
    (hf : ∀ t, x = .ok () t → Live (withSeq p t) → Carried q (f () t) (withSeq p t)) : Carried q (x.bind f) s := by
  obtain ⟨t, rfl, hsteps, hlive⟩ | ⟨c, t, r, rfl, hsteps⟩ := h
  · obtain ⟨u, hu, hsteps', hlive'⟩ | ⟨c, u, r, hu, hsteps'⟩ := hf t rfl hlive
    · exact .inl ⟨u, hu, hsteps.trans hsteps', hlive'⟩
    · exact .inr ⟨c, u, r, hu, hsteps.trans hsteps'⟩
  · exact .inr ⟨c, t, r, rfl, hsteps⟩

/-- Where the sequencer stands does not matter to an operation that does not look at it. -/
theorem Carried.of_withSeq {y : State → Res Unit} {p : Seq} (hy : Inner y) (h : Carried q (y (withSeq p t)) s) :
    Carried q (y t) s := by
  rw [commutes_of_inner hy (outerChange_withSeq p) t] at h
  obtain ⟨u, hu, hsteps, hlive⟩ | ⟨c, u, r, hu, hsteps⟩ := h
  · cases hyt : y t with
    | ok a w =>
      rw [hyt, Res.mapState_ok, Res.ok.injEq] at hu
      obtain ⟨-, rfl⟩ := hu
      exact .inl ⟨w, rfl, hsteps, hlive⟩
    | raised c w => rw [hyt] at hu; cases hu
    | fault e => rw [hyt] at hu; cases hu
    | refused r => rw [hyt] at hu; cases hu
  · cases hyt : y t with
    | ok a w => rw [hyt] at hu; cases hu
    | raised c w =>
      rw [hyt, Res.mapState_raised, Res.raised.injEq] at hu
      obtain ⟨rfl, rfl⟩ := hu
      exact .inr ⟨_, w, r, rfl, hsteps⟩
    | fault e => rw [hyt] at hu; cases hu
    | refused r => rw [hyt] at hu; cases hu

/-! ## The block body -/

theorem litLenElement_overflow {n : Nat} (h : s.overflow = true) : litLenElement n s = .raised .overflowInBody s := by
  unfold litLenElement literalElement eobElement lengthElement
  rw [testOverflow_raised h]
  split
  · rfl
  · split <;> rfl

/-- The second half of a pair in a live state: the step carries out the loop's DECODE_SYMBOL and distance half. -/
theorem carried_distance (hlive : Live (withSeq .dist t)) :
    Carried .litLen ((decodeSymbol .dtree t).bind fun d s => distHalf d s) (withSeq .dist t) := by
  have hpair : PairMode t := (mode_dist (s := withSeq .dist t) rfl).1 hlive.mode
  have hsound : Sound t := hlive.sound.moves (moves_of_eq rfl rfl)
  obtain ⟨d, w, hd, hlt, -⟩ := decodeSymbol_answers (id := .dtree) hpair.2 hsound.reader
  have hd' : fetch .ds (withSeq .dist t) = .ok d (withSeq .dist w) := by
    rw [fetch, commutes_of_inner (inner_decodeSymbol .dtree) (outerChange_withSeq _), hd, Res.mapState_ok]
  have hstep : step (withSeq .dist t) = (distElement d (withSeq .dist w)).finish :=
    hlive.step_element (f := .ds) (by rw [mode, withSeq_seq]) hd' hlt
  have hhalf := commutes_of_inner (inner_distHalf d) (outerChange_withSeq .dist) w
  have hmove := (moving_decodeSymbol .dtree).ok hd
  rw [distElement, hhalf] at hstep
  rw [hd, Res.bind_ok]
  obtain ⟨_, z, hz⟩ | ⟨c, z, hz⟩ := (distHalf_ends d (hsound.moves hmove)).cases
  · rw [hz, Res.mapState_ok, Res.bind_ok, Res.finish_ok] at hstep
    exact carried_of_ok (t := z) hlive hstep
      ((moves_of_eq rfl rfl : Moves (withSeq .dist t) t).trans (hmove.trans ((moving_distHalf d).ok hz))) hz
  · rw [hz, Res.mapState_raised, Res.bind_raised, Res.finish_raised] at hstep
    exact carried_of_raised .dist hstep hz

/-- R221: the step at a literal. -/
theorem carried_literal {sym : Nat} {w : State} (hlive : Live s) (hmove : Moves s w) (hseq : w.seq = .litLen)
    (ho : w.overflow = false) (hlit : sym < 256) (hstep : step s = (litLenElement sym w).finish) :
    Carried .litLen (putLiteral (BitVec.ofNat 8 sym) w) s := by
  rw [litLenElement_literal hlit, literalElement_eq_putLiteral _ ho] at hstep
  obtain ⟨_, z, hz⟩ | ⟨c, z, hz⟩ := (putLiteral_ends (BitVec.ofNat 8 sym) (hlive.sound.moves hmove)).cases
  · have hzseq := (seq_of_inner_ok (inner_putLiteral _) hz).trans hseq
    rw [hz, Res.finish_ok] at hstep
    exact carried_of_ok hlive (by rw [withSeq_self hzseq, hstep]) (hmove.trans ((moving_putLiteral _).ok hz)) hz
  · rw [hz, Res.finish_raised] at hstep
    exact carried_of_raised z.seq hstep hz

/-- R223, R224: the two steps of a pair. -/
theorem carried_pair {sym : Nat} {w : State} (hlive : Live s) (hmove : Moves s w)
    (ho : w.overflow = false) (hsym : 256 < sym) (hstep : step s = (litLenElement sym w).finish) :
    Carried .litLen ((lengthHalf sym w).bind fun _ s => (decodeSymbol .dtree s).bind fun d s => distHalf d s) s := by
  rw [litLenElement_length hsym, lengthElement, testOverflow_ok ho, Res.bind_ok] at hstep
  obtain ⟨_, z, hz⟩ | ⟨c, z, hz⟩ := (lengthHalf_ends sym (hlive.sound.moves hmove)).cases
  · rw [hz, Res.bind_ok, Res.finish_ok] at hstep
    rw [hz, Res.bind_ok]
    exact .head hstep (carried_distance
      (hlive.next_moves hstep ((hmove.trans ((moving_lengthHalf sym).ok hz)).trans (moves_seq z _))))
  · rw [hz, Res.bind_raised, Res.finish_raised] at hstep
    exact carried_of_raised z.seq hstep (by rw [hz, Res.bind_raised])

/-- A literal or a pair, and the loop behind it. -/
theorem Carried.turn {y : State → Res Unit} {f : State → Res Unit} {w : State} (hy : Inner y)
    (h : Carried .litLen (y w) s) (hseq : w.seq = .litLen)
    (hf : ∀ z, y w = .ok () z → Live z → z.seq = .litLen → Carried q (f z) z) :
    Carried q ((y w).bind fun _ z => f z) s := by
  refine h.bind fun z hz hlive => ?_
  have hzseq := (seq_of_inner_ok hy hz).trans hseq
  rw [withSeq_self hzseq] at hlive ⊢
  exact hf z hz hlive hzseq

theorem inner_pair (sym : Nat) :
    Inner fun s => (lengthHalf sym s).bind fun _ s => (decodeSymbol .dtree s).bind fun d s => distHalf d s := fun o =>
  Commutes.bind (inner_lengthHalf sym o) fun _ => Commutes.bind (inner_decodeSymbol .dtree o) fun d => inner_distHalf d o

theorem moving_pair (sym : Nat) :
    Moving fun s => (lengthHalf sym s).bind fun _ s => (decodeSymbol .dtree s).bind fun d s => distHalf d s :=
  (moving_lengthHalf sym).bind fun _ => (moving_decodeSymbol .dtree).bind fun d => moving_distHalf d

/-- R220: the steps of a block body carry out its loop. -/
theorem bodyLoop_carried :
    ∀ {k : Nat} {s : State}, Live s → s.seq = .litLen → 1 ≤ k → (s.overflow = false → bitsLeft s + 1 ≤ k) →
      Carried .blockEnd (bodyLoop k s) s := by
  intro k
  induction k with
  | zero => exact fun _ _ hk _ => absurd hk (by decide)
  | succ k ih =>
    intro s hlive hseq _ hfuel
    have hbody := (mode_litLen hseq).1 hlive.mode
    obtain ⟨sym, w, hsym, hlt, -⟩ := decodeSymbol_answers (id := .ltree) hbody.1 hlive.sound.reader
    have hmove := (moving_decodeSymbol .ltree).ok hsym
    have hstep : step s = (litLenElement sym w).finish :=
      hlive.step_element (f := .ll) (by rw [mode, hseq]) hsym hlt
    have hwseq : w.seq = .litLen := by
      have := seq_of_inner (inner_decodeSymbol .ltree) s
      rw [hsym] at this
      exact Eq.trans this hseq
    rw [bodyLoop, hsym, Res.bind_ok]
    cases ho : w.overflow with
    | true =>
      rw [litLenElement_overflow ho, Res.finish_raised] at hstep
      exact carried_of_raised w.seq hstep (by rw [testOverflow_raised ho, Res.bind_raised])
    | false =>
      have hsrc := hlive.sound.reader.srcLe
      have hle := hfuel (Bool.eq_false_iff.2 fun h => Bool.false_ne_true (ho.symm.trans (hmove.reader.overflow h)))
      have hbits := decodeSymbol_bitsLeft hsrc hsym ho
      have hnext : ∀ z, Moves w z → Live z → z.seq = .litLen → Carried .blockEnd (bodyLoop k z) z := fun z hz hlz hzseq =>
        ih hlz hzseq (by omega) fun hoz => by
          have := hz.reader.bits (hmove.reader.srcLe hsrc) hoz
          omega
      rw [testOverflow_ok ho, Res.bind_ok]
      by_cases heob : sym = 256
      · subst heob
        rw [litLenElement_eob, eobElement, testOverflow_ok ho, Res.bind_ok, Res.finish_ok] at hstep
        exact carried_of_ok hlive hstep hmove (if_pos rfl)
      · rw [if_neg heob]
        by_cases hlit : sym < 256
        · rw [if_pos hlit]
          exact (carried_literal hlive hmove hwseq ho hlit hstep).turn (inner_putLiteral _) hwseq fun z hz =>
            hnext z ((moving_putLiteral _).ok hz)
        · rw [if_neg hlit]
          have hpair := (carried_pair hlive hmove ho (by omega) hstep).turn (inner_pair sym) hwseq
            (f := bodyLoop k) fun z hz => hnext z ((moving_pair sym).ok hz)
          simpa only [Res.bind_assoc] using hpair

/-- INFLATE_BLOCK_DATA in a live state at the top of a block body. -/
theorem inflateBlockData_carried (hlive : Live s) (hseq : s.seq = .litLen) : Carried .blockEnd (inflateBlockData s) s := by
  obtain ⟨hl, hd⟩ := (mode_litLen hseq).1 hlive.mode
  have hbuilt : (s.ltree.built && s.dtree.built) = true := by
    rw [hl.built]
    obtain h | ⟨-, h⟩ := hd
    · rw [h.built]; rfl
    · rw [h]; rfl
  rw [inflateBlockData, if_pos hbuilt]
  exact bodyLoop_carried hlive hseq (by omega) fun _ => by omega

/-! ## The dynamic header -/

theorem clItem_sentinel (h : s.ltree.maxSym ≤ 18) : clItem 19 s = .raised .clsymRange s := by
  rw [clItem, checkClSym_raised (lt_of_le_of_lt h (by decide)), Res.bind_raised]

theorem clLoop_done : ∀ {k : Nat} {s t : State}, clLoop k s = .ok () t → ¬ t.num < t.hlit + t.hdist := by
  intro k
  induction k with
  | zero =>
    intro s t h
    unfold clLoop at h
    split at h
    · cases h
    · cases h
      assumption
  | succ k ih =>
    intro s t h
    unfold clLoop at h
    split at h
    · obtain ⟨sym, w, -, h⟩ := Res.bind_eq_ok.1 h
      obtain ⟨_, v, -, h⟩ := Res.bind_eq_ok.1 h
      exact ih h
    · cases h
      assumption

/-- R190: the steps of a dynamic header carry out its loop. -/
theorem clLoop_carried :
    ∀ {k : Nat} {s : State}, Live s → s.seq = .codeLen → s.ltree.maxSym ≤ 18 → s.hlit + s.hdist ≤ s.num + k →
      Carried .codeLen (clLoop k s) s := by
  intro k
  induction k with
  | zero =>
    intro s hlive hseq _ hfuel
    rw [clLoop, if_neg (by omega)]
    exact .inl ⟨s, rfl, by rw [withSeq_self hseq]; exact .refl s, by rwa [withSeq_self hseq]⟩
  | succ k ih =>
    intro s hlive hseq hmax hfuel
    rw [clLoop]
    by_cases hnum : s.num < s.hlit + s.hdist
    · rw [if_pos hnum]
      have hheader := (mode_codeLen hseq).1 hlive.mode
      obtain ⟨sym, w, hsym, hlt, -⟩ := decodeSymbol_answers (id := .ltree) hheader.tree hlive.sound.reader
      have hmove := (moving_decodeSymbol .ltree).ok hsym
      have hpart := treePart_of_reader (decodeSymbol_spec hsym).1
      obtain ⟨hwl, -, -, hwlit, hwdist, hwnum⟩ := treePart_eq_iff.1 hpart
      have hstep : step s = (clElement sym w).finish :=
        hlive.step_element (f := .cl) (by rw [mode, hseq]; exact if_pos hnum) hsym hlt
      have hwseq : w.seq = s.seq := by
        have := seq_of_inner (inner_decodeSymbol .ltree) s
        rwa [hsym] at this
      rw [hsym, Res.bind_ok]
      by_cases h19 : sym = 19
      · subst h19
        have hraised := clItem_sentinel (s := w) (by rw [hwl]; exact hmax)
        rw [hraised, Res.bind_raised]
        exact carried_of_raised w.seq hstep rfl
      · rw [clElement_item h19] at hstep
        obtain ⟨hends, hok⟩ := clItem_progress (n := sym) (hlive.sound.moves hmove)
          (onTrees_headerMode s w hpart hheader) (by omega)
        obtain ⟨_, z, hz⟩ | ⟨c, z, hz⟩ := hends.cases
        · obtain ⟨-, hznum, hzlit, hzdist, hztree⟩ := hok z hz
          have hzmove := hmove.trans ((moving_clItem sym).ok hz)
          have hzseq := seq_of_inner_ok (inner_clItem sym) hz
          rw [hz, Res.finish_ok] at hstep
          rw [hz, Res.bind_ok]
          exact .head hstep (ih (hlive.next_moves hstep hzmove) ((hzseq.trans hwseq).trans hseq)
            (by rw [hztree, hwl]; exact hmax) (by omega))
        · rw [hz, Res.finish_raised] at hstep
          exact carried_of_raised z.seq hstep (by rw [hz, Res.bind_raised])
    · rw [if_neg hnum]
      exact .inl ⟨s, rfl, by rw [withSeq_self hseq]; exact .refl s, by rwa [withSeq_self hseq]⟩

/-- R201, R202: the step at the end of a dynamic header. -/
theorem endHeader_carried (hlive : Live s) (hseq : s.seq = .codeLen) (hdone : ¬ s.num < s.hlit + s.hdist) :
    Carried .litLen (endHeader s) s := by
  have hmode : mode s = none := by
    rw [mode, hseq]
    exact if_neg hdone
  have hstep : step s = ((endHeader s).bind fun _ s => .ok () { s with seq := .litLen }).finish := by
    rw [step_run hlive.noRequest hlive.noIssue hlive.phase, runStep_of_no_mode hmode, sequence, hseq]
  obtain ⟨⟨-, hlit⟩, ⟨-, hdist⟩, hnum, -, hlens⟩ := (mode_codeLen hseq).1 hlive.mode
  have hends : (endHeader s).Ends := by
    obtain ⟨-, hx⟩ | ⟨-, -, c, t, -, hx⟩ | ⟨-, -, -, hx⟩ := endHeader_cases hlit hdist fun i hi => hlens i (by omega)
    · exact ends_of_raised hx
    · exact ends_of_raised hx
    · exact ends_of_ok hx
  obtain ⟨_, t, ht⟩ | ⟨c, t, ht⟩ := hends.cases
  · rw [ht, Res.bind_ok, Res.finish_ok] at hstep
    exact carried_of_ok hlive hstep (moving_endHeader.ok ht) ht
  · rw [ht, Res.bind_raised, Res.finish_raised] at hstep
    exact carried_of_raised t.seq hstep ht

end

end Sys2Proof.Machine
end

