-- ==== Sys2Proof/Proofs/WholeRuns.lean ====
section
/-! PROOFS. A whole run: the steps behind START carry out the block loop and the end of the run, so UNCOMPRESS ends on
every source and capacity, and step by step the run ends where it does (R14, R278, R344). -/

namespace Sys2Proof.Machine

section
variable {s t u v : State} {x y k : Nat}

/-! ## Overflow at the end of a block -/

/-- The symbol that ends a block is tested for overflow like the others. -/
theorem bodyLoop_noOverflow : ∀ {k : Nat} {s t : State}, bodyLoop k s = .ok () t → t.overflow = false := by
  intro k
  induction k with
  | zero =>
    intro s t h
    cases h
  | succ k ih =>
    intro s t h
    rw [bodyLoop] at h
    obtain ⟨sym, w, -, h⟩ := Res.bind_eq_ok.1 h
    obtain ⟨_, v, hv, h⟩ := Res.bind_eq_ok.1 h
    split at h
    · cases h
      obtain ⟨-, hx⟩ | ⟨ho, hx⟩ := testOverflow_cases w
      · rw [hx] at hv
        cases hv
      · rw [hx] at hv
        cases hv
        exact ho
    · split at h
      · obtain ⟨_, z, -, h⟩ := Res.bind_eq_ok.1 h
        exact ih h
      · obtain ⟨_, z, -, h⟩ := Res.bind_eq_ok.1 h
        obtain ⟨d, z, -, h⟩ := Res.bind_eq_ok.1 h
        obtain ⟨_, z, -, h⟩ := Res.bind_eq_ok.1 h
        exact ih h

theorem inflateBlockData_noOverflow (h : inflateBlockData s = .ok () t) : t.overflow = false := by
  rw [inflateBlockData] at h
  split at h
  · exact bodyLoop_noOverflow h
  · cases h

/-- R276: overflow is 0 behind every block. -/
theorem inflateBlock_noOverflow {type : Nat} (hex : s.overflow = true → s.src = s.sourceLen)
    (h : inflateBlock type s = .ok () t) : t.overflow = false := by
  match type with
  | 0 => exact inflateUncompressed_noOverflow hex h
  | 1 => exact inflateBlockData_noOverflow h
  | 2 =>
    obtain ⟨_, w, -, h⟩ := Res.bind_eq_ok.1 h
    exact inflateBlockData_noOverflow h
  | _ + 3 => cases h

/-! ## A block -/

/-- What the step at a block header of the given type does, once BFINAL is written. -/
def blockHead (type : Nat) (s : State) : Res Unit :=
  match type with
  | 0 => (inflateUncompressed s).bind fun _ s => .ok () (withSeq .blockEnd s)
  | 1 => .ok () (withSeq .litLen (buildFixedTrees s))
  | 2 => (beginHeader s).bind fun _ s => .ok () (withSeq .codeLen s)
  | _ => .raised .btypeReserved s

theorem headerElement_eq_blockHead (hx : x < 2) : headerElement (x + 2 * y) s = blockHead y (withFinal (x == 1) s) := by
  rw [headerElement, show (x + 2 * y) / 2 = y by omega, show (x + 2 * y) % 2 = x by omega]
  match y with
  | 0 => rfl
  | 1 => rfl
  | 2 => rfl
  | _ + 3 => rfl

/-- The step at a block header takes the bits of BFINAL and BTYPE. -/
theorem step_header (hlive : Live s) (hseq : s.seq = .header) :
    ∃ x w y t, getBits 1 s = .ok x w ∧ getBits 2 w = .ok y t ∧ x < 2 ∧ y < 4 ∧ fetchHeader s = .ok (x + 2 * y) t
      ∧ step s = (headerElement (x + 2 * y) t).finish := by
  have hm : mode s = some .bh := by rw [mode, hseq]
  obtain ⟨n, t, hf, hn⟩ := fetch_answers hlive hm
  obtain ⟨x, w, y, hx, hy, rfl⟩ := fetchHeader_cases (show fetchHeader s = _ from hf)
  obtain ⟨-, -, -, -, hxlt, -⟩ := getBits_spec hx
  obtain ⟨-, -, -, -, hylt, -⟩ := getBits_spec hy
  exact ⟨x, w, y, t, hx, hy, hxlt, hylt, hf, hlive.step_element hm hf hn⟩

/-- R272 to R275: the steps of a block carry out the call of its type. -/
theorem inflateBlock_carried (hlive : Live s) (hmove : Moves s t) (hx : x < 2)
    (hstep : step s = (headerElement (x + 2 * y) t).finish) :
    Carried .blockEnd (inflateBlock y (withFinal (x == 1) t)) s := by
  have hfinal : Moves s (withFinal (x == 1) t) := hmove.trans (moves_bfinal t _)
  have hsound := hlive.sound.moves hfinal
  rw [headerElement_eq_blockHead hx] at hstep
  generalize withFinal (x == 1) t = b at hfinal hsound hstep ⊢
  match y with
  | 0 =>
    obtain ⟨_, u, hu⟩ | ⟨c, u, hu⟩ := (inflateUncompressed_ends hsound).cases
    · rw [blockHead, hu, Res.bind_ok, Res.finish_ok] at hstep
      exact carried_of_ok hlive hstep (hfinal.trans (moving_inflateUncompressed.ok hu)) hu
    · rw [blockHead, hu, Res.bind_raised, Res.finish_raised] at hstep
      exact carried_of_raised u.seq hstep hu
  | 1 =>
    have hfixed := hfinal.trans (moves_buildFixedTrees b)
    rw [blockHead, Res.finish_ok] at hstep
    rw [inflateBlock]
    generalize buildFixedTrees b = u at hfixed hstep ⊢
    have hlive' := hlive.next_moves hstep (hfixed.trans (moves_seq u _))
    exact .head hstep (.of_withSeq inner_inflateBlockData (inflateBlockData_carried hlive' rfl))
  | 2 =>
    obtain ⟨_, u, hu⟩ | ⟨c, u, hu⟩ := (beginHeader_ends hsound).cases
    · rw [blockHead, hu, Res.bind_ok, Res.finish_ok] at hstep
      obtain ⟨-, hmax, hnum⟩ := beginHeader_mode hu
      have hlive' := hlive.next_moves hstep ((hfinal.trans (moving_beginHeader.ok hu)).trans (moves_seq u _))
      refine .head hstep ?_
      rw [inflateBlock, decodeTrees, hu, Res.bind_ok, Res.bind_assoc]
      refine Carried.bind (p := .codeLen) (.of_withSeq (inner_clLoop _)
        (clLoop_carried hlive' rfl hmax (by simp only [withSeq]; omega))) fun v hv hlv => ?_
      refine Carried.bind (p := .litLen) (.of_withSeq inner_endHeader
        (endHeader_carried hlv rfl (show ¬ v.num < v.hlit + v.hdist from clLoop_done hv))) fun z _ hlz => ?_
      exact .of_withSeq inner_inflateBlockData (inflateBlockData_carried hlz rfl)
    · rw [blockHead, hu, Res.bind_raised, Res.finish_raised] at hstep
      refine carried_of_raised u.seq hstep ?_
      rw [inflateBlock, decodeTrees, hu, Res.bind_raised, Res.bind_raised]
  | _ + 3 => exact carried_of_raised b.seq hstep rfl

/-- Between two blocks. -/
theorem step_next_block (hlive : Live (withSeq .blockEnd v)) (hv : v.seq = .header) (hb : v.bfinal = false) :
    step (withSeq .blockEnd v) = .next v := by
  rw [step_blockEnd hlive.noRequest hlive.noIssue hlive.phase rfl, blockEnd_next (s := withSeq .blockEnd v) hb, Res.finish_ok]
  exact congrArg _ (withSeq_self hv)

/-- R271: the steps of a run carry out its block loop. -/
theorem blockLoop_carried :
    ∀ {k : Nat} {s : State}, Live s → s.seq = .header → s.overflow = false → bitsLeft s + 1 ≤ k →
      Carried .blockEnd (blockLoop k s) s := by
  intro k
  induction k with
  | zero => exact fun _ _ _ hk => absurd hk (by omega)
  | succ k ih =>
    intro s hlive hseq _ hfuel
    obtain ⟨x, w, y, t, hx, hy, hxlt, -, hf, hstep⟩ := step_header hlive hseq
    have hmove := ((moving_getBits 1).ok hx).trans ((moving_getBits 2).ok hy)
    have hy' : getBits 2 (withFinal (x == 1) w) = .ok y (withFinal (x == 1) t) := by
      rw [commutes_of_inner (inner_getBits 2) (outerChange_withFinal _) w, hy, Res.mapState_ok]
    rw [blockLoop, hx, Res.bind_ok]
    change Carried _ ((getBits 2 (withFinal (x == 1) w)).bind _) _
    rw [hy', Res.bind_ok]
    refine (inflateBlock_carried hlive hmove hxlt hstep).bind fun v hv hlv => ?_
    split
    · exact .inl ⟨v, rfl, .refl _, hlv⟩
    · next hb =>
      have hbmove : Moves s (withFinal (x == 1) t) := hmove.trans (moves_bfinal t _)
      have hvmove := (moving_inflateBlock y).ok hv
      have hov := inflateBlock_noOverflow (hbmove.reader.exhausted hlive.exhausted) hv
      have hvseq : v.seq = .header := by
        have hbseq := seq_of_inner (inner_fetch .bh) s
        rw [show fetch .bh s = _ from hf] at hbseq
        exact (seq_of_inner_ok (inner_inflateBlock y) hv).trans (Eq.trans hbseq hseq)
      have hnext := step_next_block hlv hvseq (Bool.eq_false_iff.2 hb)
      have hsrc := hlive.sound.reader.srcLe
      have hot : t.overflow = false :=
        Bool.eq_false_iff.2 fun ho => Bool.false_ne_true (hov.symm.trans (hvmove.reader.overflow ho))
      have hbits := fetchHeader_bitsLeft hsrc hf hot
      have hbits' : bitsLeft v ≤ bitsLeft t := hvmove.reader.bits (hbmove.reader.srcLe hsrc) hov
      have hlive' : Live v := hlv.next_moves hnext (by
        rw [← withSeq_self hvseq]
        exact moves_seq _ _)
      exact .head hnext (ih hlive' hvseq hov (by omega))

/-! ## A run -/

theorem sound_startRun {bytes : List Byte} {len cap : Nat} (h : startRun bytes len cap s = .ok () t) : Sound t := by
  obtain ⟨-, hlen, rfl⟩ := startRun_cases h
  refine ⟨⟨fun a ha => ?_, Nat.zero_le _, Nat.zero_le _⟩, rfl, Nat.zero_le _, fun a ha => absurd ha (Nat.not_lt_zero a)⟩
  simp only at ha
  rw [memRead_memOfBytes, if_pos (Nat.zero_le a), Nat.sub_zero, List.getElem?_eq_getElem (by omega)]
  rfl

/-- START with nothing pending gives a live state in front of a block header. -/
theorem live_startRun {bytes : List Byte} {len cap : Nat} (hr : s.request = none) (hi : s.issue = none)
    (h : startRun bytes len cap s = .ok () t) : Live t ∧ t.seq = .header ∧ t.overflow = false := by
  have hsound := sound_startRun h
  obtain ⟨-, -, rfl⟩ := startRun_cases h
  exact ⟨⟨rfl, hi, hr, hsound, fun ho => absurd ho (by simp), mode_header rfl⟩, rfl, rfl⟩

/-- UNCOMPRESS behind its START. -/
def afterStart (s : State) : Res Unit := (blockLoop (bitsLeft s + 2) s).bind fun _ s => endRun s

theorem exec_uncompress_of_start {bytes : List Byte} {cap : Nat} (h : startRun bytes bytes.length cap s = .ok () t) :
    exec (.uncompress bytes bytes.length cap) s = (afterStart t).finish := by
  have hexec : exec (.uncompress bytes bytes.length cap) s = (uncompress bytes bytes.length cap s).finish := rfl
  rw [hexec, uncompress, h, Res.bind_ok]
  rfl

/-- The end of a run, for the operation and for the step. -/
theorem endRun_withSeq (v : State) (p : Seq) :
    ∃ u, (endRun v).finish = .next u ∧ u.phase = .done ∧ (endRun (withSeq p v)).finish = .next (withSeq p u) := by
  cases ho : v.overflow with
  | false =>
    refine ⟨ended v, ?_, rfl, ?_⟩
    · rw [endRun_ok ho]
      rfl
    · rw [endRun_ok (s := withSeq p v) ho]
      rfl
  | true =>
    refine ⟨takeException .overflowAtEnd v, ?_, rfl, ?_⟩
    · rw [endRun_overflow ho]
      rfl
    · rw [endRun_overflow (s := withSeq p v) ho]
      rfl

theorem blockLoop_final_bfinal : ∀ {k : Nat} {s t : State}, blockLoop k s = .ok () t → t.bfinal = true := by
  intro k
  induction k with
  | zero =>
    intro s t h
    cases h
  | succ k ih =>
    intro s t h
    rw [blockLoop] at h
    obtain ⟨x, w, -, h⟩ := Res.bind_eq_ok.1 h
    obtain ⟨y, v, -, h⟩ := Res.bind_eq_ok.1 h
    obtain ⟨_, z, -, h⟩ := Res.bind_eq_ok.1 h
    split at h
    · cases h
      assumption
    · exact ih h

/-- The steps of a run carry out UNCOMPRESS. -/
theorem afterStart_carried (hlive : Live s) (hseq : s.seq = .header) (ho : s.overflow = false) :
    ∃ u p, (afterStart s).finish = .next u ∧ u.phase = .done ∧ Steps s (withSeq p u) := by
  obtain ⟨v, hv, hsteps, hlv⟩ | ⟨c, v, p, hv, hsteps⟩ :=
    blockLoop_carried (k := bitsLeft s + 2) hlive hseq ho (Nat.le_succ _)
  · obtain ⟨u, hu, hdone, hu'⟩ := endRun_withSeq v .blockEnd
    refine ⟨u, .blockEnd, ?_, hdone, hsteps.trans (.head ?_ (.refl _))⟩
    · rw [afterStart, hv, Res.bind_ok, hu]
    · rw [step_blockEnd hlv.noRequest hlv.noIssue hlv.phase rfl,
        blockEnd_final (s := withSeq .blockEnd v) (show v.bfinal = true from blockLoop_final_bfinal hv), hu']
  · refine ⟨takeException c v, p, ?_, rfl, hsteps⟩
    rw [afterStart, hv, Res.bind_raised, Res.finish_raised]

/-! ## Nothing of a run depends on what is pending -/

/-- The state with the given pending requests. -/
def withPending (i : Option Instr) (r : Option HostAction) (s : State) : State := { s with issue := i, request := r }

theorem outerChange_withPending (i : Option Instr) (r : Option HostAction) : OuterChange (withPending i r) := by
  intro s t h
  rw [← h]
  rfl

theorem commutes_withPending_blockLoop (i : Option Instr) (r : Option HostAction) :
    ∀ k, Commutes (withPending i r) (blockLoop k)
  | 0 => fun _ => rfl
  | k + 1 =>
    have hpending : ∀ {α : Type} {x : State → Res α}, Inner x → Commutes (withPending i r) x :=
      fun h => commutes_of_inner h (outerChange_withPending i r)
    Commutes.bind (hpending (inner_getBits 1)) fun f => fun s =>
      Commutes.bind (hpending (inner_getBits 2)) (fun type => Commutes.bind (hpending (inner_inflateBlock type)) fun _ =>
        Commutes.ite (fun _ => Iff.rfl) (fun _ => rfl) (commutes_withPending_blockLoop i r k)) (withFinal (f == 1) s)

theorem commutes_withPending_endRun (i : Option Instr) (r : Option HostAction) : Commutes (withPending i r) endRun :=
  Commutes.ite (fun _ => Iff.rfl) (fun _ => rfl) fun _ => rfl

theorem afterStart_withPending {i : Option Instr} {r : Option HostAction} (h : (afterStart s).finish = .next u) :
    (afterStart (withPending i r s)).finish = .next (withPending i r u) := by
  have hcommutes : afterStart (withPending i r s) = (afterStart s).mapState (withPending i r) :=
    Commutes.bind (commutes_withPending_blockLoop i r (bitsLeft s + 2)) (fun _ => commutes_withPending_endRun i r) s
  rw [hcommutes]
  cases hx : afterStart s with
  | ok a t =>
    rw [hx, Res.finish_ok] at h
    cases h
    rfl
  | raised c t =>
    rw [hx, Res.finish_raised] at h
    cases h
    rfl
  | fault e =>
    rw [hx] at h
    cases h
  | refused q =>
    rw [hx] at h
    cases h

/-! ## The result -/

/-- What the host reads behind a run (R277, R294): the bytes written, or no byte. -/
structure GivesResult (s u : State) : Prop where
  phase : u.phase = .done
  length : u.destLenOut ≤ s.destCap
  written : u.status = .ok → ∀ a, a < u.destLenOut → (memRead u.out a).isSome
  failed : u.status ≠ .ok → u.destLenOut = 0

theorem givesResult_takeException (c : Cause) (t : State) : GivesResult s (takeException c t) :=
  ⟨rfl, Nat.zero_le _, fun _ a ha => absurd ha (Nat.not_lt_zero a), fun _ => rfl⟩

theorem givesResult_ended (h : Sound t) (hcap : t.destCap = s.destCap) : GivesResult s (ended t) := by
  have hlen := h.destLenEq
  have hle := h.destLe
  refine ⟨rfl, (show t.destLen ≤ s.destCap by omega), fun _ a ha => h.written a ?_, fun hs => absurd rfl hs⟩
  have hlt : a < t.destLen := ha
  omega

theorem afterStart_givesResult (h : Sound s) (hu : (afterStart s).finish = .next u) : GivesResult s u := by
  have hmove := moving_blockLoop (bitsLeft s + 2) s
  rw [afterStart] at hu
  cases hx : blockLoop (bitsLeft s + 2) s with
  | ok a t =>
    rw [hx] at hmove
    rw [hx, Res.bind_ok] at hu
    cases ho : t.overflow with
    | false =>
      rw [endRun_ok ho, Res.finish_ok] at hu
      cases hu
      exact givesResult_ended (h.moves hmove) (hostPart_eq_iff.1 hmove.host).2.2.1
    | true =>
      rw [endRun_overflow ho, Res.finish_raised] at hu
      cases hu
      exact givesResult_takeException _ _
  | raised c t =>
    rw [hx, Res.bind_raised, Res.finish_raised] at hu
    cases hu
    exact givesResult_takeException _ _
  | fault e =>
    rw [hx] at hu
    cases hu
  | refused r =>
    rw [hx] at hu
    cases hu

end

end Sys2Proof.Machine

namespace Sys2Proof
open Machine

/-- Settles O48: nothing pending is looked at, and without it the steps of the run, which end, carry out the operation. -/
theorem uncompressAlwaysEnds : Obligations.UncompressAlwaysEnds := by
  intro s bytes cap hp
  obtain ⟨t, ht⟩ := startRun_answers (s := s) bytes cap hp
  obtain ⟨t', ht'⟩ := startRun_answers (s := withPending none none s) bytes cap hp
  obtain ⟨hlive, hseq, ho⟩ := live_startRun rfl rfl ht'
  obtain ⟨u, -, hu, -⟩ := afterStart_carried hlive hseq ho
  have hpend : t = withPending s.issue s.request t' := by
    obtain ⟨-, -, rfl⟩ := startRun_cases ht
    obtain ⟨-, -, rfl⟩ := startRun_cases ht'
    rfl
  have hcap : t'.destCap = cap := by
    obtain ⟨-, -, rfl⟩ := startRun_cases ht'
    rfl
  obtain ⟨hphase, hlen, hwritten, hfailed⟩ := afterStart_givesResult hlive.sound hu
  refine ⟨withPending s.issue s.request u, ?_, hphase, hcap ▸ hlen, hwritten, hfailed⟩
  rw [exec_uncompress_of_start ht, hpend, afterStart_withPending hu]

/-- Settles O50: START is the first step, and the steps behind it carry out the block loop and the end of the run. -/
theorem stepsCarryOutUncompress : Obligations.StepsCarryOutUncompress := by
  intro s bytes cap hp hr hi
  obtain ⟨t, ht⟩ := startRun_answers (s := s) bytes cap hp
  obtain ⟨hlive, hseq, ho⟩ := live_startRun hr hi ht
  obtain ⟨u, p, hu, hdone, hsteps⟩ := afterStart_carried hlive hseq ho
  have hstep : step { s with request := some (.start bytes bytes.length cap) } = .next t := by
    have hfinish : step { s with request := some (.start bytes bytes.length cap) }
        = (startRun bytes bytes.length cap { s with request := none }).finish := rfl
    have hsame : { s with request := none } = s := by
      rw [← hr]
    rw [hfinish, hsame, ht, Res.finish_ok]
  obtain ⟨k, hk⟩ := Steps.head hstep hsteps
  exact ⟨k, withSeq p u, u, hk, hdone, (exec_uncompress_of_start ht).trans hu, rfl⟩

end Sys2Proof
end

