-- ==== Sys2Proof/Proofs/Alike.lean ====
section
/-! PROOFS. Two runs side by side (R40): states that agree on the reader and on the bytes written, and operations that give
them the same result. What stays from earlier runs, in OUT past the bytes written, in the trees and in the scratch array,
may differ. -/

namespace Sys2Proof.Machine

/-! ## The same result -/

/-- The same result, in states related by `R`. -/
inductive Res.Alike {α : Type} (R : State → State → Prop) : Res α → Res α → Prop where
  | ok (a : α) {s t : State} (h : R s t) : Alike R (.ok a s) (.ok a t)
  | raised (c : Cause) (s t : State) : Alike R (.raised c s) (.raised c t)
  | fault (e : Fault) : Alike R (.fault e) (.fault e)
  | refused (r : Refusal) : Alike R (.refused r) (.refused r)

section
variable {α β : Type} {R Q : State → State → Prop} {x y : Res α}

theorem Res.Alike.bind {f g : α → State → Res β} (h : Res.Alike R x y)
    (hf : ∀ a s t, x = .ok a s → R s t → Res.Alike Q (f a s) (g a t)) : Res.Alike Q (x.bind f) (y.bind g) := by
  cases h with
  | ok a h => exact hf a _ _ rfl h
  | raised c s t => exact .raised c s t
  | fault e => exact .fault e
  | refused r => exact .refused r

theorem Res.Alike.ite {p q : Prop} [Decidable p] [Decidable q] {x' y' : Res α} (hpq : p ↔ q)
    (h : p → Res.Alike R x y) (h' : ¬ p → Res.Alike R x' y') : Res.Alike R (if p then x else x') (if q then y else y') := by
  by_cases hp : p
  · rw [if_pos hp, if_pos (hpq.1 hp)]
    exact h hp
  · rw [if_neg hp, if_neg (mt hpq.2 hp)]
    exact h' hp

theorem Res.Alike.mono (h : Res.Alike R x y) (hQ : ∀ s t, R s t → Q s t) : Res.Alike Q x y := by
  cases h with
  | ok a h => exact .ok a (hQ _ _ h)
  | raised c s t => exact .raised c s t
  | fault e => exact .fault e
  | refused r => exact .refused r

/-- What the two operations reach on their own can be added to the relation. -/
theorem Res.Alike.reaches {P P' : State → Prop} (h : Res.Alike R x y) (hx : x.Reaches P) (hy : y.Reaches P')
    (hQ : ∀ s t, R s t → P s → P' t → Q s t) : Res.Alike Q x y := by
  cases h with
  | ok a h => exact .ok a (hQ _ _ h hx hy)
  | raised c s t => exact .raised c s t
  | fault e => exact .fault e
  | refused r => exact .refused r

end

/-! ## Operations that look at the reader only -/

/-- The state `o` with the source and the reader of `s`. -/
def onto (o s : State) : State :=
  { o with
    source := s.source, sourceLen := s.sourceLen, src := s.src, tag := s.tag, bitcount := s.bitcount
    overflow := s.overflow }

/-- An operation that reads and writes nothing but the reader. -/
abbrev ReaderOnly {α : Type} (x : State → Res α) : Prop := ∀ o, Commutes (onto o) x

theorem onto_self (s : State) : onto s s = s := rfl

theorem readerOnly_srcRead (a : Nat) : ReaderOnly (srcRead a) := fun o =>
  Commutes.ite (fun _ => Iff.rfl) (fun s => by simp only [onto]; cases memRead s.source a <;> rfl) fun _ => rfl

theorem readerOnly_loadByte : ReaderOnly loadByte := by
  exact fun o => Commutes.ite (fun _ => Iff.rfl) (fun s => Commutes.bind (readerOnly_srcRead s.src o) (fun _ _ => rfl) s)
    fun _ => rfl

theorem readerOnly_refillLoop : ∀ k n, ReaderOnly (refillLoop k n)
  | 0, _ => fun _ => Commutes.ite (fun _ => Iff.rfl) (fun _ => rfl) fun _ => rfl
  | k + 1, n => fun o => Commutes.ite (fun _ => Iff.rfl)
      (Commutes.ite (fun _ => Iff.rfl) (fun _ => rfl)
        (Commutes.bind (readerOnly_loadByte o) fun _ => readerOnly_refillLoop k n o))
      fun _ => rfl

theorem readerOnly_consume (n : Nat) : ReaderOnly (consume n) := fun _ =>
  Commutes.ite (fun _ => Iff.rfl) (fun _ => rfl) fun _ => rfl

theorem readerOnly_getBits (n : Nat) : ReaderOnly (getBits n) := fun o =>
  Commutes.ite (fun _ => Iff.rfl) (fun _ => rfl)
    (Commutes.bind (readerOnly_refillLoop 4 n o) fun _ => readerOnly_consume n o)

theorem readerOnly_operand (base n : Nat) : ReaderOnly (operand base n) := fun o =>
  Commutes.bind (readerOnly_getBits n o) fun _ _ => rfl

theorem readerOnly_getBitsBase (n base : Nat) : ReaderOnly (getBitsBase n base) := fun o =>
  Commutes.ite (fun _ => Iff.rfl) (fun _ => rfl) (Commutes.bind (readerOnly_getBits n o) fun _ _ => rfl)

theorem readerOnly_transAt (t : Tree) (i : Nat) : ReaderOnly (transAt t i) := by
  intro o s
  unfold transAt
  cases t.trans[i]? <;> rfl

theorem readerOnly_descend (t : Tree) : ∀ k len sum cur, ReaderOnly (descend t k len sum cur)
  | 0, _, _, _ => fun o => Commutes.bind (readerOnly_getBits 1 o) fun _ _ => rfl
  | k + 1, _, _, _ => fun o => Commutes.bind (readerOnly_getBits 1 o) fun _ =>
      Commutes.ite (fun _ => Iff.rfl) (readerOnly_transAt t _ o) (readerOnly_descend t k _ _ _ o)

/-! ## States that agree on a run so far -/

/-- The same reader, the same room and counters of output, and the same bytes written. -/
structure SameRun (s t : State) : Prop where
  reader : onto t s = t
  destCap : t.destCap = s.destCap
  dest : t.dest = s.dest
  destLen : t.destLen = s.destLen
  out : ∀ a, a < s.dest → memRead t.out a = memRead s.out a

/-- They agree on a run so far, and on `E`. -/
def SameWith (E : State → State → Prop) (s t : State) : Prop := SameRun s t ∧ E s t

/-- `E` does not speak of the reader. -/
def ReaderFree (E : State → State → Prop) : Prop := ∀ s t u, E s t → E (onto s u) (onto t u)

section
variable {s t : State} {E : State → State → Prop}

theorem SameRun.readerFields (h : SameRun s t) :
    t.source = s.source ∧ t.sourceLen = s.sourceLen ∧ t.src = s.src ∧ t.tag = s.tag ∧ t.bitcount = s.bitcount
      ∧ t.overflow = s.overflow := by
  have hreader := h.reader
  rw [← hreader]
  exact ⟨rfl, rfl, rfl, rfl, rfl, rfl⟩

theorem SameRun.bitsLeft (h : SameRun s t) : bitsLeft t = bitsLeft s := by
  obtain ⟨-, hlen, hsrc, -, hcount, -⟩ := h.readerFields
  rw [Machine.bitsLeft, Machine.bitsLeft, hlen, hsrc, hcount]

theorem SameRun.onto (h : SameRun s t) (u : State) : SameRun (onto s u) (onto t u) :=
  ⟨rfl, h.destCap, h.dest, h.destLen, h.out⟩

/-- The same reader gives the same bits. -/
theorem alike_readerOnly {α : Type} {x : State → Res α} (hx : ReaderOnly x) (hE : ReaderFree E) (h : SameWith E s t) :
    Res.Alike (SameWith E) (x s) (x t) := by
  obtain ⟨hrun, he⟩ := h
  have hself := hx s s
  have hother := hx t s
  rw [onto_self] at hself
  rw [hrun.reader] at hother
  rw [hother]
  cases hs : x s with
  | ok a u =>
    rw [hs, Res.mapState_ok, Res.ok.injEq] at hself
    rw [Res.mapState_ok, hself.2]
    exact .ok a ⟨hrun.onto u, hE s t u he⟩
  | raised c u => exact .raised c _ _
  | fault e => exact .fault e
  | refused r => exact .refused r

/-- Agreement on nothing but the run so far. -/
abbrev Anything : State → State → Prop := fun _ _ => True

theorem SameRun.withAnything (h : SameRun s t) : SameWith Anything s t := ⟨h, trivial⟩

theorem alike_reader {α : Type} {x : State → Res α} (hx : ReaderOnly x) (h : SameRun s t) :
    Res.Alike SameRun (x s) (x t) :=
  (alike_readerOnly hx (fun _ _ _ h => h) h.withAnything).mono fun _ _ h => h.1

/-! ## Output -/

/-- The state behind a byte of output. -/
def withByte (v : Byte) (s : State) : State :=
  { s with out := memWrite s.out s.dest v, dest := s.dest + 1, destLen := s.destLen + 1 }

theorem SameRun.withByte (h : SameRun s t) (v : Byte) : SameRun (withByte v s) (withByte v t) := by
  refine ⟨congrArg (fun o => { o with out := memWrite t.out t.dest v, dest := t.dest + 1, destLen := t.destLen + 1 })
    h.reader, h.destCap, congrArg (· + 1) h.dest, congrArg (· + 1) h.destLen, fun a ha => ?_⟩
  have hlt : a < s.dest + 1 := ha
  simp only [Machine.withByte]
  rw [memRead_memWrite, memRead_memWrite, h.dest]
  split
  · rfl
  · exact h.out a (by omega)

theorem alike_emitByte (v : Byte) (h : SameRun s t) : Res.Alike SameRun (emitByte v s) (emitByte v t) := by
  by_cases hroom : s.dest < s.destCap
  · rw [emitByte_ok hroom, emitByte_ok (by rwa [h.dest, h.destCap])]
    exact .ok () (h.withByte v)
  · rw [emitByte, emitByte, outWrite, outWrite, if_neg hroom, if_neg (by rwa [h.dest, h.destCap])]
    exact .refused _

theorem alike_testOverflow (h : SameRun s t) : Res.Alike SameRun (testOverflow s) (testOverflow t) :=
  .ite (by rw [h.readerFields.2.2.2.2.2]) (fun _ => .raised _ _ _) fun _ => .ok () h

theorem alike_putLiteral (b : Byte) (h : SameRun s t) : Res.Alike SameRun (putLiteral b s) (putLiteral b t) :=
  .ite (by rw [h.dest, h.destCap]) (fun _ => .raised _ _ _) fun _ => alike_emitByte b h

/-- A byte that has been written reads the same. -/
theorem alike_outRead {a : Nat} (ha : a < s.dest) (h : SameRun s t) : Res.Alike SameRun (outRead a s) (outRead a t) := by
  refine .ite (by rw [h.destCap]) (fun _ => ?_) fun _ => .refused _
  rw [h.out a ha]
  cases memRead s.out a with
  | none => exact .fault _
  | some v => exact .ok v h

/-- R225: a match reaches back to bytes that have been written. -/
theorem alike_copyMatch {offs : Nat} (hoffs : 0 < offs) :
    ∀ (n : Nat) {s t : State}, SameRun s t → Res.Alike SameRun (copyMatch n offs s) (copyMatch n offs t)
  | 0, _, _, h => .ok () h
  | n + 1, s, t, h => by
    refine .ite (by rw [h.dest]) (fun _ => .refused _) fun hle => ?_
    rw [h.dest]
    exact (alike_outRead (by omega) h).bind fun v u w _ huw => (alike_emitByte v huw).bind fun _ _ _ _ h =>
      alike_copyMatch hoffs n h

theorem alike_copyStored : ∀ (n : Nat) {s t : State}, SameRun s t → Res.Alike SameRun (copyStored n s) (copyStored n t)
  | 0, _, _, h => .ok () h
  | n + 1, s, t, h => by
    rw [copyStored, copyStored, h.readerFields.2.2.1]
    refine (alike_reader (readerOnly_srcRead s.src) h).bind fun v u w _ huw => ?_
    have hnext : SameRun { u with src := u.src + 1 } { w with src := w.src + 1 } := 
      ⟨congrArg (fun o => { o with src := o.src + 1 }) huw.reader, huw.destCap, huw.dest, huw.destLen, huw.out⟩
    exact (alike_emitByte v hnext).bind fun _ _ _ _ h => alike_copyStored n h

/-! ## Uncompressed blocks -/

theorem SameRun.align (h : SameRun s t) : SameRun (alignReader s) (alignReader t) :=
  ⟨congrArg alignReader h.reader, h.destCap, h.dest, h.destLen, h.out⟩

theorem alike_checkStored (len nlen : Nat) (h : SameRun s t) :
    Res.Alike SameRun (checkStored len nlen s) (checkStored len nlen t) := by
  obtain ⟨-, hlen, hsrc, -⟩ := h.readerFields
  exact .ite Iff.rfl (fun _ => .raised _ _ _) fun _ => .ite (by rw [hlen, hsrc]) (fun _ => .raised _ _ _) fun _ =>
    .ite (by rw [h.destCap, h.dest]) (fun _ => .raised _ _ _) fun _ => .ok () h

theorem alike_inflateUncompressed (h : SameRun s t) :
    Res.Alike SameRun (inflateUncompressed s) (inflateUncompressed t) :=
  (alike_reader (readerOnly_operand 0 16) h.align).bind fun len _ _ _ h =>
    (alike_reader (readerOnly_operand 0 16) h).bind fun nlen _ _ _ h =>
      (alike_checkStored len nlen h).bind fun _ _ _ _ h =>
        (alike_copyStored len h).bind fun _ _ _ _ h => .ok () h.align

end

end Sys2Proof.Machine
end

