-- ==== Sys2Proof/Proofs/AlikeBody.lean ====
section
/-! PROOFS. Two runs side by side in a block body (R40): of the trees a body reads only the entries that have a code, so
trees that agree on those give the same result. -/

namespace Sys2Proof.Machine

/-! ## Trees that decode alike -/

/-- The trees agree on all that DECODE_SYMBOL and the tests read: not on the entries of `trans` without a code. -/
structure TreeAlike (a b : Tree) : Prop where
  table : b.table = a.table
  maxSym : b.maxSym = a.maxSym
  built : b.built = a.built
  trans : ∀ i, i < codesUpTo a 15 → entry b.trans i = entry a.trans i

section
variable {a b : Tree} {lens : List Nat}

theorem TreeAlike.refl (a : Tree) : TreeAlike a a := ⟨rfl, rfl, rfl, fun _ _ => rfl⟩

theorem transAt_congr {i : Nat} (h : entry b.trans i = entry a.trans i) (s : State) : transAt b i s = transAt a i s := by
  by_cases hi : i < 288
  · rw [transAt_ok hi, transAt_ok hi, h]
  · simp only [transAt, show a.trans[i]? = none by simpa using hi, show b.trans[i]? = none by simpa using hi]

/-- The descent reads entries that have a code. -/
theorem descend_congr (h : TreeAlike a b) :
    ∀ (k len : Nat) (cur : Int) (s : State), len + k = 15 → 0 ≤ cur →
      descend b k len (codesUpTo a len) cur s = descend a k len (codesUpTo a len) cur s := by
  intro k
  induction k with
  | zero => exact fun _ _ _ _ _ => rfl
  | succ k ih =>
    intro len cur s hlen hcur
    rw [descend, descend, h.table]
    refine congrArg (Res.bind (getBits 1 s)) (funext fun bit => funext fun u => ?_)
    have hcodes : codesUpTo a len + entry a.table (len + 1) = codesUpTo a (len + 1) := rfl
    have hle : codesUpTo a (len + 1) ≤ codesUpTo a 15 := codesUpTo_mono (by omega)
    rw [hcodes]
    dsimp only
    split
    · exact transAt_congr (h.trans _ (by omega)) u
    · exact ih (len + 1) _ u (by omega) (by omega)

theorem codesUpTo_le_sum (tr : Tree) : codesUpTo tr 15 ≤ tr.table.toList.sum := by
  rw [toList_eq_map_entry, codesUpTo_eq_sum, List.range_succ_eq_map, List.map_cons, List.sum_cons, List.map_map]
  exact Nat.le_add_left _ _

/-- A finished tree does not depend on the old one but for what has no code. -/
theorem treeAlike_finishedTree (hle : ∀ l ∈ lens, l ≤ 15) (hsize : lens.length ≤ 288) (hcheck : buildCheck lens = none)
    (a b : Tree) : TreeAlike (finishedTree lens a) (finishedTree lens b) := by
  refine ⟨?_, (finishedTree_maxSym lens b).trans (finishedTree_maxSym lens a).symm,
    (finishedTree_built lens b).trans (finishedTree_built lens a).symm, fun i hi => ?_⟩
  · unfold finishedTree
    dsimp only
    split <;> rfl
  · have hsum := hi.trans_le (codesUpTo_le_sum _)
    rw [sum_finishedTree_table hle hcheck] at hsum
    by_cases hone : codedCount lens = 1
    · rw [if_pos hone] at hsum
      obtain ⟨m, -, -, hm, ha0, ha1⟩ := finishedTree_trans_of_single hle hsize hcheck hone a
      obtain ⟨n, -, -, hn, hb0, hb1⟩ := finishedTree_trans_of_single hle hsize hcheck hone b
      have hmn : n = m := by omega
      obtain rfl | rfl : i = 0 ∨ i = 1 := by omega
      · rw [ha0, hb0, hmn]
      · rw [ha1, hb1, hmn]
    · rw [if_neg hone] at hsum
      obtain ⟨j, hj, rfl⟩ := exists_place hle hsum
      rw [entry_finishedTree_trans hle hsize hcheck a hj, entry_finishedTree_trans hle hsize hcheck b hj]

theorem treeAlike_fixedDistTree (a b : Tree) : TreeAlike (fixedDistTree a) (fixedDistTree b) := by
  refine ⟨rfl, rfl, rfl, fun i hi => ?_⟩
  have hcodes : codesUpTo (fixedDistTree a) 15 = 32 := by
    simp [codesUpTo, entry_fixedDistTree_table]
  rw [entry_fixedDistTree_trans, entry_fixedDistTree_trans, if_pos (by omega), if_pos (by omega)]

end

section
variable {s t : State} {E : State → State → Prop}

theorem alike_decodeSymbol {id : TreeId} (hE : ReaderFree E) (h : SameWith E s t)
    (ht : TreeAlike (getTree id s) (getTree id t)) : Res.Alike (SameWith E) (decodeSymbol id s) (decodeSymbol id t) := by
  have hsame : decodeSymbol id t = descend (getTree id s) Config.maxBits 0 0 0 t :=
    descend_congr ht 15 0 0 t rfl (Int.le_refl 0)
  rw [hsame]
  exact alike_readerOnly (readerOnly_descend (getTree id s) Config.maxBits 0 0 0) hE h

/-! ## Operations that keep the trees -/

/-- `E` speaks of the trees, the scratch array and its counters only. -/
def OnParts (E : State → State → Prop) : Prop :=
  ∀ s t u w, treePart u = treePart s → treePart w = treePart t → E s t → E u w

/-- An operation that keeps the trees keeps what is said of them. -/
theorem alike_keeps {α : Type} {x : State → Res α} (hE : OnParts E) (hx : ∀ {P}, OnTrees P → Keeps P x)
    (h : Res.Alike SameRun (x s) (x t)) (he : E s t) : Res.Alike (SameWith E) (x s) (x t) := by
  have hkeep : ∀ u : State, (x u).Reaches fun w => treePart w = treePart u := fun u =>
    hx (P := fun w => treePart w = treePart u) (fun _ _ hw hu => hw.trans hu) u rfl
  exact h.reaches (hkeep s) (hkeep t) fun u w hrun hu hw => ⟨hrun, hE s t u w hu hw he⟩

/-! ## The block body -/

/-- The trees of a block body decode alike. -/
def BodyAlike (s t : State) : Prop := TreeAlike s.ltree t.ltree ∧ TreeAlike s.dtree t.dtree

/-- Inside a pair the match length is the same, too. -/
def PairAlike (s t : State) : Prop := BodyAlike s t ∧ t.matchLen = s.matchLen

theorem readerFree_bodyAlike : ReaderFree BodyAlike := fun _ _ _ h => h

theorem readerFree_pairAlike : ReaderFree PairAlike := fun _ _ _ h => h

theorem onParts_bodyAlike : OnParts BodyAlike := by
  intro s t u w hu hw h
  obtain ⟨hul, hud, -⟩ := treePart_eq_iff.1 hu
  obtain ⟨hwl, hwd, -⟩ := treePart_eq_iff.1 hw
  rw [BodyAlike, hul, hud, hwl, hwd]
  exact h

theorem SameRun.withMatchLen (h : SameRun s t) (n : Nat) : SameRun { s with matchLen := n } { t with matchLen := n } :=
  ⟨congrArg (fun o => { o with matchLen := n }) h.reader, h.destCap, h.dest, h.destLen, h.out⟩

theorem alike_lengthHalf (sym : Nat) (h : SameWith BodyAlike s t) :
    Res.Alike (SameWith PairAlike) (lengthHalf sym s) (lengthHalf sym t) := by
  have ⟨_, hl, hd⟩ := h
  have hread := alike_readerOnly (readerOnly_getBitsBase (lengthBits.getD (sym - 257) 0) (lengthBase.getD (sym - 257) 0))
    readerFree_bodyAlike h
  rw [lengthHalf, lengthHalf, readLength, readLength]
  generalize lengthBits.getD (sym - 257) 0 = n, lengthBase.getD (sym - 257) 0 = base at hread ⊢
  exact .ite (by rw [hl.maxSym]) (fun _ => .raised _ _ _) fun _ => .ite Iff.rfl (fun _ => .raised _ _ _) fun _ =>
    .ite (by rw [hd.maxSym]) (fun _ => .raised _ _ _) fun _ => hread.bind fun length u w _ huw =>
      .ok () ⟨huw.1.withMatchLen length, huw.2, rfl⟩

theorem readDistance_pos {d v : Nat} (hd : d ≤ 29) (h : readDistance d s = .ok v t) : 0 < v := by
  have hbase := distBase_pos d (by omega)
  obtain ⟨-, rfl, -⟩ | ⟨-, x, -, rfl⟩ := getBitsBase_cases h
  · exact hbase
  · omega

theorem alike_distHalf (d : Nat) (h : SameWith PairAlike s t) :
    Res.Alike SameRun (distHalf d s) (distHalf d t) := by
  have ⟨_, ⟨_, hd⟩, _⟩ := h
  refine .ite (by rw [hd.maxSym]) (fun _ => .raised _ _ _) fun hle => ?_
  refine (alike_readerOnly (readerOnly_getBitsBase _ _) readerFree_pairAlike h).bind fun offs u w hoffs huw => ?_
  obtain ⟨hrun, -, hlen⟩ := huw
  have hpos := readDistance_pos (d := d) (by omega) hoffs
  refine .ite (by rw [hrun.destLen]) (fun _ => .raised _ _ _) fun _ => .ite (by rw [hrun.destCap, hrun.dest, hlen])
    (fun _ => .raised _ _ _) fun _ => ?_
  rw [hlen]
  exact alike_copyMatch hpos u.matchLen hrun

/-- R220. -/
theorem alike_bodyLoop : ∀ (k : Nat) {s t : State}, SameWith BodyAlike s t →
    Res.Alike SameRun (bodyLoop k s) (bodyLoop k t)
  | 0, _, _, _ => .refused _
  | k + 1, s, t, h => by
    rw [bodyLoop, bodyLoop]
    refine (alike_decodeSymbol (id := .ltree) readerFree_bodyAlike h h.2.1).bind fun sym s t _ h => ?_
    refine (alike_keeps onParts_bodyAlike (fun _ => keeps_testOverflow) (alike_testOverflow h.1) h.2).bind
      fun _ s t _ h => ?_
    refine .ite Iff.rfl (fun _ => .ok () h.1) fun _ => .ite Iff.rfl (fun _ => ?_) fun _ => ?_
    · exact (alike_keeps onParts_bodyAlike (fun hP => keeps_putLiteral hP _) (alike_putLiteral _ h.1) h.2).bind
        fun _ s t _ h => alike_bodyLoop k h
    · refine (alike_lengthHalf sym h).bind fun _ s t _ h => ?_
      refine (alike_decodeSymbol (id := .dtree) readerFree_pairAlike h h.2.1.2).bind fun d s t _ h => ?_
      exact (alike_keeps onParts_bodyAlike (fun hP => keeps_distHalf hP d) (alike_distHalf d h) h.2.1).bind
        fun _ s t _ h => alike_bodyLoop k h

theorem alike_inflateBlockData (h : SameWith BodyAlike s t) :
    Res.Alike SameRun (inflateBlockData s) (inflateBlockData t) := by
  obtain ⟨hrun, hl, hd⟩ := h
  refine .ite (by rw [hl.built, hd.built]) (fun _ => ?_) fun _ => .refused _
  rw [hrun.bitsLeft]
  exact alike_bodyLoop _ ⟨hrun, hl, hd⟩

theorem SameRun.fixed (h : SameRun s t) : SameWith BodyAlike (buildFixedTrees s) (buildFixedTrees t) :=
  ⟨⟨congrArg (fun o => { o with ltree := fixedLitTree, dtree := fixedDistTree t.dtree }) h.reader, h.destCap, h.dest,
    h.destLen, h.out⟩, .refl _, treeAlike_fixedDistTree _ _⟩

end

end Sys2Proof.Machine
end

