-- ==== Sys2Proof/Proofs/Determinism.lean ====
section
/-! PROOFS. Nothing survives from one run to the next (R40): a dynamic header reads of the scratch array only what it has
written, and builds trees that decode alike; so every block, and the whole run, gives the same result. -/

namespace Sys2Proof.Machine

section
variable {s t : State}

/-! ## The scratch array -/

/-- The first `n` entries of the scratch array agree. -/
def LengthsAlike (n : Nat) (s t : State) : Prop := ∀ i, i < n → entry t.lengths i = entry s.lengths i

theorem LengthsAlike.write {n m i : Nat} (h : LengthsAlike n s t) (v : Nat) (hm : ∀ j, j < m → j < n ∨ j = i)
    (hi : i < 320) :
    LengthsAlike m (withLengths (s.lengths.setIfInBounds i v) s) (withLengths (t.lengths.setIfInBounds i v) t) := by
  intro j hj
  rw [withLengths_lengths, withLengths_lengths, entry_setIfInBounds, entry_setIfInBounds]
  split
  · rfl
  · obtain hlt | rfl := hm j hj
    · exact h j hlt
    · exact absurd ⟨rfl, hi⟩ ‹¬ (j = j ∧ j < 320)›

theorem SameRun.withLengths (h : SameRun s t) (v w : Vector Nat 320) : SameRun (withLengths v s) (withLengths w t) :=
  ⟨congrArg (Machine.withLengths w) h.reader, h.destCap, h.dest, h.destLen, h.out⟩

theorem writeLength_refused {i v : Nat} (h : ¬ i < 320) : writeLength i v s = .refused .scratchIndex := if_neg h

theorem alike_writeLength {n : Nat} (i v : Nat) (h : SameWith (LengthsAlike n) s t) :
    Res.Alike (SameWith (LengthsAlike n)) (writeLength i v s) (writeLength i v t) := by
  by_cases hi : i < 320
  · rw [writeLength_eq hi, writeLength_eq hi]
    exact .ok () ⟨h.1.withLengths _ _, h.2.write v (fun _ => .inl) hi⟩
  · rw [writeLength_refused hi, writeLength_refused hi]
    exact .refused _

/-- R193: the nineteen entries of the code-length code are cleared. -/
theorem alike_zeroLengths (h : SameRun s t) :
    Res.Alike (SameWith (LengthsAlike 19)) (zeroLengths 19 0 s) (zeroLengths 19 0 t) := by
  obtain ⟨v, hv, hventry⟩ := zeroLengths_spec (n := 19) (i := 0) (s := s) (by decide)
  obtain ⟨w, hw, hwentry⟩ := zeroLengths_spec (n := 19) (i := 0) (s := t) (by decide)
  rw [hv, hw]
  refine .ok () ⟨h.withLengths v w, fun i hi => ?_⟩
  rw [withLengths_lengths, withLengths_lengths, hventry, hwentry, if_pos (by omega), if_pos (by omega)]

theorem alike_readClens {n : Nat} : ∀ (syms : List Nat) {s t : State}, SameWith (LengthsAlike n) s t →
    Res.Alike (SameWith (LengthsAlike n)) (readClens syms s) (readClens syms t)
  | [], _, _, h => .ok () h
  | sym :: syms, _, _, h =>
    (alike_readerOnly (readerOnly_operand 0 3) (fun _ _ _ h => h) h).bind fun v _ _ _ h =>
      (alike_writeLength sym v h).bind fun _ _ _ _ h => alike_readClens syms h

/-! ## BUILD_TREE -/

theorem SameRun.setTree (h : SameRun s t) (id : TreeId) (a b : Tree) : SameRun (setTree id a s) (setTree id b t) := by
  cases id with
  | ltree => exact ⟨congrArg (fun o => { o with ltree := b }) h.reader, h.destCap, h.dest, h.destLen, h.out⟩
  | dtree => exact ⟨congrArg (fun o => { o with dtree := b }) h.reader, h.destCap, h.dest, h.destLen, h.out⟩

/-- The states differ from `s` and `t` in the tree register, and the trees there decode alike. -/
def BuiltAlike (id : TreeId) (s t u w : State) : Prop :=
  ∃ a b, TreeAlike a b ∧ u = setTree id a s ∧ w = setTree id b t

theorem slice_alike {off num : Nat} (hin : off + num ≤ 320)
    (hl : ∀ i, off ≤ i → i < off + num → entry t.lengths i = entry s.lengths i) : slice t off num = slice s off num := by
  rw [slice_eq_map hin, slice_eq_map hin]
  refine List.map_congr_left fun i hi => ?_
  obtain ⟨hlo, hhi⟩ := List.mem_range'_1.1 hi
  exact hl i hlo hhi

theorem buildContract_alike {off num : Nat}
    (hl : ∀ i, off ≤ i → i < off + num → entry t.lengths i = entry s.lengths i) :
    buildContract t.lengths off num = buildContract s.lengths off num := by
  refine Bool.eq_iff_iff.2 ?_
  rw [buildContract_iff, buildContract_iff]
  refine and_congr_right fun _ => and_congr_right fun hin => ?_
  have hslice := slice_alike hin hl
  rw [slice, slice] at hslice
  rw [hslice]

/-- A build depends on its slice of the scratch array only, but for what has no code. -/
theorem alike_buildTree (id : TreeId) {off num : Nat}
    (hl : ∀ i, off ≤ i → i < off + num → entry t.lengths i = entry s.lengths i) :
    Res.Alike (BuiltAlike id s t) (buildTree id off num s) (buildTree id off num t) := by
  have hcontract := buildContract_alike hl
  obtain ⟨hc, hx⟩ | ⟨hc, c, hcheck, hx⟩ | ⟨hc, hcheck, hx⟩ := buildTree_cases id off num s
  · obtain ⟨-, hy⟩ | ⟨hc', -⟩ | ⟨hc', -⟩ := buildTree_cases id off num t
    · rw [hx, hy]
      exact .refused _
    · exact absurd (hc'.symm.trans (hcontract.trans hc)) (by decide)
    · exact absurd (hc'.symm.trans (hcontract.trans hc)) (by decide)
  · have hslice := slice_alike (buildContract_iff.1 hc).2.1 hl
    rw [hx, buildTree_raised id (hcontract.trans hc) (hslice ▸ hcheck)]
    exact .raised c _ _
  · obtain ⟨hnum, hin, -⟩ := buildContract_iff.1 hc
    have hslice := slice_alike hin hl
    have hle := slice_le hc
    have hsize : (slice s off num).length ≤ 288 := (length_slice hin).trans_le hnum
    rw [hx, buildTree_ok id (hcontract.trans hc) (hslice ▸ hcheck), hslice]
    exact .ok () ⟨_, _, treeAlike_finishedTree hle hsize hcheck _ _, rfl, rfl⟩

/-! ## The dynamic header -/

/-- Inside a dynamic header: the code-length trees decode alike, the counts are the same, and so are the entries read. -/
structure HeaderAlike (s t : State) : Prop where
  tree : TreeAlike s.ltree t.ltree
  hlit : t.hlit = s.hlit
  hdist : t.hdist = s.hdist
  num : t.num = s.num
  hlitLe : 257 ≤ s.hlit
  lengths : LengthsAlike s.num s t

theorem readerFree_headerAlike : ReaderFree HeaderAlike := fun _ _ _ h => ⟨h.tree, h.hlit, h.hdist, h.num, h.hlitLe, h.lengths⟩

theorem SameRun.withCounts (h : SameRun s t) (hlit hdist num : Nat) :
    SameRun { s with hlit := hlit, hdist := hdist, num := num } { t with hlit := hlit, hdist := hdist, num := num } :=
  ⟨congrArg (fun o => { o with hlit := hlit, hdist := hdist, num := num }) h.reader, h.destCap, h.dest, h.destLen, h.out⟩

theorem alike_checkCounts (hlit hdist : Nat) (h : SameRun s t) :
    Res.Alike SameRun (checkCounts hlit hdist s) (checkCounts hlit hdist t) :=
  .ite Iff.rfl (fun _ => .raised _ _ _) fun _ => .ite Iff.rfl (fun _ => .raised _ _ _) fun _ => .ok () h

/-- R191 to R194. -/
theorem alike_beginHeader (h : SameRun s t) : Res.Alike (SameWith HeaderAlike) (beginHeader s) (beginHeader t) := by
  refine (alike_reader (readerOnly_operand 257 5) h).bind fun hlit s t hread h => ?_
  obtain ⟨x, -, hx⟩ := operand_cases hread
  refine (alike_reader (readerOnly_operand 1 5) h).bind fun hdist s t _ h => ?_
  refine (alike_reader (readerOnly_operand 4 4) h).bind fun hclen s t _ h => ?_
  refine (alike_checkCounts hlit hdist h).bind fun _ s t _ h => ?_
  refine (alike_zeroLengths h).bind fun _ s t _ h => ?_
  refine (alike_readClens (clOrder.take hclen) h).bind fun _ s t _ h => ?_
  obtain ⟨hrun, hlengths⟩ := h
  refine (alike_buildTree .ltree fun i _ hi => hlengths i (by omega)).bind fun _ u w _ h => ?_
  obtain ⟨a, b, htree, rfl, rfl⟩ := h
  refine .ite (by rw [setTree_ltree, setTree_ltree, htree.maxSym]) (fun _ => .raised _ _ _) fun _ => ?_
  exact .ok () ⟨(hrun.setTree .ltree a b).withCounts hlit hdist 0, htree, rfl, rfl, rfl, hx ▸ Nat.le_add_right 257 x,
    fun i hi => absurd hi (Nat.not_lt_zero i)⟩

/-- The state behind an entry of the header. -/
def withEntry (v : Nat) (s : State) : State :=
  { s with lengths := s.lengths.setIfInBounds s.num v, num := s.num + 1 }

theorem sameWith_withEntry (v : Nat) (hnum : s.num < 320) (h : SameWith HeaderAlike s t) :
    SameWith HeaderAlike (withEntry v s) (withEntry v t) := by
  obtain ⟨hrun, htree, hlit, hdist, heq, h257, hlengths⟩ := h
  refine ⟨⟨congrArg (fun o => { o with lengths := t.lengths.setIfInBounds t.num v, num := t.num + 1 }) hrun.reader,
    hrun.destCap, hrun.dest, hrun.destLen, hrun.out⟩, htree, hlit, hdist, congrArg (· + 1) heq, h257, ?_⟩
  simp only [withEntry, heq]
  exact hlengths.write (m := s.num + 1) (i := s.num) v (fun j hj => by omega) hnum

theorem fillLengths_succ (rep val : Nat) (hnum : s.num < 320) :
    fillLengths (rep + 1) val s = fillLengths rep val (withEntry val s) := by
  rw [fillLengths, writeLength_ok hnum, Res.bind_ok]
  rfl

theorem fillLengths_refused (rep val : Nat) (hnum : ¬ s.num < 320) :
    fillLengths (rep + 1) val s = .refused .scratchIndex := by
  rw [fillLengths, writeLength_refused hnum]
  rfl

theorem alike_fillLengths (val : Nat) : ∀ (rep : Nat) {s t : State}, SameWith HeaderAlike s t →
    Res.Alike (SameWith HeaderAlike) (fillLengths rep val s) (fillLengths rep val t)
  | 0, _, _, h => .ok () h
  | rep + 1, s, t, h => by
    have heq := h.2.num
    by_cases hnum : s.num < 320
    · rw [fillLengths_succ rep val hnum, fillLengths_succ rep val (heq ▸ hnum)]
      exact alike_fillLengths val rep (sameWith_withEntry val hnum h)
    · rw [fillLengths_refused rep val hnum, fillLengths_refused rep val (heq ▸ hnum)]
      exact .refused _

theorem alike_storeRun (val rep : Nat) (h : SameWith HeaderAlike s t) :
    Res.Alike (SameWith HeaderAlike) (storeRun val rep s) (storeRun val rep t) :=
  .ite (by rw [h.2.hlit, h.2.hdist, h.2.num]) (fun _ => .raised _ _ _) fun _ => alike_fillLengths val rep h

theorem alike_previousLength (h : SameWith HeaderAlike s t) :
    Res.Alike (SameWith HeaderAlike) (previousLength s) (previousLength t) := by
  refine .ite (by rw [h.2.num]) (fun _ => .raised _ _ _) fun hnum => .ite (by rw [h.2.num]) (fun _ => ?_)
    fun _ => .refused _
  rw [h.2.num, h.2.lengths (s.num - 1) (by omega)]
  exact .ok _ h

/-- R195 to R199. -/
theorem alike_clItem (sym : Nat) (h : SameWith HeaderAlike s t) :
    Res.Alike (SameWith HeaderAlike) (clItem sym s) (clItem sym t) := by
  have hread : ∀ base n {s t : State}, SameWith HeaderAlike s t →
      Res.Alike (SameWith HeaderAlike) (operand base n s) (operand base n t) := fun base n _ _ h =>
    alike_readerOnly (readerOnly_operand base n) readerFree_headerAlike h
  refine Res.Alike.bind (R := SameWith HeaderAlike) (.ite (by rw [h.2.tree.maxSym]) (fun _ => .raised _ _ _) fun _ => .ok () h)
    fun _ s t _ h => ?_
  refine .ite Iff.rfl (fun _ => ?_) fun _ => .ite Iff.rfl (fun _ => ?_) fun _ => .ite Iff.rfl (fun _ => ?_) fun _ => ?_
  · exact (alike_previousLength h).bind fun val _ _ _ h => (hread 3 2 h).bind fun rep _ _ _ h => alike_storeRun val rep h
  · exact (hread 3 3 h).bind fun rep _ _ _ h => alike_storeRun 0 rep h
  · exact (hread 11 7 h).bind fun rep _ _ _ h => alike_storeRun 0 rep h
  · exact alike_storeRun sym 1 h

/-- R190. -/
theorem alike_clLoop : ∀ (k : Nat) {s t : State}, SameWith HeaderAlike s t →
    Res.Alike (SameWith HeaderAlike) (clLoop k s) (clLoop k t)
  | 0, _, _, h => .ite (by rw [h.2.hlit, h.2.hdist, h.2.num]) (fun _ => .refused _) fun _ => .ok () h
  | k + 1, _, _, h => .ite (by rw [h.2.hlit, h.2.hdist, h.2.num])
      (fun _ => (alike_decodeSymbol (id := .ltree) readerFree_headerAlike h h.2.tree).bind fun sym _ _ _ h =>
        (alike_clItem sym h).bind fun _ _ _ _ h => alike_clLoop k h)
      fun _ => .ok () h

/-- R201, R202: both trees are built of entries that the header has written. -/
theorem alike_endHeader (h : SameWith HeaderAlike s t) (hdone : ¬ s.num < s.hlit + s.hdist) :
    Res.Alike (SameWith BodyAlike) (endHeader s) (endHeader t) := by
  obtain ⟨hrun, -, hlit, hdist, -, h257, hlengths⟩ := h
  refine .ite (by rw [hlengths 256 (by omega)]) (fun _ => .raised _ _ _) fun _ => ?_
  rw [hlit]
  refine (alike_buildTree .ltree fun i _ hi => hlengths i (by omega)).bind fun _ u w _ huw => ?_
  obtain ⟨a, b, hl, rfl, rfl⟩ := huw
  have hdtree := alike_buildTree (s := setTree .ltree a s) (t := setTree .ltree b t) .dtree (off := s.hlit)
    (num := s.hdist) fun i _ hi => hlengths i (by omega)
  simp only [setTree_hlit, setTree_hdist, hlit, hdist]
  refine hdtree.mono fun u w huw => ?_
  obtain ⟨c, d, hd, rfl, rfl⟩ := huw
  exact ⟨(hrun.setTree .ltree a b).setTree .dtree c d, hl, hd⟩

theorem alike_decodeTrees (h : SameRun s t) : Res.Alike (SameWith BodyAlike) (decodeTrees s) (decodeTrees t) := by
  refine (alike_beginHeader h).bind fun _ u w _ huw => ?_
  rw [huw.2.hlit, huw.2.hdist]
  exact (alike_clLoop (u.hlit + u.hdist) huw).bind fun _ v z hv hvz => alike_endHeader hvz (clLoop_done hv)

/-! ## Blocks -/

theorem alike_inflateBlock (type : Nat) (h : SameRun s t) :
    Res.Alike SameRun (inflateBlock type s) (inflateBlock type t) := by
  match type with
  | 0 => exact alike_inflateUncompressed h
  | 1 => exact alike_inflateBlockData h.fixed
  | 2 => exact (alike_decodeTrees h).bind fun _ _ _ _ h => alike_inflateBlockData h
  | _ + 3 => exact .raised _ _ _

/-- BFINAL is the same. -/
def FinalAlike (s t : State) : Prop := t.bfinal = s.bfinal

theorem bfinal_of_inner {α : Type} {x : State → Res α} (hx : Inner x) (s : State) :
    (x s).Reaches fun t => t.bfinal = s.bfinal :=
  (outer_of_inner hx s).mono fun _ h => (congrArg State.bfinal h).symm

theorem SameRun.withFinal (h : SameRun s t) (b : Bool) : SameWith FinalAlike (withFinal b s) (withFinal b t) :=
  ⟨⟨congrArg (Machine.withFinal b) h.reader, h.destCap, h.dest, h.destLen, h.out⟩, rfl⟩

/-- R271. -/
theorem alike_blockLoop : ∀ (k : Nat) {s t : State}, SameRun s t → Res.Alike SameRun (blockLoop k s) (blockLoop k t)
  | 0, _, _, _ => .refused _
  | k + 1, s, t, h => by
    refine (alike_reader (readerOnly_getBits 1) h).bind fun f s t _ h => ?_
    refine (alike_readerOnly (readerOnly_getBits 2) (fun _ _ _ h => h) (h.withFinal (f == 1))).bind fun type s t _ h => ?_
    have hinner := inner_inflateBlock type
    have hblock : Res.Alike (SameWith FinalAlike) (inflateBlock type s) (inflateBlock type t) :=
      (alike_inflateBlock type h.1).reaches (bfinal_of_inner hinner s) (bfinal_of_inner hinner t) fun u w hrun hu hw =>
        ⟨hrun, hw.trans (h.2.trans hu.symm)⟩
    exact hblock.bind fun _ s t _ h => .ite (by rw [h.2]) (fun _ => .ok () h.1) fun _ => alike_blockLoop k h.1

/-! ## A run -/

/-- START gives states that agree on the run so far: nothing has been read or written. -/
theorem sameRun_startRun {s₁ s₂ : State} {bytes : List Byte} {len cap : Nat}
    (h : startRun bytes len cap s₁ = .ok () s) (h' : startRun bytes len cap s₂ = .ok () t) : SameRun s t := by
  obtain ⟨-, -, rfl⟩ := startRun_cases h
  obtain ⟨-, -, rfl⟩ := startRun_cases h'
  exact ⟨rfl, rfl, rfl, rfl, fun a ha => absurd ha (Nat.not_lt_zero a)⟩

/-- What the host reads behind two runs is the same. -/
def SameResult (u w : State) : Prop :=
  u.status = w.status ∧ u.destLenOut = w.destLenOut ∧ ∀ a, a < u.destLenOut → memRead u.out a = memRead w.out a

theorem sameResult_takeException (c : Cause) (s t : State) : SameResult (takeException c s) (takeException c t) :=
  ⟨rfl, rfl, fun a ha => absurd ha (Nat.not_lt_zero a)⟩

theorem sameResult_endRun {u w : State} (h : SameRun s t) (hlen : s.destLen = s.dest) (hu : (endRun s).finish = .next u)
    (hw : (endRun t).finish = .next w) : SameResult u w := by
  have hover : t.overflow = s.overflow := h.readerFields.2.2.2.2.2
  cases ho : s.overflow with
  | false =>
    rw [endRun_ok ho] at hu
    rw [endRun_ok (hover.trans ho)] at hw
    cases hu
    cases hw
    refine ⟨rfl, h.destLen.symm, fun a ha => (h.out a ?_).symm⟩
    rw [← hlen]
    exact ha
  | true =>
    rw [endRun_overflow ho] at hu
    rw [endRun_overflow (hover.trans ho)] at hw
    cases hu
    cases hw
    exact sameResult_takeException _ s t

theorem afterStart_sameResult {u w : State} (h : SameRun s t) (hsound : Sound s) (hu : (afterStart s).finish = .next u)
    (hw : (afterStart t).finish = .next w) : SameResult u w := by
  have hloop := alike_blockLoop (bitsLeft s + 2) h
  have hmove := moving_blockLoop (bitsLeft s + 2) s
  rw [afterStart] at hu hw
  rw [h.bitsLeft] at hw
  generalize blockLoop (bitsLeft s + 2) s = x, blockLoop (bitsLeft s + 2) t = y at hloop hmove hu hw
  cases hloop with
  | ok a hrun => exact sameResult_endRun hrun (hsound.moves hmove).destLenEq hu hw
  | raised c p q =>
    cases hu
    cases hw
    exact sameResult_takeException c p q
  | fault e => cases hu
  | refused r => cases hu

end

end Sys2Proof.Machine

namespace Sys2Proof
open Machine

/-- Settles O49: behind START the two states agree on the run so far, and every block keeps that. -/
theorem uncompressIsDeterministic : Obligations.UncompressIsDeterministic := by
  intro s₁ s₂ t₁ t₂ bytes cap hp₁ hp₂ h₁ h₂
  obtain ⟨u₁, hu₁⟩ := startRun_answers bytes cap hp₁
  obtain ⟨u₂, hu₂⟩ := startRun_answers bytes cap hp₂
  rw [exec_uncompress_of_start hu₁] at h₁
  rw [exec_uncompress_of_start hu₂] at h₂
  exact afterStart_sameResult (sameRun_startRun hu₁ hu₂) (sound_startRun hu₁) h₁ h₂

end Sys2Proof
end
